-- ==== Sys2Proof/Word.lean ====
section
/-! DEFINITION. The word types of the block (00_scope.md R17, R18): bytes, 16-bit samples and offsets, 32-bit
registers and external addresses, and the 64-bit command word of 30_encoding.md R73. -/

namespace Sys2Proof

/-- A byte of scratch, book or external memory. -/
abbrev Byte := BitVec 8

/-- A 16-bit field, scratch offset, byte count or sample pattern. -/
abbrev Half := BitVec 16

/-- A 32-bit register or external byte address; arithmetic on it is mod 2^32 (20_memory.md R62). -/
abbrev Word := BitVec 32

/-- A 64-bit command word `W = w0 ++ w1` (30_encoding.md R73). -/
abbrev Command := BitVec 64

end Sys2Proof
end

