-- ==== Sys2Proof/Config.lean ====
section
/-! DEFINITION. The implementation parameters of 00_scope.md R8 to R16 as plain data, and the free values (the
spec's draws). The parameters are carried by the machine's state and never change (70_reset_and_hazards.md R209), so
every claim over all states is a claim over all parameter values (DESIGN CHOICE, safe: log entry 1). -/

namespace Sys2Proof

/-- ENDIAN (00_scope.md R9): the byte order of every multi-byte value. -/
inductive Endian where
  | little
  | big
deriving DecidableEq, Repr

/-- SCRATCH_RESET (00_scope.md R8, 70_reset_and_hazards.md R207). -/
inductive ScratchReset where
  | zero
  | unspecified
deriving DecidableEq, Repr

/-- RESAMPLE_ROUND (00_scope.md R12). -/
inductive ResampleRound where
  | sum
  | perTap
deriving DecidableEq, Repr

/-- MIX_FORM (00_scope.md R13). -/
inductive MixForm where
  | doc
  | ref
deriving DecidableEq, Repr

/-- The `kind` argument of EXT_ADMIT (00_scope.md R16). -/
inductive Access where
  | read
  | write
deriving DecidableEq, Repr

/-- One clause of EXT_ADMIT: accesses of `size` bytes and this `kind` at any address from `first` to `last` are
refused. A list of clauses stands for the predicate of 00_scope.md R16 (any predicate of the three arguments is such
a list, as there are finitely many arguments; DESIGN CHOICE, safe: log entry 2). -/
structure Refused where
  first : Nat
  last : Nat
  size : Nat
  kind : Access
deriving DecidableEq, Repr

/-- One row of RESAMPLE_ROM: four signed 16-bit coefficients (00_scope.md R11, 42_resample.md R130). -/
structure RomRow where
  c0 : Half
  c1 : Half
  c2 : Half
  c3 : Half
deriving DecidableEq, Repr

/-- The parameters of 00_scope.md R8 to R16. -/
structure Params where
  scratchBytes : Nat
  scratchReset : ScratchReset
  endian : Endian
  histBytes : Nat
  rom : List RomRow
  round : ResampleRound
  mixForm : MixForm
  numReverb : Nat
  maxChunks : Nat
  refused : List Refused
deriving DecidableEq, Repr

/-- The draw a host read of an unwritten register returns (10_state.md R25, 93 U26): unconstrained, one value for
each number of the draw (log entry 10). -/
opaque Config.freeRead : Nat → BitVec 32

/-- The draw that scratch byte `k` takes at reset number `n` under SCRATCH_RESET = unspecified
(70_reset_and_hazards.md R207): unconstrained (log entry 11). -/
opaque Config.freeScratch : Nat → Nat → BitVec 8

/-- The draw that decides which of the values a racing access of external memory may return it does return
(20_memory.md R69, 92 D50): unconstrained, one number for each number of the draw (log entry 8). -/
opaque Config.freePick : Nat → Nat

end Sys2Proof
end

