-- ==== Sys2Proof/Machine/Arith.lean ====
section
/-! DEFINITION. The arithmetic notation of 00_scope.md R18: every expression is on mathematical integers, narrowed
only by `trunc16`, `sat16` or `sat32`. -/

namespace Sys2Proof.Machine

/-- `asr(v, n) = floor(v / 2^n)` (R18). -/
def asr (v : Int) (n : Nat) : Int := v / (2 ^ n : Int)

/-- `sat16(v) = min(max(v, -32768), 32767)` (R18). -/
def sat16 (v : Int) : Int := min (max v (-32768)) 32767

/-- `sat32(v) = min(max(v, -2^31), 2^31 - 1)` (R18). -/
def sat32 (v : Int) : Int := min (max v (-2147483648)) 2147483647

/-- `sext_4` of the low four bits (R18). -/
def sext4 (v : Nat) : Int := (BitVec.ofNat 4 v).toInt

/-- `sext_16` of the low sixteen bits (R18). -/
def sext16 (v : Nat) : Int := (BitVec.ofNat 16 v).toInt

/-- `sext_32` of the low thirty-two bits (R18). -/
def sext32 (v : Nat) : Int := (BitVec.ofNat 32 v).toInt

/-- `trunc16(v) = sext_16(v mod 2^16)` (R18). -/
def trunc16 (v : Int) : Int := (BitVec.ofInt 16 v).toInt

/-- `v mod 2^16` as an unsigned number (R18). -/
def mod16 (v : Int) : Nat := (v % 65536).toNat

/-- `v mod 2^32` as an unsigned number (R18). -/
def mod32 (v : Int) : Nat := (v % 4294967296).toNat

/-- `tdiv(a, b)`, integer division rounded toward zero (R18). -/
def tdiv (a b : Int) : Int := a.tdiv b

/-- `ru(n, g)`, the smallest multiple of `g` that is at least `n` (R18). -/
def ru (n g : Nat) : Nat := (n + (g - 1)) / g * g

/-- The number of 8-sample groups of RESAMPLE and ENVMIXER, `max(1, ru(COUNT, 16)/16)`: at least one
(20_memory.md R53, 42_resample.md R123, 43_envmix.md R138). -/
def groups (count : Nat) : Nat := max 1 (ru count 16 / 16)

end Sys2Proof.Machine
end

