-- ==== Sys2Proof/Machine/Bytes.lean ====
section
/-! DEFINITION. Byte order (20_memory.md R49, R63): the bytes of an n-byte unsigned value and the value of n bytes,
for either ENDIAN. -/

namespace Sys2Proof.Machine

/-- The `n` bytes of `v`, least significant first. -/
def bytesLE : Nat → Nat → List Byte
  | 0, _ => []
  | n + 1, v => BitVec.ofNat 8 v :: bytesLE n (v / 256)

/-- The value of bytes given least significant first. -/
def valueLE : List Byte → Nat
  | [] => 0
  | b :: bs => b.toNat + 256 * valueLE bs

/-- Byte i of `v` in ENDIAN order, for i in 0..n-1, in ascending address order (20_memory.md R63). -/
def toBytes (e : Endian) (n v : Nat) : List Byte :=
  match e with
  | .little => bytesLE n v
  | .big => (bytesLE n v).reverse

/-- The unsigned integer that bytes in ascending address order form in ENDIAN order (20_memory.md R63). -/
def ofBytes (e : Endian) (bs : List Byte) : Nat :=
  match e with
  | .little => valueLE bs
  | .big => valueLE bs.reverse

end Sys2Proof.Machine
end

