-- ==== Sys2Proof/Machine/Params.lean ====
section
/-! DEFINITION. The default parameters of 00_scope.md R8 to R16 and the default coefficient ROM of 42_resample.md
R130. -/

namespace Sys2Proof.Machine

/-- Rows 0 to 7 of the default RESAMPLE_ROM (42_resample.md R130). -/
def romRows0 : List RomRow :=
  [ ⟨0x0c39#16, 0x66ad#16, 0x0d46#16, 0xffdf#16⟩
  , ⟨0x0b39#16, 0x6696#16, 0x0e5f#16, 0xffd8#16⟩
  , ⟨0x0a44#16, 0x6669#16, 0x0f83#16, 0xffd0#16⟩
  , ⟨0x095a#16, 0x6626#16, 0x10b4#16, 0xffc8#16⟩
  , ⟨0x087d#16, 0x65cd#16, 0x11f0#16, 0xffbf#16⟩
  , ⟨0x07ab#16, 0x655e#16, 0x1338#16, 0xffb6#16⟩
  , ⟨0x06e4#16, 0x64d9#16, 0x148c#16, 0xffac#16⟩
  , ⟨0x0628#16, 0x643f#16, 0x15eb#16, 0xffa1#16⟩ ]

/-- Rows 8 to 15 of the default RESAMPLE_ROM (42_resample.md R130). -/
def romRows8 : List RomRow :=
  [ ⟨0x0577#16, 0x638f#16, 0x1756#16, 0xff96#16⟩
  , ⟨0x04d1#16, 0x62cb#16, 0x18cb#16, 0xff8a#16⟩
  , ⟨0x0435#16, 0x61f3#16, 0x1a4c#16, 0xff7e#16⟩
  , ⟨0x03a4#16, 0x6106#16, 0x1bd7#16, 0xff71#16⟩
  , ⟨0x031c#16, 0x6007#16, 0x1d6c#16, 0xff64#16⟩
  , ⟨0x029f#16, 0x5ef5#16, 0x1f0b#16, 0xff56#16⟩
  , ⟨0x022a#16, 0x5dd0#16, 0x20b3#16, 0xff48#16⟩
  , ⟨0x01be#16, 0x5c9a#16, 0x2264#16, 0xff3a#16⟩ ]

/-- Rows 16 to 23 of the default RESAMPLE_ROM (42_resample.md R130). -/
def romRows16 : List RomRow :=
  [ ⟨0x015b#16, 0x5b53#16, 0x241e#16, 0xff2c#16⟩
  , ⟨0x0101#16, 0x59fc#16, 0x25e0#16, 0xff1e#16⟩
  , ⟨0x00ae#16, 0x5896#16, 0x27a9#16, 0xff10#16⟩
  , ⟨0x0063#16, 0x5720#16, 0x297a#16, 0xff02#16⟩
  , ⟨0x001f#16, 0x559d#16, 0x2b50#16, 0xfef4#16⟩
  , ⟨0xffe2#16, 0x540d#16, 0x2d2c#16, 0xfee8#16⟩
  , ⟨0xffac#16, 0x5270#16, 0x2f0d#16, 0xfedb#16⟩
  , ⟨0xff7c#16, 0x50c7#16, 0x30f3#16, 0xfed0#16⟩ ]

/-- Rows 24 to 31 of the default RESAMPLE_ROM (42_resample.md R130). -/
def romRows24 : List RomRow :=
  [ ⟨0xff53#16, 0x4f14#16, 0x32dc#16, 0xfec6#16⟩
  , ⟨0xff2e#16, 0x4d57#16, 0x34c8#16, 0xfebd#16⟩
  , ⟨0xff0f#16, 0x4b91#16, 0x36b6#16, 0xfeb6#16⟩
  , ⟨0xfef5#16, 0x49c2#16, 0x38a5#16, 0xfeb0#16⟩
  , ⟨0xfedf#16, 0x47ed#16, 0x3a95#16, 0xfeac#16⟩
  , ⟨0xfece#16, 0x4611#16, 0x3c85#16, 0xfeab#16⟩
  , ⟨0xfec0#16, 0x4430#16, 0x3e74#16, 0xfeac#16⟩
  , ⟨0xfeb6#16, 0x424a#16, 0x4060#16, 0xfeaf#16⟩ ]

/-- Rows 0 to 31 of the default RESAMPLE_ROM. -/
def romLowerHalf : List RomRow := romRows0 ++ romRows8 ++ romRows16 ++ romRows24

/-- A row with its four coefficients reversed. -/
def mirrorRow (r : RomRow) : RomRow := ⟨r.c3, r.c2, r.c1, r.c0⟩

/-- The default RESAMPLE_ROM: rows 32 to 63 are rows 31 down to 0 with their coefficients reversed,
`ROM[63-k][j] = ROM[k][3-j]` (42_resample.md R130). -/
def defaultRom : List RomRow := romLowerHalf ++ romLowerHalf.reverse.map mirrorRow

/-- The default parameters, each the value its rule of 00_scope.md gives (R8 to R16). -/
def defaultParams : Params where
  scratchBytes := 2512
  scratchReset := .zero
  endian := .little
  histBytes := 16
  rom := defaultRom
  round := .sum
  mixForm := .doc
  numReverb := 1
  maxChunks := 4
  refused := []

/-- EXT_ADMIT(addr, n, kind) (00_scope.md R16): no clause of the parameter refuses the access. -/
def extAdmits (p : Params) (addr : Word) (n : Nat) (kind : Access) : Bool :=
  !p.refused.any fun c =>
    decide (c.first ≤ addr.toNat) && decide (addr.toNat ≤ c.last) && c.size == n && c.kind == kind

end Sys2Proof.Machine
end

