-- ==== Sys2Proof/Machine/State.lean ====
section
/-! DEFINITION. The machine's state as plain data (10_state.md R20 to R44), the state right after reset (R44), and the
reasons a step can stop. -/

namespace Sys2Proof.Machine

/-- A byte memory: (address, byte) pairs with strictly rising addresses, no entry 0; an unlisted address reads 0.
For the scratch 0 is the spec's reset value (10_state.md R28); for external memory it is the model's
(DESIGN CHOICE, unsafe: log entry 3). -/
abbrev Memory := List Host.Cell

/-- The book (10_state.md R27): (offset, byte) pairs with strictly rising offsets; a byte is listed exactly when it
is written. -/
abbrev Book := List Host.Cell

/-- STATUS (10_state.md R22). Bits 31:3 are hardwired 0 and have no storage. -/
structure Status where
  busy : Bool
  done : Bool
  fault : Bool
deriving DecidableEq, Repr

/-- The mixer context registers (10_state.md R24). `none` is the spec's own state *unwritten* (R25; DEDUCED, safe:
log entry 4). -/
structure Context where
  inp : Option Half
  out : Option Half
  count : Option Half
  dryRight : Option Half
  wetLeft : Option Half
  wetRight : Option Half
  volL : Option Half
  volR : Option Half
  targetL : Option Half
  targetR : Option Half
  rateL : Option Word
  rateR : Option Word
  volDry : Option Half
  volWet : Option Half
  loopAddr : Option Word
deriving DecidableEq, Repr

/-- The fields of an item record whose VALID is 1 (10_state.md R41). -/
structure Item where
  start : Half
  lenA : Half
  lenB : Half
  nsad : Half
  chunkLen : Half
deriving DecidableEq, Repr

/-- The registers of one reverb instance (10_state.md R32 to R39) and its items (R41), item [p][u] at index
p * MAX_CHUNKS + u. An absent item has VALID 0 and its other fields unwritten (DEDUCED, safe: log entry 5). -/
structure Reverb where
  ctrl : BitVec 1
  cap : Half
  wptr : Half
  dsr : BitVec 8
  parity : BitVec 1
  ignore : BitVec 8
  lbase : Word
  rbase : Word
  tdlbase : Word
  tdrbase : Word
  tdstride : Word
  items : List (Option Item)
deriving DecidableEq, Repr

/-- One move of the host (60_exceptions.md R202). `idle` lets the block perform its next step (R222). -/
inductive HostOp where
  | idle
  | readCsr (n : Nat)
  | writeCsr (n : Nat) (v : Word)
  | readExt (addr : Word)
  | writeExt (addr : Word) (b : Byte)
  | reset
deriving DecidableEq, Repr

/-- The machine: the block's architectural state (10_state.md R20), its parameters (00_scope.md R8 to R16), external
memory (20_memory.md R62), and five fields of the model's own (`host`, `readData`, `draws`, `raced`, `past`: log entries
6, 8, 10, 17). -/
structure State where
  /-- the parameters, never changed -/
  cfg : Params
  /-- STATUS (R22) -/
  status : Status
  /-- FAULT_CAUSE (R23) -/
  faultCause : BitVec 8
  /-- FAULT_CP (R23) -/
  faultCp : Word
  /-- FAULT_INFO (R23) -/
  faultInfo : Word
  /-- CMD_BASE (R23) -/
  cmdBase : Word
  /-- CMD_COUNT (R23) -/
  cmdCount : Word
  /-- CP (R21) -/
  cp : Word
  /-- the context registers (R24) -/
  ctx : Context
  /-- the book (R27) -/
  book : Book
  /-- the scratch (R28) -/
  scratch : Memory
  /-- the reverb instances, NUM_REVERB of them (R32 to R41) -/
  reverb : List Reverb
  /-- external memory (R62), the host's -/
  ext : Memory
  /-- the host's moves still to come -/
  host : List HostOp
  /-- what the last host read returned -/
  readData : Word
  /-- the number of the next draw -/
  draws : Nat
  /-- the bytes the host has written since the run's GO: for each such write its address with the value it replaced,
  and its address with the value it wrote (R69) -/
  raced : List Host.Cell
  /-- external memory at the run's earlier command boundaries, the latest first, with the host's writes since (R69) -/
  past : List Memory
deriving DecidableEq, Repr

/-- Why the model stops with a fault: never. A fault of the BLOCK (60_exceptions.md R186) is no such stop: it is a
next state, the halted block (R187). -/
inductive Fault where
deriving DecidableEq, Repr

/-- Why the model refuses a step. -/
inductive Refusal where
  /-- Raised by no arm of this model: every command has its meaning. Safe. -/
  | notModelled (mnemonic : String)
  /-- Raised by a host reset move while BUSY = 1, which the spec does not define (70_reset_and_hazards.md R206,
  93 U39: "refuse"). Safe. -/
  | resetWhileBusy
deriving DecidableEq, Repr

/-- Every context register unwritten (10_state.md R25, R44). -/
def Context.unwritten : Context :=
  { inp := none, out := none, count := none, dryRight := none, wetLeft := none, wetRight := none,
    volL := none, volR := none, targetL := none, targetR := none, rateL := none, rateR := none,
    volDry := none, volWet := none, loopAddr := none }

/-- A reverb instance at reset (10_state.md R44): RB_DSR 1, every other register 0, every item invalid. -/
def Reverb.atReset (maxChunks : Nat) : Reverb :=
  { ctrl := 0, cap := 0, wptr := 0, dsr := 1, parity := 0, ignore := 0, lbase := 0, rbase := 0,
    tdlbase := 0, tdrbase := 0, tdstride := 0, items := List.replicate (2 * maxChunks) none }

/-- The machine right after reset, with the default parameters (10_state.md R44, 70_reset_and_hazards.md R206): idle,
no fault, every context register, book byte and item unwritten, scratch all zero. External memory lists nothing and
the model's own fields are 0 or empty (DESIGN CHOICE: log entries 3, 6, 8, 10, 17). -/
def State.reset : State :=
  { cfg := defaultParams
    status := ⟨false, false, false⟩
    faultCause := 0
    faultCp := 0
    faultInfo := 0
    cmdBase := 0
    cmdCount := 0
    cp := 0
    ctx := Context.unwritten
    book := []
    scratch := []
    reverb := [Reverb.atReset 4]
    ext := []
    host := []
    readData := 0
    draws := 0
    raced := []
    past := [] }

end Sys2Proof.Machine
end

