-- ==== Sys2Proof/Machine/Ops.lean ====
section
/-! DEFINITION. The named operations over memory and registers (00_scope.md R18, 20_memory.md R46 to R67), the fault
and its entry (60_exceptions.md R186 to R189), and the completion of a command (40_context_and_scratch.md R97). -/

namespace Sys2Proof.Machine

/-- The fault causes of 60_exceptions.md R186. -/
inductive Cause where
  | illegalCommand
  | scratchBounds
  | scratchMisaligned
  | uninitRead
  | adpcmPredictor
  | bookOverflow
  | flagConflict
  | ringConfig
  | ringOverrun
  | extFault
  | cmdOverlap
  | cmdAlign
deriving DecidableEq, Repr

/-- FAULT_CAUSE's code of a cause (60_exceptions.md R186). -/
def causeCode : Cause → BitVec 8
  | .illegalCommand => 1
  | .scratchBounds => 2
  | .scratchMisaligned => 3
  | .uninitRead => 4
  | .adpcmPredictor => 5
  | .bookOverflow => 6
  | .flagConflict => 7
  | .ringConfig => 8
  | .ringOverrun => 9
  | .extFault => 10
  | .cmdOverlap => 11
  | .cmdAlign => 12

/-- A raised fault: its cause and the value FAULT_INFO takes. -/
structure Trap where
  cause : Cause
  info : Word
deriving DecidableEq, Repr

/-- What runs inside a command: it ends with a value, or raises a fault; either way the state carries every write
made so far (60_exceptions.md R189). -/
abbrev M := EStateM Trap State

/-- `raise Fault(cause, info)`: the command ends at once and the writes made so far stay (R189). -/
def raise {α : Type} (c : Cause) (info : Word) : M α := fun s => .error ⟨c, info⟩ s

/-- `x` threaded through `f k, f (k+1), ..., f (k+n-1)`, in that order. -/
def foldFrom {σ : Type} (f : Nat → σ → M σ) : Nat → Nat → σ → M σ
  | 0, _, x => pure x
  | n + 1, k, x => do
    let y ← f k x
    foldFrom f n (k + 1) y

/-- `for k in 0..n-1: f k` (R18). -/
def forRange (n : Nat) (f : Nat → M Unit) : M Unit := foldFrom (fun k _ => f k) n 0 ()

/-- The list of `f k, f (k+1), ..., f (k+n-1)`, performed in that order. -/
def collectFrom {α : Type} (f : Nat → M α) : Nat → Nat → M (List α)
  | 0, _ => pure []
  | n + 1, k => do
    let x ← f k
    let xs ← collectFrom f n (k + 1)
    pure (x :: xs)

/-- `x[k] = f k` for k in 0..n-1, performed in that order. -/
def collect {α : Type} (n : Nat) (f : Nat → M α) : M (List α) := collectFrom f n 0

/-! ### Byte memories in canonical form -/

/-- The byte at `a`; an unlisted address reads 0. -/
def Memory.read : Memory → Nat → Byte
  | [], _ => 0
  | (x, b) :: m, a => if x = a then b else Memory.read m a

/-- A cell put before the first cell with a higher address. -/
def insertCell (c : Host.Cell) : List Host.Cell → List Host.Cell
  | [] => [c]
  | d :: m => if c.1 < d.1 then c :: d :: m else d :: insertCell c m

/-- The cells at other addresses than `a`. -/
def removeCell (a : Nat) (m : List Host.Cell) : List Host.Cell := m.filter fun d => d.1 != a

/-- `b` stored at `a`; storing 0, what an unlisted address reads as, removes the entry. -/
def Memory.write (m : Memory) (a : Nat) (b : Byte) : Memory :=
  if b = 0 then removeCell a m else insertCell (a, b) (removeCell a m)

/-- The addresses rise strictly. -/
def cellsRising : List Host.Cell → Bool
  | [] => true
  | [_] => true
  | c :: d :: m => decide (c.1 < d.1) && cellsRising (d :: m)

/-- The canonical form: addresses strictly rising and no entry 0. -/
def Memory.wf (m : Memory) : Bool := cellsRising m && m.all fun d => d.2 != 0

/-- Every address is below `bound`. -/
def cellsBelow (bound : Nat) (m : List Host.Cell) : Bool := m.all fun d => decide (d.1 < bound)

/-- BOOK[k], or none while it is unwritten (10_state.md R27). -/
def Book.read : Book → Nat → Option Byte
  | [], _ => none
  | (x, b) :: m, k => if x = k then some b else Book.read m k

/-- BOOK[k] <- b, and BOOK[k] becomes written (40_context_and_scratch.md R104). -/
def Book.write (m : Book) (k : Nat) (b : Byte) : Book := insertCell (k, b) (removeCell k m)

/-- `bs` stored at ascending offsets from `a`. -/
def storeBytes (m : Memory) (a : Nat) : List Byte → Memory
  | [] => m
  | b :: bs => storeBytes (m.write a b) (a + 1) bs

/-- `bs` stored at ascending external addresses from `a`, mod 2^32 (20_memory.md R63). -/
def storeExt (m : Memory) (a : Word) : List Byte → Memory
  | [] => m
  | b :: bs => storeExt (m.write a.toNat b) (a + 1) bs

/-! ### Scratch -/

/-- The scratch address decoder: the `n` bytes at offset `a` lie in the scratch (20_memory.md R46). -/
def inScratch (s : State) (a : Int) (n : Nat) : Bool := decide (0 ≤ a) && decide (a + n ≤ s.cfg.scratchBytes)

/-- `SRead8(a)` (20_memory.md R47, R55). -/
def sRead8 (a : Int) : M Byte := fun s =>
  if inScratch s a 1 then .ok (s.scratch.read a.toNat) s
  else .error ⟨.scratchBounds, BitVec.ofInt 32 a⟩ s

/-- `SWrite8(a, b)` (20_memory.md R47, R56). -/
def sWrite8 (a : Int) (b : Byte) : M Unit := fun s =>
  if inScratch s a 1 then .ok () { s with scratch := s.scratch.write a.toNat b }
  else .error ⟨.scratchBounds, BitVec.ofInt 32 a⟩ s

/-- The signed 16-bit value of the two scratch bytes at `a`, in ENDIAN order (20_memory.md R49, R57). -/
def scratchSample (s : State) (a : Nat) : Int :=
  sext16 (ofBytes s.cfg.endian [s.scratch.read a, s.scratch.read (a + 1)])

/-- `SRead16(a)`: alignment first, then bounds (20_memory.md R48, R57). -/
def sRead16 (a : Int) : M Int := fun s =>
  if a % 2 ≠ 0 then .error ⟨.scratchMisaligned, BitVec.ofInt 32 a⟩ s
  else if inScratch s a 2 then .ok (scratchSample s a.toNat) s
  else .error ⟨.scratchBounds, BitVec.ofInt 32 a⟩ s

/-- `SWrite16(a, v)`: alignment first, then bounds; stores `v mod 2^16` in ENDIAN order (20_memory.md R48, R58). -/
def sWrite16 (a v : Int) : M Unit := fun s =>
  if a % 2 ≠ 0 then .error ⟨.scratchMisaligned, BitVec.ofInt 32 a⟩ s
  else if inScratch s a 2 then
    .ok () { s with scratch := storeBytes s.scratch a.toNat (toBytes s.cfg.endian 2 (mod16 v)) }
  else .error ⟨.scratchBounds, BitVec.ofInt 32 a⟩ s

/-! ### External memory -/

/-- The external address `a + k` mod 2^32 (20_memory.md R62). -/
def addrAdd (a : Word) (k : Nat) : Word := a + BitVec.ofNat 32 k

/-- The `n` external bytes from `a`, in ascending address order mod 2^32 (20_memory.md R63). -/
def extBytes (s : State) (a : Word) (n : Nat) : List Byte :=
  (List.range n).map fun i => s.ext.read (addrAdd a i).toNat

/-- What a block read of the byte at `a` may return beside the byte itself: the values that the host's writes of it
during this run replaced and wrote (20_memory.md R69; log entry 8). -/
def racedValues (s : State) (a : Word) : List Byte := (s.raced.filter fun c => c.1 == a.toNat).map Prod.snd

/-- The host has written none of the `n` bytes from `a` during this run (20_memory.md R69). -/
def quiet (s : State) (a : Word) (n : Nat) : Bool :=
  (List.range n).all fun i => (racedValues s (addrAdd a i)).isEmpty

/-- `v` when there is nothing else to choose, else one of `v` and `vs`, by draw number `d` (20_memory.md R69). -/
def drawnFrom (d : Nat) (v : Byte) (vs : List Byte) : Byte :=
  match vs with
  | [] => v
  | w :: ws => (v :: w :: ws).getD (Config.freePick d % (ws.length + 2)) v

/-- The bytes a block read of the `n` bytes from `a` returns, one draw for each byte that races (20_memory.md R69). A byte
goes on racing when the block has written it after the host did, where R59 would have the read see the block's own write:
the draw then covers both (DESIGN CHOICE: log entry 29). -/
def readBytes (s : State) (a : Word) (n : Nat) : List Byte :=
  (List.range n).map fun i =>
    drawnFrom (s.draws + i) (s.ext.read (addrAdd a i).toNat) (racedValues s (addrAdd a i))

/-- A read changes nothing but the number of the next draw, and that only where it races. -/
def afterRead (s : State) (a : Word) (n : Nat) : State :=
  if quiet s a n then s else { s with draws := s.draws + n }

/-- `MemRead(a, n)` (20_memory.md R63, R69). -/
def memRead (a : Word) (n : Nat) : M Nat := fun s =>
  if extAdmits s.cfg a n .read then .ok (ofBytes s.cfg.endian (readBytes s a n)) (afterRead s a n)
  else .error ⟨.extFault, a⟩ s

/-- The byte at `a` belongs to the command list `[CMD_BASE, CMD_BASE + 8*CMD_COUNT)` mod 2^32 (20_memory.md R67). -/
def inCommandList (s : State) (a : Word) : Bool := decide ((a - s.cmdBase).toNat < 8 * s.cmdCount.toNat)

/-- One of the `n` bytes from `a` belongs to the command list (20_memory.md R67). -/
def overlapsCommandList (s : State) (a : Word) (n : Nat) : Bool :=
  (List.range n).any fun i => inCommandList s (addrAdd a i)

/-- `MemWrite(a, n, v)`: EXT_ADMIT, then the command-list check, then the bytes (20_memory.md R63, R67). The record of the
host's writes, `raced`, stays as it is (DESIGN CHOICE: log entry 29). -/
def memWrite (a : Word) (n v : Nat) : M Unit := fun s =>
  if extAdmits s.cfg a n .write then
    if overlapsCommandList s a n then .error ⟨.cmdOverlap, a⟩ s
    else .ok () { s with ext := storeExt s.ext a (toBytes s.cfg.endian n v) }
  else .error ⟨.extFault, a⟩ s

/-- `ExtRead16(a) = sext_16(MemRead(a, 2))` (R18). -/
def extRead16 (a : Word) : M Int := do
  let v ← memRead a 2
  pure (sext16 v)

/-- `ExtRead32(a) = sext_32(MemRead(a, 4))` (R18). -/
def extRead32 (a : Word) : M Int := do
  let v ← memRead a 4
  pure (sext32 v)

/-- `ExtWrite16(a, v) = MemWrite(a, 2, v mod 2^16)` (R18). -/
def extWrite16 (a : Word) (v : Int) : M Unit := memWrite a 2 (mod16 v)

/-- `ExtWrite32(a, v) = MemWrite(a, 4, v mod 2^32)` (R18). -/
def extWrite32 (a : Word) (v : Int) : M Unit := memWrite a 4 (mod32 v)

/-! ### Book -/

/-- BOOK[k] <- b (40_context_and_scratch.md R104). -/
def bookWrite (k : Nat) (b : Byte) : M Unit := fun s => .ok () { s with book := s.book.write k b }

/-- The book offset of `coef(p, r, j)`: 32p + 16r + 2j (10_state.md R27). -/
def coefOffset (p r j : Nat) : Nat := 32 * p + 16 * r + 2 * j

/-- `coef(p, r, j)`; either byte unwritten raises UNINIT_READ with 0x20000000 + the offset (10_state.md R27). -/
def coef (p r j : Nat) : M Int := fun s =>
  match s.book.read (coefOffset p r j), s.book.read (coefOffset p r j + 1) with
  | some b0, some b1 => .ok (sext16 (ofBytes s.cfg.endian [b0, b1])) s
  | _, _ => .error ⟨.uninitRead, 0x20000000#32 ||| BitVec.ofNat 32 (coefOffset p r j)⟩ s

/-! ### Fault entry and the end of a command -/

/-- Fault entry (60_exceptions.md R187), the one shared operation by which the block takes a fault: cause, info and
the faulting CP recorded, FAULT 1, BUSY 0; DONE and CP keep their values. There is no return from it (R179, R190):
only reset clears FAULT. -/
def takeFault (t : Trap) (s : State) : State :=
  { s with
    faultCause := causeCode t.cause
    faultInfo := t.info
    faultCp := s.cp
    status := { s.status with fault := true, busy := false } }

/-- `cp <- cp + 1` (10_state.md R21). -/
def advance (s : State) : State := { s with cp := s.cp + 1 }

/-- A command performed: it completes and CP advances, or its fault is taken with the writes made before the raising
point kept (40_context_and_scratch.md R97 (d), (e); 60_exceptions.md R189). -/
def perform (m : M Unit) (s : State) : Host.Outcome State Fault Refusal :=
  match m s with
  | .ok _ t => .next (advance t)
  | .error e t => .next (takeFault e t)

end Sys2Proof.Machine
end

