-- ==== Sys2Proof/Machine/Operands.lean ====
section
/-! DEFINITION. Operand forms: the flag bits of a command (30_encoding.md R81), the context registers a command reads
(10_state.md R24, R25), the CSR numbers (R43) and the reverb instance a command names (45_reverb.md R167). -/

namespace Sys2Proof.Machine

/-- Bit 0 of the flags byte, INIT (30_encoding.md R81). -/
def flagInit (f : BitVec 8) : Bool := f.getLsbD 0

/-- Bit 1 of the flags byte: LOOP of ADPCM (R81). -/
def flagLoop (f : BitVec 8) : Bool := f.getLsbD 1

/-- Bit 1 of the flags byte: RESTART of RESAMPLE (R81). -/
def flagRestart (f : BitVec 8) : Bool := f.getLsbD 1

/-- Bit 1 of the flags byte: LEFT of SETVOL (R81). -/
def flagLeft (f : BitVec 8) : Bool := f.getLsbD 1

/-- Bit 2 of the flags byte: VOL of SETVOL (R81). -/
def flagVol (f : BitVec 8) : Bool := f.getLsbD 2

/-- Bit 3 of the flags byte: AUX (R81). -/
def flagAux (f : BitVec 8) : Bool := f.getLsbD 3

/-- A context register's value; an unwritten one raises UNINIT_READ with its CSR number (10_state.md R25). -/
def ctxRead {w : Nat} (csr : Nat) (v : Context → Option (BitVec w)) : M (BitVec w) := fun s =>
  match v s.ctx with
  | some x => .ok x s
  | none => .error ⟨.uninitRead, BitVec.ofNat 32 csr⟩ s

/-- IN, CSR 0x010 (10_state.md R24). -/
def readIn : M Half := ctxRead 0x010 Context.inp

/-- OUT, CSR 0x011. -/
def readOut : M Half := ctxRead 0x011 Context.out

/-- COUNT, CSR 0x012. -/
def readCount : M Half := ctxRead 0x012 Context.count

/-- DRY_RIGHT, CSR 0x013. -/
def readDryRight : M Half := ctxRead 0x013 Context.dryRight

/-- WET_LEFT, CSR 0x014. -/
def readWetLeft : M Half := ctxRead 0x014 Context.wetLeft

/-- WET_RIGHT, CSR 0x015. -/
def readWetRight : M Half := ctxRead 0x015 Context.wetRight

/-- VOL_L, CSR 0x016. -/
def readVolL : M Half := ctxRead 0x016 Context.volL

/-- VOL_R, CSR 0x017. -/
def readVolR : M Half := ctxRead 0x017 Context.volR

/-- TARGET_L, CSR 0x018. -/
def readTargetL : M Half := ctxRead 0x018 Context.targetL

/-- TARGET_R, CSR 0x019. -/
def readTargetR : M Half := ctxRead 0x019 Context.targetR

/-- RATE_L, CSR 0x01A. -/
def readRateL : M Word := ctxRead 0x01A Context.rateL

/-- RATE_R, CSR 0x01B. -/
def readRateR : M Word := ctxRead 0x01B Context.rateR

/-- VOL_DRY, CSR 0x01C. -/
def readVolDry : M Half := ctxRead 0x01C Context.volDry

/-- VOL_WET, CSR 0x01D. -/
def readVolWet : M Half := ctxRead 0x01D Context.volWet

/-- LOOP_ADDR, CSR 0x01E. -/
def readLoopAddr : M Word := ctxRead 0x01E Context.loopAddr

/-- The CSR number of field `k` of reverb instance `r`: 0x100 + 0x20*r + k (10_state.md R43). -/
def csrReverb (r k : Nat) : Nat := 0x100 + 0x20 * r + k

/-- The index of item [p][u]: p*MAX_CHUNKS + u (10_state.md R41). -/
def itemIndex (cfg : Params) (p u : Nat) : Nat := p * cfg.maxChunks + u

/-- The CSR number of field `f` of item [p][u] of instance `r` (10_state.md R41). -/
def csrItem (cfg : Params) (r p u f : Nat) : Nat := 0x800 + 0x200 * r + 8 * itemIndex cfg p u + f

/-- Reverb instance `r` (10_state.md R32 to R41). -/
def reverbAt (s : State) (r : Nat) : Reverb := s.reverb.getD r (Reverb.atReset s.cfg.maxChunks)

/-- The state with reverb instance `r` replaced. -/
def setReverb (s : State) (r : Nat) (rb : Reverb) : State := { s with reverb := s.reverb.set r rb }

/-- ITEM[p][u] of an instance, none when VALID = 0 (10_state.md R41). -/
def itemAt (cfg : Params) (rb : Reverb) (p u : Nat) : Option Item := (rb.items[itemIndex cfg p u]?).getD none

/-- Controller field `k` with the value written, the bits outside the field's width dropped (10_state.md R32 to R39,
45_reverb.md R165). -/
def writeField (rb : Reverb) (k : Nat) (v : Word) : Reverb :=
  match k with
  | 0x0 => { rb with ctrl := v.setWidth 1 }
  | 0x1 => { rb with cap := v.setWidth 16 }
  | 0x2 => { rb with wptr := v.setWidth 16 }
  | 0x3 => { rb with dsr := v.setWidth 8 }
  | 0x4 => { rb with parity := v.setWidth 1 }
  | 0x5 => { rb with ignore := v.setWidth 8 }
  | 0x6 => { rb with lbase := v }
  | 0x7 => { rb with rbase := v }
  | 0x8 => { rb with tdlbase := v }
  | 0x9 => { rb with tdrbase := v }
  | 0xA => { rb with tdstride := v }
  | _ => rb

/-- Controller field `k`, zero above its width (10_state.md section 5). -/
def readField (rb : Reverb) (k : Nat) : Word :=
  match k with
  | 0x0 => rb.ctrl.setWidth 32
  | 0x1 => rb.cap.setWidth 32
  | 0x2 => rb.wptr.setWidth 32
  | 0x3 => rb.dsr.setWidth 32
  | 0x4 => rb.parity.setWidth 32
  | 0x5 => rb.ignore.setWidth 32
  | 0x6 => rb.lbase
  | 0x7 => rb.rbase
  | 0x8 => rb.tdlbase
  | 0x9 => rb.tdrbase
  | 0xA => rb.tdstride
  | _ => 0

/-- The instance and field a CSR number names, if it is a controller register of an instance below NUM_REVERB
(45_reverb.md R165). -/
def reverbCsr (cfg : Params) (n : Nat) : Option (Nat × Nat) :=
  if 0x100 ≤ n ∧ n < 0x100 + 0x20 * cfg.numReverb ∧ (n - 0x100) % 0x20 ≤ 0xA then
    some ((n - 0x100) / 0x20, (n - 0x100) % 0x20)
  else none

/-- The write SETREG and a host write share (45_reverb.md R165, R166). -/
def writeReverbCsr (s : State) (r k : Nat) (v : Word) : State :=
  setReverb s r (writeField (reverbAt s r) k v)

/-- The common checks of RBPREP, RBREAD and RBWRITE (45_reverb.md R167, R168): the range check, then USE (none when
the instance is unused), then the configuration checks. `w0` is the command's first word. -/
def reverbCheck (r u : Nat) (w0 : Word) : M (Option Reverb) := fun s =>
  if s.cfg.numReverb ≤ r ∨ s.cfg.maxChunks ≤ u then .error ⟨.ringConfig, w0⟩ s
  else if (reverbAt s r).ctrl = 0 then .ok none s
  else if (reverbAt s r).cap.toNat < 1 then .error ⟨.ringConfig, BitVec.ofNat 32 (csrReverb r 1)⟩ s
  else if (reverbAt s r).cap.toNat ≤ (reverbAt s r).wptr.toNat then
    .error ⟨.ringConfig, BitVec.ofNat 32 (csrReverb r 2)⟩ s
  else if (reverbAt s r).dsr.toNat < 1 then .error ⟨.ringConfig, BitVec.ofNat 32 (csrReverb r 3)⟩ s
  else .ok (some (reverbAt s r)) s

/-- The item at the instance's current parity and slot `u`; VALID = 0 raises UNINIT_READ with the CSR number of that
VALID (45_reverb.md R171, R173, R174). -/
def readItem (r u : Nat) (rb : Reverb) : M Item := fun s =>
  match itemAt s.cfg rb rb.parity.toNat u with
  | some it => .ok it s
  | none => .error ⟨.uninitRead, BitVec.ofNat 32 (csrItem s.cfg r rb.parity.toNat u 5)⟩ s

/-- Ring sample `i` of the channel whose ring is at `base`: `(base + 2i) mod 2^32` (20_memory.md R65). -/
def ringAddr (base : Word) (i : Nat) : Word := addrAdd base (2 * i)

/-- The TD buffer of parity `p` and slot `u` of the channel at `base`:
`(base + (p*MAX_CHUNKS + u) * RB_TDSTRIDE) mod 2^32` (10_state.md R39). -/
def tdAddr (cfg : Params) (base stride : Word) (p u : Nat) : Word :=
  base + BitVec.ofNat 32 (itemIndex cfg p u) * stride

end Sys2Proof.Machine
end

