-- ==== Sys2Proof/Machine/Adpcm.lean ====
section
/-! DEFINITION. ADPCM: the decoder with history (41_adpcm.md R108 to R116). The history registers of 10_state.md R29
are the local values of these definitions. -/

namespace Sys2Proof.Machine

/-- The scaled delta `trunc16(sext_4(nibble) * 2^shift)` (R109). -/
def scaledDelta (nibble shift : Nat) : Int := trunc16 (sext4 nibble * 2 ^ shift)

/-- The deltas of one half-packet from its four bytes, high nibble first (R109, R111). -/
def deltasOf (shift : Nat) (bytes : List Byte) : List Int :=
  bytes.flatMap fun b => [scaledDelta (b.toNat / 16) shift, scaledDelta (b.toNat % 16) shift]

/-- `acc` of output `j` of a half-packet; the coefficients are read in the order coef(pred,0,j), coef(pred,1,j),
coef(pred,1,j-1) down to coef(pred,1,0) (R111, R112). -/
def adpcmAcc (pred : Nat) (prev1 prev2 : Int) (d : List Int) (j : Nat) : M Int := do
  let c0 ← coef pred 0 j
  let c1 ← coef pred 1 j
  let sum ← foldFrom (fun k acc => do
    let c ← coef pred 1 (j - k - 1)
    pure (acc + c * d.getD k 0)) j 0 0
  pure (c0 * prev2 + c1 * prev1 + d.getD j 0 * 2 ^ 11 + sum)

/-- One half-packet: its delta bytes from `src`, its eight outputs from `o` (R111). -/
def adpcmHalf (pred shift : Nat) (src o : Int) : M Unit := do
  let prev1 ← sRead16 (o - 2)
  let prev2 ← sRead16 (o - 4)
  let bytes ← collect 4 fun b => sRead8 (src + b)
  forRange 8 fun j => do
    let acc ← adpcmAcc pred prev1 prev2 (deltasOf shift bytes) j
    sWrite16 (o + 2 * j) (sat16 (asr acc 11))

/-- One packet: nine bytes from `src`, sixteen outputs from `o` (R109, R111). -/
def adpcmPacket (src o : Int) : M Unit := do
  let hdr ← sRead8 src
  if 8 ≤ hdr.toNat % 16 then raise .adpcmPredictor (hdr.setWidth 32)
  else forRange 2 fun h => adpcmHalf (hdr.toNat % 16) (hdr.toNat / 16) (src + 1 + 4 * h) (o + 16 * h)

/-- History sample `k`: zero under INIT, else read at `src` (R110). -/
def histSample (init : Bool) (src : Word) (k : Nat) : M Int :=
  if init then pure 0 else extRead16 (addrAdd src (2 * k))

/-- The history prefix of `n` samples from `out`: zero under INIT, else from the loop state or the state record at
`src` (R110). -/
def adpcmPrefix (init : Bool) (src : Word) (out : Int) (n : Nat) : M Unit :=
  forRange n fun k => do
    let hist ← histSample init src k
    sWrite16 (out + 2 * k) hist

/-- The state save of `n` samples, the last of the output window that ends at `e` (R114). -/
def adpcmSave (addr : Word) (e : Int) (n : Nat) : M Unit :=
  forRange n fun k => do
    let v ← sRead16 (e - 2 * n + 2 * k)
    extWrite16 (addrAdd addr (2 * k)) v

/-- Where the history comes from: LOOP_ADDR, read only with LOOP and without INIT, else the state record
(R108, R110). -/
def adpcmSource (flags : BitVec 8) (addr : Word) : M Word :=
  if flagLoop flags && !flagInit flags then readLoopAddr else pure addr

/-- ADPCM's body: the context registers, the prefix, the packets, the state save (R108 to R114). H is
ADPCM_HIST_BYTES and `npk = ru(COUNT, 32) / 32`. The context registers are read in the order the pseudocode names them
(40_context_and_scratch.md R97 (a)): LOOP_ADDR where it is used and OUT in R110, then IN and COUNT in R111; the lists
of R108 and R115 name IN, OUT, COUNT, LOOP_ADDR (DEDUCED: log entry 25). -/
def adpcmBody (flags : BitVec 8) (addr : Word) : M Unit := do
  let src ← adpcmSource flags addr
  let o ← readOut
  let i ← readIn
  let c ← readCount
  let s ← get
  let h := s.cfg.histBytes
  let npk := ru c.toNat 32 / 32
  adpcmPrefix (flagInit flags) src o.toNat (h / 2)
  forRange npk fun pk => adpcmPacket (i.toNat + 9 * pk) (o.toNat + h + 32 * pk)
  adpcmSave addr (o.toNat + h + 32 * npk) (h / 2)

/-- ADPCM (R108). -/
def execAdpcm (flags : BitVec 8) (addr : Word) (s : State) : Host.Outcome State Fault Refusal :=
  perform (adpcmBody flags addr) s

end Sys2Proof.Machine
end

