-- ==== Sys2Proof/Machine/ContextCommands.lean ====
section
/-! DEFINITION. NOOP, SETBUFF, SETLOOP and SETVOL (40_context_and_scratch.md R98 to R101). -/

namespace Sys2Proof.Machine

/-- A write of the context registers. -/
def setCtx (f : Context → Context) : M Unit := fun s => .ok () { s with ctx := f s.ctx }

/-- NOOP (R98): only CP advances. -/
def execNoop (s : State) : Host.Outcome State Fault Refusal := perform (pure ()) s

/-- The context after SETBUFF (R99, 30_encoding.md R85). -/
def setbuffContext (flags : BitVec 8) (inp out count : Half) (c : Context) : Context :=
  if flagAux flags then
    { c with dryRight := some inp, wetLeft := some out, wetRight := some count }
  else
    { c with inp := some inp, out := some out, count := some count }

/-- SETBUFF (R99). -/
def execSetbuff (flags : BitVec 8) (inp out count : Half) (s : State) : Host.Outcome State Fault Refusal :=
  perform (setCtx (setbuffContext flags inp out count)) s

/-- SETLOOP (R100): no memory is read here. -/
def execSetloop (addr : Word) (s : State) : Host.Outcome State Fault Refusal :=
  perform (setCtx fun c => { c with loopAddr := some addr }) s

/-- The context after SETVOL: AUX takes precedence over VOL, and VOL over the rate form; the rate is `{t, r}`
(R101, 30_encoding.md R87). -/
def setvolContext (flags : BitVec 8) (v t r : Half) (c : Context) : Context :=
  if flagAux flags then { c with volDry := some v, volWet := some r }
  else if flagVol flags then
    if flagLeft flags then { c with volL := some v } else { c with volR := some v }
  else if flagLeft flags then { c with targetL := some v, rateL := some (t ++ r) }
  else { c with targetR := some v, rateR := some (t ++ r) }

/-- SETVOL (R101). -/
def execSetvol (flags : BitVec 8) (v t r : Half) (s : State) : Host.Outcome State Fault Refusal :=
  perform (setCtx (setvolContext flags v t r)) s

end Sys2Proof.Machine
end

