-- ==== Sys2Proof/Machine/Envmix.lean ====
section
/-! DEFINITION. ENVMIXER: the envelope mixer with its per-lane ramp accumulators (43_envmix.md R133 to R145). The
history registers of 10_state.md R31 are the local values of these definitions. -/

namespace Sys2Proof.Machine

/-- One channel's part of the envelope state: VACC[0..7], TGT and RT (R134). -/
structure EnvChannel where
  vacc : List Int
  tgt : Int
  rt : Int
deriving DecidableEq, Repr

/-- The envelope state: both channels, VD and VW (R134). -/
structure EnvState where
  left : EnvChannel
  right : EnvChannel
  vd : Int
  vw : Int
deriving DecidableEq, Repr

/-- A channel's state under INIT: the lanes interpolate from the volume toward the volume after one step (R135). -/
def envInitChannel (vol rate target : Int) : EnvChannel :=
  { vacc := (List.range 8).map fun i => sat32 (vol * 65536 + tdiv (vol * (rate - 0x10000)) 8 * (i + 1))
    tgt := target
    rt := rate }

/-- The INIT state from the volume registers, read in R133's order; the record is not read (R135). -/
def envInit : M EnvState := do
  let volL ← readVolL
  let rateL ← readRateL
  let targetL ← readTargetL
  let volR ← readVolR
  let rateR ← readRateR
  let targetR ← readTargetR
  let volDry ← readVolDry
  let volWet ← readVolWet
  pure { left := envInitChannel volL.toInt rateL.toInt targetL.toInt
         right := envInitChannel volR.toInt rateR.toInt targetR.toInt
         vd := volDry.toInt
         vw := volWet.toInt }

/-- `sext_32({hi, lo})` (R134). -/
def joinRate (hi lo : Int) : Int := sext32 (mod16 hi * 65536 + mod16 lo)

/-- The continued state: the record at `addr` in ascending address order (R136). -/
def envLoad (addr : Word) : M EnvState := do
  let vl ← collect 8 fun i => extRead32 (addrAdd addr (4 * i))
  let vr ← collect 8 fun i => extRead32 (addrAdd addr (32 + 4 * i))
  let tgtL ← extRead16 (addrAdd addr 64)
  let hiL ← extRead16 (addrAdd addr 66)
  let loL ← extRead16 (addrAdd addr 68)
  let tgtR ← extRead16 (addrAdd addr 70)
  let hiR ← extRead16 (addrAdd addr 72)
  let loR ← extRead16 (addrAdd addr 74)
  let vd ← extRead16 (addrAdd addr 76)
  let vw ← extRead16 (addrAdd addr 78)
  pure { left := { vacc := vl, tgt := tgtL, rt := joinRate hiL loL }
         right := { vacc := vr, tgt := tgtR, rt := joinRate hiR loR }
         vd := vd
         vw := vw }

/-- The clamp of a lane against the channel target, in the direction its rate implies (R139). -/
def envClamp (rt tgt vacc : Int) : Int :=
  if 0 < asr rt 16 then
    if tgt < asr vacc 16 then tgt * 65536 else vacc
  else
    if asr vacc 16 < tgt then tgt * 65536 else vacc

/-- The lane gain, a Q15 product that is not saturated (R140). -/
def envGain (vol level : Int) : Int := asr (vol * level + 0x4000) 15

/-- The blend of an input sample into a destination sample (R141). -/
def envBlend (d x gain : Int) : Int := sat16 (asr (d * 0x7FFF + x * gain + 0x4000) 15)

/-- The ramp update (R142). -/
def envRamp (rt vacc : Int) : Int := sat32 (asr (vacc * rt) 16)

/-- One destination sample at `a`: read, blended, written (R138). -/
def envAccumulate (a x gain : Int) : M Unit := do
  let d ← sRead16 a
  sWrite16 a (envBlend d x gain)

/-- The buffers of one channel: its dry buffer, and its wet buffer when AUX = 1 (R137). -/
structure EnvBuffers where
  dry : Int
  wet : Option Int
deriving DecidableEq, Repr

/-- One wet sample at `off` in the wet buffer, when there is one (R137, R138). -/
def envAccumulateWet (wet : Option Int) (off x gain : Int) : M Unit :=
  match wet with
  | some a => envAccumulate (a + off) x gain
  | none => pure ()

/-- One lane's use in one group: clamp, input read, dry read and write, wet read and write, ramp update; `off` is the
byte offset 16g + 2i of the sample in every buffer. Yields the accumulator after the update (R138). -/
def envLane (rt tgt vd vw inp : Int) (bufs : EnvBuffers) (off vacc : Int) : M Int := do
  let v := envClamp rt tgt vacc
  let vol := asr v 16
  let x ← sRead16 (inp + off)
  envAccumulate (bufs.dry + off) x (envGain vol vd)
  envAccumulateWet bufs.wet off x (envGain vol vw)
  pure (envRamp rt v)

/-- One channel's eight lanes in group `g` (R138). -/
def envChannelGroup (vd vw inp : Int) (bufs : EnvBuffers) (g : Nat) (c : EnvChannel) : M EnvChannel := do
  let vacc ← collect 8 fun i =>
    envLane c.rt c.tgt vd vw inp bufs (16 * g + 2 * i) (c.vacc.getD i 0)
  pure { c with vacc := vacc }

/-- Group `g`: the left channel, then the right (R138). -/
def envGroup (inp : Int) (bl br : EnvBuffers) (g : Nat) (e : EnvState) : M EnvState := do
  let l ← envChannelGroup e.vd e.vw inp bl g e.left
  let r ← envChannelGroup e.vd e.vw inp br g e.right
  pure { e with left := l, right := r }

/-- The upper 16 bits of a rate, as a number 0..65535 (R134). -/
def rateHigh (rt : Int) : Int := mod32 rt / 65536

/-- The lower 16 bits of a rate, as a number 0..65535 (R134). -/
def rateLow (rt : Int) : Int := mod32 rt % 65536

/-- The state save in ascending address order (R143). -/
def envSave (addr : Word) (e : EnvState) : M Unit := do
  forRange 8 fun i => extWrite32 (addrAdd addr (4 * i)) (e.left.vacc.getD i 0)
  forRange 8 fun i => extWrite32 (addrAdd addr (32 + 4 * i)) (e.right.vacc.getD i 0)
  extWrite16 (addrAdd addr 64) e.left.tgt
  extWrite16 (addrAdd addr 66) (rateHigh e.left.rt)
  extWrite16 (addrAdd addr 68) (rateLow e.left.rt)
  extWrite16 (addrAdd addr 70) e.right.tgt
  extWrite16 (addrAdd addr 72) (rateHigh e.right.rt)
  extWrite16 (addrAdd addr 74) (rateLow e.right.rt)
  extWrite16 (addrAdd addr 76) e.vd
  extWrite16 (addrAdd addr 78) e.vw

/-- The wet offsets WET_LEFT and WET_RIGHT, read only when AUX = 1 (R133, R137). -/
def envWet (flags : BitVec 8) : M (Option (Half × Half)) :=
  if flagAux flags then do
    let wl ← readWetLeft
    let wr ← readWetRight
    pure (some (wl, wr))
  else pure none

/-- The state the command starts from: the volume registers under INIT, else the record (R135, R136). -/
def envStart (flags : BitVec 8) (addr : Word) : M EnvState :=
  if flagInit flags then envInit else envLoad addr

/-- ENVMIXER's body: the context registers, the state, the groups, the state save (R133 to R143). The context registers
are read in the order of R133's list, which R133 and R144 name as the order; 40_context_and_scratch.md R97 (a) speaks of
the pseudocode's order, in which R135 comes first under INIT and R138 names COUNT before IN (DEDUCED: log entry 25). -/
def envmixerBody (flags : BitVec 8) (addr : Word) : M Unit := do
  let i ← readIn
  let o ← readOut
  let dr ← readDryRight
  let c ← readCount
  let wet ← envWet flags
  let e0 ← envStart flags addr
  let e ← foldFrom
    (envGroup i.toNat
      { dry := o.toNat, wet := wet.map fun p => (p.1.toNat : Int) }
      { dry := dr.toNat, wet := wet.map fun p => (p.2.toNat : Int) })
    (groups c.toNat) 0 e0
  envSave addr e

/-- ENVMIXER (R133). -/
def execEnvmixer (flags : BitVec 8) (addr : Word) (s : State) : Host.Outcome State Fault Refusal :=
  perform (envmixerBody flags addr) s

end Sys2Proof.Machine
end

