-- ==== Sys2Proof/Machine/Mix.lean ====
section
/-! DEFINITION. MIXER, INTERLEAVE and INTERLEAVE_EXT (44_mix_interleave.md R150 to R154). -/

namespace Sys2Proof.Machine

/-- The mixed sample: subtract for gain -32768, else the form MIX_FORM says; saturated once (R150 to R152). -/
def mixSample (form : MixForm) (gain o i : Int) : Int :=
  if gain = -32768 then sat16 (o - i)
  else
    match form with
    | .doc => sat16 (o + asr (i * gain) 15)
    | .ref => sat16 (asr (o * 0x7FFF + i * gain + 0x4000) 15)

/-- MIXER's body (R150): for each k the destination is read, then the input, then the destination written. -/
def mixerBody (gain inp out : Half) : M Unit := do
  let c ← readCount
  let s ← get
  forRange (ru c.toNat 32 / 2) fun k => do
    let o ← sRead16 (out.toNat + 2 * k)
    let i ← sRead16 (inp.toNat + 2 * k)
    sWrite16 (out.toNat + 2 * k) (mixSample s.cfg.mixForm gain.toInt o i)

/-- MIXER (R150). -/
def execMixer (gain inp out : Half) (s : State) : Host.Outcome State Fault Refusal :=
  perform (mixerBody gain inp out) s

/-- INTERLEAVE's group `g`: 8 left samples, 8 right samples, then 8 pairs (R153). -/
def interleaveGroup (left right o : Int) (g : Nat) : M Unit := do
  let lg ← collect 8 fun i => sRead16 (left + 16 * g + 2 * i)
  let rg ← collect 8 fun i => sRead16 (right + 16 * g + 2 * i)
  forRange 8 fun i => do
    sWrite16 (o + 32 * g + 4 * i) (lg.getD i 0)
    sWrite16 (o + 32 * g + 4 * i + 2) (rg.getD i 0)

/-- INTERLEAVE's body (R153). -/
def interleaveBody (left right : Half) : M Unit := do
  let o ← readOut
  let c ← readCount
  forRange (ru c.toNat 16 / 16) fun g => interleaveGroup left.toNat right.toNat o.toNat g

/-- INTERLEAVE (R153). -/
def execInterleave (left right : Half) (s : State) : Host.Outcome State Fault Refusal :=
  perform (interleaveBody left right) s

/-- INTERLEAVE_EXT's body (R154). -/
def interleaveExtBody (left right : BitVec 12) (addr : Word) : M Unit := do
  let c ← readCount
  forRange (ru c.toNat 16 / 2) fun i => do
    let l ← sRead16 (left.toNat + 2 * i)
    let r ← sRead16 (right.toNat + 2 * i)
    extWrite16 (addrAdd addr (4 * i)) l
    extWrite16 (addrAdd addr (4 * i + 2)) r

/-- INTERLEAVE_EXT (R154). -/
def execInterleaveExt (left right : BitVec 12) (addr : Word) (s : State) : Host.Outcome State Fault Refusal :=
  perform (interleaveExtBody left right addr) s

end Sys2Proof.Machine
end

