-- ==== Sys2Proof/Machine/Resample.lean ====
section
/-! DEFINITION. RESAMPLE: the 4-tap table resampler (42_resample.md R118 to R128). The history registers of
10_state.md R30 are the local values of these definitions. -/

namespace Sys2Proof.Machine

/-- What the state load yields: H[0..3], PACC, OFS and RH[0..7] (R119, R121). -/
structure ResampleHistory where
  h : List Int
  pacc : Nat
  ofs : Nat
  rh : List Int
deriving DecidableEq, Repr

/-- The window pointer and the pitch accumulator between two outputs (R123). -/
structure ResampleCursor where
  w : Int
  pacc : Nat
deriving DecidableEq, Repr

/-- The state load: nothing is read under INIT; else the words in ascending address order, skipping 6 and 7 (R121). -/
def resampleLoad (flags : BitVec 8) (addr : Word) : M ResampleHistory :=
  if flagInit flags then pure { h := [0, 0, 0, 0], pacc := 0, ofs := 0, rh := [] }
  else do
    let h ← collect 4 fun k => extRead16 (addrAdd addr (2 * k))
    let pacc ← extRead16 (addrAdd addr 8)
    let ofs ← extRead16 (addrAdd addr 10)
    let rh ← collect 8 fun k => extRead16 (addrAdd addr (16 + 2 * k))
    pure { h := h, pacc := mod16 pacc, ofs := mod16 ofs % 8, rh := rh }

/-- The window pointer after set-up (R122). With RESTART it lies between IN - 24 and IN - 10, as OFS says, and the
history may overlap the restart samples. 70_reset_and_hazards.md R215, derived from R122, speaks of the history right
below IN, the restart samples below that, and a fault for every IN below 24; 92 D21 decides for R122, which is followed
(DEDUCED: log entry 27). -/
def windowStart (flags : BitVec 8) (inp : Int) (hist : ResampleHistory) : Int :=
  if flagRestart flags then inp - 16 + 2 * hist.ofs - 8 else inp - 8

/-- The restart samples, written below IN when RESTART is set (R122). -/
def resampleRestart (flags : BitVec 8) (inp : Int) (hist : ResampleHistory) : M Unit :=
  if flagRestart flags then forRange 8 fun k => sWrite16 (inp - 16 + 2 * k) (hist.rh.getD k 0)
  else pure ()

/-- The window set-up: the restart samples, then the history, written below IN (R122). -/
def resampleWindow (flags : BitVec 8) (inp : Int) (hist : ResampleHistory) : M Unit := do
  resampleRestart flags inp hist
  forRange 4 fun k => sWrite16 (windowStart flags inp hist + 2 * k) (hist.h.getD k 0)

/-- The filter, rounded as RESAMPLE_ROUND says (R124). -/
def resampleFilter (round : ResampleRound) (row : RomRow) (x : List Int) : Int :=
  let p0 := x.getD 0 0 * row.c0.toInt
  let p1 := x.getD 1 0 * row.c1.toInt
  let p2 := x.getD 2 0 * row.c2.toInt
  let p3 := x.getD 3 0 * row.c3.toInt
  match round with
  | .sum => asr (p0 + p1 + p2 + p3 + 0x4000) 15
  | .perTap => asr (p0 + 0x4000) 15 + asr (p1 + 0x4000) 15 + asr (p2 + 0x4000) 15 + asr (p3 + 0x4000) 15

/-- The ROM row of a pitch accumulator: its top six bits, `PACC[15:10]` (R123). -/
def romRow (cfg : Params) (pacc : Nat) : RomRow := cfg.rom.getD (pacc / 1024 % 64) ⟨0, 0, 0, 0⟩

/-- The cursor after an output: PACC advances by `2*pitch`, its carry moves the window (R123, R125). -/
def nextCursor (pitch : Nat) (c : ResampleCursor) : ResampleCursor :=
  { w := c.w + 2 * ((c.pacc + 2 * pitch) / 65536 : Nat), pacc := (c.pacc + 2 * pitch) % 65536 }

/-- Output number `n` of the command, written at `out + 2n` (R123). -/
def resampleOutput (pitch : Nat) (out : Int) (n : Nat) (c : ResampleCursor) : M ResampleCursor := do
  let s ← get
  let x ← collect 4 fun k => sRead16 (c.w + 2 * k)
  sWrite16 (out + 2 * n) (sat16 (resampleFilter s.cfg.round (romRow s.cfg c.pacc) x))
  pure (nextCursor pitch c)

/-- The saved offset: `((t - IN) / 2) mod 8` with t the next unconsumed sample (R126). -/
def savedOffset (inp w : Int) : Int := (w + 8 - inp) / 2 % 8

/-- The state save: H, PACC, RH, then OFS; words 6 and 7 are not written (R126). The record is written in the order of
R126's pseudocode, which puts OFS (S + 10) after RH (S + 16 to S + 31); 60_exceptions.md R189 says in passing that a
faulted save leaves it written in ascending order (DEDUCED: log entry 26). -/
def resampleSave (addr : Word) (inp : Int) (c : ResampleCursor) : M Unit := do
  forRange 4 fun k => do
    let v ← sRead16 (c.w + 2 * k)
    extWrite16 (addrAdd addr (2 * k)) v
  extWrite16 (addrAdd addr 8) c.pacc
  forRange 8 fun k => do
    let v ← sRead16 (c.w + 8 - 2 * savedOffset inp c.w + 2 * k)
    extWrite16 (addrAdd addr (16 + 2 * k)) v
  extWrite16 (addrAdd addr 10) (savedOffset inp c.w)

/-- RESAMPLE's body: the flag check, the context registers, state load, window set-up, 8G outputs, state save
(R120 to R126). The context registers are read in the order the pseudocode names them (40_context_and_scratch.md R97
(a)): IN in R122, COUNT and OUT in R123; the lists of R118 and R127 name IN, OUT, COUNT (DEDUCED: log entry 25). -/
def resampleBody (flags : BitVec 8) (pitch : Half) (addr : Word) : M Unit := do
  if flagInit flags && flagRestart flags then raise .flagConflict (flags.setWidth 32)
  else do
    let i ← readIn
    let c ← readCount
    let o ← readOut
    let hist ← resampleLoad flags addr
    resampleWindow flags i.toNat hist
    let cur ← foldFrom (resampleOutput pitch.toNat o.toNat) (8 * groups c.toNat) 0
      { w := windowStart flags i.toNat hist, pacc := hist.pacc }
    resampleSave addr i.toNat cur

/-- RESAMPLE (R118). -/
def execResample (flags : BitVec 8) (pitch : Half) (addr : Word) (s : State) : Host.Outcome State Fault Refusal :=
  perform (resampleBody flags pitch addr) s

end Sys2Proof.Machine
end

