-- ==== Sys2Proof/Syntax.lean ====
section
/-! DEFINITION. The block's commands (30_encoding.md R77, R84): one constructor per row of spec/opcode_table.json, in
the order of the opcodes, each with the operand fields of its row. `flags` is the whole flags byte w0[23:16] of the
commands that take flags (R81); WellFormed.lean says which of its bits a command defines (R83). -/

namespace Sys2Proof

/-- One command of the block. -/
inductive Instr where
  /-- opcode 0x00 (R98) -/
  | noop
  /-- opcode 0x01 (R108): decode packets, state record at `addr` -/
  | adpcm (flags : BitVec 8) (addr : Word)
  /-- opcode 0x02 (R102) -/
  | clearbuff (dmem count : Half)
  /-- opcode 0x03 (R133): envelope mix, state record at `addr` -/
  | envmixer (flags : BitVec 8) (addr : Word)
  /-- opcode 0x04 (R105) -/
  | loadbuff (addr : Word)
  /-- opcode 0x05 (R118): resample, state record at `addr` -/
  | resample (flags : BitVec 8) (pitch : Half) (addr : Word)
  /-- opcode 0x06 (R106) -/
  | savebuff (addr : Word)
  /-- opcode 0x08 (R99) -/
  | setbuff (flags : BitVec 8) (inp out count : Half)
  /-- opcode 0x09 (R101) -/
  | setvol (flags : BitVec 8) (v t r : Half)
  /-- opcode 0x0A (R103) -/
  | dmemmove (inp out count : Half)
  /-- opcode 0x0B (R104) -/
  | loadadpcm (count : BitVec 24) (addr : Word)
  /-- opcode 0x0C (R150) -/
  | mixer (gain inp out : Half)
  /-- opcode 0x0D (R153) -/
  | interleave (left right : Half)
  /-- opcode 0x0F (R100) -/
  | setloop (addr : Word)
  /-- opcode 0x10 (R165) -/
  | setreg (reg : Half) (value : Word)
  /-- opcode 0x11 (R169): instance `r`, slot `u`, chunk length `len` in samples -/
  | rbprep (r u : BitVec 8) (len : Half)
  /-- opcode 0x12 (R173) -/
  | rbread (r u : BitVec 8) (left right : Half)
  /-- opcode 0x13 (R174) -/
  | rbwrite (r u : BitVec 8) (left right : Half)
  /-- opcode 0x14 (R175) -/
  | rbframe (r : BitVec 8)
  /-- opcode 0x15 (R154) -/
  | interleaveExt (left right : BitVec 12) (addr : Word)
deriving DecidableEq, Repr

end Sys2Proof
end

