-- ==== Sys2Proof/WellFormed.lean ====
section
/-! DEFINITION. Which commands the encoding admits (30_encoding.md R76, R83), and which parameter values are legal
(00_scope.md R8 to R15). -/

namespace Sys2Proof

/-- The flag bits a command defines, as a mask of the flags byte (30_encoding.md R83). -/
def Instr.definedFlags : Instr → BitVec 8
  | .adpcm _ _ => 0x03#8
  | .resample _ _ _ => 0x03#8
  | .envmixer _ _ => 0x09#8
  | .setbuff _ _ _ _ => 0x08#8
  | .setvol _ _ _ _ => 0x0E#8
  | .noop => 0#8
  | .clearbuff _ _ => 0#8
  | .loadbuff _ => 0#8
  | .savebuff _ => 0#8
  | .dmemmove _ _ _ => 0#8
  | .loadadpcm _ _ => 0#8
  | .mixer _ _ _ => 0#8
  | .interleave _ _ => 0#8
  | .setloop _ => 0#8
  | .setreg _ _ => 0#8
  | .rbprep _ _ _ => 0#8
  | .rbread _ _ _ _ => 0#8
  | .rbwrite _ _ _ _ => 0#8
  | .rbframe _ => 0#8
  | .interleaveExt _ _ _ => 0#8

/-- The flags byte of a command, 0 for a command that takes no flags (30_encoding.md R81, R83). -/
def Instr.flags : Instr → BitVec 8
  | .adpcm f _ => f
  | .resample f _ _ => f
  | .envmixer f _ => f
  | .setbuff f _ _ _ => f
  | .setvol f _ _ _ => f
  | .noop => 0#8
  | .clearbuff _ _ => 0#8
  | .loadbuff _ => 0#8
  | .savebuff _ => 0#8
  | .dmemmove _ _ _ => 0#8
  | .loadadpcm _ _ => 0#8
  | .mixer _ _ _ => 0#8
  | .interleave _ _ => 0#8
  | .setloop _ => 0#8
  | .setreg _ _ => 0#8
  | .rbprep _ _ _ => 0#8
  | .rbread _ _ _ _ => 0#8
  | .rbwrite _ _ _ _ => 0#8
  | .rbframe _ => 0#8
  | .interleaveExt _ _ _ => 0#8

/-- A command sets no flag bit outside those its row defines (30_encoding.md R76, R83). Every other operand has
exactly the width of its field, so every value of it is encodable (R96). -/
def Instr.wellFormed (i : Instr) : Bool :=
  i.flags &&& ~~~i.definedFlags == 0#8

/-- The legal parameter values of 00_scope.md R8 (scratch size), R10 (history size), R11 (64 rows), R14 and R15. -/
def Params.legal (p : Params) : Bool :=
  decide (2048 ≤ p.scratchBytes) && decide (p.scratchBytes ≤ 4096) && decide (p.scratchBytes % 16 = 0)
    && decide (4 ≤ p.histBytes) && decide (p.histBytes % 2 = 0)
    && decide (p.rom.length = 64)
    && decide (1 ≤ p.numReverb) && decide (p.numReverb ≤ 8)
    && decide (1 ≤ p.maxChunks) && decide (p.maxChunks ≤ 32)

end Sys2Proof
end

