-- ==== Sys2Proof/Decode.lean ====
section
/-! DEFINITION. The command encoding of 30_encoding.md: the decoder (R74, R76, R78, R84, R85 to R92), total on every
64-bit word and on every list of bytes, and after it the encoder, written from the same table. -/

namespace Sys2Proof

/-- Why a word is no command. Each of the first two is ILLEGAL_COMMAND of the block (30_encoding.md R76, R78);
`truncated` is given only to a list of fewer than 8 bytes, which the block never fetches. -/
inductive DecodeError where
  | reservedOpcode
  | reservedBits
  | truncated
deriving DecidableEq, Repr

/-- Field `w0[31:24]`, the opcode (R74). -/
def Command.opcode (w : Command) : BitVec 8 := w.extractLsb' 56 8

/-- Field `w0[23:16]`, the flags byte (R74, R81). -/
def Command.flagsByte (w : Command) : BitVec 8 := w.extractLsb' 48 8

/-- Field `w0[15:0]`. -/
def Command.half0 (w : Command) : Half := w.extractLsb' 32 16

/-- Field `w0[23:0]`: LOADADPCM's count and INTERLEAVE_EXT's two offsets (R84). -/
def Command.low24 (w : Command) : BitVec 24 := w.extractLsb' 32 24

/-- Field `w1[31:16]`. -/
def Command.half1 (w : Command) : Half := w.extractLsb' 16 16

/-- Field `w1[15:0]`. -/
def Command.half2 (w : Command) : Half := w.extractLsb' 0 16

/-- `w0`, bits 63:32 (R73). -/
def Command.w0 (w : Command) : Word := w.extractLsb' 32 32

/-- `w1`, bits 31:0 (R73). -/
def Command.w1 (w : Command) : Word := w.extractLsb' 0 32

/-- Field `w0[15:8]`, a reverb command's instance (R91). -/
def Command.rField (w : Command) : BitVec 8 := w.extractLsb' 40 8

/-- Field `w0[7:0]`, a reverb command's slot (R91). -/
def Command.uField (w : Command) : BitVec 8 := w.extractLsb' 32 8

/-- A command decodes only if `W AND mask = match` for its row of R84 (R76): every bit outside the fields is 0. -/
def checkRow (w mask value : Command) (i : Instr) : Except DecodeError Instr :=
  if w &&& mask = value then .ok i else .error .reservedBits

/-- The decoder: the opcode first (R80 item 2), then the row's reserved bits (item 3). -/
def decode (w : Command) : Except DecodeError Instr :=
  match w.opcode.toNat with
  | 0x00 => checkRow w 0xFFFFFFFFFFFFFFFF#64 0x0000000000000000#64 .noop
  | 0x01 => checkRow w 0xFFFCFFFF00000000#64 0x0100000000000000#64 (.adpcm w.flagsByte w.w1)
  | 0x02 => checkRow w 0xFFFF0000FFFF0000#64 0x0200000000000000#64 (.clearbuff w.half0 w.half2)
  | 0x03 => checkRow w 0xFFF6FFFF00000000#64 0x0300000000000000#64 (.envmixer w.flagsByte w.w1)
  | 0x04 => checkRow w 0xFFFFFFFF00000000#64 0x0400000000000000#64 (.loadbuff w.w1)
  | 0x05 => checkRow w 0xFFFC000000000000#64 0x0500000000000000#64 (.resample w.flagsByte w.half0 w.w1)
  | 0x06 => checkRow w 0xFFFFFFFF00000000#64 0x0600000000000000#64 (.savebuff w.w1)
  | 0x08 => checkRow w 0xFFF7000000000000#64 0x0800000000000000#64 (.setbuff w.flagsByte w.half0 w.half1 w.half2)
  | 0x09 => checkRow w 0xFFF1000000000000#64 0x0900000000000000#64 (.setvol w.flagsByte w.half0 w.half1 w.half2)
  | 0x0A => checkRow w 0xFFFF000000000000#64 0x0A00000000000000#64 (.dmemmove w.half0 w.half1 w.half2)
  | 0x0B => checkRow w 0xFF00000000000000#64 0x0B00000000000000#64 (.loadadpcm w.low24 w.w1)
  | 0x0C => checkRow w 0xFFFF000000000000#64 0x0C00000000000000#64 (.mixer w.half0 w.half1 w.half2)
  | 0x0D => checkRow w 0xFFFFFFFF00000000#64 0x0D00000000000000#64 (.interleave w.half1 w.half2)
  | 0x0F => checkRow w 0xFFFFFFFF00000000#64 0x0F00000000000000#64 (.setloop w.w1)
  | 0x10 => checkRow w 0xFFFF000000000000#64 0x1000000000000000#64 (.setreg w.half0 w.w1)
  | 0x11 => checkRow w 0xFFFF0000FFFF0000#64 0x1100000000000000#64 (.rbprep w.rField w.uField w.half2)
  | 0x12 => checkRow w 0xFFFF000000000000#64 0x1200000000000000#64 (.rbread w.rField w.uField w.half1 w.half2)
  | 0x13 => checkRow w 0xFFFF000000000000#64 0x1300000000000000#64 (.rbwrite w.rField w.uField w.half1 w.half2)
  | 0x14 => checkRow w 0xFFFF00FFFFFFFFFF#64 0x1400000000000000#64 (.rbframe w.rField)
  | 0x15 => checkRow w 0xFF00000000000000#64 0x1500000000000000#64
      (.interleaveExt (w.low24.extractLsb' 12 12) (w.low24.extractLsb' 0 12) w.w1)
  | _ => .error .reservedOpcode

/-- A word from its opcode, flags byte, `w0[15:0]` and `w1` (R73, R74). -/
def packCommand (op f : BitVec 8) (a : Half) (w1 : Word) : Command := op ++ f ++ a ++ w1

/-- A word from its opcode, `w0[23:0]` and `w1`: the rows of LOADADPCM and INTERLEAVE_EXT (R84). -/
def packWide (op : BitVec 8) (c : BitVec 24) (w1 : Word) : Command := op ++ c ++ w1

/-- The encoder: the word of a command, every reserved bit 0 (R84). -/
def encode : Instr → Command
  | .noop => packCommand 0x00#8 0#8 0#16 0#32
  | .adpcm f addr => packCommand 0x01#8 f 0#16 addr
  | .clearbuff dmem count => packCommand 0x02#8 0#8 dmem (0#16 ++ count)
  | .envmixer f addr => packCommand 0x03#8 f 0#16 addr
  | .loadbuff addr => packCommand 0x04#8 0#8 0#16 addr
  | .resample f pitch addr => packCommand 0x05#8 f pitch addr
  | .savebuff addr => packCommand 0x06#8 0#8 0#16 addr
  | .setbuff f inp out count => packCommand 0x08#8 f inp (out ++ count)
  | .setvol f v t r => packCommand 0x09#8 f v (t ++ r)
  | .dmemmove inp out count => packCommand 0x0A#8 0#8 inp (out ++ count)
  | .loadadpcm count addr => packWide 0x0B#8 count addr
  | .mixer gain inp out => packCommand 0x0C#8 0#8 gain (inp ++ out)
  | .interleave left right => packCommand 0x0D#8 0#8 0#16 (left ++ right)
  | .setloop addr => packCommand 0x0F#8 0#8 0#16 addr
  | .setreg reg value => packCommand 0x10#8 0#8 reg value
  | .rbprep r u len => packCommand 0x11#8 0#8 (r ++ u) (0#16 ++ len)
  | .rbread r u left right => packCommand 0x12#8 0#8 (r ++ u) (left ++ right)
  | .rbwrite r u left right => packCommand 0x13#8 0#8 (r ++ u) (left ++ right)
  | .rbframe r => packCommand 0x14#8 0#8 (r ++ 0#8) 0#32
  | .interleaveExt left right addr => packWide 0x15#8 (left ++ right) addr

/-- The eight bytes of a command in memory, lowest address first: w0 then w1, each in ENDIAN order (R79). -/
def commandBytes (e : Endian) (w : Command) : List Byte :=
  Machine.toBytes e 4 w.w0.toNat ++ Machine.toBytes e 4 w.w1.toNat

/-- The word that eight bytes form (R79). -/
def commandOfBytes (e : Endian) (bs : List Byte) : Command :=
  let w0 : Word := BitVec.ofNat 32 (Machine.ofBytes e (bs.take 4))
  let w1 : Word := BitVec.ofNat 32 (Machine.ofBytes e ((bs.drop 4).take 4))
  w0 ++ w1

/-- The decoder on any list of bytes: the first eight form the word (R73, R79). -/
def decodeBytes (e : Endian) (bs : List Byte) : Except DecodeError Instr :=
  if bs.length < 8 then .error .truncated else decode (commandOfBytes e bs)

/-- The decoder at a row of spec/opcode_table.json: `w` is the 64-bit word W = {w0, w1} as the table's match and mask
columns number it (DEDUCED, log entry 20); bits above `nbits` are 0. The bytes are laid out in the default byte order
and given to `decodeBytes`. -/
def decodeTableWord (nbits w : Nat) : Option Instr :=
  match decodeBytes .little (commandBytes .little (BitVec.ofNat 64 (w % 2 ^ nbits))) with
  | .ok i => some i
  | .error _ => none

end Sys2Proof
end

