-- ==== Sys2Proof/Machine/ReverbCommands.lean ====
section
/-! DEFINITION. The reverb controller's commands SETREG, RBPREP, RBREAD, RBWRITE and RBFRAME (45_reverb.md R165 to
R175). A RING_CONFIG or ILLEGAL_COMMAND fault records the command's own w0 (60_exceptions.md R186), which is the
upper half of its encoding. -/

namespace Sys2Proof.Machine

/-- A write of reverb instance `r`. -/
def putReverb (r : Nat) (rb : Reverb) : M Unit := fun s => .ok () (setReverb s r rb)

/-- SETREG's body (R165). -/
def setregBody (reg : Half) (value : Word) : M Unit := fun s =>
  match reverbCsr s.cfg reg.toNat with
  | some (r, k) => .ok () (writeReverbCsr s r k value)
  | none => .error ⟨.illegalCommand, (encode (.setreg reg value)).w0⟩ s

/-- SETREG (R165). -/
def execSetreg (reg : Half) (value : Word) (s : State) : Host.Outcome State Fault Refusal :=
  perform (setregBody reg value) s

/-- One decimated sample pair: TD sample `src` of both channels into ring index `i` of both channels (R171). -/
def decimatePair (rb : Reverb) (tl tr : Word) (i src : Nat) : M Unit := do
  let l ← extRead16 (addrAdd tl (2 * src))
  extWrite16 (ringAddr rb.lbase i) l
  let r ← extRead16 (addrAdd tr (2 * src))
  extWrite16 (ringAddr rb.rbase i) r

/-- The downsampler: every `RB_DSR`-th TD sample of the item recorded at the same parity and slot, into that item's
ring span (R171). -/
def downsample (r u : Nat) (rb : Reverb) : M Unit := do
  let it ← readItem r u rb
  let s ← get
  let tl := tdAddr s.cfg rb.tdlbase rb.tdstride rb.parity.toNat u
  let tr := tdAddr s.cfg rb.tdrbase rb.tdstride rb.parity.toNat u
  forRange it.lenA.toNat fun k => decimatePair rb tl tr (it.start.toNat + k) (rb.dsr.toNat * k)
  forRange it.lenB.toNat fun k => decimatePair rb tl tr k (rb.dsr.toNat * (it.lenA.toNat + k))

/-- The split of `n` samples at write cursor `w` in a ring of capacity `cap`: segment A, segment B and the new cursor
(R170). -/
def splitSpan (cap w n : Nat) : Nat × Nat × Nat :=
  if w + n < cap then (n, 0, w + n) else (cap - w, w + n - cap, w + n - cap)

/-- The instance after the split: the cursor moved and ITEM[PARITY][u] recorded (R170). -/
def splitRecord (cfg : Params) (u n : Nat) (len : Half) (rb : Reverb) : Reverb :=
  let sp := splitSpan rb.cap.toNat rb.wptr.toNat n
  { rb with
    wptr := BitVec.ofNat 16 sp.2.2
    items := rb.items.set (itemIndex cfg rb.parity.toNat u)
      (some { start := rb.wptr, lenA := BitVec.ofNat 16 sp.1, lenB := BitVec.ofNat 16 sp.2.1,
              nsad := BitVec.ofNat 16 n, chunkLen := len }) }

/-- The deferred downsample, skipped when `RB_DSR = 1` or while RB_IGNORE is nonzero (R169, R163). -/
def deferredDownsample (r u : Nat) (rb : Reverb) : M Unit :=
  if rb.dsr.toNat ≠ 1 ∧ rb.ignore.toNat = 0 then downsample r u rb else pure ()

/-- RBPREP of an instance in use (R169): the overrun check, the deferred downsample, the split. -/
def rbprepUsed (r u : Nat) (len : Half) (rb : Reverb) : M Unit := do
  let n := len.toNat / rb.dsr.toNat
  if rb.cap.toNat < n then raise .ringOverrun (BitVec.ofNat 32 n)
  else do
    deferredDownsample r u rb
    let s ← get
    putReverb r (splitRecord s.cfg u n len rb)

/-- RBPREP's body (R167, R168, R169). -/
def rbprepBody (r u : BitVec 8) (len : Half) : M Unit := do
  let rb? ← reverbCheck r.toNat u.toNat (encode (.rbprep r u len)).w0
  match rb? with
  | none => pure ()
  | some rb => rbprepUsed r.toNat u.toNat len rb

/-- RBPREP (R169). -/
def execRbprep (r u : BitVec 8) (len : Half) (s : State) : Host.Outcome State Fault Refusal :=
  perform (rbprepBody r u len) s

/-- Ring samples `i .. i+n-1` at `base` into scratch from `a` (R173). -/
def ringToScratch (base : Word) (i : Nat) (a : Int) (n : Nat) : M Unit :=
  forRange n fun k => do
    let v ← extRead16 (ringAddr base (i + k))
    sWrite16 (a + 2 * k) v

/-- `n` scratch samples from `a` into ring samples `i ..` at `base` (R174). -/
def scratchToRing (base : Word) (i : Nat) (a : Int) (n : Nat) : M Unit :=
  forRange n fun k => do
    let v ← sRead16 (a + 2 * k)
    extWrite16 (ringAddr base (i + k)) v

/-- RBREAD of an instance in use: segment A of both channels, then segment B of both (R173). -/
def rbreadUsed (r u : Nat) (left right : Int) (rb : Reverb) : M Unit := do
  let it ← readItem r u rb
  ringToScratch rb.lbase it.start.toNat left it.lenA.toNat
  ringToScratch rb.rbase it.start.toNat right it.lenA.toNat
  ringToScratch rb.lbase 0 (left + 2 * it.lenA.toNat) it.lenB.toNat
  ringToScratch rb.rbase 0 (right + 2 * it.lenA.toNat) it.lenB.toNat

/-- RBREAD's body (R167, R168, R173). -/
def rbreadBody (r u : BitVec 8) (left right : Half) : M Unit := do
  let rb? ← reverbCheck r.toNat u.toNat (encode (.rbread r u left right)).w0
  match rb? with
  | none => pure ()
  | some rb => rbreadUsed r.toNat u.toNat left.toNat right.toNat rb

/-- RBREAD (R173). -/
def execRbread (r u : BitVec 8) (left right : Half) (s : State) : Host.Outcome State Fault Refusal :=
  perform (rbreadBody r u left right) s

/-- RBWRITE of an instance in use: into the ring with RB_DSR = 1, else the raw chunk into the TD buffers (R174). -/
def rbwriteUsed (r u : Nat) (left right : Int) (rb : Reverb) : M Unit := do
  let it ← readItem r u rb
  let s ← get
  if rb.dsr.toNat = 1 then do
    scratchToRing rb.lbase it.start.toNat left it.lenA.toNat
    scratchToRing rb.rbase it.start.toNat right it.lenA.toNat
    scratchToRing rb.lbase 0 (left + 2 * it.lenA.toNat) it.lenB.toNat
    scratchToRing rb.rbase 0 (right + 2 * it.lenA.toNat) it.lenB.toNat
  else do
    scratchToRing (tdAddr s.cfg rb.tdlbase rb.tdstride rb.parity.toNat u) 0 left it.chunkLen.toNat
    scratchToRing (tdAddr s.cfg rb.tdrbase rb.tdstride rb.parity.toNat u) 0 right it.chunkLen.toNat

/-- RBWRITE's body (R167, R168, R174). -/
def rbwriteBody (r u : BitVec 8) (left right : Half) : M Unit := do
  let rb? ← reverbCheck r.toNat u.toNat (encode (.rbwrite r u left right)).w0
  match rb? with
  | none => pure ()
  | some rb => rbwriteUsed r.toNat u.toNat left.toNat right.toNat rb

/-- RBWRITE (R174). -/
def execRbwrite (r u : BitVec 8) (left right : Half) (s : State) : Host.Outcome State Fault Refusal :=
  perform (rbwriteBody r u left right) s

/-- An instance after the end of a frame: RB_IGNORE counts down to 0, RB_PARITY flips (R175). -/
def frameEnd (rb : Reverb) : Reverb :=
  { rb with
    ignore := if rb.ignore = 0 then 0 else rb.ignore - 1
    parity := 1 - rb.parity }

/-- RBFRAME's body (R175): only the instance number is checked, USE is not read. -/
def rbframeBody (r : BitVec 8) : M Unit := fun s =>
  if s.cfg.numReverb ≤ r.toNat then .error ⟨.ringConfig, (encode (.rbframe r)).w0⟩ s
  else .ok () (setReverb s r.toNat (frameEnd (reverbAt s r.toNat)))

/-- RBFRAME (R175). -/
def execRbframe (r : BitVec 8) (s : State) : Host.Outcome State Fault Refusal := perform (rbframeBody r) s

end Sys2Proof.Machine
end

