-- ==== Sys2Proof/Machine/Transfer.lean ====
section
/-! DEFINITION. The table-load and scratch-transfer commands CLEARBUFF, DMEMMOVE, LOADADPCM, LOADBUFF and SAVEBUFF
(40_context_and_scratch.md R102 to R106), with the length granules of 20_memory.md R53. -/

namespace Sys2Proof.Machine

/-- CLEARBUFF's body (R102): `ru(count, 16)` zero bytes from `dmem`. -/
def clearbuffBody (dmem count : Half) : M Unit :=
  forRange (ru count.toNat 16) fun k => sWrite8 (dmem.toNat + k) 0

/-- CLEARBUFF (R102). -/
def execClearbuff (dmem count : Half) (s : State) : Host.Outcome State Fault Refusal :=
  perform (clearbuffBody dmem count) s

/-- DMEMMOVE's body (R103): every source byte is read into the temporary T before any is written. -/
def dmemmoveBody (inp out count : Half) : M Unit := do
  let t ← collect (ru count.toNat 16) fun k => sRead8 (inp.toNat + k)
  forRange (ru count.toNat 16) fun k => sWrite8 (out.toNat + k) (t.getD k 0)

/-- DMEMMOVE (R103). -/
def execDmemmove (inp out count : Half) (s : State) : Host.Outcome State Fault Refusal :=
  perform (dmemmoveBody inp out count) s

/-- LOADADPCM's body (R104): the count check before any access, then one byte per access. -/
def loadadpcmBody (count : BitVec 24) (addr : Word) : M Unit :=
  if 256 < count.toNat then raise .bookOverflow (count.setWidth 32)
  else forRange count.toNat fun k => do
    let b ← memRead (addrAdd addr k) 1
    bookWrite k (BitVec.ofNat 8 b)

/-- LOADADPCM (R104). -/
def execLoadadpcm (count : BitVec 24) (addr : Word) (s : State) : Host.Outcome State Fault Refusal :=
  perform (loadadpcmBody count addr) s

/-- LOADBUFF's body (R105): each k reads its external byte, then writes its scratch byte. -/
def loadbuffBody (addr : Word) : M Unit := do
  let i ← readIn
  let c ← readCount
  forRange (ru c.toNat 8) fun k => do
    let b ← memRead (addrAdd addr k) 1
    sWrite8 (i.toNat + k) (BitVec.ofNat 8 b)

/-- LOADBUFF (R105). -/
def execLoadbuff (addr : Word) (s : State) : Host.Outcome State Fault Refusal := perform (loadbuffBody addr) s

/-- SAVEBUFF's body (R106): each k reads its scratch byte, then writes its external byte. -/
def savebuffBody (addr : Word) : M Unit := do
  let o ← readOut
  let c ← readCount
  forRange (ru c.toNat 8) fun k => do
    let b ← sRead8 (o.toNat + k)
    memWrite (addrAdd addr k) 1 b.toNat

/-- SAVEBUFF (R106). -/
def execSavebuff (addr : Word) (s : State) : Host.Outcome State Fault Refusal := perform (savebuffBody addr) s

end Sys2Proof.Machine
end

