-- ==== Sys2Proof/Machine/Dispatch.lean ====
section
/-! DEFINITION. The meaning of each command, one arm per constructor. -/

namespace Sys2Proof.Machine

/-- A command performed at a state: it completes, or its fault is taken (40_context_and_scratch.md R97). -/
def exec (i : Instr) (s : State) : Host.Outcome State Fault Refusal :=
  match i with
  | .noop => Sys2Proof.Machine.execNoop s
  | .adpcm flags addr => Sys2Proof.Machine.execAdpcm flags addr s
  | .clearbuff dmem count => Sys2Proof.Machine.execClearbuff dmem count s
  | .envmixer flags addr => Sys2Proof.Machine.execEnvmixer flags addr s
  | .loadbuff addr => Sys2Proof.Machine.execLoadbuff addr s
  | .resample flags pitch addr => Sys2Proof.Machine.execResample flags pitch addr s
  | .savebuff addr => Sys2Proof.Machine.execSavebuff addr s
  | .setbuff flags inp out count => Sys2Proof.Machine.execSetbuff flags inp out count s
  | .setvol flags v t r => Sys2Proof.Machine.execSetvol flags v t r s
  | .dmemmove inp out count => Sys2Proof.Machine.execDmemmove inp out count s
  | .loadadpcm count addr => Sys2Proof.Machine.execLoadadpcm count addr s
  | .mixer gain inp out => Sys2Proof.Machine.execMixer gain inp out s
  | .interleave left right => Sys2Proof.Machine.execInterleave left right s
  | .setloop addr => Sys2Proof.Machine.execSetloop addr s
  | .setreg reg value => Sys2Proof.Machine.execSetreg reg value s
  | .rbprep r u len => Sys2Proof.Machine.execRbprep r u len s
  | .rbread r u left right => Sys2Proof.Machine.execRbread r u left right s
  | .rbwrite r u left right => Sys2Proof.Machine.execRbwrite r u left right s
  | .rbframe r => Sys2Proof.Machine.execRbframe r s
  | .interleaveExt left right addr => Sys2Proof.Machine.execInterleaveExt left right addr s

end Sys2Proof.Machine
end

