-- ==== Sys2Proof/Machine/Fetch.lean ====
section
/-! DEFINITION. The command fetch (30_encoding.md R79), and the placing of one command where the next step fetches. -/

namespace Sys2Proof.Machine

/-- The address of the command at CP: `(CMD_BASE + 8*CP) mod 2^32` (10_state.md R21). -/
def fetchAddr (s : State) : Word := s.cmdBase + 8#32 * s.cp

/-- The fetch: w0 from the lower address, then w1, each in ENDIAN order (R79). -/
def fetch : M Command := do
  let s ← get
  let w0 ← memRead (fetchAddr s) 4
  let w1 ← memRead (addrAdd (fetchAddr s) 4) 4
  pure (BitVec.ofNat 32 w0 ++ BitVec.ofNat 32 w1)

/-- The parameters with EXT_ADMIT admitting the fetch at `a`: unchanged when it does. -/
def admittingFetch (cfg : Params) (a : Word) : Params :=
  if extAdmits cfg a 4 .read && extAdmits cfg (addrAdd a 4) 4 .read then cfg else { cfg with refused := [] }

/-- `s` with command `w` loaded where CP points and the block BUSY, so that the next step runs it: what the host's
load of a command list, its write of CMD_COUNT and its GO would have left (60_exceptions.md R202; log entry 7). -/
def loadCommand (s : State) (w : Command) : State :=
  { s with
    cfg := admittingFetch s.cfg (fetchAddr s)
    ext := storeExt s.ext (fetchAddr s) (commandBytes s.cfg.endian w)
    cmdCount := if s.cp = s.cmdCount then s.cmdCount + 1 else s.cmdCount
    status := ⟨true, false, false⟩
    host := []
    raced := []
    past := [] }

end Sys2Proof.Machine
end

