-- ==== Sys2Proof/Machine/Flags.lean ====
section
/-! DEFINITION. The block's only flags: the bits of STATUS, and the interrupt output computed from them (10_state.md
R22, R42; 60_exceptions.md R191). No command computes a condition code; saturation leaves no flag (R42). -/

namespace Sys2Proof.Machine

/-- STATUS as the host reads it: BUSY bit 0, DONE bit 1, FAULT bit 2, bits 31:3 hardwired 0 (10_state.md R22). -/
def Status.toWord (st : Status) : Word :=
  0#29 ++ BitVec.ofBool st.fault ++ BitVec.ofBool st.done ++ BitVec.ofBool st.busy

/-- The level-sensitive interrupt output, `IRQ = STATUS.DONE or STATUS.FAULT` (60_exceptions.md R191). -/
def State.irq (s : State) : Bool := s.status.done || s.status.fault

/-- The run ends successfully when CP = CMD_COUNT: BUSY <- 0 and DONE <- 1 (60_exceptions.md R198). A state that is
not BUSY, or has commands left, is unchanged. -/
def endOfRun (s : State) : State :=
  if s.status.busy && s.cp == s.cmdCount then
    { s with status := { s.status with busy := false, done := true } }
  else s

end Sys2Proof.Machine
end

