-- ==== Sys2Proof/Machine/HostPort.lean ====
section
/-! DEFINITION. The host's side of the block: CSR reads and writes (10_state.md R43; 60_exceptions.md R201), GO (R200),
external memory (20_memory.md R69; 60_exceptions.md R202) and reset (70_reset_and_hazards.md R206, R207). -/

namespace Sys2Proof.Machine

/-- A 16-bit register as a 32-bit read: the bits above its width read 0 (93 U23). -/
def halfRead (v : Option Half) : Option Word := v.map fun x => x.setWidth 32

/-- The context register at CSR `n`: none outside the context, `some none` when it is unwritten (10_state.md R24). -/
def contextCsr (c : Context) (n : Nat) : Option (Option Word) :=
  match n with
  | 0x010 => some (halfRead c.inp)
  | 0x011 => some (halfRead c.out)
  | 0x012 => some (halfRead c.count)
  | 0x013 => some (halfRead c.dryRight)
  | 0x014 => some (halfRead c.wetLeft)
  | 0x015 => some (halfRead c.wetRight)
  | 0x016 => some (halfRead c.volL)
  | 0x017 => some (halfRead c.volR)
  | 0x018 => some (halfRead c.targetL)
  | 0x019 => some (halfRead c.targetR)
  | 0x01A => some c.rateL
  | 0x01B => some c.rateR
  | 0x01C => some (halfRead c.volDry)
  | 0x01D => some (halfRead c.volWet)
  | 0x01E => some c.loopAddr
  | _ => none

/-- The run-control register at CSR `n` (10_state.md R43). -/
def controlCsr (s : State) (n : Nat) : Option Word :=
  match n with
  | 0x000 => some s.status.toWord
  | 0x001 => some (s.faultCause.setWidth 32)
  | 0x002 => some s.faultCp
  | 0x003 => some s.faultInfo
  | 0x004 => some s.cmdBase
  | 0x005 => some s.cmdCount
  | 0x006 => some s.cp
  | _ => none

/-- Field `f` of an item: VALID is always readable, the others are unwritten while VALID = 0 (10_state.md R41). -/
def itemField (it : Option Item) (f : Nat) : Option Word :=
  match f with
  | 5 => some (if it.isSome then 1 else 0)
  | 0 => it.map fun x => x.start.setWidth 32
  | 1 => it.map fun x => x.lenA.setWidth 32
  | 2 => it.map fun x => x.lenB.setWidth 32
  | 3 => it.map fun x => x.nsad.setWidth 32
  | 4 => it.map fun x => x.chunkLen.setWidth 32
  | _ => some 0

/-- The item field at CSR `n`: none when `n` names no item of an instance below NUM_REVERB (10_state.md R41, R43). -/
def itemCsr (s : State) (n : Nat) : Option (Option Word) :=
  if 0x800 ≤ n ∧ (n - 0x800) / 0x200 < s.cfg.numReverb ∧ (n - 0x800) % 0x200 / 8 < 2 * s.cfg.maxChunks then
    some (itemField (((reverbAt s ((n - 0x800) / 0x200)).items[(n - 0x800) % 0x200 / 8]?).getD none) (n % 8))
  else none

/-- What a host read of CSR `n` finds: a value, or none for an unwritten register. An unassigned number reads 0
(10_state.md R43). -/
def csrValue (s : State) (n : Nat) : Option Word :=
  match controlCsr s n with
  | some v => some v
  | none =>
    match contextCsr s.ctx n with
    | some v => v
    | none =>
      match reverbCsr s.cfg n with
      | some (r, k) => some (readField (reverbAt s r) k)
      | none =>
        match itemCsr s n with
        | some v => v
        | none => some 0

/-- A draw for CSR `n`, cut to the register's width: RATE_L, RATE_R and LOOP_ADDR have 32 bits, every other register
that can be unwritten has 16 (10_state.md R24, R25, R41; 93 U23, U26). -/
def drawFor (n draw : Nat) : Word :=
  if n = 0x01A ∨ n = 0x01B ∨ n = 0x01E then Config.freeRead draw
  else ((Config.freeRead draw).setWidth 16).setWidth 32

/-- A host read of CSR `n` (60_exceptions.md R201; 10_state.md R25): what it returns is left in `readData`; an
unwritten register gives a fresh draw. -/
def hostReadCsr (n : Nat) (s : State) : State :=
  match csrValue s n with
  | some v => { s with readData := v }
  | none => { s with readData := drawFor n s.draws, draws := s.draws + 1 }

/-- The GO request (60_exceptions.md R200): ignored while BUSY or FAULT; DONE cleared; an unaligned CMD_BASE faults
CMD_ALIGN with CP 0; else CP 0 and BUSY 1, no byte raced yet (20_memory.md R69), and a run of no commands ends at once
(R198). -/
def go (s : State) : State :=
  if s.status.busy || s.status.fault then s
  else if s.cmdBase.toNat % 8 ≠ 0 then
    takeFault ⟨.cmdAlign, s.cmdBase⟩ { s with status := { s.status with done := false }, cp := 0 }
  else endOfRun
    { s with status := { s.status with busy := true, done := false }, cp := 0, raced := [], past := [] }

/-- A host write of CSR `n` (10_state.md R43; 45_reverb.md R166; 60_exceptions.md R200, R201): ignored while BUSY;
STATUS bit 0 requests GO; CMD_BASE, CMD_COUNT and the controller registers take the value; the rest ignore it. -/
def hostWriteCsr (n : Nat) (v : Word) (s : State) : State :=
  if s.status.busy then s
  else
    match n with
    | 0x000 => if v.getLsbD 0 then go s else s
    | 0x004 => { s with cmdBase := v }
    | 0x005 => { s with cmdCount := v }
    | _ =>
      match reverbCsr s.cfg n with
      | some (r, k) => writeReverbCsr s r k v
      | none => s

/-- The scratch after reset number `n`: all zero, or one draw a byte (70_reset_and_hazards.md R207). -/
def scratchAtReset (cfg : Params) (n : Nat) : Memory :=
  match cfg.scratchReset with
  | .zero => []
  | .unspecified =>
    (List.range cfg.scratchBytes).foldl (fun m k => Memory.write m k (Config.freeScratch n k)) []

/-- The number of the next draw after a reset. -/
def drawsAfterReset (cfg : Params) (n : Nat) : Nat :=
  match cfg.scratchReset with
  | .zero => n
  | .unspecified => n + 1

/-- Reset of the block (70_reset_and_hazards.md R206, 10_state.md R44): every piece of block state takes its reset
value; the parameters and external memory stay (R209). -/
def resetBlock (s : State) : State :=
  { State.reset with
    cfg := s.cfg
    scratch := scratchAtReset s.cfg s.draws
    reverb := List.replicate s.cfg.numReverb (Reverb.atReset s.cfg.maxChunks)
    ext := s.ext
    host := s.host
    readData := s.readData
    draws := drawsAfterReset s.cfg s.draws }

/-- A host reset move: refused while BUSY (70_reset_and_hazards.md R206, 93 U39). -/
def hostReset (s : State) : Host.Outcome State Fault Refusal :=
  if s.status.busy then .refused .resetWhileBusy else .next (resetBlock s)

/-- A host write of one external byte. While BUSY the block's later reads of it race: they return the value replaced,
the value written or the byte as it then stands (20_memory.md R69; log entry 8). Where the block writes the byte too,
which R69 does not speak of, the later of the two writes stands (DESIGN CHOICE: log entry 28). -/
def hostWriteExt (a : Word) (b : Byte) (s : State) : State :=
  if s.status.busy then
    { s with
      ext := s.ext.write a.toNat b
      raced := (a.toNat, s.ext.read a.toNat) :: (a.toNat, b) :: s.raced
      past := s.past.map fun m => m.write a.toNat b }
  else { s with ext := s.ext.write a.toNat b }

/-- A host read of one external byte. While BUSY it returns the byte as it stands or as it stood at a command boundary
of this run: a byte no command has written reads as it stands, one a command wrote reads the old or the new value
(20_memory.md R69; log entry 8). -/
def hostReadExt (a : Word) (s : State) : State :=
  if s.status.busy then
    { s with
      readData := (drawnFrom s.draws (s.ext.read a.toNat) (s.past.map fun m => m.read a.toNat)).setWidth 32
      draws := s.draws + 1 }
  else { s with readData := (s.ext.read a.toNat).setWidth 32 }

/-- A command boundary of a run put on record for the host's reads to come (20_memory.md R69; log entry 8). -/
def recordBoundary (s : State) : State :=
  if s.status.busy then { s with past := s.ext :: s.past } else s

end Sys2Proof.Machine
end

