-- ==== Sys2Proof/Machine/Step.lean ====
section
/-! DEFINITION. One step of the machine: the host's next move, or the block's next command (60_exceptions.md R197,
R200). -/

namespace Sys2Proof.Machine

/-- The run's end is checked when a command has completed (60_exceptions.md R198); a taken fault has cleared BUSY. -/
def afterCommand : Host.Outcome State Fault Refusal → Host.Outcome State Fault Refusal
  | .next u => .next (endOfRun u)
  | .fault r => .fault r
  | .refused r => .refused r

/-- The command word `w` run at `s`: an illegal word faults with its w0 (30_encoding.md R76, R78, R80). -/
def runWord (w : Command) (s : State) : Host.Outcome State Fault Refusal :=
  match decode w with
  | .ok i => afterCommand (exec i s)
  | .error _ => .next (takeFault ⟨.illegalCommand, w.w0⟩ s)

/-- One step of the block: an idle or halted block changes nothing (60_exceptions.md R188, R197); a BUSY block with
no command left ends the run (R198), else fetches, decodes and performs the command at CP (30_encoding.md R80). -/
def blockStep (s : State) : Host.Outcome State Fault Refusal :=
  if s.status.busy then
    if s.cp = s.cmdCount then .next (endOfRun s)
    else
      match fetch s with
      | .ok w t => runWord w t
      | .error e t => .next (takeFault e t)
  else .next s

/-- One step of the machine: the host's next move while the list names one, else the block's step (log entry 6). A
block step under a host that is still there puts the boundary before it on record (log entry 8). -/
def step (s : State) : Host.Outcome State Fault Refusal :=
  match s.host with
  | [] => blockStep s
  | .idle :: rest => blockStep (recordBoundary { s with host := rest })
  | .readCsr n :: rest => .next (hostReadCsr n { s with host := rest })
  | .writeCsr n v :: rest => .next (hostWriteCsr n v { s with host := rest })
  | .readExt a :: rest => .next (hostReadExt a { s with host := rest })
  | .writeExt a b :: rest => .next (hostWriteExt a b { s with host := rest })
  | .reset :: rest => hostReset { s with host := rest }

/-- `s` with the command of table word `w` (W = w0 and w1 as one 64-bit number, bits above `nbits` zero) placed where
the next step fetches, and the block BUSY (log entries 7, 20). -/
def State.withFetchWord (s : State) (nbits w : Nat) : State := loadCommand s (BitVec.ofNat 64 (w % 2 ^ nbits))

end Sys2Proof.Machine
end

