-- ==== Sys2Proof/Safety.lean ====
section
/-! DEFINITION. The terms the statements use: which scratch and external accesses are admitted, what a state reads at
an address, which bytes a command may touch, and what a sound state of the machine is. -/

namespace Sys2Proof.Machine

/-! ### Admitted operands -/

/-- The `n` bytes from scratch offset `a` lie in the scratch; nothing is asked when there are none
(20_memory.md R46). -/
def State.holds (s : State) (a n : Nat) : Prop := n = 0 ∨ a + n ≤ s.cfg.scratchBytes

/-- The `n` samples from scratch offset `a` are aligned and lie in the scratch; nothing is asked when there are none
(20_memory.md R46, R48). -/
def State.holdsSamples (s : State) (a n : Nat) : Prop := n = 0 ∨ a % 2 = 0 ∧ a + 2 * n ≤ s.cfg.scratchBytes

/-- The `n` bytes from external address `a` may be read in one access (00_scope.md R16), and the host has written none
of them during the run, so that the read does not race (20_memory.md R69). -/
def State.mayRead (s : State) (a : Word) (n : Nat) : Prop := extAdmits s.cfg a n .read = true ∧ quiet s a n = true

/-- The `n` accesses of `w` bytes each from external address `a` upward may be read. -/
def State.readable (s : State) (a : Word) (w n : Nat) : Prop := ∀ k, k < n → s.mayRead (addrAdd a (w * k)) w

/-- The `n` accesses of `w` bytes each from external address `a` upward may be written: admitted, and outside the
command list (00_scope.md R16, 20_memory.md R67). -/
def State.writable (s : State) (a : Word) (w n : Nat) : Prop :=
  ∀ k, k < n → extAdmits s.cfg (addrAdd a (w * k)) w .write = true ∧
    overlapsCommandList s (addrAdd a (w * k)) w = false

/-! ### What a state reads -/

/-- Byte `i` of external memory from `a`, mod 2^32 (20_memory.md R62). -/
def State.extByte (s : State) (a : Word) (i : Nat) : Byte := Memory.read s.ext (addrAdd a i).toNat

/-- The signed 16-bit value at external address `a` (00_scope.md R18, ExtRead16). -/
def State.extSample (s : State) (a : Word) : Int := sext16 (ofBytes s.cfg.endian (extBytes s a 2))

/-- The signed 32-bit value at external address `a` (00_scope.md R18, ExtRead32). -/
def State.extLong (s : State) (a : Word) : Int := sext32 (ofBytes s.cfg.endian (extBytes s a 4))

/-- The coefficient `coef(p, r, j)` (10_state.md R27), an unwritten byte taken as 0. -/
def State.bookCoef (s : State) (p r j : Nat) : Int :=
  sext16 (ofBytes s.cfg.endian
    [(Book.read s.book (coefOffset p r j)).getD 0, (Book.read s.book (coefOffset p r j + 1)).getD 0])

/-- Both rows of predictor entry `p` are written in the book (10_state.md R27). -/
def State.predictorLoaded (s : State) (p : Nat) : Prop :=
  ∀ k, k < 32 → (Book.read s.book (32 * p + k)).isSome = true

/-! ### Which bytes -/

/-- `x` is one of the `n` offsets from `a`. -/
def inSpan (a n x : Nat) : Prop := a ≤ x ∧ x < a + n

/-- `x` is one of the `n` external addresses from `a`, mod 2^32. -/
def inExtSpan (a : Word) (n x : Nat) : Prop := ∃ i, i < n ∧ x = (addrAdd a i).toNat

/-- `t` is `s` but for the scratch bytes of `P` and the external bytes of `Q`: every register, every other byte of
both memories and everything else is as it was. -/
structure Changed (s t : State) (P Q : Nat → Prop) : Prop where
  rest : t = { s with scratch := t.scratch, ext := t.ext }
  scratch : ∀ x, ¬ P x → Memory.read t.scratch x = Memory.read s.scratch x
  ext : ∀ x, ¬ Q x → Memory.read t.ext x = Memory.read s.ext x

/-- No byte. -/
def noByte : Nat → Prop := fun _ => False

/-- The two spans of `n` scratch bytes share none. -/
def apart (a n b m : Nat) : Prop := a + n ≤ b ∨ b + m ≤ a

/-- The two spans of external bytes share none. -/
def extApart (a : Word) (n : Nat) (b : Word) (m : Nat) : Prop :=
  ∀ i j, i < n → j < m → addrAdd a i ≠ addrAdd b j

/-! ### ADPCM (41_adpcm.md R109 to R112) -/

/-- Delta `q` of the packet whose first byte is at scratch offset `src` (R109). -/
def State.packetDelta (s : State) (src q : Nat) : Int :=
  let b := (Memory.read s.scratch (src + 1 + q / 2)).toNat
  scaledDelta (if q % 2 = 0 then b / 16 else b % 16) ((Memory.read s.scratch src).toNat / 16)

/-- The predictor index of the packet at scratch offset `src` (R109). -/
def State.packetPredictor (s : State) (src : Nat) : Nat := (Memory.read s.scratch src).toNat % 16

/-- Output `j` of a half: shifted, then saturated (R111, R112). -/
def adpcmOutput (coefficient : Nat → Nat → Int) (prev1 prev2 : Int) (d : Nat → Int) (j : Nat) : Int :=
  sat16 (asr (coefficient 0 j * prev2 + coefficient 1 j * prev1 + d j * 2 ^ 11
    + ((List.range j).map fun k => coefficient 1 (j - k - 1) * d k).sum) 11)

/-- The eight outputs of half `h` of the packet at `src` of `s` stand in `t` from scratch offset `e`, computed from the
two samples in front of them in `t` (R111). -/
def halfDecoded (s t : State) (src h e : Nat) : Prop :=
  ∀ j, j < 8 → scratchSample t (e + 2 * j) =
    adpcmOutput (s.bookCoef (s.packetPredictor src)) (scratchSample t (e - 2)) (scratchSample t (e - 4))
      (fun k => s.packetDelta src (8 * h + k)) j

/-- Where the history comes from (41_adpcm.md R110). -/
def State.adpcmSource (s : State) (flags : BitVec 8) (addr : Word) : Word :=
  if flagLoop flags then s.ctx.loopAddr.getD 0 else addr

/-- Sample `k` of the history prefix (41_adpcm.md R110). -/
def State.adpcmHistory (s : State) (flags : BitVec 8) (addr : Word) (k : Nat) : Int :=
  if flagInit flags then 0 else s.extSample (addrAdd (s.adpcmSource flags addr) (2 * k))

/-! ### INTERLEAVE (44_mix_interleave.md R153) -/

/-- What a group of INTERLEAVE reads at offset `a`: an output of an earlier group where the ranges overlap so, else
what was there before the command (44_mix_interleave.md R153). -/
def interleaveSource (s t : State) (o g a : Nat) : Int :=
  if o ≤ a ∧ a < o + 32 * g then scratchSample t a else scratchSample s a

/-! ### RESAMPLE (42_resample.md R121 to R126) -/

/-- The history RESAMPLE starts from: zero under INIT, else the record at `addr` (R121). -/
def State.resampleHistory (s : State) (flags : BitVec 8) (addr : Word) : ResampleHistory :=
  if flagInit flags then { h := [0, 0, 0, 0], pacc := 0, ofs := 0, rh := [] }
  else
    { h := (List.range 4).map fun k => s.extSample (addrAdd addr (2 * k))
      pacc := mod16 (s.extSample (addrAdd addr 8))
      ofs := mod16 (s.extSample (addrAdd addr 10)) % 8
      rh := (List.range 8).map fun k => s.extSample (addrAdd addr (16 + 2 * k)) }

/-- The window pointer before the first output (R122), as an offset. -/
def windowOffset (flags : BitVec 8) (inp : Nat) (hist : ResampleHistory) : Nat :=
  if flagRestart flags then inp + 2 * hist.ofs - 24 else inp - 8

/-- The scratch bytes the window set-up writes: the history, and with RESTART the 16 bytes below IN (R122). -/
def windowBytes (flags : BitVec 8) (inp : Nat) (hist : ResampleHistory) (x : Nat) : Prop :=
  inSpan (windowOffset flags inp hist) 8 x ∨ flagRestart flags = true ∧ inSpan (inp - 16) 16 x

/-- The window fits below IN: IN is even, and no offset of R122's falls below 0. With RESTART that admits an IN from 16 to
23 when OFS is large enough, where 70_reset_and_hazards.md R215 has the command fault (DEDUCED: log entry 27). -/
def windowFits (flags : BitVec 8) (inp : Nat) (hist : ResampleHistory) : Prop :=
  inp % 2 = 0 ∧ if flagRestart flags then 16 ≤ inp ∧ 24 ≤ inp + 2 * hist.ofs else 8 ≤ inp

/-- The sample at offset `a` after the window set-up: the history, else a restart sample, else what was there
(R122). -/
def State.windowSample (s : State) (flags : BitVec 8) (inp : Nat) (hist : ResampleHistory) (a : Nat) : Int :=
  if windowOffset flags inp hist ≤ a ∧ a < windowOffset flags inp hist + 8 then
    hist.h.getD ((a - windowOffset flags inp hist) / 2) 0
  else if flagRestart flags = true ∧ inp - 16 ≤ a ∧ a < inp then hist.rh.getD ((a - (inp - 16)) / 2) 0
  else scratchSample s a

/-- The sample output `n` finds at offset `a`: an earlier output of the command, which `t` holds, else what the window
set-up left (R123, 20_memory.md R59, R61). -/
def State.resampleSource (s t : State) (flags : BitVec 8) (inp out : Nat) (hist : ResampleHistory) (n a : Nat) : Int :=
  if out ≤ a ∧ a < out + 2 * n then scratchSample t a else s.windowSample flags inp hist a

/-- What the filter of output `n` takes: its four window samples (42_resample.md R123). -/
def State.resampleTaps (s t : State) (flags : BitVec 8) (inp out : Nat) (hist : ResampleHistory) (n w : Nat) :
    List Int :=
  (List.range 4).map fun k => s.resampleSource t flags inp out hist n (w + 2 * k)

/-- The window pointer of output `n`: moved by the carries of the pitch accumulator (R123, R125). -/
def windowAt (w0 pacc pitch n : Nat) : Nat := w0 + 2 * ((pacc + 2 * pitch * n) / 65536)

/-- The pitch accumulator at output `n` (R125). -/
def paccAt (pacc pitch n : Nat) : Nat := (pacc + 2 * pitch * n) % 65536

/-- The bytes the state save writes: words 0 to 5 and 8 to 15 (42_resample.md R126). -/
def resampleRecordBytes (addr : Word) (x : Nat) : Prop := inExtSpan addr 12 x ∨ inExtSpan (addrAdd addr 16) 16 x

/-- Where the saved restart history starts, when `w` is the window pointer after the last output (R126). -/
def restartOffset (inp w : Nat) : Nat := (((w + 8 : Nat) : Int) - 2 * savedOffset inp w).toNat

/-! ### ENVMIXER (43_envmix.md R135 to R142) -/

/-- The record at `addr` (R134, R136). -/
def State.envRecord (s : State) (addr : Word) : EnvState :=
  { left :=
      { vacc := (List.range 8).map fun i => s.extLong (addrAdd addr (4 * i))
        tgt := s.extSample (addrAdd addr 64)
        rt := joinRate (s.extSample (addrAdd addr 66)) (s.extSample (addrAdd addr 68)) }
    right :=
      { vacc := (List.range 8).map fun i => s.extLong (addrAdd addr (32 + 4 * i))
        tgt := s.extSample (addrAdd addr 70)
        rt := joinRate (s.extSample (addrAdd addr 72)) (s.extSample (addrAdd addr 74)) }
    vd := s.extSample (addrAdd addr 76)
    vw := s.extSample (addrAdd addr 78) }

/-- The state INIT builds from the volume registers, an unwritten one taken as 0 (R135). -/
def Context.envInit (c : Context) : EnvState :=
  { left := envInitChannel (c.volL.getD 0).toInt (c.rateL.getD 0).toInt (c.targetL.getD 0).toInt
    right := envInitChannel (c.volR.getD 0).toInt (c.rateR.getD 0).toInt (c.targetR.getD 0).toInt
    vd := (c.volDry.getD 0).toInt
    vw := (c.volWet.getD 0).toInt }

/-- The eight volume registers are written (10_state.md R25). -/
def Context.volumesWritten (c : Context) : Prop :=
  c.volL.isSome = true ∧ c.rateL.isSome = true ∧ c.targetL.isSome = true ∧ c.volR.isSome = true ∧
    c.rateR.isSome = true ∧ c.targetR.isSome = true ∧ c.volDry.isSome = true ∧ c.volWet.isSome = true

/-- The envelope state the command starts from (R135, R136). -/
def State.envStart (s : State) (flags : BitVec 8) (addr : Word) : EnvState :=
  if flagInit flags then s.ctx.envInit else s.envRecord addr

/-- The accumulator of lane `i` before the clamp of group `g` (R138): the ramp alone moves it, never a sample. -/
def EnvChannel.accumulator (c : EnvChannel) (i : Nat) : Nat → Int
  | 0 => c.vacc.getD i 0
  | g + 1 => envRamp c.rt (envClamp c.rt c.tgt (c.accumulator i g))

/-- The volume of lane `i` in group `g` (R138, R139). -/
def EnvChannel.volume (c : EnvChannel) (i g : Nat) : Int := asr (envClamp c.rt c.tgt (c.accumulator i g)) 16

/-- A channel's destinations: the dry buffer, and the wet one when AUX is set (R137). -/
def destinations (dry : Nat) (wet : Option Nat) (n x : Nat) : Prop :=
  inSpan dry n x ∨ ∃ w, wet = some w ∧ inSpan w n x

/-- The wet buffers, when AUX is set (43_envmix.md R137). -/
def Context.wetBuffers (c : Context) (flags : BitVec 8) : Option (Nat × Nat) :=
  if flagAux flags then some ((c.wetLeft.getD 0).toNat, (c.wetRight.getD 0).toNat) else none

/-- The channel's buffers lie apart from one another and from the input over `n` bytes. -/
def channelApart (inp dry : Nat) (wet : Option Nat) (n : Nat) : Prop :=
  apart inp n dry n ∧ ∀ w, wet = some w → apart inp n w n ∧ apart dry n w n

/-- The samples of a channel of one group: blended into what was there (43_envmix.md R138, R141). -/
def channelBlended (s t : State) (vd vw : Int) (c : EnvChannel) (inp dry : Nat) (wet : Option Nat) (g i : Nat) : Prop :=
  scratchSample t (dry + 16 * g + 2 * i) = envBlend (scratchSample s (dry + 16 * g + 2 * i))
      (scratchSample s (inp + 16 * g + 2 * i)) (envGain (c.volume i g) vd) ∧
    ∀ w, wet = some w → scratchSample t (w + 16 * g + 2 * i) = envBlend (scratchSample s (w + 16 * g + 2 * i))
      (scratchSample s (inp + 16 * g + 2 * i)) (envGain (c.volume i g) vw)

/-- The four buffers lie apart from one another and from the input over `n` bytes. -/
def buffersApart (inp dl dr : Nat) (wet : Option (Nat × Nat)) (n : Nat) : Prop :=
  channelApart inp dl (wet.map Prod.fst) n ∧ channelApart inp dr (wet.map Prod.snd) n ∧ apart dl n dr n ∧
    ∀ w, wet = some w → apart dl n w.2 n ∧ apart dr n w.1 n ∧ apart w.1 n w.2 n

/-- All the samples of `n` groups, both channels (43_envmix.md R138). -/
def allBlended (s t : State) (e : EnvState) (inp dl dr : Nat) (wet : Option (Nat × Nat)) (n : Nat) : Prop :=
  ∀ g i, g < n → i < 8 →
    channelBlended s t e.vd e.vw e.left inp dl (wet.map Prod.fst) g i ∧
      channelBlended s t e.vd e.vw e.right inp dr (wet.map Prod.snd) g i

/-- The record `t` holds at `addr` after `g` groups from `e` (R134, R143). -/
structure envSaved (t : State) (addr : Word) (e : EnvState) (g : Nat) : Prop where
  vaccL : ∀ i, i < 8 → t.extLong (addrAdd addr (4 * i)) = e.left.accumulator i g
  vaccR : ∀ i, i < 8 → t.extLong (addrAdd addr (32 + 4 * i)) = e.right.accumulator i g
  tgtL : t.extSample (addrAdd addr 64) = e.left.tgt
  rtL : joinRate (t.extSample (addrAdd addr 66)) (t.extSample (addrAdd addr 68)) = e.left.rt
  tgtR : t.extSample (addrAdd addr 70) = e.right.tgt
  rtR : joinRate (t.extSample (addrAdd addr 72)) (t.extSample (addrAdd addr 74)) = e.right.rt
  vd : t.extSample (addrAdd addr 76) = e.vd
  vw : t.extSample (addrAdd addr 78) = e.vw

/-! ### Reverb (45_reverb.md R167 to R174) -/

/-- Instance `r` and slot `u` pass the checks of R167, and the instance `rb` is in use (R168). -/
structure State.ringReady (s : State) (r u : Nat) (rb : Reverb) : Prop where
  instanceInRange : r < s.cfg.numReverb
  slotInRange : u < s.cfg.maxChunks
  found : reverbAt s r = rb
  used : rb.ctrl = 1
  capacity : 1 ≤ rb.cap.toNat
  cursor : rb.wptr.toNat < rb.cap.toNat
  rate : 1 ≤ rb.dsr.toNat

/-- The bits of controller field `k` (10_state.md R32 to R39). -/
def fieldBits (k : Nat) : Word :=
  if k = 0x0 ∨ k = 0x4 then 0x00000001#32
  else if k = 0x1 ∨ k = 0x2 then 0x0000FFFF#32
  else if k = 0x3 ∨ k = 0x5 then 0x000000FF#32
  else 0xFFFFFFFF#32

/-- The number of samples an item's span holds in each channel. -/
def Item.size (it : Item) : Nat := it.lenA.toNat + it.lenB.toNat

/-- The ring index of sample `k` of an item: segment A, then segment B from 0 (R173). -/
def Item.ringIndex (it : Item) (k : Nat) : Nat :=
  if k < it.lenA.toNat then it.start.toNat + k else k - it.lenA.toNat

/-- The external bytes of an item's span in the ring at `base`. -/
def Item.ringBytes (it : Item) (base : Word) (x : Nat) : Prop :=
  ∃ k, k < it.size ∧ inExtSpan (ringAddr base (it.ringIndex k)) 2 x

/-- Every sample of the item in the ring at `base` may be read. -/
def State.ringReadable (s : State) (it : Item) (base : Word) : Prop :=
  ∀ k, k < it.size → s.mayRead (ringAddr base (it.ringIndex k)) 2

/-- Every sample of the item in the ring at `base` may be written. -/
def State.ringWritable (s : State) (it : Item) (base : Word) : Prop :=
  ∀ k, k < it.size → extAdmits s.cfg (ringAddr base (it.ringIndex k)) 2 .write = true ∧
    overlapsCommandList s (ringAddr base (it.ringIndex k)) 2 = false

/-- No byte is in both sets. -/
def disjointBytes (P Q : Nat → Prop) : Prop := ∀ x, P x → ¬ Q x

/-- The external bytes of `n` TD samples, every `d`-th one, from `base` (R171). -/
def decimatedBytes (base : Word) (d n x : Nat) : Prop :=
  ∃ k, k < n ∧ inExtSpan (addrAdd base (2 * (d * k))) 2 x

end Sys2Proof.Machine

namespace Sys2Proof

/-! ### The encoding table -/

/-- Mask and match of the rows of 30_encoding.md R84, opcodes 0x00 to 0x0A. -/
def commandRowsLow : List (Command × Command) :=
  [ (0xFFFFFFFFFFFFFFFF#64, 0x0000000000000000#64)
  , (0xFFFCFFFF00000000#64, 0x0100000000000000#64)
  , (0xFFFF0000FFFF0000#64, 0x0200000000000000#64)
  , (0xFFF6FFFF00000000#64, 0x0300000000000000#64)
  , (0xFFFFFFFF00000000#64, 0x0400000000000000#64)
  , (0xFFFC000000000000#64, 0x0500000000000000#64)
  , (0xFFFFFFFF00000000#64, 0x0600000000000000#64)
  , (0xFFF7000000000000#64, 0x0800000000000000#64)
  , (0xFFF1000000000000#64, 0x0900000000000000#64)
  , (0xFFFF000000000000#64, 0x0A00000000000000#64) ]

/-- Mask and match of the rows of 30_encoding.md R84, opcodes 0x0B to 0x15. -/
def commandRowsHigh : List (Command × Command) :=
  [ (0xFF00000000000000#64, 0x0B00000000000000#64)
  , (0xFFFF000000000000#64, 0x0C00000000000000#64)
  , (0xFFFFFFFF00000000#64, 0x0D00000000000000#64)
  , (0xFFFFFFFF00000000#64, 0x0F00000000000000#64)
  , (0xFFFF000000000000#64, 0x1000000000000000#64)
  , (0xFFFF0000FFFF0000#64, 0x1100000000000000#64)
  , (0xFFFF000000000000#64, 0x1200000000000000#64)
  , (0xFFFF000000000000#64, 0x1300000000000000#64)
  , (0xFFFF00FFFFFFFFFF#64, 0x1400000000000000#64)
  , (0xFF00000000000000#64, 0x1500000000000000#64) ]

/-- Mask and match of the twenty rows of 30_encoding.md R84, as the table has them. -/
def commandRows : List (Command × Command) := commandRowsLow ++ commandRowsHigh

/-! ### What a command may write -/

/-- The commands that write context registers (40_context_and_scratch.md R97 (b)). -/
def Instr.writesContext : Instr → Bool
  | .setbuff _ _ _ _ => true
  | .setvol _ _ _ _ => true
  | .setloop _ => true
  | .noop => false
  | .adpcm _ _ => false
  | .clearbuff _ _ => false
  | .envmixer _ _ => false
  | .loadbuff _ => false
  | .resample _ _ _ => false
  | .savebuff _ => false
  | .dmemmove _ _ _ => false
  | .loadadpcm _ _ => false
  | .mixer _ _ _ => false
  | .interleave _ _ => false
  | .setreg _ _ => false
  | .rbprep _ _ _ => false
  | .rbread _ _ _ _ => false
  | .rbwrite _ _ _ _ => false
  | .rbframe _ => false
  | .interleaveExt _ _ _ => false

/-- The command that writes the book (10_state.md R27, 20_memory.md R72). -/
def Instr.writesBook : Instr → Bool
  | .loadadpcm _ _ => true
  | .noop => false
  | .adpcm _ _ => false
  | .clearbuff _ _ => false
  | .envmixer _ _ => false
  | .loadbuff _ => false
  | .resample _ _ _ => false
  | .savebuff _ => false
  | .setbuff _ _ _ _ => false
  | .setvol _ _ _ _ => false
  | .dmemmove _ _ _ => false
  | .mixer _ _ _ => false
  | .interleave _ _ => false
  | .setloop _ => false
  | .setreg _ _ => false
  | .rbprep _ _ _ => false
  | .rbread _ _ _ _ => false
  | .rbwrite _ _ _ _ => false
  | .rbframe _ => false
  | .interleaveExt _ _ _ => false

/-- The reverb instance whose registers or items a command may write (45_reverb.md R164, R165, R170, R175). -/
def Instr.writesInstance : Instr → Option Nat
  | .setreg reg _ => some ((reg.toNat - 0x100) / 0x20)
  | .rbprep r _ _ => some r.toNat
  | .rbframe r => some r.toNat
  | .noop => none
  | .adpcm _ _ => none
  | .clearbuff _ _ => none
  | .envmixer _ _ => none
  | .loadbuff _ => none
  | .resample _ _ _ => none
  | .savebuff _ => none
  | .setbuff _ _ _ _ => none
  | .setvol _ _ _ _ => none
  | .dmemmove _ _ _ => none
  | .loadadpcm _ _ => none
  | .mixer _ _ _ => none
  | .interleave _ _ => none
  | .setloop _ => none
  | .rbread _ _ _ _ => none
  | .rbwrite _ _ _ _ => none
  | .interleaveExt _ _ _ => none

/-- The context registers a command reads, in the order its rule reads them: CSR number, and whether it is written
(40_context_and_scratch.md R97 (a), 10_state.md R24, 43_envmix.md R133; DEDUCED: log entry 25). -/
def Instr.contextReads (i : Instr) (c : Machine.Context) : List (Nat × Bool) :=
  let inp := (0x010, c.inp.isSome)
  let out := (0x011, c.out.isSome)
  let count := (0x012, c.count.isSome)
  match i with
  | .adpcm f _ =>
    (if Machine.flagLoop f && !Machine.flagInit f then [(0x01E, c.loopAddr.isSome)] else []) ++ [out, inp, count]
  | .resample f _ _ => if Machine.flagInit f && Machine.flagRestart f then [] else [inp, count, out]
  | .envmixer f _ =>
    [inp, out, (0x013, c.dryRight.isSome), count] ++
      (if Machine.flagAux f then [(0x014, c.wetLeft.isSome), (0x015, c.wetRight.isSome)] else []) ++
      if Machine.flagInit f then
        [(0x016, c.volL.isSome), (0x01A, c.rateL.isSome), (0x018, c.targetL.isSome), (0x017, c.volR.isSome),
          (0x01B, c.rateR.isSome), (0x019, c.targetR.isSome), (0x01C, c.volDry.isSome), (0x01D, c.volWet.isSome)]
      else []
  | .loadbuff _ => [inp, count]
  | .savebuff _ => [out, count]
  | .mixer _ _ _ => [count]
  | .interleave _ _ => [out, count]
  | .interleaveExt _ _ _ => [count]
  | .noop => []
  | .clearbuff _ _ => []
  | .setbuff _ _ _ _ => []
  | .setvol _ _ _ _ => []
  | .dmemmove _ _ _ => []
  | .loadadpcm _ _ => []
  | .setloop _ => []
  | .setreg _ _ => []
  | .rbprep _ _ _ => []
  | .rbread _ _ _ _ => []
  | .rbwrite _ _ _ _ => []
  | .rbframe _ => []

/-- The command may read external memory beyond its own fetch (20_memory.md R66: a command with INIT does not read
the record). -/
def Instr.readsExternal : Instr → Bool
  | .adpcm f _ => !Machine.flagInit f
  | .resample f _ _ => !Machine.flagInit f
  | .envmixer f _ => !Machine.flagInit f
  | .loadbuff _ => true
  | .loadadpcm _ _ => true
  | .rbprep _ _ _ => true
  | .rbread _ _ _ _ => true
  | .noop => false
  | .clearbuff _ _ => false
  | .savebuff _ => false
  | .setbuff _ _ _ _ => false
  | .setvol _ _ _ _ => false
  | .dmemmove _ _ _ => false
  | .mixer _ _ _ => false
  | .interleave _ _ => false
  | .setloop _ => false
  | .setreg _ _ => false
  | .rbwrite _ _ _ _ => false
  | .rbframe _ => false
  | .interleaveExt _ _ _ => false

end Sys2Proof

namespace Sys2Proof.Machine

/-! ### The CSR map (10_state.md R24, R41, R43) -/

/-- The CSR numbers 0x010 to 0x01E and what each context register holds, none while it is unwritten (R24, R25). -/
def Context.csrs (c : Context) : List (Nat × Option Word) :=
  [ (0x010, c.inp.map (·.setWidth 32)), (0x011, c.out.map (·.setWidth 32)), (0x012, c.count.map (·.setWidth 32))
  , (0x013, c.dryRight.map (·.setWidth 32)), (0x014, c.wetLeft.map (·.setWidth 32))
  , (0x015, c.wetRight.map (·.setWidth 32)), (0x016, c.volL.map (·.setWidth 32)), (0x017, c.volR.map (·.setWidth 32))
  , (0x018, c.targetL.map (·.setWidth 32)), (0x019, c.targetR.map (·.setWidth 32)), (0x01A, c.rateL)
  , (0x01B, c.rateR), (0x01C, c.volDry.map (·.setWidth 32)), (0x01D, c.volWet.map (·.setWidth 32))
  , (0x01E, c.loopAddr) ]

/-- The six fields of an item in the order of their CSR numbers, none while unwritten (R41). -/
def itemCsrs (it : Option Item) : List (Option Word) :=
  [ it.map (·.start.setWidth 32), it.map (·.lenA.setWidth 32), it.map (·.lenB.setWidth 32)
  , it.map (·.nsad.setWidth 32), it.map (·.chunkLen.setWidth 32), some (if it.isSome then 1 else 0) ]

/-- `n` is the number of a controller register of an instance below NUM_REVERB (R43). -/
def isControllerCsr (cfg : Params) (n : Nat) : Prop :=
  0x100 ≤ n ∧ n < 0x100 + 0x20 * cfg.numReverb ∧ (n - 0x100) % 0x20 ≤ 0xA

/-- `n` is the number of field `f` of ITEM[p][u] of instance `r` (R41). -/
def isItemCsr (cfg : Params) (n r p u f : Nat) : Prop :=
  r < cfg.numReverb ∧ p < 2 ∧ u < cfg.maxChunks ∧ f ≤ 5 ∧ n = 0x800 + 0x200 * r + 8 * (p * cfg.maxChunks + u) + f

/-- `n` is no number of R43's map. -/
def isUnassignedCsr (cfg : Params) (n : Nat) : Prop :=
  (0x006 < n ∧ n < 0x010) ∨ (0x01E < n ∧ ¬ isControllerCsr cfg n ∧ ∀ r p u f, ¬ isItemCsr cfg n r p u f)

/-! ### Sound states -/

/-- A reverb instance holds its 2 * MAX_CHUNKS items, and each valid one records a span of NSAD samples
(10_state.md R41, 45_reverb.md R160). -/
def Reverb.sound (cfg : Params) (rb : Reverb) : Prop :=
  rb.items.length = 2 * cfg.maxChunks ∧
    ∀ it, some it ∈ rb.items → it.lenA.toNat + it.lenB.toNat = it.nsad.toNat

/-- The ring invariant of one instance (45_reverb.md R160): the cursor and every valid item lie within the capacity,
and segment B ends before segment A starts. -/
def Reverb.ringOk (rb : Reverb) : Prop :=
  rb.wptr.toNat < rb.cap.toNat ∧
    ∀ it, some it ∈ rb.items →
      it.lenA.toNat + it.lenB.toNat = it.nsad.toNat ∧ it.nsad.toNat ≤ rb.cap.toNat ∧
        it.start.toNat + it.lenA.toNat ≤ rb.cap.toNat ∧ it.start.toNat < rb.cap.toNat ∧
        it.lenB.toNat ≤ it.start.toNat

/-- The invariant every step keeps. -/
structure State.Inv (s : State) : Prop where
  /-- the parameters are legal (00_scope.md R8 to R15) -/
  legal : s.cfg.legal = true
  /-- the scratch keeps its canonical form and size (10_state.md R28) -/
  scratchForm : Memory.wf s.scratch = true
  scratchSize : cellsBelow s.cfg.scratchBytes s.scratch = true
  /-- external memory keeps its canonical form within 2^32 bytes (20_memory.md R62) -/
  extForm : Memory.wf s.ext = true
  extSize : cellsBelow (2 ^ 32) s.ext = true
  /-- so do its recorded earlier contents (20_memory.md R69; log entry 8) -/
  pastForm : ∀ m, m ∈ s.past → Memory.wf m = true ∧ cellsBelow (2 ^ 32) m = true
  /-- the book keeps its form and size (10_state.md R27) -/
  bookForm : cellsRising s.book = true
  bookSize : cellsBelow 256 s.book = true
  /-- NUM_REVERB instances, each sound (10_state.md R32 to R41) -/
  instances : s.reverb.length = s.cfg.numReverb
  reverbSound : ∀ rb, rb ∈ s.reverb → Reverb.sound s.cfg rb
  /-- BUSY, DONE and FAULT exclude one another (10_state.md R22, 60_exceptions.md R187, R198, R200) -/
  busyAlone : s.status.busy = true → s.status.done = false ∧ s.status.fault = false
  doneAlone : s.status.done = true → s.status.fault = false
  /-- a BUSY block has a command left (60_exceptions.md R198) -/
  commandLeft : s.status.busy = true → s.cp.toNat < s.cmdCount.toNat
  /-- the fault registers are 0 until a fault is taken, and then name it (10_state.md R23, 60_exceptions.md R186,
  R203) -/
  noFault : s.status.fault = false → s.faultCause = 0 ∧ s.faultCp = 0 ∧ s.faultInfo = 0
  faulted : s.status.fault = true → 1 ≤ s.faultCause.toNat ∧ s.faultCause.toNat ≤ 12 ∧ s.faultCp = s.cp

end Sys2Proof.Machine
end

