-- ==== Sys2Proof/Certificates/Slice0/Obligations.lean ====
section
/-! DEFINITION. The statements made of the model. A command that completes leaves a state t with CP advanced, written
here as t with its cp replaced by cp + 1; `Changed s t P Q` says that t is s but for the scratch bytes of P and the
external bytes of Q. -/

section

open Sys2Proof Sys2Proof.Machine

/-! ### Context commands (40_context_and_scratch.md) -/

/-- NOOP only advances CP; its word is 0, and a word of opcode 0x00 with any other bit set is illegal (R98). -/
def Obligations.NoopAdvances : Prop :=
  (∀ s : State, exec .noop s = .next { s with cp := s.cp + 1 }) ∧
    decode 0#64 = .ok .noop ∧
    ∀ (w : Command) (s : State), w.opcode = 0x00#8 → w ≠ 0#64 →
      runWord w s = .next (takeFault ⟨.illegalCommand, w.w0⟩ s)

/-- SETBUFF writes IN, OUT and COUNT, or with AUX the registers DRY_RIGHT, WET_LEFT and WET_RIGHT, and nothing else
(40_context_and_scratch.md R99). -/
def Obligations.SetbuffWritesContext : Prop :=
  ∀ (s : State) (flags : BitVec 8) (inp out count : Half),
    (flags.getLsbD 3 = false → exec (.setbuff flags inp out count) s = .next { s with
      ctx := { s.ctx with inp := some inp, out := some out, count := some count }, cp := s.cp + 1 }) ∧
    (flags.getLsbD 3 = true → exec (.setbuff flags inp out count) s = .next { s with
      ctx := { s.ctx with dryRight := some inp, wetLeft := some out, wetRight := some count }, cp := s.cp + 1 })

/-- SETVOL writes the dry and wet gains with AUX, else a volume with VOL, else a target and a rate; the rate is t
above r (40_context_and_scratch.md R101). The spec marks R101 "from general knowledge, not in source". -/
def Obligations.SetvolWritesContext : Prop :=
  ∀ (s : State) (flags : BitVec 8) (v t r : Half),
    ∃ c, exec (.setvol flags v t r) s = .next { s with ctx := c, cp := s.cp + 1 } ∧
      c = (if flags.getLsbD 3 = true then { s.ctx with volDry := some v, volWet := some r }
        else if flags.getLsbD 2 = true ∧ flags.getLsbD 1 = true then { s.ctx with volL := some v }
        else if flags.getLsbD 2 = true then { s.ctx with volR := some v }
        else if flags.getLsbD 1 = true then
          { s.ctx with targetL := some v, rateL := some (BitVec.ofNat 32 (65536 * t.toNat + r.toNat)) }
        else { s.ctx with targetR := some v, rateR := some (BitVec.ofNat 32 (65536 * t.toNat + r.toNat)) })

/-- SETLOOP writes LOOP_ADDR and nothing else (40_context_and_scratch.md R100). The spec marks R100 "from general
knowledge, not in source". -/
def Obligations.SetloopWritesContext : Prop :=
  ∀ (s : State) (addr : Word),
    exec (.setloop addr) s = .next { s with ctx := { s.ctx with loopAddr := some addr }, cp := s.cp + 1 }

/-! ### Transfers (40_context_and_scratch.md) -/

/-- CLEARBUFF, its word first, zeroes ru(count, 16) bytes from dmem; if they do not all fit, the bytes below the end
of the scratch are zero and SCRATCH_BOUNDS names the first byte outside (R102). -/
def Obligations.ClearbuffClears : Prop :=
  ∀ (s : State) (dmem count : Half),
    decode (0x0200#16 ++ dmem ++ 0x0000#16 ++ count) = .ok (.clearbuff dmem count) ∧
    (s.holds dmem.toNat (ru count.toNat 16) →
      ∃ t, exec (.clearbuff dmem count) s = .next { t with cp := t.cp + 1 } ∧
        Changed s t (inSpan dmem.toNat (ru count.toNat 16)) noByte ∧
        ∀ j, j < ru count.toNat 16 → Memory.read t.scratch (dmem.toNat + j) = 0) ∧
    (¬ s.holds dmem.toNat (ru count.toNat 16) →
      ∃ t, exec (.clearbuff dmem count) s =
          .next (takeFault ⟨.scratchBounds, BitVec.ofNat 32 (max dmem.toNat s.cfg.scratchBytes)⟩ t) ∧
        Changed s t (fun x => dmem.toNat ≤ x ∧ x < s.cfg.scratchBytes) noByte ∧
        ∀ x, dmem.toNat ≤ x → x < s.cfg.scratchBytes → Memory.read t.scratch x = 0)

/-- DMEMMOVE copies ru(count, 16) bytes of the old contents, however the ranges overlap. A read outside the scratch
faults before any write; a write outside it faults after the bytes below are written (R103). The spec marks the copy
through a temporary "from general knowledge, not in source". -/
def Obligations.DmemmoveCopies : Prop :=
  ∀ (s : State) (inp out count : Half),
    (s.holds inp.toNat (ru count.toNat 16) → s.holds out.toNat (ru count.toNat 16) →
      ∃ t, exec (.dmemmove inp out count) s = .next { t with cp := t.cp + 1 } ∧
        Changed s t (inSpan out.toNat (ru count.toNat 16)) noByte ∧
        ∀ j, j < ru count.toNat 16 →
          Memory.read t.scratch (out.toNat + j) = Memory.read s.scratch (inp.toNat + j)) ∧
    (¬ s.holds inp.toNat (ru count.toNat 16) → exec (.dmemmove inp out count) s =
      .next (takeFault ⟨.scratchBounds, BitVec.ofNat 32 (max inp.toNat s.cfg.scratchBytes)⟩ s)) ∧
    (s.holds inp.toNat (ru count.toNat 16) → ¬ s.holds out.toNat (ru count.toNat 16) →
      ∃ t, exec (.dmemmove inp out count) s =
          .next (takeFault ⟨.scratchBounds, BitVec.ofNat 32 (max out.toNat s.cfg.scratchBytes)⟩ t) ∧
        Changed s t (fun x => out.toNat ≤ x ∧ x < s.cfg.scratchBytes) noByte ∧
        ∀ j, out.toNat + j < s.cfg.scratchBytes →
          Memory.read t.scratch (out.toNat + j) = Memory.read s.scratch (inp.toNat + j))

/-- LOADADPCM loads book bytes 0 to c-1 and makes them written; c > 256 raises BOOK_OVERFLOW before any access; a
refused read raises EXT_FAULT with the bytes before it loaded (R104). -/
def Obligations.LoadadpcmLoadsBook : Prop :=
  ∀ (s : State) (count : BitVec 24) (addr : Word),
    (count.toNat ≤ 256 → s.readable addr 1 count.toNat →
      ∃ b, exec (.loadadpcm count addr) s = .next { s with book := b, cp := s.cp + 1 } ∧
        ∀ k, Book.read b k = if k < count.toNat then some (s.extByte addr k) else Book.read s.book k) ∧
    (256 < count.toNat → exec (.loadadpcm count addr) s =
      .next (takeFault ⟨.bookOverflow, BitVec.ofNat 32 count.toNat⟩ s)) ∧
    ∀ n, count.toNat ≤ 256 → n < count.toNat → s.readable addr 1 n →
      extAdmits s.cfg (addrAdd addr n) 1 .read = false →
      ∃ b, exec (.loadadpcm count addr) s = .next (takeFault ⟨.extFault, addrAdd addr n⟩ { s with book := b }) ∧
        ∀ k, Book.read b k = if k < n then some (s.extByte addr k) else Book.read s.book k

/-- LOADBUFF copies ru(COUNT, 8) external bytes to scratch from IN (40_context_and_scratch.md R105). The spec marks
R105 "from general knowledge, not in source". -/
def Obligations.LoadbuffLoads : Prop :=
  ∀ (s : State) (addr : Word) (i c : Half), s.ctx.inp = some i → s.ctx.count = some c →
    s.holds i.toNat (ru c.toNat 8) → s.readable addr 1 (ru c.toNat 8) →
    ∃ t, exec (.loadbuff addr) s = .next { t with cp := t.cp + 1 } ∧
      Changed s t (inSpan i.toNat (ru c.toNat 8)) noByte ∧
      ∀ j, j < ru c.toNat 8 → Memory.read t.scratch (i.toNat + j) = s.extByte addr j

/-- SAVEBUFF copies ru(COUNT, 8) scratch bytes from OUT to external memory (40_context_and_scratch.md R106). -/
def Obligations.SavebuffSaves : Prop :=
  ∀ (s : State) (addr : Word) (o c : Half), s.ctx.out = some o → s.ctx.count = some c →
    s.holds o.toNat (ru c.toNat 8) → s.writable addr 1 (ru c.toNat 8) →
    ∃ t, exec (.savebuff addr) s = .next { t with cp := t.cp + 1 } ∧
      Changed s t noByte (inExtSpan addr (ru c.toNat 8)) ∧
      ∀ j, j < ru c.toNat 8 → t.extByte addr j = Memory.read s.scratch (o.toNat + j)

/-! ### ADPCM (41_adpcm.md) -/

/-- ADPCM writes the history prefix, decodes every packet behind it and saves the last samples of the output window
to the record, for every flag combination, when the packets lie apart from the output window (41_adpcm.md R108 to
R114). -/
def Obligations.AdpcmDecodes : Prop :=
  ∀ (s : State) (flags : BitVec 8) (addr : Word) (i o c : Half), s.cfg.legal = true →
    s.ctx.inp = some i → s.ctx.out = some o → s.ctx.count = some c →
    (flagLoop flags = true → flagInit flags = false → s.ctx.loopAddr.isSome = true) →
    o.toNat % 2 = 0 → s.holds i.toNat (9 * (ru c.toNat 32 / 32)) →
    o.toNat + s.cfg.histBytes + ru c.toNat 32 ≤ s.cfg.scratchBytes →
    apart i.toNat (9 * (ru c.toNat 32 / 32)) o.toNat (s.cfg.histBytes + ru c.toNat 32) →
    (flagInit flags = false → s.readable (s.adpcmSource flags addr) 2 (s.cfg.histBytes / 2)) →
    s.writable addr 2 (s.cfg.histBytes / 2) →
    (∀ pk, pk < ru c.toNat 32 / 32 → s.packetPredictor (i.toNat + 9 * pk) < 8 ∧
      s.predictorLoaded (s.packetPredictor (i.toNat + 9 * pk))) →
    ∃ t, exec (.adpcm flags addr) s = .next { t with cp := t.cp + 1 } ∧
      Changed s t (inSpan o.toNat (s.cfg.histBytes + ru c.toNat 32)) (inExtSpan addr s.cfg.histBytes) ∧
      (∀ k, k < s.cfg.histBytes / 2 → scratchSample t (o.toNat + 2 * k) = s.adpcmHistory flags addr k) ∧
      (∀ pk h, pk < ru c.toNat 32 / 32 → h < 2 →
        halfDecoded s t (i.toNat + 9 * pk) h (o.toNat + s.cfg.histBytes + 32 * pk + 16 * h)) ∧
      ∀ k, k < s.cfg.histBytes / 2 → t.extSample (addrAdd addr (2 * k)) =
        scratchSample t (o.toNat + ru c.toNat 32 + 2 * k)

/-- A packet whose header names a predictor of 8 or more faults with that header; the history prefix stands, the packets
before it are decoded behind it and nothing is saved (41_adpcm.md R110, R111, R115). A read of a coefficient with either
book byte unwritten faults UNINIT_READ with 0x20000000 | (32p + 16r + 2j); with both written it gives their signed 16-bit
value in ENDIAN order, and neither changes anything (10_state.md R27; 41_adpcm.md R115). -/
def Obligations.AdpcmPredictorFaults : Prop :=
  (∀ (s : State) (p r j k : Nat), p < 8 → r < 2 → j < 8 → k = 32 * p + 16 * r + 2 * j →
    (Book.read s.book k = none ∨ Book.read s.book (k + 1) = none →
      coef p r j s = .error ⟨.uninitRead, 0x20000000#32 ||| BitVec.ofNat 32 k⟩ s) ∧
    ∀ b c : Byte, Book.read s.book k = some b → Book.read s.book (k + 1) = some c →
      coef p r j s = .ok (if s.cfg.endian = .little then (c ++ b).toInt else (b ++ c).toInt) s) ∧
  ∀ (s : State) (flags : BitVec 8) (addr : Word) (i o c : Half) (n : Nat), s.cfg.legal = true →
    s.ctx.inp = some i → s.ctx.out = some o → s.ctx.count = some c →
    (flagLoop flags = true → flagInit flags = false → s.ctx.loopAddr.isSome = true) →
    o.toNat % 2 = 0 → s.holds i.toNat (9 * (ru c.toNat 32 / 32)) →
    o.toNat + s.cfg.histBytes + ru c.toNat 32 ≤ s.cfg.scratchBytes →
    apart i.toNat (9 * (ru c.toNat 32 / 32)) o.toNat (s.cfg.histBytes + ru c.toNat 32) →
    (flagInit flags = false → s.readable (s.adpcmSource flags addr) 2 (s.cfg.histBytes / 2)) →
    n < ru c.toNat 32 / 32 →
    (∀ pk, pk < n → s.packetPredictor (i.toNat + 9 * pk) < 8 ∧
      s.predictorLoaded (s.packetPredictor (i.toNat + 9 * pk))) →
    8 ≤ s.packetPredictor (i.toNat + 9 * n) →
    ∃ t, exec (.adpcm flags addr) s = .next (takeFault
        ⟨.adpcmPredictor, (Memory.read s.scratch (i.toNat + 9 * n)).setWidth 32⟩ t) ∧
      Changed s t (inSpan o.toNat (s.cfg.histBytes + 32 * n)) noByte ∧
      (∀ k, k < s.cfg.histBytes / 2 → scratchSample t (o.toNat + 2 * k) = s.adpcmHistory flags addr k) ∧
      ∀ pk h, pk < n → h < 2 →
        halfDecoded s t (i.toNat + 9 * pk) h (o.toNat + s.cfg.histBytes + 32 * pk + 16 * h)

/-! ### RESAMPLE (42_resample.md) -/

/-- RESAMPLE sets up the window below IN, which stands afterwards wherever OUT does not cover it, writes 8G filtered
samples from OUT, each from the window its pitch accumulator points at, and saves words 0 to 5 and 8 to 15 of the
record. The filter multiplies the four samples by the ROM row that PACC[15:10] names and rounds the sum, or each product
(42_resample.md R118 to R126). Where the window of a RESTART lies is R122's formula; 70_reset_and_hazards.md R215 says
otherwise, that an IN below 24 faults. That the command completes for an IN from 16 to 23 with a large enough OFS, and
where the history then lies, is the model's choice of R122 (log entry 27, DEDUCED). -/
def Obligations.ResampleFilters : Prop :=
  (∀ (row : RomRow) (x0 x1 x2 x3 : Int),
    resampleFilter .sum row [x0, x1, x2, x3] = (x0 * row.c0.toInt + x1 * row.c1.toInt + x2 * row.c2.toInt +
      x3 * row.c3.toInt + 0x4000) / 32768 ∧
    resampleFilter .perTap row [x0, x1, x2, x3] = (x0 * row.c0.toInt + 0x4000) / 32768 +
      (x1 * row.c1.toInt + 0x4000) / 32768 + (x2 * row.c2.toInt + 0x4000) / 32768 +
      (x3 * row.c3.toInt + 0x4000) / 32768) ∧
  (∀ (cfg : Params) (pacc : BitVec 16) (row : RomRow), cfg.rom[(pacc.extractLsb' 10 6).toNat]? = some row →
    romRow cfg pacc.toNat = row) ∧
  ∀ (s : State) (flags : BitVec 8) (pitch : Half) (addr : Word) (i o c : Half) (hist : ResampleHistory)
    (w0 we : Nat), ¬ (flagInit flags = true ∧ flagRestart flags = true) →
    s.ctx.inp = some i → s.ctx.out = some o → s.ctx.count = some c →
    hist = s.resampleHistory flags addr → w0 = windowOffset flags i.toNat hist →
    we = windowAt w0 hist.pacc pitch.toNat (8 * groups c.toNat) →
    windowFits flags i.toNat hist → s.holdsSamples o.toNat (8 * groups c.toNat) →
    restartOffset i.toNat we + 16 ≤ s.cfg.scratchBytes →
    (flagInit flags = false → s.readable addr 2 6 ∧ s.readable (addrAdd addr 16) 2 8) →
    s.writable addr 2 6 ∧ s.writable (addrAdd addr 16) 2 8 →
    ∃ t, exec (.resample flags pitch addr) s = .next { t with cp := t.cp + 1 } ∧
      Changed s t (fun x => windowBytes flags i.toNat hist x ∨ inSpan o.toNat (16 * groups c.toNat) x)
        (resampleRecordBytes addr) ∧
      (∀ n, n < 8 * groups c.toNat → scratchSample t (o.toNat + 2 * n) =
        sat16 (resampleFilter s.cfg.round (romRow s.cfg (paccAt hist.pacc pitch.toNat n))
          (s.resampleTaps t flags i.toNat o.toNat hist n (windowAt w0 hist.pacc pitch.toNat n)))) ∧
      (∀ a, a % 2 = 0 → ¬ inSpan o.toNat (16 * groups c.toNat) a →
        scratchSample t a = s.windowSample flags i.toNat hist a) ∧
      (∀ k, k < 4 → t.extSample (addrAdd addr (2 * k)) = scratchSample t (we + 2 * k)) ∧
      t.extSample (addrAdd addr 8) = trunc16 (paccAt hist.pacc pitch.toNat (8 * groups c.toNat)) ∧
      t.extSample (addrAdd addr 10) = savedOffset i.toNat we ∧
      ∀ k, k < 8 → t.extSample (addrAdd addr (16 + 2 * k)) =
        scratchSample t (restartOffset i.toNat we + 2 * k)

/-- INIT and RESTART together fault before any context read or memory access (42_resample.md R120). -/
def Obligations.ResampleFlagConflict : Prop :=
  ∀ (s : State) (flags : BitVec 8) (pitch : Half) (addr : Word),
    flags.getLsbD 0 = true → flags.getLsbD 1 = true →
    exec (.resample flags pitch addr) s = .next (takeFault ⟨.flagConflict, BitVec.ofNat 32 flags.toNat⟩ s)

/-- Under rounding of the sum and with the default ROM, every phase maps the constant window c to asr(c * rowsum +
0x4000, 15), the row sums lie in 32753..32784, and c is reproduced at all 64 phases exactly when -1024 <= c <= 1023
(42_resample.md R129, the sum mode). The spec marks R129 as its own inference, "derived: from rule R124 and rule
R130". -/
def Obligations.SteadyStateFilter : Prop :=
  (∀ row, row ∈ defaultRom → 32753 ≤ row.c0.toInt + row.c1.toInt + row.c2.toInt + row.c3.toInt ∧
    row.c0.toInt + row.c1.toInt + row.c2.toInt + row.c3.toInt ≤ 32784) ∧
  (∀ (row : RomRow) (c : Int), resampleFilter .sum row [c, c, c, c] =
    asr (c * (row.c0.toInt + row.c1.toInt + row.c2.toInt + row.c3.toInt) + 0x4000) 15) ∧
  ∀ c : Int, -32768 ≤ c → c ≤ 32767 →
    ((∀ row, row ∈ defaultRom → resampleFilter .sum row [c, c, c, c] = c) ↔ -1024 ≤ c ∧ c ≤ 1023)

/-! ### ENVMIXER (43_envmix.md) -/

/-- ENVMIXER blends G groups into the dry buffers and, with AUX, the wet ones, each sample at its lane's ramped gain,
and saves the state; the values are stated for buffers that lie apart, the bytes touched and the record for all. The
ramp multiplies by the rate, INIT interpolates the lanes, the gain and the blend are the rules' formulas, and a rate is
read back from its two halves (43_envmix.md R133 to R143). -/
def Obligations.EnvmixerMixes : Prop :=
  (∀ rt v : Int, envRamp rt v = min (max (v * rt / 65536) (-2147483648)) 2147483647) ∧
  (∀ (vol rate target : Int) (i : Nat), i < 8 →
    (envInitChannel vol rate target).vacc.getD i 0 =
      min (max (vol * 65536 + (vol * (rate - 65536)).tdiv 8 * (i + 1)) (-2147483648)) 2147483647 ∧
    (envInitChannel vol rate target).rt = rate ∧ (envInitChannel vol rate target).tgt = target) ∧
  (∀ vol level : Int, envGain vol level = (vol * level + 0x4000) / 32768) ∧
  (∀ d x gain : Int, envBlend d x gain = min (max ((d * 0x7FFF + x * gain + 0x4000) / 32768) (-32768)) 32767) ∧
  (∀ hi lo : Half, joinRate hi.toInt lo.toInt = (hi ++ lo).toInt) ∧
  ∀ (s : State) (flags : BitVec 8) (addr : Word) (i o dr c : Half),
    s.ctx.inp = some i → s.ctx.out = some o → s.ctx.dryRight = some dr → s.ctx.count = some c →
    (flagAux flags = true → s.ctx.wetLeft.isSome = true ∧ s.ctx.wetRight.isSome = true) →
    (flagInit flags = true → s.ctx.volumesWritten) →
    s.holdsSamples i.toNat (8 * groups c.toNat) → s.holdsSamples o.toNat (8 * groups c.toNat) →
    s.holdsSamples dr.toNat (8 * groups c.toNat) →
    (∀ w, s.ctx.wetBuffers flags = some w →
      s.holdsSamples w.1 (8 * groups c.toNat) ∧ s.holdsSamples w.2 (8 * groups c.toNat)) →
    (flagInit flags = false → s.readable addr 4 16 ∧ s.readable (addrAdd addr 64) 2 8) →
    s.writable addr 4 16 ∧ s.writable (addrAdd addr 64) 2 8 →
    ∃ t, exec (.envmixer flags addr) s = .next { t with cp := t.cp + 1 } ∧
      Changed s t (fun x => destinations o.toNat ((s.ctx.wetBuffers flags).map Prod.fst) (16 * groups c.toNat) x ∨
          destinations dr.toNat ((s.ctx.wetBuffers flags).map Prod.snd) (16 * groups c.toNat) x)
        (inExtSpan addr 80) ∧
      envSaved t addr (s.envStart flags addr) (groups c.toNat) ∧
      (buffersApart i.toNat o.toNat dr.toNat (s.ctx.wetBuffers flags) (16 * groups c.toNat) →
        allBlended s t (s.envStart flags addr) i.toNat o.toNat dr.toNat (s.ctx.wetBuffers flags) (groups c.toNat))

/-- The clamp in whole numbers: a rate of 0x00010000 or more never lets the accumulator's high half pass the target,
any other rate never lets it fall below (43_envmix.md R139). -/
def Obligations.ClampFollowsRate : Prop :=
  ∀ rt tgt vacc : Int,
    (0x10000 ≤ rt → envClamp rt tgt vacc = if (tgt + 1) * 65536 ≤ vacc then tgt * 65536 else vacc) ∧
    (rt < 0x10000 → envClamp rt tgt vacc = if vacc < tgt * 65536 then tgt * 65536 else vacc)

/-- At every use the volume of an increasing lane is at most the target, and that of any other lane at least the
target (43_envmix.md R147); `volume` is the volume the blends of EnvmixerMixes use. The spec marks R147 as its own
inference, "derived: from rule R138 and rule R139". -/
def Obligations.RampNeverOvershoots : Prop :=
  ∀ (ch : EnvChannel) (i g : Nat),
    (0 < asr ch.rt 16 → ch.volume i g ≤ ch.tgt) ∧ (asr ch.rt 16 ≤ 0 → ch.tgt ≤ ch.volume i g)

/-- The unity envelope: volume and target 0x7FFF, rate 1.0, dry level 0x7FFF and zero destinations give asr(32766 x +
0x4000, 15) in every dry sample; that is x exactly for -8191 <= x <= 8192, and one or two smaller in magnitude
elsewhere (43_envmix.md R148; its "one LSB smaller" leaves out the two of the largest samples: log entry 24). The spec
marks R148 as its own inference. -/
def Obligations.UnityEnvelope : Prop :=
  (∀ (s : State) (flags : BitVec 8) (addr : Word) (i o dr c : Half),
    flagInit flags = true → s.ctx.inp = some i → s.ctx.out = some o → s.ctx.dryRight = some dr →
    s.ctx.count = some c →
    (flagAux flags = true → s.ctx.wetLeft.isSome = true ∧ s.ctx.wetRight.isSome = true) →
    s.ctx.volumesWritten →
    s.ctx.volL = some 0x7FFF#16 → s.ctx.targetL = some 0x7FFF#16 → s.ctx.rateL = some 0x00010000#32 →
    s.ctx.volR = some 0x7FFF#16 → s.ctx.targetR = some 0x7FFF#16 → s.ctx.rateR = some 0x00010000#32 →
    s.ctx.volDry = some 0x7FFF#16 →
    s.holdsSamples i.toNat (8 * groups c.toNat) → s.holdsSamples o.toNat (8 * groups c.toNat) →
    s.holdsSamples dr.toNat (8 * groups c.toNat) →
    (∀ w, s.ctx.wetBuffers flags = some w →
      s.holdsSamples w.1 (8 * groups c.toNat) ∧ s.holdsSamples w.2 (8 * groups c.toNat)) →
    s.writable addr 4 16 ∧ s.writable (addrAdd addr 64) 2 8 →
    buffersApart i.toNat o.toNat dr.toNat (s.ctx.wetBuffers flags) (16 * groups c.toNat) →
    (∀ k, k < 8 * groups c.toNat →
      scratchSample s (o.toNat + 2 * k) = 0 ∧ scratchSample s (dr.toNat + 2 * k) = 0) →
    ∃ t, exec (.envmixer flags addr) s = .next { t with cp := t.cp + 1 } ∧
      ∀ k, k < 8 * groups c.toNat →
        scratchSample t (o.toNat + 2 * k) = asr (32766 * scratchSample s (i.toNat + 2 * k) + 0x4000) 15 ∧
        scratchSample t (dr.toNat + 2 * k) = asr (32766 * scratchSample s (i.toNat + 2 * k) + 0x4000) 15) ∧
  envGain 0x7FFF 0x7FFF = 32766 ∧
  ∀ x : Int, -32768 ≤ x → x ≤ 32767 →
    (-8191 ≤ x ∧ x ≤ 8192 → asr (32766 * x + 0x4000) 15 = x) ∧
    (8192 < x ∧ x ≤ 24576 → asr (32766 * x + 0x4000) 15 = x - 1) ∧
    (24576 < x → asr (32766 * x + 0x4000) 15 = x - 2) ∧
    (-24576 < x ∧ x < -8191 → asr (32766 * x + 0x4000) 15 = x + 1) ∧
    (x ≤ -24576 → asr (32766 * x + 0x4000) 15 = x + 2)

/-! ### MIXER and the interleaves (44_mix_interleave.md) -/

/-- MIXER mixes ru(COUNT, 32)/2 samples into OUT's buffer in ascending order; an input sample that an earlier round
wrote is read as written. The mixed sample is O - I for gain -32768, else the formula MIX_FORM selects, saturated once
(44_mix_interleave.md R150 to R152, 20_memory.md R61). -/
def Obligations.MixerMixes : Prop :=
  (∀ (form : MixForm) (o i : Int), mixSample form (-32768) o i = min (max (o - i) (-32768)) 32767) ∧
  (∀ gain o i : Int, gain ≠ -32768 →
    mixSample .doc gain o i = min (max (o + i * gain / 32768) (-32768)) 32767 ∧
    mixSample .ref gain o i = min (max ((o * 0x7FFF + i * gain + 0x4000) / 32768) (-32768)) 32767) ∧
  ∀ (s : State) (gain inp out c : Half), s.ctx.count = some c →
    s.holdsSamples out.toNat (ru c.toNat 32 / 2) → s.holdsSamples inp.toNat (ru c.toNat 32 / 2) →
    ∃ t, exec (.mixer gain inp out) s = .next { t with cp := t.cp + 1 } ∧
      Changed s t (inSpan out.toNat (ru c.toNat 32)) noByte ∧
      ∀ k, k < ru c.toNat 32 / 2 → scratchSample t (out.toNat + 2 * k) =
        mixSample s.cfg.mixForm gain.toInt (scratchSample s (out.toNat + 2 * k))
          (if out.toNat ≤ inp.toNat + 2 * k ∧ inp.toNat + 2 * k < out.toNat + 2 * k
            then scratchSample t (inp.toNat + 2 * k) else scratchSample s (inp.toNat + 2 * k))

/-- The gain field 0x8000 subtracts, with saturation, under both forms; the doc form's general formula would give the
same difference, the ref form's would not (44_mix_interleave.md R151). -/
def Obligations.SubtractGain : Prop :=
  (∀ (s : State) (inp out c : Half), s.ctx.count = some c →
    s.holdsSamples out.toNat (ru c.toNat 32 / 2) → s.holdsSamples inp.toNat (ru c.toNat 32 / 2) →
    ∃ t, exec (.mixer 0x8000#16 inp out) s = .next { t with cp := t.cp + 1 } ∧
      Changed s t (inSpan out.toNat (ru c.toNat 32)) noByte ∧
      ∀ k, k < ru c.toNat 32 / 2 → scratchSample t (out.toNat + 2 * k) =
        sat16 (scratchSample s (out.toNat + 2 * k) -
          (if out.toNat ≤ inp.toNat + 2 * k ∧ inp.toNat + 2 * k < out.toNat + 2 * k
            then scratchSample t (inp.toNat + 2 * k) else scratchSample s (inp.toNat + 2 * k)))) ∧
  (∀ o i : Int, o + asr (i * -32768) 15 = o - i) ∧
  ∃ o i : Int, -32768 ≤ o ∧ o ≤ 32767 ∧ -32768 ≤ i ∧ i ≤ 32767 ∧
    sat16 (asr (o * 0x7FFF + i * -32768 + 0x4000) 15) ≠ sat16 (o - i)

/-- Under MIX_FORM = doc, mixing a buffer with itself at the gain field 0x8000 + g scales it by g / 32768
(44_mix_interleave.md R158). -/
def Obligations.DecayScales : Prop :=
  ∀ (s : State) (g buf c : Half), s.cfg.mixForm = .doc → s.ctx.count = some c →
    s.holdsSamples buf.toNat (ru c.toNat 32 / 2) →
    ∃ t, exec (.mixer (0x8000#16 + g) buf buf) s = .next { t with cp := t.cp + 1 } ∧
      Changed s t (inSpan buf.toNat (ru c.toNat 32)) noByte ∧
      ∀ k, k < ru c.toNat 32 / 2 → scratchSample t (buf.toNat + 2 * k) =
        sat16 (asr (scratchSample s (buf.toNat + 2 * k) * g.toNat) 15)

/-- INTERLEAVE writes pairs of the left and right samples from OUT; a group reads what an earlier group wrote where
the ranges overlap so (44_mix_interleave.md R153). -/
def Obligations.InterleaveMerges : Prop :=
  ∀ (s : State) (left right o c : Half), s.ctx.out = some o → s.ctx.count = some c →
    s.holdsSamples left.toNat (ru c.toNat 16 / 2) → s.holdsSamples right.toNat (ru c.toNat 16 / 2) →
    s.holdsSamples o.toNat (ru c.toNat 16) →
    ∃ t, exec (.interleave left right) s = .next { t with cp := t.cp + 1 } ∧
      Changed s t (inSpan o.toNat (2 * ru c.toNat 16)) noByte ∧
      ∀ g i, g < ru c.toNat 16 / 16 → i < 8 →
        scratchSample t (o.toNat + 32 * g + 4 * i) =
            interleaveSource s t o.toNat g (left.toNat + 16 * g + 2 * i) ∧
          scratchSample t (o.toNat + 32 * g + 4 * i + 2) =
            interleaveSource s t o.toNat g (right.toNat + 16 * g + 2 * i)

/-- INTERLEAVE_EXT writes the pairs to external memory and leaves the scratch alone (44_mix_interleave.md R154). -/
def Obligations.InterleaveExtWrites : Prop :=
  ∀ (s : State) (left right : BitVec 12) (addr : Word) (c : Half), s.ctx.count = some c →
    s.holdsSamples left.toNat (ru c.toNat 16 / 2) → s.holdsSamples right.toNat (ru c.toNat 16 / 2) →
    s.writable addr 2 (ru c.toNat 16) →
    ∃ t, exec (.interleaveExt left right addr) s = .next { t with cp := t.cp + 1 } ∧
      Changed s t noByte (inExtSpan addr (2 * ru c.toNat 16)) ∧
      ∀ i, i < ru c.toNat 16 / 2 →
        t.extSample (addrAdd addr (4 * i)) = scratchSample s (left.toNat + 2 * i) ∧
          t.extSample (addrAdd addr (4 * i + 2)) = scratchSample s (right.toNat + 2 * i)

/-- The two interleave paths agree byte for byte when OUT's range lies apart from both inputs (44_mix_interleave.md
R155). The spec marks R155 as its own inference, "derived: from rule R153 and rule R154". -/
def Obligations.InterleavePathsAgree : Prop :=
  ∀ (s : State) (left right : BitVec 12) (addr : Word) (o c : Half), s.ctx.out = some o → s.ctx.count = some c →
    s.holdsSamples left.toNat (ru c.toNat 16 / 2) → s.holdsSamples right.toNat (ru c.toNat 16 / 2) →
    s.holdsSamples o.toNat (ru c.toNat 16) → s.writable addr 2 (ru c.toNat 16) →
    apart o.toNat (2 * ru c.toNat 16) left.toNat (ru c.toNat 16) →
    apart o.toNat (2 * ru c.toNat 16) right.toNat (ru c.toNat 16) →
    ∃ t u : State, exec (.interleave (left.setWidth 16) (right.setWidth 16)) s = .next { t with cp := t.cp + 1 } ∧
      exec (.interleaveExt left right addr) s = .next { u with cp := u.cp + 1 } ∧
      ∀ k, k < 2 * ru c.toNat 16 → Memory.read t.scratch (o.toNat + k) = u.extByte addr k

/-! ### The reverb controller (45_reverb.md) -/

/-- SETREG writes a controller register, cut to its width, and nothing else; any other number is illegal (R165). -/
def Obligations.SetregWrites : Prop :=
  ∀ (s : State) (reg : Half) (value : Word) (r k : Nat),
    r = (reg.toNat - 0x100) / 0x20 → k = (reg.toNat - 0x100) % 0x20 →
    (0x100 ≤ reg.toNat ∧ reg.toNat < 0x100 + 0x20 * s.cfg.numReverb ∧ k ≤ 0xA →
      ∃ rb, exec (.setreg reg value) s = .next { s with reverb := s.reverb.set r rb, cp := s.cp + 1 } ∧
        readField rb k = value &&& fieldBits k ∧
        (∀ j, j ≠ k → readField rb j = readField (reverbAt s r) j) ∧ rb.items = (reverbAt s r).items) ∧
    (¬ (0x100 ≤ reg.toNat ∧ reg.toNat < 0x100 + 0x20 * s.cfg.numReverb ∧ k ≤ 0xA) →
      exec (.setreg reg value) s = .next (takeFault ⟨.illegalCommand, (encode (.setreg reg value)).w0⟩ s))

/-- The split of n samples at the write cursor, and the item it records; the segments add up to n, segment B is
shorter than the ring, and a chunk that wraps has segment A up to the ring's end (45_reverb.md R170). -/
def Obligations.SplitRecords : Prop :=
  ∀ (cfg : Params) (u n : Nat) (len : Half) (rb : Reverb),
    rb.wptr.toNat < rb.cap.toNat → n ≤ rb.cap.toNat → itemIndex cfg rb.parity.toNat u < rb.items.length →
    ∃ it, itemAt cfg (splitRecord cfg u n len rb) rb.parity.toNat u = some it ∧
      (∀ p v, itemIndex cfg p v ≠ itemIndex cfg rb.parity.toNat u →
        itemAt cfg (splitRecord cfg u n len rb) p v = itemAt cfg rb p v) ∧
      (∀ j, j ≠ 2 → readField (splitRecord cfg u n len rb) j = readField rb j) ∧
      it.start = rb.wptr ∧ it.nsad.toNat = n ∧ it.chunkLen = len ∧
      (rb.wptr.toNat + n < rb.cap.toNat → it.lenA.toNat = n ∧ it.lenB.toNat = 0 ∧
        (splitRecord cfg u n len rb).wptr.toNat = rb.wptr.toNat + n) ∧
      (rb.cap.toNat ≤ rb.wptr.toNat + n → it.lenA.toNat = rb.cap.toNat - rb.wptr.toNat ∧
        it.lenB.toNat = rb.wptr.toNat + n - rb.cap.toNat ∧
        (splitRecord cfg u n len rb).wptr.toNat = it.lenB.toNat) ∧
      it.lenA.toNat + it.lenB.toNat = n ∧ it.lenB.toNat < rb.cap.toNat

/-- RBPREP of an instance in use, with no downsample due, records the split of floor(L / RB_DSR) samples and changes
nothing else (45_reverb.md R169; R163 for RB_IGNORE). -/
def Obligations.RbprepSplits : Prop :=
  ∀ (s : State) (r u : BitVec 8) (len : Half) (rb : Reverb), s.ringReady r.toNat u.toNat rb →
    len.toNat / rb.dsr.toNat ≤ rb.cap.toNat → rb.dsr.toNat = 1 ∨ rb.ignore.toNat ≠ 0 →
    exec (.rbprep r u len) s = .next { s with
      reverb := s.reverb.set r.toNat (splitRecord s.cfg u.toNat (len.toNat / rb.dsr.toNat) len rb), cp := s.cp + 1 }

/-- RBPREP with a downsample due decimates the TD buffers of the item recorded at this parity and slot into that
item's ring span, then records the split; the samples are stated where the spans are disjoint
(45_reverb.md R169, R171). -/
def Obligations.RbprepDownsamples : Prop :=
  ∀ (s : State) (r u : BitVec 8) (len : Half) (rb : Reverb) (it : Item) (tl tr : Word),
    s.ringReady r.toNat u.toNat rb → len.toNat / rb.dsr.toNat ≤ rb.cap.toNat →
    rb.dsr.toNat ≠ 1 → rb.ignore.toNat = 0 → itemAt s.cfg rb rb.parity.toNat u.toNat = some it →
    tl = tdAddr s.cfg rb.tdlbase rb.tdstride rb.parity.toNat u.toNat →
    tr = tdAddr s.cfg rb.tdrbase rb.tdstride rb.parity.toNat u.toNat →
    (∀ k, k < it.size → s.mayRead (addrAdd tl (2 * (rb.dsr.toNat * k))) 2 ∧
      s.mayRead (addrAdd tr (2 * (rb.dsr.toNat * k))) 2) →
    s.ringWritable it rb.lbase → s.ringWritable it rb.rbase →
    ∃ t, exec (.rbprep r u len) s = .next { t with
        reverb := s.reverb.set r.toNat (splitRecord s.cfg u.toNat (len.toNat / rb.dsr.toNat) len rb),
        cp := t.cp + 1 } ∧
      Changed s t noByte (fun x => it.ringBytes rb.lbase x ∨ it.ringBytes rb.rbase x) ∧
      (it.lenB.toNat ≤ it.start.toNat → disjointBytes (it.ringBytes rb.lbase) (it.ringBytes rb.rbase) →
        disjointBytes (decimatedBytes tl rb.dsr.toNat it.size)
          (fun x => it.ringBytes rb.lbase x ∨ it.ringBytes rb.rbase x) →
        disjointBytes (decimatedBytes tr rb.dsr.toNat it.size)
          (fun x => it.ringBytes rb.lbase x ∨ it.ringBytes rb.rbase x) →
        ∀ k, k < it.size →
          t.extSample (ringAddr rb.lbase (it.ringIndex k)) = s.extSample (addrAdd tl (2 * (rb.dsr.toNat * k))) ∧
            t.extSample (ringAddr rb.rbase (it.ringIndex k)) = s.extSample (addrAdd tr (2 * (rb.dsr.toNat * k))))

/-- RBREAD copies the item's ring span to the two scratch buffers, segment B right behind segment A, exactly NSAD
samples a channel (45_reverb.md R173). -/
def Obligations.RbreadReads : Prop :=
  ∀ (s : State) (r u : BitVec 8) (left right : Half) (rb : Reverb) (it : Item),
    s.ringReady r.toNat u.toNat rb → itemAt s.cfg rb rb.parity.toNat u.toNat = some it →
    s.holdsSamples left.toNat it.size → s.holdsSamples right.toNat it.size →
    s.ringReadable it rb.lbase → s.ringReadable it rb.rbase →
    ∃ t, exec (.rbread r u left right) s = .next { t with cp := t.cp + 1 } ∧
      Changed s t (fun x => inSpan left.toNat (2 * it.size) x ∨ inSpan right.toNat (2 * it.size) x) noByte ∧
      (apart left.toNat (2 * it.size) right.toNat (2 * it.size) → ∀ k, k < it.size →
        scratchSample t (left.toNat + 2 * k) = s.extSample (ringAddr rb.lbase (it.ringIndex k)) ∧
          scratchSample t (right.toNat + 2 * k) = s.extSample (ringAddr rb.rbase (it.ringIndex k)))

/-- RBWRITE with RB_DSR = 1 copies the two scratch buffers into the item's ring span (45_reverb.md R174). -/
def Obligations.RbwriteWritesRing : Prop :=
  ∀ (s : State) (r u : BitVec 8) (left right : Half) (rb : Reverb) (it : Item),
    s.ringReady r.toNat u.toNat rb → rb.dsr.toNat = 1 → itemAt s.cfg rb rb.parity.toNat u.toNat = some it →
    s.holdsSamples left.toNat it.size → s.holdsSamples right.toNat it.size →
    s.ringWritable it rb.lbase → s.ringWritable it rb.rbase →
    ∃ t, exec (.rbwrite r u left right) s = .next { t with cp := t.cp + 1 } ∧
      Changed s t noByte (fun x => it.ringBytes rb.lbase x ∨ it.ringBytes rb.rbase x) ∧
      (it.lenB.toNat ≤ it.start.toNat → disjointBytes (it.ringBytes rb.lbase) (it.ringBytes rb.rbase) →
        ∀ k, k < it.size →
          t.extSample (ringAddr rb.lbase (it.ringIndex k)) = scratchSample s (left.toNat + 2 * k) ∧
            t.extSample (ringAddr rb.rbase (it.ringIndex k)) = scratchSample s (right.toNat + 2 * k))

/-- RBWRITE with RB_DSR > 1 leaves the ring alone and saves CHUNKLEN raw samples a channel to the TD buffers of this
parity and slot (45_reverb.md R174). -/
def Obligations.RbwriteDefers : Prop :=
  ∀ (s : State) (r u : BitVec 8) (left right : Half) (rb : Reverb) (it : Item) (tl tr : Word),
    s.ringReady r.toNat u.toNat rb → rb.dsr.toNat ≠ 1 → itemAt s.cfg rb rb.parity.toNat u.toNat = some it →
    tl = tdAddr s.cfg rb.tdlbase rb.tdstride rb.parity.toNat u.toNat →
    tr = tdAddr s.cfg rb.tdrbase rb.tdstride rb.parity.toNat u.toNat →
    s.holdsSamples left.toNat it.chunkLen.toNat → s.holdsSamples right.toNat it.chunkLen.toNat →
    s.writable tl 2 it.chunkLen.toNat → s.writable tr 2 it.chunkLen.toNat →
    ∃ t, exec (.rbwrite r u left right) s = .next { t with cp := t.cp + 1 } ∧
      Changed s t noByte
        (fun x => inExtSpan tl (2 * it.chunkLen.toNat) x ∨ inExtSpan tr (2 * it.chunkLen.toNat) x) ∧
      (disjointBytes (inExtSpan tl (2 * it.chunkLen.toNat)) (inExtSpan tr (2 * it.chunkLen.toNat)) →
        ∀ k, k < it.chunkLen.toNat →
          t.extSample (addrAdd tl (2 * k)) = scratchSample s (left.toNat + 2 * k) ∧
            t.extSample (addrAdd tr (2 * k)) = scratchSample s (right.toNat + 2 * k))

/-- RBFRAME counts RB_IGNORE down to 0 and flips RB_PARITY whatever the instance's configuration and USE; an instance
number out of range faults, and so does a word with a reserved bit; a word without one is RBFRAME of its instance
(45_reverb.md R175). -/
def Obligations.RbframeEndsFrame : Prop :=
  (∀ r : BitVec 8, decode (0x1400#16 ++ r ++ 0x0000000000#40) = .ok (.rbframe r)) ∧
  (∀ (s : State) (r : BitVec 8),
    (r.toNat < s.cfg.numReverb → ∃ rb, exec (.rbframe r) s =
        .next { s with reverb := s.reverb.set r.toNat rb, cp := s.cp + 1 } ∧
      rb = { reverbAt s r.toNat with ignore := rb.ignore, parity := rb.parity } ∧
      rb.ignore.toNat = (reverbAt s r.toNat).ignore.toNat - 1 ∧
      rb.parity.toNat = 1 - (reverbAt s r.toNat).parity.toNat) ∧
    (s.cfg.numReverb ≤ r.toNat → exec (.rbframe r) s =
      .next (takeFault ⟨.ringConfig, (encode (.rbframe r)).w0⟩ s))) ∧
  ∀ (s : State) (w : Command), w.opcode = 0x14#8 → w &&& 0x00FF00FFFFFFFFFF#64 ≠ 0#64 →
    runWord w s = .next (takeFault ⟨.illegalCommand, w.w0⟩ s)

/-- RBPREP, RBREAD and RBWRITE of an instance with USE = 0 only advance CP; RBFRAME runs whatever USE holds
(45_reverb.md R168). -/
def Obligations.UnusedInstanceSkipped : Prop :=
  ∀ (s : State) (r u : BitVec 8) (len left right : Half), r.toNat < s.cfg.numReverb →
    (u.toNat < s.cfg.maxChunks → (reverbAt s r.toNat).ctrl = 0 →
      exec (.rbprep r u len) s = .next { s with cp := s.cp + 1 } ∧
      exec (.rbread r u left right) s = .next { s with cp := s.cp + 1 } ∧
      exec (.rbwrite r u left right) s = .next { s with cp := s.cp + 1 }) ∧
    ∀ b : BitVec 1, ∃ rb, exec (.rbframe r) (setReverb s r.toNat { reverbAt s r.toNat with ctrl := b }) =
        .next { s with reverb := s.reverb.set r.toNat { rb with ctrl := b }, cp := s.cp + 1 } ∧
      exec (.rbframe r) s = .next { s with reverb := s.reverb.set r.toNat rb, cp := s.cp + 1 }

/-- The common checks of RBPREP, RBREAD and RBWRITE in their order; RBFRAME makes only the first, without the slot
(45_reverb.md R167). -/
def Obligations.RingChecksFault : Prop :=
  ∀ (s : State) (r u : BitVec 8) (len left right : Half) (i : Instr),
    (i = .rbprep r u len ∨ i = .rbread r u left right ∨ i = .rbwrite r u left right →
      (s.cfg.numReverb ≤ r.toNat ∨ s.cfg.maxChunks ≤ u.toNat →
        exec i s = .next (takeFault ⟨.ringConfig, (encode i).w0⟩ s)) ∧
      (r.toNat < s.cfg.numReverb → u.toNat < s.cfg.maxChunks →
        ((reverbAt s r.toNat).ctrl = 0 → exec i s = .next { s with cp := s.cp + 1 }) ∧
        ((reverbAt s r.toNat).ctrl = 1 →
          ((reverbAt s r.toNat).cap.toNat < 1 → exec i s =
            .next (takeFault ⟨.ringConfig, BitVec.ofNat 32 (0x100 + 0x20 * r.toNat + 1)⟩ s)) ∧
          (1 ≤ (reverbAt s r.toNat).cap.toNat → (reverbAt s r.toNat).cap.toNat ≤ (reverbAt s r.toNat).wptr.toNat →
            exec i s = .next (takeFault ⟨.ringConfig, BitVec.ofNat 32 (0x100 + 0x20 * r.toNat + 2)⟩ s)) ∧
          (1 ≤ (reverbAt s r.toNat).cap.toNat → (reverbAt s r.toNat).wptr.toNat < (reverbAt s r.toNat).cap.toNat →
            (reverbAt s r.toNat).dsr.toNat < 1 → exec i s =
              .next (takeFault ⟨.ringConfig, BitVec.ofNat 32 (0x100 + 0x20 * r.toNat + 3)⟩ s))))) ∧
    (s.cfg.numReverb ≤ r.toNat → exec (.rbframe r) s =
      .next (takeFault ⟨.ringConfig, (encode (.rbframe r)).w0⟩ s)) ∧
    (r.toNat < s.cfg.numReverb →
      ∃ t : State, exec (.rbframe r) s = .next { t with cp := t.cp + 1 } ∧ t.status = s.status)

/-- RBPREP of more samples than the ring holds faults RING_OVERRUN before any access; RBREAD, RBWRITE and a
downsampling RBPREP of an item with VALID = 0 fault UNINIT_READ with that VALID's CSR number
(45_reverb.md R169, R171, R173, R174). -/
def Obligations.RingRunFaults : Prop :=
  ∀ (s : State) (r u : BitVec 8) (len left right : Half) (rb : Reverb), s.ringReady r.toNat u.toNat rb →
    (rb.cap.toNat < len.toNat / rb.dsr.toNat → exec (.rbprep r u len) s =
      .next (takeFault ⟨.ringOverrun, BitVec.ofNat 32 (len.toNat / rb.dsr.toNat)⟩ s)) ∧
    (itemAt s.cfg rb rb.parity.toNat u.toNat = none →
      ∀ i, i = .rbread r u left right ∨ i = .rbwrite r u left right ∨
        (i = .rbprep r u len ∧ len.toNat / rb.dsr.toNat ≤ rb.cap.toNat ∧ rb.dsr.toNat ≠ 1 ∧ rb.ignore.toNat = 0) →
      exec i s = .next (takeFault ⟨.uninitRead, BitVec.ofNat 32
        (0x800 + 0x200 * r.toNat + 8 * (rb.parity.toNat * s.cfg.maxChunks + u.toNat) + 5)⟩ s))

/-- The ring invariant of an instance is kept by every command but a SETREG of that instance (45_reverb.md R160). The
spec marks R160 as its own inference; that segment B ends before segment A starts is the model's addition, read from
R170. -/
def Obligations.RingInvariantKept : Prop :=
  ∀ (i : Instr) (s t : State) (r : Nat) (rb : Reverb), exec i s = .next t →
    (∀ reg value, i = .setreg reg value → (reg.toNat - 0x100) / 0x20 ≠ r) →
    s.reverb[r]? = some rb → Reverb.ringOk rb →
    ∃ rb', t.reverb[r]? = some rb' ∧ rb'.cap = rb.cap ∧ Reverb.ringOk rb'

/-! ### Accesses and faults (20_memory.md, 60_exceptions.md) -/

/-- The first unwritten context register a command reads faults UNINIT_READ with its CSR number, before anything is
written (10_state.md R25, 40_context_and_scratch.md R97). Which one is the first is the model's choice (log
entry 25, DEDUCED) for ADPCM (LOOP_ADDR, OUT, IN, COUNT) and RESAMPLE (IN, COUNT, OUT), the pseudocode order of R97 (a)
against the lists of 41_adpcm.md R108 and R115 and 42_resample.md R118 and R127, and for ENVMIXER, the order that
43_envmix.md R133 and R144 name (IN, OUT, DRY_RIGHT, COUNT, the wet offsets, the volumes) against R97 (a). -/
def Obligations.UnwrittenContextFaults : Prop :=
  ∀ (i : Instr) (s : State) (n : Nat) (b : Bool),
    ((i.contextReads s.ctx).find? fun p => !p.2) = some (n, b) →
    exec i s = .next (takeFault ⟨.uninitRead, BitVec.ofNat 32 n⟩ s)

/-- A 16-bit scratch access at an odd offset faults SCRATCH_MISALIGNED whatever its bounds; an 8-bit access has no
alignment requirement. Then an access that does not lie in the scratch as a whole, below 0 or past SCRATCH_BYTES, faults
SCRATCH_BOUNDS with its offset mod 2^32 and changes nothing. One inside is served: a read gives the byte, or the signed
value of the two bytes in ENDIAN order; a write stores the byte, or its value mod 2^16 in ENDIAN order, and nothing else
(20_memory.md R46, R48, R57; the bounds fault is R47's, the writes are R56's and R58's). -/
def Obligations.MisalignedBeforeBounds : Prop :=
  ∀ (s : State) (a v : Int) (b : Byte),
    (a % 2 = 1 → sRead16 a s = .error ⟨.scratchMisaligned, BitVec.ofInt 32 a⟩ s ∧
      sWrite16 a v s = .error ⟨.scratchMisaligned, BitVec.ofInt 32 a⟩ s) ∧
    (a % 2 = 0 → a < 0 ∨ s.cfg.scratchBytes < a + 2 →
      sRead16 a s = .error ⟨.scratchBounds, BitVec.ofInt 32 a⟩ s ∧
      sWrite16 a v s = .error ⟨.scratchBounds, BitVec.ofInt 32 a⟩ s) ∧
    (a % 2 = 0 → 0 ≤ a → a + 2 ≤ s.cfg.scratchBytes →
      sRead16 a s = .ok (if s.cfg.endian = .little
        then (Memory.read s.scratch (a.toNat + 1) ++ Memory.read s.scratch a.toNat).toInt
        else (Memory.read s.scratch a.toNat ++ Memory.read s.scratch (a.toNat + 1)).toInt) s ∧
      ∃ t, sWrite16 a v s = .ok () t ∧ Changed s t (inSpan a.toNat 2) noByte ∧
        Memory.read t.scratch a.toNat = BitVec.ofInt 8 (if s.cfg.endian = .little then v else v / 256) ∧
        Memory.read t.scratch (a.toNat + 1) = BitVec.ofInt 8 (if s.cfg.endian = .little then v / 256 else v)) ∧
    (a < 0 ∨ s.cfg.scratchBytes < a + 1 → sRead8 a s = .error ⟨.scratchBounds, BitVec.ofInt 32 a⟩ s ∧
      sWrite8 a b s = .error ⟨.scratchBounds, BitVec.ofInt 32 a⟩ s) ∧
    (0 ≤ a → a + 1 ≤ s.cfg.scratchBytes → sRead8 a s = .ok (Memory.read s.scratch a.toNat) s ∧
      ∃ t, sWrite8 a b s = .ok () t ∧ Changed s t (inSpan a.toNat 1) noByte ∧
        Memory.read t.scratch a.toNat = b)

/-- An external access asks EXT_ADMIT, and a write then looks for the command list [CMD_BASE, CMD_BASE + 8*CMD_COUNT) mod
2^32; a refused one changes nothing. A write stores its bytes in ENDIAN order and no others. A read, wherever it lies,
returns its bytes in ENDIAN order and changes nothing; a byte the host has written during the run reads as it stands, or
as a value one of those writes replaced or wrote, by a draw (20_memory.md R63, R67, R69; log entry 8). -/
def Obligations.ExternalAccessChecks : Prop :=
  ∀ (s : State) (a : Word) (n v : Nat), n = 1 ∨ n = 2 ∨ n = 4 ∨ n = 8 → v < 256 ^ n →
    (extAdmits s.cfg a n .read = false → memRead a n s = .error ⟨.extFault, a⟩ s) ∧
    (extAdmits s.cfg a n .write = false → memWrite a n v s = .error ⟨.extFault, a⟩ s) ∧
    (extAdmits s.cfg a n .write = true →
      (∃ k j, k < n ∧ j < 8 * s.cmdCount.toNat ∧ (a.toNat + k) % 2 ^ 32 = (s.cmdBase.toNat + j) % 2 ^ 32) →
      memWrite a n v s = .error ⟨.cmdOverlap, a⟩ s) ∧
    (extAdmits s.cfg a n .write = true →
      (∀ k j, k < n → j < 8 * s.cmdCount.toNat → (a.toNat + k) % 2 ^ 32 ≠ (s.cmdBase.toNat + j) % 2 ^ 32) →
      ∃ t, memWrite a n v s = .ok () t ∧ Changed s t noByte (inExtSpan a n) ∧
        (s.mayRead a n → memRead a n t = .ok v t) ∧
        ∀ k, k < n → Memory.read t.ext ((a.toNat + k) % 2 ^ 32) =
          BitVec.ofNat 8 (v / 256 ^ (if s.cfg.endian = .little then k else n - 1 - k))) ∧
    (extAdmits s.cfg a n .read = true → ∃ r d, memRead a n s = .ok r { s with draws := d } ∧ r < 256 ^ n ∧
      ((∀ k b, k < n → ((a.toNat + k) % 2 ^ 32, b) ∉ s.raced) → d = s.draws) ∧
      ∀ k b, k < n → b = BitVec.ofNat 8 (r / 256 ^ (if s.cfg.endian = .little then k else n - 1 - k)) →
        b = Memory.read s.ext ((a.toNat + k) % 2 ^ 32) ∨ ((a.toNat + k) % 2 ^ 32, b) ∈ s.raced)

/-- Fault entry: the cause's code, info and the CP of the fault recorded, FAULT on, BUSY off, DONE and CP kept, the
interrupt output high, everything else as the raising point left it; the codes are 1 to 12 (60_exceptions.md R187, and
R186 for the codes). -/
def Obligations.FaultEntry : Prop :=
  (causeCode .illegalCommand = 1 ∧ causeCode .scratchBounds = 2 ∧ causeCode .scratchMisaligned = 3 ∧
    causeCode .uninitRead = 4 ∧ causeCode .adpcmPredictor = 5 ∧ causeCode .bookOverflow = 6 ∧
    causeCode .flagConflict = 7 ∧ causeCode .ringConfig = 8 ∧ causeCode .ringOverrun = 9 ∧
    causeCode .extFault = 10 ∧ causeCode .cmdOverlap = 11 ∧ causeCode .cmdAlign = 12) ∧
  ∀ (m : M Unit) (s t : State) (e : Trap), m s = .error e t →
    ∃ u, perform m s = .next u ∧
      u = { t with faultCause := causeCode e.cause, faultInfo := e.info, faultCp := t.cp,
                   status := ⟨false, t.status.done, true⟩ } ∧
      u.cp = t.cp ∧ u.irq = true

/-- Every command answers a next state: it completes with CP advanced by one, or its fault is taken with CP kept; up
to there it has changed no run-control register (40_context_and_scratch.md R97, 60_exceptions.md R181), and no field of
the model's own but the number of the next draw, where the host has written during the run (log entry 8). -/
def Obligations.CommandOutcome : Prop :=
  ∀ (i : Instr) (s : State), ∃ t u, exec i s = .next t ∧
    (t = { u with cp := u.cp + 1 } ∨ ∃ e, t = takeFault e u) ∧
    u.cfg = s.cfg ∧ u.status = s.status ∧ u.faultCause = s.faultCause ∧ u.faultCp = s.faultCp ∧
    u.faultInfo = s.faultInfo ∧ u.cmdBase = s.cmdBase ∧ u.cmdCount = s.cmdCount ∧ u.cp = s.cp ∧
    u.host = s.host ∧ u.readData = s.readData ∧ u.raced = s.raced ∧ u.past = s.past ∧
    (s.raced = [] → u.draws = s.draws)

/-- No command changes a byte of the command list, [CMD_BASE, CMD_BASE + 8*CMD_COUNT) mod 2^32 (20_memory.md R67). -/
def Obligations.CommandListKept : Prop :=
  ∀ (i : Instr) (s t : State) (j : Nat), exec i s = .next t → j < 8 * s.cmdCount.toNat →
    Memory.read t.ext ((s.cmdBase.toNat + j) % 2 ^ 32) = Memory.read s.ext ((s.cmdBase.toNat + j) % 2 ^ 32)

/-- Only SETBUFF, SETVOL and SETLOOP write context registers, only LOADADPCM the book, and a command changes no reverb
instance but the one it names (40_context_and_scratch.md R97, 20_memory.md R45, 45_reverb.md R164). -/
def Obligations.StateWriters : Prop :=
  ∀ (i : Instr) (s t : State), exec i s = .next t →
    (i.writesContext = false → t.ctx = s.ctx) ∧ (i.writesBook = false → t.book = s.book) ∧
    ∀ r, i.writesInstance ≠ some r → t.reverb[r]? = s.reverb[r]?

/-- What a command without INIT's record, a load or a ring read leaves behind does not depend on external memory: run
on any other external memory, it ends the same way, with the same registers and scratch, and the same bytes written
(20_memory.md R66). -/
def Obligations.InitFormsBlind : Prop :=
  ∀ (i : Instr) (s t : State) (e : Memory), i.readsExternal = false → exec i s = .next t →
    ∃ e', exec i { s with ext := e } = .next { t with ext := e' } ∧
      ∀ x, Memory.read e' x = Memory.read t.ext x ∨
        (Memory.read t.ext x = Memory.read s.ext x ∧ Memory.read e' x = Memory.read e x)

/-! ### Encoding (30_encoding.md) -/

/-- Decoding the encoding of a well-formed command gives the command back (30_encoding.md R73 to R92). -/
def Obligations.DecodeEncode : Prop := ∀ i : Instr, i.wellFormed = true → decode (encode i) = .ok i

/-- A word decodes exactly when it matches a row of the table; then it is the encoding of the well-formed command it
decodes to, so no command has don't-care bits; every other word is an illegal command (30_encoding.md R76). -/
def Obligations.DecodeFollowsTable : Prop :=
  ∀ w : Command,
    ((∃ row, row ∈ commandRows ∧ w &&& row.1 = row.2) →
      ∃ i, decode w = .ok i ∧ i.wellFormed = true ∧ encode i = w) ∧
    ((∀ row, row ∈ commandRows → w &&& row.1 ≠ row.2) →
      ∀ s, runWord w s = .next (takeFault ⟨.illegalCommand, w.w0⟩ s))

/-- A reserved opcode is illegal whatever its other bits, and only the word 0 is a no-op (30_encoding.md R78). -/
def Obligations.ReservedOpcodesRejected : Prop :=
  (∀ (w : Command) (s : State), w.opcode = 0x07#8 ∨ w.opcode = 0x0E#8 ∨ 0x16 ≤ w.opcode.toNat →
    runWord w s = .next (takeFault ⟨.illegalCommand, w.w0⟩ s)) ∧
  ∀ w : Command, decode w = .ok .noop → w = 0#64

/-- The seven encoding examples (30_encoding.md R95). The spec marks R95 as its own inference, "derived: from rule
R84". -/
def Obligations.EncodingExamples : Prop :=
  encode (.setbuff 0x00 0x0000 0x0100 0x0020) = 0x0800000001000020#64 ∧
  encode (.adpcm 0x01 0x00002000) = 0x0101000000002000#64 ∧
  encode (.resample 0x01 0x8000 0x00002100) = 0x0501800000002100#64 ∧
  encode (.setvol 0x02 0x2000 0x0001 0x8000) = 0x0902200000018000#64 ∧
  encode (.mixer 0x8000 0x0200 0x0300) = 0x0C00800002000300#64 ∧
  encode (.rbprep 0 1 20) = 0x1100000100000014#64 ∧
  encode (.interleaveExt 0x400 0x500 0x8000) = 0x1540050000008000#64 ∧
  decode 0x0800000001000020#64 = .ok (.setbuff 0x00 0x0000 0x0100 0x0020) ∧
  decode 0x0101000000002000#64 = .ok (.adpcm 0x01 0x00002000) ∧
  decode 0x0501800000002100#64 = .ok (.resample 0x01 0x8000 0x00002100) ∧
  decode 0x0902200000018000#64 = .ok (.setvol 0x02 0x2000 0x0001 0x8000) ∧
  decode 0x0C00800002000300#64 = .ok (.mixer 0x8000 0x0200 0x0300) ∧
  decode 0x1100000100000014#64 = .ok (.rbprep 0 1 20) ∧
  decode 0x1540050000008000#64 = .ok (.interleaveExt 0x400 0x500 0x8000)

/-! ### Runs (60_exceptions.md section 3) -/

/-- A BUSY block with commands left fetches the eight bytes at CMD_BASE + 8 CP and, where they decode to i, steps to
what exec i gives; CP = CMD_COUNT then ends the run (10_state.md R21, 30_encoding.md R79, 60_exceptions.md R198).
The host's list is empty, or names no move for this step, and then the boundary is recorded (the model's fields, log
entries 6 and 8); the run ends in the step of its last command (log entry 12, DEDUCED). A fetch of bytes the host
has written during the run sees for each of them the byte or a value of those writes, runs the word they form, or faults
when it is no command (20_memory.md R69, 30_encoding.md R80). -/
def Obligations.StepRunsCommand : Prop :=
  ∀ (s u : State) (rest : List HostOp) (a : Word), s.status.busy = true → s.cp ≠ s.cmdCount →
    a = s.cmdBase + 8#32 * s.cp → extAdmits s.cfg a 4 .read = true → extAdmits s.cfg (a + 4#32) 4 .read = true →
    (s.host = [] ∧ u = s ∨ s.host = .idle :: rest ∧ u = { s with host := rest, past := s.ext :: s.past }) →
    (∀ i, quiet s a 8 = true → decode (commandOfBytes s.cfg.endian (extBytes s a 8)) = .ok i →
      ∃ t, exec i u = .next t ∧
        step s = .next (if t.status.busy = true ∧ t.cp = t.cmdCount
          then { t with status := ⟨false, true, t.status.fault⟩ } else t)) ∧
    ∃ (bs : List Byte) (d : Nat), bs.length = 8 ∧
      (∀ k, k < 8 → bs.getD k 0 = s.extByte a k ∨ ((addrAdd a k).toNat, bs.getD k 0) ∈ s.raced) ∧
      (∀ i, decode (commandOfBytes s.cfg.endian bs) = .ok i →
        ∃ t, exec i { u with draws := d } = .next t ∧
          step s = .next (if t.status.busy = true ∧ t.cp = t.cmdCount
            then { t with status := ⟨false, true, t.status.fault⟩ } else t)) ∧
      ∀ e, decode (commandOfBytes s.cfg.endian bs) = .error e →
        step s = .next (takeFault ⟨.illegalCommand, (commandOfBytes s.cfg.endian bs).w0⟩ { u with draws := d })

/-- A refused fetch faults EXT_FAULT with the address of the word refused, w0 first; a fetched word that is no command
faults ILLEGAL_COMMAND with its w0; nothing else changes (30_encoding.md R76, R79, R80). The host's list is empty, or names
no move for this step, and then the boundary is recorded (the model's fields, log entries 6 and 8). Where the host has
written a byte of w0 during the run, the fetch of a refused w1 has made its draws; the illegal word is of bytes it has not
written, and StepRunsCommand states the other. -/
def Obligations.FetchFaults : Prop :=
  ∀ (s u : State) (rest : List HostOp) (a : Word), s.status.busy = true → s.cp ≠ s.cmdCount →
    a = s.cmdBase + 8#32 * s.cp →
    (s.host = [] ∧ u = s ∨ s.host = .idle :: rest ∧ u = { s with host := rest, past := s.ext :: s.past }) →
    (extAdmits s.cfg a 4 .read = false → step s = .next (takeFault ⟨.extFault, a⟩ u)) ∧
    (extAdmits s.cfg a 4 .read = true → extAdmits s.cfg (a + 4#32) 4 .read = false →
      ∃ d, step s = .next (takeFault ⟨.extFault, a + 4#32⟩ { u with draws := d }) ∧
        (quiet s a 4 = true → d = s.draws)) ∧
    (extAdmits s.cfg a 4 .read = true → extAdmits s.cfg (a + 4#32) 4 .read = true →
      ∀ w e, quiet s a 8 = true → w = commandOfBytes s.cfg.endian (extBytes s a 8) → decode w = .error e →
        step s = .next (takeFault ⟨.illegalCommand, w.w0⟩ u))

/-- GO from an idle block without a fault: DONE cleared and CP 0; BUSY, or CMD_ALIGN for an unaligned CMD_BASE, or at
once the end of a run of no commands; nothing else changes, but that the records of the last run's races are emptied
(log entry 8). A STATUS write without bit 0 does nothing (60_exceptions.md R200, R198). -/
def Obligations.GoStartsRun : Prop :=
  ∀ (s : State) (v : Word) (rest : List HostOp), s.host = .writeCsr 0 v :: rest →
    s.status.busy = false → s.status.fault = false →
    (v.getLsbD 0 = false → step s = .next { s with host := rest }) ∧
    (v.getLsbD 0 = true → s.cmdBase.toNat % 8 ≠ 0 → step s = .next { s with
      host := rest, cp := 0, status := ⟨false, false, true⟩, faultCause := 12, faultCp := 0,
      faultInfo := s.cmdBase }) ∧
    (v.getLsbD 0 = true → s.cmdBase.toNat % 8 = 0 → s.cmdCount ≠ 0 → step s = .next { s with
      host := rest, cp := 0, status := ⟨true, false, false⟩, raced := [], past := [] }) ∧
    (v.getLsbD 0 = true → s.cmdBase.toNat % 8 = 0 → s.cmdCount = 0 → step s = .next { s with
      host := rest, cp := 0, status := ⟨false, true, false⟩, raced := [], past := [] })

/-- A run ends: a BUSY block whose host makes no move comes to rest after at most CMD_COUNT - CP steps, DONE at CP =
CMD_COUNT or with a fault (60_exceptions.md R199, R198). The spec marks R199 as its own inference. -/
def Obligations.Termination : Prop :=
  ∀ s : State, s.host = [] → s.status.busy = true → s.cp ≠ s.cmdCount →
    ∃ k t, k ≤ (s.cmdCount - s.cp).toNat ∧ Sys2Proof.core.run k s = .next t ∧ t.status.busy = false ∧
      (t.status.done = true ∧ t.cp = t.cmdCount ∨ t.status.fault = true) ∧ step t = .next t

/-- While FAULT = 1 the block is quiescent and GO is ignored; every move but reset keeps STATUS and the fault
registers, reset clears them; a faulted state is no successful end of a run (60_exceptions.md R188). -/
def Obligations.StickyHalt : Prop :=
  ∀ s : State, s.status.fault = true → s.status.busy = false →
    (s.host = [] → step s = .next s) ∧
    (∀ v rest, s.host = .writeCsr 0 v :: rest → step s = .next { s with host := rest }) ∧
    (∀ t, (∀ rest, s.host ≠ .reset :: rest) → step s = .next t → t.status = s.status ∧
      t.faultCause = s.faultCause ∧ t.faultCp = s.faultCp ∧ t.faultInfo = s.faultInfo ∧ t.cp = s.cp) ∧
    (∀ rest, s.host = .reset :: rest → ∃ t, step s = .next t ∧ t.status.fault = false ∧ t.faultCause = 0 ∧
      t.faultCp = 0 ∧ t.faultInfo = 0) ∧
    (s.Inv → s.status.done = false)

/-! ### The host (60_exceptions.md section 3, 10_state.md R43) -/

/-- While BUSY a CSR write is ignored, GO included, and a read of STATUS gives BUSY = 1 (60_exceptions.md R201). The other
clauses are the model's choice. A host read of external memory returns the byte as it stands or stood at a recorded
boundary of the run, by a draw, so exactly the byte where no command has changed it (log entry 8, DESIGN CHOICE, where
20_memory.md R69 says the old or the new value). A host write is stored at once, so that the later of it and a block's
write stands (log entry 28, DESIGN CHOICE, where R69 is silent); it is put on record for the block's reads to race with,
and into the recorded boundaries (log entry 8). A reset is refused (log entry 9, DEDUCED, where 70_reset_and_hazards.md
R206 defines nothing). -/
def Obligations.HostAccessWhileBusy : Prop :=
  ∀ (s : State) (rest : List HostOp), s.status.busy = true →
    (∀ n v, s.host = .writeCsr n v :: rest → step s = .next { s with host := rest }) ∧
    (s.host = .readCsr 0 :: rest → ∃ v, step s = .next { s with host := rest, readData := v } ∧
      v.getLsbD 0 = true) ∧
    (∀ a, s.host = .readExt a :: rest → ∃ b, step s = .next
        { s with host := rest, readData := BitVec.setWidth 32 b, draws := s.draws + 1 } ∧
      (b = Memory.read s.ext a.toNat ∨ ∃ m, m ∈ s.past ∧ b = Memory.read m a.toNat)) ∧
    (∀ a b, s.host = .writeExt a b :: rest → ∃ t, step s = .next t ∧
      t = { s with host := rest, ext := t.ext, past := t.past,
                   raced := (a.toNat, Memory.read s.ext a.toNat) :: (a.toNat, b) :: s.raced } ∧
      (∀ x, Memory.read t.ext x = if x = a.toNat then b else Memory.read s.ext x) ∧
      t.past.length = s.past.length ∧ ∀ k x, k < s.past.length →
        Memory.read (t.past.getD k []) x = if x = a.toNat then b else Memory.read (s.past.getD k []) x) ∧
    (s.host = .reset :: rest → step s = .refused .resetWhileBusy)

/-- No CSR or external move of the host writes the scratch, the book or a context register, and what a read returns
does not depend on the scratch or the book (20_memory.md R72, 10_state.md R24). A host write while not BUSY stores
CMD_BASE and CMD_COUNT, and one of a read-only or unassigned number is ignored; a host read returns the run-control
register, the context register or the item field of its number, any value for an unwritten one, and 0 for an unassigned
number (10_state.md R22, R23, R25, R41, R43; the controller registers are HostWriteIsSetreg's). While BUSY,
60_exceptions.md R201 gives a read a draw over the run's command boundaries; that it returns the value at the boundary
where the move stands is the model's choice (log entry 15, DEDUCED), and so is the counter `draws` that a read of an
unwritten register advances (log entry 10, DESIGN CHOICE). That a faulted block takes the host's writes is log entry 18
(DEDUCED). -/
def Obligations.HostMovesKeepInternals : Prop :=
  (∀ (s t : State) (op : HostOp) (rest : List HostOp), s.host = op :: rest → op ≠ .idle → op ≠ .reset →
    step s = .next t →
    t.scratch = s.scratch ∧ t.book = s.book ∧ t.ctx = s.ctx ∧
      ∀ (m : Memory) (b : Book), ∃ u, step { s with scratch := m, book := b } = .next u ∧ u.readData = t.readData) ∧
  (∀ (s : State) (n : Nat) (v : Word) (rest : List HostOp), s.host = .writeCsr n v :: rest → s.status.busy = false →
    (n = 0x004 → step s = .next { s with host := rest, cmdBase := v }) ∧
    (n = 0x005 → step s = .next { s with host := rest, cmdCount := v }) ∧
    (n ≠ 0x000 → n ≠ 0x004 → n ≠ 0x005 → ¬ isControllerCsr s.cfg n → step s = .next { s with host := rest })) ∧
  ∀ (s : State) (n : Nat) (rest : List HostOp), s.host = .readCsr n :: rest → s.cfg.legal = true →
    (∀ w : Word, (n, w) ∈ [
        (0x000, BitVec.ofNat 32 (s.status.busy.toNat + 2 * s.status.done.toNat + 4 * s.status.fault.toNat)),
        (0x001, s.faultCause.setWidth 32), (0x002, s.faultCp), (0x003, s.faultInfo), (0x004, s.cmdBase),
        (0x005, s.cmdCount), (0x006, s.cp)] → step s = .next { s with host := rest, readData := w }) ∧
    (∀ v, (n, v) ∈ s.ctx.csrs ∨ (∃ r p u f, isItemCsr s.cfg n r p u f ∧
        (itemCsrs (itemAt s.cfg (reverbAt s r) p u))[f]? = some v) →
      (∀ w, v = some w → step s = .next { s with host := rest, readData := w }) ∧
      (v = none → ∃ w, step s = .next { s with host := rest, readData := w, draws := s.draws + 1 })) ∧
    (isUnassignedCsr s.cfg n → step s = .next { s with host := rest, readData := 0 })

/-- While not BUSY the host reads and writes the controller registers, and a write does what the SETREG of the same
number and value does (45_reverb.md R166). -/
def Obligations.HostWriteIsSetreg : Prop :=
  ∀ (s : State) (reg : Half) (v : Word) (rest : List HostOp), s.status.busy = false →
    0x100 ≤ reg.toNat → reg.toNat < 0x100 + 0x20 * s.cfg.numReverb → (reg.toNat - 0x100) % 0x20 ≤ 0xA →
    (s.host = .writeCsr reg.toNat v :: rest → ∃ u : State, step s = .next { u with host := rest } ∧
      exec (.setreg reg v) s = .next { u with cp := u.cp + 1 }) ∧
    (s.host = .readCsr reg.toNat :: rest → step s = .next { s with
      host := rest,
      readData := readField (reverbAt s ((reg.toNat - 0x100) / 0x20)) ((reg.toNat - 0x100) % 0x20) })

/-! ### Reset (70_reset_and_hazards.md section 1) -/

/-- The state after power-on, with the default parameters, has every reset value of 10_state.md R44. -/
def Obligations.ResetValues : Prop :=
  State.reset.status = ⟨false, false, false⟩ ∧ State.reset.faultCause = 0 ∧ State.reset.faultCp = 0 ∧
    State.reset.faultInfo = 0 ∧ State.reset.cmdBase = 0 ∧ State.reset.cmdCount = 0 ∧ State.reset.cp = 0 ∧
    State.reset.ctx = ⟨none, none, none, none, none, none, none, none, none, none, none, none, none, none, none⟩ ∧
    (∀ k, Book.read State.reset.book k = none) ∧ (∀ k, Memory.read State.reset.scratch k = 0) ∧
    State.reset.reverb.length = 1 ∧
    ∀ rb, rb ∈ State.reset.reverb → rb = ⟨0, 0, 0, 1, 0, 0, 0, 0, 0, 0, 0, List.replicate 8 none⟩

/-- A reset of a block that is not BUSY gives every piece of block state its reset value, for all parameter values:
the scratch zero, or one draw a byte under SCRATCH_RESET = unspecified; the parameters and external memory stay
(10_state.md R44; 70_reset_and_hazards.md R207, R209). -/
def Obligations.ResetMove : Prop :=
  ∀ (s : State) (rest : List HostOp), s.host = .reset :: rest → s.status.busy = false →
    ∃ t, step s = .next t ∧ t.status = ⟨false, false, false⟩ ∧ t.irq = false ∧ t.faultCause = 0 ∧
      t.faultCp = 0 ∧ t.faultInfo = 0 ∧ t.cmdBase = 0 ∧ t.cmdCount = 0 ∧ t.cp = 0 ∧
      t.ctx = ⟨none, none, none, none, none, none, none, none, none, none, none, none, none, none, none⟩ ∧
      (∀ k, Book.read t.book k = none) ∧ t.reverb.length = s.cfg.numReverb ∧
      (∀ rb, rb ∈ t.reverb →
        rb = ⟨0, 0, 0, 1, 0, 0, 0, 0, 0, 0, 0, List.replicate (2 * s.cfg.maxChunks) none⟩) ∧
      (s.cfg.scratchReset = .zero → ∀ k, Memory.read t.scratch k = 0) ∧
      (s.cfg.scratchReset = .unspecified → ∀ k, k < s.cfg.scratchBytes →
        Memory.read t.scratch k = Config.freeScratch s.draws k) ∧
      t.cfg = s.cfg ∧ t.ext = s.ext

/-- The state after power-on is sound. The invariant is the model's own. -/
def Obligations.ResetInv : Prop := State.reset.Inv

/-- Every step keeps a sound state sound: legal parameters, memories (the recorded earlier ones too, log entry 8), book
and instances in their canonical forms, BUSY, DONE and FAULT exclusive, a command left while BUSY, the fault registers 0
until a fault and naming it after.
The invariant is the model's own reading of 10_state.md R22, R23, R27, R28, R41 and 60_exceptions.md R187, R198. -/
def Obligations.StepKeepsInv : Prop := ∀ s t : State, s.Inv → step s = .next t → t.Inv

end
end

