-- ==== Sys2Proof/Laws/Bytes.lean ====
section
/-! SUPPORT. Bytes and values: writing a value and reading it back, in either byte order. -/

namespace Sys2Proof.Machine

@[simp] theorem bytesLE_length (n v : Nat) : (bytesLE n v).length = n := by
  induction n generalizing v with
  | zero => rfl
  | succ n ih => simp [bytesLE, ih]

@[simp] theorem toBytes_length (e : Endian) (n v : Nat) : (toBytes e n v).length = n := by
  cases e <;> simp [toBytes]

theorem valueLE_bytesLE (n v : Nat) : valueLE (bytesLE n v) = v % 256 ^ n := by
  induction n generalizing v with
  | zero => simp [bytesLE, valueLE, Nat.mod_one]
  | succ n ih =>
    simp only [bytesLE, valueLE, ih, BitVec.toNat_ofNat]
    have h1 : v % 256 ^ (n + 1) = v % 256 + 256 * (v / 256 % 256 ^ n) := by
      rw [pow_succ, mul_comm, Nat.mod_mul]
    rw [h1]

/-- A value stored in `n` bytes reads back mod 256^n, in either byte order. -/
theorem ofBytes_toBytes (e : Endian) (n v : Nat) : ofBytes e (toBytes e n v) = v % 256 ^ n := by
  cases e <;> simp [ofBytes, toBytes, valueLE_bytesLE]

theorem valueLE_lt (bs : List Byte) : valueLE bs < 256 ^ bs.length := by
  induction bs with
  | nil => simp [valueLE]
  | cons b bs ih =>
    simp only [valueLE, List.length_cons, pow_succ]
    have := b.isLt
    omega

theorem bytesLE_valueLE (bs : List Byte) : bytesLE bs.length (valueLE bs) = bs := by
  induction bs with
  | nil => rfl
  | cons b bs ih =>
    simp only [valueLE, List.length_cons, bytesLE]
    have hb := b.isLt
    have h1 : (b.toNat + 256 * valueLE bs) / 256 = valueLE bs := by omega
    rw [h1, ih]
    congr 1
    apply BitVec.eq_of_toNat_eq
    rw [BitVec.toNat_ofNat]
    omega

theorem ofBytes_lt (e : Endian) (bs : List Byte) : ofBytes e bs < 256 ^ bs.length := by
  cases e
  · exact valueLE_lt bs
  · simpa [ofBytes] using valueLE_lt bs.reverse

/-- The bytes of the value of `bs` are `bs`, in either byte order. -/
theorem toBytes_ofBytes (e : Endian) (bs : List Byte) : toBytes e bs.length (ofBytes e bs) = bs := by
  cases e
  · exact bytesLE_valueLE bs
  · have := bytesLE_valueLE bs.reverse
    rw [List.length_reverse] at this
    simp [toBytes, ofBytes, this]

/-! ### Narrowing -/

theorem mod16_lt (v : Int) : mod16 v < 65536 := by unfold mod16; omega

theorem sext16_eq (v : Nat) :
    sext16 v = if v % 65536 < 32768 then ((v % 65536 : Nat) : Int) else ((v % 65536 : Nat) : Int) - 65536 := by
  unfold sext16
  rw [BitVec.toInt_eq_toNat_cond, BitVec.toNat_ofNat]
  norm_num
  split <;> split <;> omega

theorem mod16_sext16 (v : Nat) (h : v < 65536) : mod16 (sext16 v) = v := by
  rw [sext16_eq]; unfold mod16; split <;> omega

/-- A value in the signed 16-bit range survives a store of its low 16 bits. -/
theorem sext16_mod16 (v : Int) (h1 : -32768 ≤ v) (h2 : v ≤ 32767) : sext16 (mod16 v) = v := by
  rw [sext16_eq]; unfold mod16; split <;> omega

theorem sext16_range (v : Nat) : -32768 ≤ sext16 v ∧ sext16 v ≤ 32767 := by
  rw [sext16_eq]; split <;> omega

theorem sat16_range (v : Int) : -32768 ≤ sat16 v ∧ sat16 v ≤ 32767 := by unfold sat16; omega

theorem sat32_range (v : Int) : -2147483648 ≤ sat32 v ∧ sat32 v ≤ 2147483647 := by unfold sat32; omega

theorem sat16_of_range (v : Int) (h1 : -32768 ≤ v) (h2 : v ≤ 32767) : sat16 v = v := by unfold sat16; omega

theorem ofBytes_pair_lt (e : Endian) (b c : Byte) : ofBytes e [b, c] < 65536 := by
  simpa using ofBytes_lt e [b, c]

/-- A sample stored and read back: the bytes are the ones it was read from. -/
theorem toBytes_mod16_sext16 (e : Endian) (b c : Byte) :
    toBytes e 2 (mod16 (sext16 (ofBytes e [b, c]))) = [b, c] := by
  rw [mod16_sext16 _ (ofBytes_pair_lt e b c)]
  exact toBytes_ofBytes e [b, c]

theorem toBytes_two (e : Endian) (v : Nat) : ∃ b c, toBytes e 2 v = [b, c] := by
  have h := toBytes_length e 2 v
  match hl : toBytes e 2 v, h with
  | [b, c], _ => exact ⟨b, c, rfl⟩

theorem ru_ge (n g : Nat) (hg : 0 < g) : n ≤ ru n g := by
  unfold ru
  have := Nat.div_add_mod (n + (g - 1)) g
  have := Nat.mod_lt (n + (g - 1)) hg
  rw [Nat.mul_comm]
  omega

theorem ru_lt (n g : Nat) (hg : 0 < g) : ru n g < n + g := by
  unfold ru
  have := Nat.div_mul_le_self (n + (g - 1)) g
  omega

theorem ru_mod (n g : Nat) : ru n g % g = 0 := by
  unfold ru
  exact Nat.mul_mod_left _ _

end Sys2Proof.Machine
end

