-- ==== Sys2Proof/Laws/Memory.lean ====
section
/-! SUPPORT. The laws of the byte memories: a read after a write, and the canonical form that every operation keeps. -/

namespace Sys2Proof.Machine

@[simp] theorem Memory.read_nil (a : Nat) : Memory.read [] a = 0 := rfl

@[simp] theorem Book.read_nil (a : Nat) : Book.read [] a = none := rfl

theorem Memory.read_removeCell (m : Memory) (a x : Nat) :
    Memory.read (removeCell a m) x = if x = a then 0 else Memory.read m x := by
  induction m with
  | nil => simp [removeCell]
  | cons d m ih =>
    rcases d with ⟨y, b⟩
    unfold removeCell at ih ⊢
    by_cases hya : y = a
    · rw [List.filter_cons_of_neg (by simp [hya]), ih]
      by_cases hx : x = a
      · simp [hx]
      · rw [if_neg hx, if_neg hx]
        show Memory.read m x = if y = x then b else Memory.read m x
        rw [if_neg (by omega)]
    · rw [List.filter_cons_of_pos (by simp [hya])]
      show (if y = x then b else Memory.read (List.filter (fun d => d.1 != a) m) x) = _
      rw [ih]
      by_cases hyx : y = x
      · have hx : x ≠ a := by omega
        rw [if_pos hyx, if_neg hx]
        show b = if y = x then b else Memory.read m x
        rw [if_pos hyx]
      · rw [if_neg hyx]
        show _ = if x = a then 0 else (if y = x then b else Memory.read m x)
        rw [if_neg hyx]

theorem Memory.read_insertCell (m : Memory) (a x : Nat) (b : Byte) (h : Memory.read m a = 0 ∨ x ≠ a)
    (hm : ∀ d ∈ m, d.1 ≠ a) :
    Memory.read (insertCell (a, b) m) x = if x = a then b else Memory.read m x := by
  induction m with
  | nil =>
    show (if a = x then b else 0) = _
    by_cases hx : x = a
    · simp [hx]
    · rw [if_neg (by omega), if_neg hx]; rfl
  | cons d m ih =>
    rcases d with ⟨y, c⟩
    have hy : y ≠ a := hm (y, c) (by simp)
    unfold insertCell
    split
    · show (if a = x then b else Memory.read ((y, c) :: m) x) = _
      by_cases hx : x = a
      · simp [hx]
      · rw [if_neg (by omega), if_neg hx]
    · show (if y = x then c else Memory.read (insertCell (a, b) m) x) = _
      have h' : Memory.read m a = 0 ∨ x ≠ a := by
        rcases h with h | h
        · left
          have : Memory.read ((y, c) :: m) a = Memory.read m a := by
            show (if y = a then c else Memory.read m a) = _
            rw [if_neg hy]
          rw [this] at h
          exact h
        · exact Or.inr h
      rw [ih h' (fun d hd => hm d (by simp [hd]))]
      by_cases hx : x = a
      · rw [if_pos hx, if_pos hx, if_neg (by omega)]
      · rw [if_neg hx, if_neg hx]
        rfl

theorem mem_removeCell (m : Memory) (a : Nat) : ∀ d ∈ removeCell a m, d.1 ≠ a := by
  intro d hd
  simpa [removeCell] using (List.mem_filter.mp hd).2

/-- A read after a write: the byte written, and every other byte as before. It needs no canonical form. -/
theorem Memory.read_write (m : Memory) (a x : Nat) (b : Byte) :
    Memory.read (m.write a b) x = if x = a then b else Memory.read m x := by
  unfold Memory.write
  split
  · rename_i hb
    rw [Memory.read_removeCell, hb]
  · rw [Memory.read_insertCell _ _ _ _ (Or.inl (by rw [Memory.read_removeCell]; simp)) (mem_removeCell m a),
      Memory.read_removeCell]
    by_cases hx : x = a <;> simp [hx]

theorem Memory.read_write_self (m : Memory) (a : Nat) (b : Byte) : Memory.read (m.write a b) a = b := by
  simp [Memory.read_write]

theorem Memory.read_write_other (m : Memory) (a x : Nat) (b : Byte) (h : x ≠ a) :
    Memory.read (m.write a b) x = Memory.read m x := by
  simp [Memory.read_write, h]

theorem Book.read_removeCell (m : Book) (a x : Nat) :
    Book.read (removeCell a m) x = if x = a then none else Book.read m x := by
  induction m with
  | nil => simp [removeCell]
  | cons d m ih =>
    rcases d with ⟨y, b⟩
    unfold removeCell at ih ⊢
    by_cases hya : y = a
    · rw [List.filter_cons_of_neg (by simp [hya]), ih]
      by_cases hx : x = a
      · simp [hx]
      · rw [if_neg hx, if_neg hx]
        show Book.read m x = if y = x then some b else Book.read m x
        rw [if_neg (by omega)]
    · rw [List.filter_cons_of_pos (by simp [hya])]
      show (if y = x then some b else Book.read (List.filter (fun d => d.1 != a) m) x) = _
      rw [ih]
      by_cases hyx : y = x
      · have hx : x ≠ a := by omega
        rw [if_pos hyx, if_neg hx]
        show some b = if y = x then some b else Book.read m x
        rw [if_pos hyx]
      · rw [if_neg hyx]
        show _ = if x = a then none else (if y = x then some b else Book.read m x)
        rw [if_neg hyx]

/-- A read of the book after a write of one byte. -/
theorem Book.read_write (m : Book) (a x : Nat) (b : Byte) :
    Book.read (m.write a b) x = if x = a then some b else m.read x := by
  have key : ∀ l : Book, (∀ d ∈ l, d.1 ≠ a) →
      Book.read (insertCell (a, b) l) x = if x = a then some b else Book.read l x := by
    intro l hl
    induction l with
    | nil =>
      show (if a = x then some b else none) = _
      by_cases hx : x = a
      · simp [hx]
      · rw [if_neg (by omega), if_neg hx]; rfl
    | cons d l ih =>
      rcases d with ⟨y, c⟩
      have hy : y ≠ a := hl (y, c) (by simp)
      unfold insertCell
      split
      · show (if a = x then some b else Book.read ((y, c) :: l) x) = _
        by_cases hx : x = a
        · simp [hx]
        · rw [if_neg (by omega), if_neg hx]
      · show (if y = x then some c else Book.read (insertCell (a, b) l) x) = _
        rw [ih (fun d hd => hl d (by simp [hd]))]
        by_cases hx : x = a
        · rw [if_pos hx, if_pos hx, if_neg (by omega)]
        · rw [if_neg hx, if_neg hx]
          rfl
  unfold Book.write
  rw [key _ (mem_removeCell m a), Book.read_removeCell]
  by_cases hx : x = a <;> simp [hx]

/-! ### The canonical form -/

/-- The addresses of the list rise strictly, as a pairwise statement. -/
theorem cellsRising_iff (m : List Host.Cell) : cellsRising m = true ↔ m.Pairwise fun c d => c.1 < d.1 := by
  induction m with
  | nil => simp [cellsRising]
  | cons c m ih =>
    cases m with
    | nil => simp [cellsRising]
    | cons d m =>
      simp only [cellsRising, Bool.and_eq_true, decide_eq_true_eq, ih]
      constructor
      · rintro ⟨hcd, hp⟩
        refine List.pairwise_cons.mpr ⟨?_, hp⟩
        intro e he
        rcases List.mem_cons.mp he with rfl | he
        · exact hcd
        · exact lt_trans hcd ((List.pairwise_cons.mp hp).1 e he)
      · intro hp
        exact ⟨(List.pairwise_cons.mp hp).1 d (by simp), (List.pairwise_cons.mp hp).2⟩

theorem mem_insertCell (c d : Host.Cell) (m : List Host.Cell) : d ∈ insertCell c m ↔ d = c ∨ d ∈ m := by
  induction m with
  | nil => simp [insertCell]
  | cons e m ih =>
    unfold insertCell
    split
    · simp
    · simp only [List.mem_cons, ih]
      tauto

theorem cellsRising_removeCell (a : Nat) (m : List Host.Cell) (h : cellsRising m = true) :
    cellsRising (removeCell a m) = true := by
  rw [cellsRising_iff] at h ⊢
  exact List.Pairwise.filter _ h

theorem cellsRising_insertCell (c : Host.Cell) (m : List Host.Cell) (h : cellsRising m = true)
    (hm : ∀ d ∈ m, d.1 ≠ c.1) : cellsRising (insertCell c m) = true := by
  rw [cellsRising_iff] at h ⊢
  induction m with
  | nil => simp [insertCell]
  | cons d m ih =>
    have hd := List.pairwise_cons.mp h
    unfold insertCell
    split
    · rename_i hlt
      refine List.pairwise_cons.mpr ⟨?_, h⟩
      intro e he
      rcases List.mem_cons.mp he with rfl | he
      · exact hlt
      · exact lt_trans hlt (hd.1 e he)
    · rename_i hnlt
      have hne := hm d (by simp)
      refine List.pairwise_cons.mpr ⟨?_, ih hd.2 (fun e he => hm e (by simp [he]))⟩
      intro e he
      rcases (mem_insertCell c e m).mp he with rfl | he
      · omega
      · exact hd.1 e he

/-- Every write keeps the canonical form. -/
theorem Memory.wf_write (m : Memory) (a : Nat) (b : Byte) (h : Memory.wf m = true) :
    Memory.wf (m.write a b) = true := by
  simp only [Memory.wf, Bool.and_eq_true, List.all_eq_true] at h ⊢
  have hr := cellsRising_removeCell a m h.1
  have hz : ∀ d ∈ removeCell a m, (d.2 != 0) = true :=
    fun d hd => h.2 d (List.mem_filter.mp hd).1
  unfold Memory.write
  split
  · exact ⟨hr, hz⟩
  · rename_i hb
    refine ⟨cellsRising_insertCell _ _ hr (mem_removeCell m a), ?_⟩
    intro d hd
    rcases (mem_insertCell _ d _).mp hd with rfl | hd
    · simpa using hb
    · exact hz d hd

/-- A write below the bound keeps every address below it. -/
theorem cellsBelow_write (n : Nat) (m : Memory) (a : Nat) (b : Byte) (h : cellsBelow n m = true) (ha : a < n) :
    cellsBelow n (m.write a b) = true := by
  simp only [cellsBelow, List.all_eq_true, decide_eq_true_eq] at h ⊢
  have hr : ∀ d ∈ removeCell a m, d.1 < n := fun d hd => h d (List.mem_filter.mp hd).1
  unfold Memory.write
  split
  · exact hr
  · intro d hd
    rcases (mem_insertCell _ d _).mp hd with rfl | hd
    · exact ha
    · exact hr d hd

/-- A write of the book keeps its form. -/
theorem cellsRising_bookWrite (m : Book) (k : Nat) (b : Byte) (h : cellsRising m = true) :
    cellsRising (m.write k b) = true :=
  cellsRising_insertCell _ _ (cellsRising_removeCell k m h) (mem_removeCell m k)

theorem cellsBelow_bookWrite (n : Nat) (m : Book) (k : Nat) (b : Byte) (h : cellsBelow n m = true) (hk : k < n) :
    cellsBelow n (m.write k b) = true := by
  simp only [cellsBelow, List.all_eq_true, decide_eq_true_eq] at h ⊢
  intro d hd
  rcases (mem_insertCell _ d _).mp hd with rfl | hd
  · exact hk
  · exact h d (List.mem_filter.mp hd).1

/-! ### Runs of bytes -/

theorem storeBytes_read (m : Memory) (a x : Nat) (bs : List Byte) :
    Memory.read (storeBytes m a bs) x = if a ≤ x ∧ x < a + bs.length then bs.getD (x - a) 0 else m.read x := by
  induction bs generalizing m a with
  | nil => simp [storeBytes]
  | cons b bs ih =>
    simp only [storeBytes, ih, Memory.read_write, List.length_cons]
    by_cases h1 : a + 1 ≤ x ∧ x < a + 1 + bs.length
    · rw [if_pos h1, if_pos (by omega)]
      have : x - a = (x - (a + 1)) + 1 := by omega
      rw [this, List.getD_cons_succ]
    · rw [if_neg h1]
      by_cases h2 : x = a
      · rw [if_pos h2, if_pos (by omega)]
        simp [h2]
      · rw [if_neg h2, if_neg (by omega)]

theorem storeBytes_wf (m : Memory) (a : Nat) (bs : List Byte) (h : Memory.wf m = true) :
    Memory.wf (storeBytes m a bs) = true := by
  induction bs generalizing m a with
  | nil => exact h
  | cons b bs ih => exact ih _ _ (Memory.wf_write m a b h)

theorem storeBytes_below (n : Nat) (m : Memory) (a : Nat) (bs : List Byte) (h : cellsBelow n m = true)
    (ha : a + bs.length ≤ n) : cellsBelow n (storeBytes m a bs) = true := by
  induction bs generalizing m a with
  | nil => exact h
  | cons b bs ih =>
    simp only [List.length_cons] at ha
    exact ih _ _ (cellsBelow_write n m a b h (by omega)) (by omega)

theorem storeExt_wf (m : Memory) (a : Word) (bs : List Byte) (h : Memory.wf m = true) :
    Memory.wf (storeExt m a bs) = true := by
  induction bs generalizing m a with
  | nil => exact h
  | cons b bs ih => exact ih _ _ (Memory.wf_write m a.toNat b h)

theorem storeExt_below (m : Memory) (a : Word) (bs : List Byte) (h : cellsBelow (2 ^ 32) m = true) :
    cellsBelow (2 ^ 32) (storeExt m a bs) = true := by
  induction bs generalizing m a with
  | nil => exact h
  | cons b bs ih => exact ih _ _ (cellsBelow_write _ m a.toNat b h a.isLt)

@[simp] theorem addrAdd_zero (a : Word) : addrAdd a 0 = a := by simp [addrAdd]

theorem addrAdd_addrAdd (a : Word) (j k : Nat) : addrAdd (addrAdd a j) k = addrAdd a (j + k) := by
  simp [addrAdd, BitVec.ofNat_add, BitVec.add_assoc]

theorem addrAdd_one_addrAdd (a : Word) (k : Nat) : addrAdd (a + 1) k = addrAdd a (k + 1) := by
  simp only [addrAdd, BitVec.ofNat_add]
  rw [BitVec.add_assoc, BitVec.add_comm (1 : Word)]
  rfl

/-- Two offsets below 2^32 from one address name one byte exactly when they are equal. -/
theorem addrAdd_inj (a : Word) (j k : Nat) (hj : j < 2 ^ 32) (hk : k < 2 ^ 32) :
    addrAdd a j = addrAdd a k ↔ j = k := by
  constructor
  · intro h
    have h2 : BitVec.ofNat 32 j = BitVec.ofNat 32 k := by
      simpa [addrAdd] using h
    have h3 := congrArg BitVec.toNat h2
    rwa [BitVec.toNat_ofNat, BitVec.toNat_ofNat, Nat.mod_eq_of_lt hj, Nat.mod_eq_of_lt hk] at h3
  · rintro rfl
    rfl

/-- What a stored run of at most 2^32 bytes leaves: each byte at its place, every other byte as before. -/
theorem storeExt_read_other (m : Memory) (a : Word) (bs : List Byte) (x : Nat)
    (h : ∀ i, i < bs.length → x ≠ (addrAdd a i).toNat) : Memory.read (storeExt m a bs) x = m.read x := by
  induction bs generalizing m a with
  | nil => rfl
  | cons b bs ih =>
    simp only [storeExt]
    rw [ih]
    · rw [Memory.read_write_other]
      simpa using h 0 (by simp)
    · intro i hi
      have := h (i + 1) (by simpa using hi)
      rwa [addrAdd_one_addrAdd]

theorem storeExt_read_at (m : Memory) (a : Word) (bs : List Byte) (i : Nat) (hi : i < bs.length)
    (hl : bs.length ≤ 2 ^ 32) : Memory.read (storeExt m a bs) (addrAdd a i).toNat = bs.getD i 0 := by
  induction bs generalizing m a i with
  | nil => simp at hi
  | cons b bs ih =>
    simp only [List.length_cons] at hi hl
    simp only [storeExt]
    cases i with
    | zero =>
      rw [storeExt_read_other, addrAdd_zero, Memory.read_write_self]
      · rfl
      · intro j hj heq
        rw [addrAdd_one_addrAdd] at heq
        have := (addrAdd_inj a 0 (j + 1) (by norm_num) (by omega)).mp (BitVec.eq_of_toNat_eq heq)
        omega
    | succ i =>
      rw [← addrAdd_one_addrAdd, ih _ _ _ (by omega) (by omega), List.getD_cons_succ]

end Sys2Proof.Machine
end

