-- ==== Sys2Proof/Laws/Monad.lean ====
section
/-! SUPPORT. How the operations compose: sequencing, loops, what a body keeps however it ends (`Keeps`), and what
holds when it ends without a fault (`Ends`). -/

namespace Sys2Proof.Machine

variable {α β σ : Type}

/-! ### Running -/

theorem bind_apply (m : M α) (f : α → M β) (s : State) :
    (m >>= f) s = match m s with | .ok a t => f a t | .error e t => .error e t := by
  simp only [bind, EStateM.bind]
  cases m s <;> rfl

@[simp] theorem pure_apply (x : α) (s : State) : (pure x : M α) s = .ok x s := rfl

@[simp] theorem get_apply (s : State) : (get : M State) s = .ok s s := rfl

@[simp] theorem raise_apply (c : Cause) (v : Word) (s : State) : (raise c v : M α) s = .error ⟨c, v⟩ s := rfl

theorem bind_ok {m : M α} {f : α → M β} {s t : State} {a : α} (h : m s = .ok a t) : (m >>= f) s = f a t := by
  rw [bind_apply, h]

theorem bind_error {m : M α} {f : α → M β} {s t : State} {e : Trap} (h : m s = .error e t) :
    (m >>= f) s = .error e t := by
  rw [bind_apply, h]

theorem perform_ok {m : M Unit} {s t : State} (h : m s = .ok () t) : perform m s = .next (advance t) := by
  simp [perform, h]

theorem perform_error {m : M Unit} {s t : State} {e : Trap} (h : m s = .error e t) :
    perform m s = .next (takeFault e t) := by
  simp [perform, h]

/-- Everything performing a command can do: it completes, or its fault is taken. -/
theorem perform_cases (m : M Unit) (s : State) :
    (∃ t, m s = .ok () t ∧ perform m s = .next (advance t)) ∨
      (∃ e t, m s = .error e t ∧ perform m s = .next (takeFault e t)) := by
  cases h : m s with
  | ok x t => exact .inl ⟨t, by cases x; rfl, by simp [perform, h]⟩
  | error e t => exact .inr ⟨e, t, rfl, by simp [perform, h]⟩

/-! ### Loops -/

@[simp] theorem foldFrom_zero (f : Nat → σ → M σ) (k : Nat) (x : σ) : foldFrom f 0 k x = pure x := rfl

theorem foldFrom_succ (f : Nat → σ → M σ) (n k : Nat) (x : σ) :
    foldFrom f (n + 1) k x = f k x >>= fun y => foldFrom f n (k + 1) y := rfl

theorem collectFrom_succ (f : Nat → M α) (n k : Nat) :
    collectFrom f (n + 1) k = f k >>= fun x => collectFrom f n (k + 1) >>= fun xs => pure (x :: xs) := rfl

/-- A loop of m + n rounds is its first m rounds, then the other n. -/
theorem foldFrom_add (f : Nat → σ → M σ) (m n k : Nat) (x : σ) (s : State) :
    foldFrom f (m + n) k x s = (foldFrom f m k x >>= fun y => foldFrom f n (k + m) y) s := by
  induction m generalizing k x s with
  | zero => simp [bind_apply]
  | succ m ih =>
    rw [show m + 1 + n = (m + n) + 1 by omega, foldFrom_succ, foldFrom_succ, bind_apply, bind_apply, bind_apply]
    cases f k x s with
    | error e t => rfl
    | ok y t =>
      show foldFrom f (m + n) (k + 1) y t = _
      rw [ih, bind_apply, show k + 1 + m = k + (m + 1) by omega]

/-- Operations that only read: collecting them leaves the state and gives the values. -/
theorem collectFrom_read (f : Nat → M α) (g : Nat → α) (n k : Nat) (s : State)
    (h : ∀ j, k ≤ j → j < k + n → f j s = .ok (g j) s) :
    collectFrom f n k s = .ok ((List.range' k n).map g) s := by
  induction n generalizing k with
  | zero => rfl
  | succ n ih =>
    rw [collectFrom_succ, bind_ok (h k (by omega) (by omega)),
      bind_ok (ih (k + 1) fun j h1 h2 => h j (by omega) (by omega))]
    rfl

theorem collect_read (f : Nat → M α) (g : Nat → α) (n : Nat) (s : State) (h : ∀ j, j < n → f j s = .ok (g j) s) :
    collect n f s = .ok ((List.range' 0 n).map g) s :=
  collectFrom_read f g n 0 s fun j _ h2 => h j (by omega)

theorem getD_range'_map (g : Nat → α) (n k i : Nat) (d : α) (h : i < n) :
    ((List.range' k n).map g).getD i d = g (k + i) := by
  simp [List.getD_eq_getElem?_getD, h]

/-! ### What a body keeps, however it ends -/

/-- The state a result carries. -/
def resultState (r : EStateM.Result Trap State α) : State :=
  match r with
  | .ok _ t => t
  | .error _ t => t

/-- Every run of `m`, ending with a value or with a fault, leads from its state to one in relation `R` to it. -/
def Keeps (R : State → State → Prop) (m : M α) : Prop := ∀ s, R s (resultState (m s))

/-- A relation that holds from each state to itself, along two runs in a row, and across an external read. -/
structure RunRel (R : State → State → Prop) : Prop where
  refl : ∀ s, R s s
  trans : ∀ s t u, R s t → R t u → R s u
  read : ∀ s a n, R s (afterRead s a n)

variable {R : State → State → Prop}

theorem keeps_pure (h : RunRel R) (x : α) : Keeps R (pure x : M α) := fun s => h.refl s

theorem keeps_get (h : RunRel R) : Keeps R (get : M State) := fun s => h.refl s

theorem keeps_raise (h : RunRel R) (c : Cause) (v : Word) : Keeps R (raise c v : M α) := fun s => h.refl s

theorem keeps_bind (h : RunRel R) {m : M α} {f : α → M β} (hm : Keeps R m) (hf : ∀ a, Keeps R (f a)) :
    Keeps R (m >>= f) := by
  intro s
  have h1 := hm s
  rw [bind_apply]
  cases hr : m s with
  | ok a t =>
    rw [hr] at h1
    exact h.trans _ _ _ h1 (hf a t)
  | error e t =>
    rw [hr] at h1
    exact h1

theorem keeps_foldFrom (h : RunRel R) {f : Nat → σ → M σ} (hf : ∀ k x, Keeps R (f k x)) (n k : Nat) (x : σ) :
    Keeps R (foldFrom f n k x) := by
  induction n generalizing k x with
  | zero => exact keeps_pure h x
  | succ n ih => exact keeps_bind h (hf k x) fun y => ih (k + 1) y

theorem keeps_forRange (h : RunRel R) {f : Nat → M Unit} (hf : ∀ k, Keeps R (f k)) (n : Nat) :
    Keeps R (forRange n f) :=
  keeps_foldFrom h (fun k _ => hf k) n 0 ()

theorem keeps_collectFrom (h : RunRel R) {f : Nat → M α} (hf : ∀ k, Keeps R (f k)) (n k : Nat) :
    Keeps R (collectFrom f n k) := by
  induction n generalizing k with
  | zero => exact keeps_pure h _
  | succ n ih => exact keeps_bind h (hf k) fun x => keeps_bind h (ih (k + 1)) fun xs => keeps_pure h _

theorem keeps_collect (h : RunRel R) {f : Nat → M α} (hf : ∀ k, Keeps R (f k)) (n : Nat) : Keeps R (collect n f) :=
  keeps_collectFrom h hf n 0

theorem keeps_ite (c : Prop) [Decidable c] {m₁ m₂ : M α} (h₁ : Keeps R m₁) (h₂ : Keeps R m₂) :
    Keeps R (if c then m₁ else m₂) := by
  split
  · exact h₁
  · exact h₂

/-- A body whose state never changes keeps every reflexive relation. -/
theorem keeps_of_same (h : RunRel R) {m : M α} (hm : ∀ s, resultState (m s) = s) : Keeps R m := by
  intro s
  rw [hm s]
  exact h.refl s

/-! ### What holds when a body ends without a fault -/

/-- `m` ends without a fault from `s`, and its value and state satisfy `Q`. -/
def Ends (m : M α) (s : State) (Q : α → State → Prop) : Prop := ∃ x t, m s = .ok x t ∧ Q x t

theorem ends_ok {m : M α} {s t : State} {x : α} {Q : α → State → Prop} (h : m s = .ok x t) (hq : Q x t) :
    Ends m s Q := ⟨x, t, h, hq⟩

theorem ends_pure {s : State} {x : α} {Q : α → State → Prop} (h : Q x s) : Ends (pure x : M α) s Q :=
  ⟨x, s, rfl, h⟩

theorem ends_bind {m : M α} {f : α → M β} {s : State} {Q : β → State → Prop}
    (h : Ends m s fun x t => Ends (f x) t Q) : Ends (m >>= f) s Q := by
  obtain ⟨x, t, hm, y, u, hf, hq⟩ := h
  exact ⟨y, u, by rw [bind_ok hm, hf], hq⟩

theorem ends_mono {m : M α} {s : State} {P Q : α → State → Prop} (h : Ends m s P) (hpq : ∀ x t, P x t → Q x t) :
    Ends m s Q := by
  obtain ⟨x, t, hm, hp⟩ := h
  exact ⟨x, t, hm, hpq x t hp⟩

/-- The loop rule: an invariant that every round keeps holds when the loop ends. -/
theorem ends_foldFrom {f : Nat → σ → M σ} (I : Nat → σ → State → Prop) (n k : Nat) (x : σ) (s : State)
    (hf : ∀ j y t, k ≤ j → j < k + n → I j y t → Ends (f j y) t fun z u => I (j + 1) z u) (h0 : I k x s) :
    Ends (foldFrom f n k x) s fun z u => I (k + n) z u := by
  induction n generalizing k x s with
  | zero => exact ends_pure h0
  | succ n ih =>
    rw [foldFrom_succ]
    apply ends_bind
    apply ends_mono (hf k x s (by omega) (by omega) h0)
    intro y t hy
    have := ih (k + 1) y t (fun j z u h1 h2 hi => hf j z u (by omega) (by omega) hi) hy
    rwa [show k + 1 + n = k + (n + 1) by omega] at this

theorem ends_forRange {f : Nat → M Unit} (I : Nat → State → Prop) (n : Nat) (s : State)
    (hf : ∀ j t, j < n → I j t → Ends (f j) t fun _ u => I (j + 1) u) (h0 : I 0 s) :
    Ends (forRange n f) s fun _ u => I n u := by
  have h := ends_foldFrom (f := fun k (_ : Unit) => f k) (fun j _ t => I j t) n 0 () s
    (fun j _ t _ h2 hi => hf j t (by omega) hi) h0
  rwa [Nat.zero_add] at h

/-- The rule for collecting: each value satisfies `P`, and the invariant holds at the end. -/
theorem ends_collectFrom {f : Nat → M α} (I : Nat → State → Prop) (P : Nat → α → Prop) (d : α) (n k : Nat)
    (s : State) (hf : ∀ j t, k ≤ j → j < k + n → I j t → Ends (f j) t fun x u => P j x ∧ I (j + 1) u)
    (h0 : I k s) :
    Ends (collectFrom f n k) s fun xs u =>
      xs.length = n ∧ (∀ i, i < n → P (k + i) (xs.getD i d)) ∧ I (k + n) u := by
  induction n generalizing k s with
  | zero => exact ends_pure ⟨rfl, fun i hi => by omega, h0⟩
  | succ n ih =>
    rw [collectFrom_succ]
    apply ends_bind
    apply ends_mono (hf k s (by omega) (by omega) h0)
    rintro x t ⟨hx, ht⟩
    apply ends_bind
    apply ends_mono (ih (k + 1) t (fun j u h1 h2 hi => hf j u (by omega) (by omega) hi) ht)
    rintro xs u ⟨hl, hp, hi⟩
    refine ends_pure ⟨by simp [hl], ?_, by rwa [show k + (n + 1) = k + 1 + n by omega]⟩
    intro i hin
    cases i with
    | zero => simpa using hx
    | succ i =>
      rw [List.getD_cons_succ, show k + (i + 1) = k + 1 + i by omega]
      exact hp i (by omega)

theorem ends_collect {f : Nat → M α} (I : Nat → State → Prop) (P : Nat → α → Prop) (d : α) (n : Nat) (s : State)
    (hf : ∀ j t, j < n → I j t → Ends (f j) t fun x u => P j x ∧ I (j + 1) u) (h0 : I 0 s) :
    Ends (collect n f) s fun xs u => xs.length = n ∧ (∀ i, i < n → P i (xs.getD i d)) ∧ I n u := by
  have h := ends_collectFrom I P d n 0 s (fun j t _ h2 hi => hf j t (by omega) hi) h0
  simp only [Nat.zero_add] at h
  exact h

theorem perform_ends {m : M Unit} {s : State} {Q : State → Prop} (h : Ends m s fun _ t => Q t) :
    ∃ t, perform m s = .next (advance t) ∧ Q t := by
  obtain ⟨x, t, hm, hq⟩ := h
  cases x
  exact ⟨t, perform_ok hm, hq⟩

/-- A command whose body ends without a fault completes: CP advances past the state its body leaves. -/
theorem ends_next {m : M Unit} {s : State} {Q : State → Prop} (h : Ends m s fun _ t => Q t) :
    ∃ t : State, perform m s = .next { t with cp := t.cp + 1 } ∧ Q t := by
  obtain ⟨x, t, ht, hq⟩ := h
  exact ⟨t, perform_ok ht, hq⟩

/-- A loop whose first `k` rounds end and whose next round faults ends with that fault. -/
theorem forRange_fails {f : Nat → M Unit} {s : State} {Q R : State → Prop} {e : Trap} (k n : Nat) (hk : k < n)
    (h : Ends (forRange k f) s fun _ t => Q t) (hf : ∀ t, Q t → ∃ u, f k t = .error e u ∧ R u) :
    ∃ u, forRange n f s = .error e u ∧ R u := by
  obtain ⟨x, t, ht, hq⟩ := h
  obtain ⟨u, hu, hr⟩ := hf t hq
  refine ⟨u, ?_, hr⟩
  have hn : n = k + ((n - k - 1) + 1) := by omega
  unfold forRange at ht ⊢
  rw [hn, foldFrom_add, bind_ok ht, foldFrom_succ, Nat.zero_add, bind_error hu]

end Sys2Proof.Machine
end

