-- ==== Sys2Proof/Laws/Ops.lean ====
section
/-! SUPPORT. One lemma for each shared operation that says when it ends and what it leaves, and one that says what it
does otherwise. -/

namespace Sys2Proof.Machine

/-! ### Scratch -/

theorem inScratch_iff (s : State) (a : Int) (n : Nat) :
    inScratch s a n = true ↔ 0 ≤ a ∧ a + n ≤ s.cfg.scratchBytes := by
  simp [inScratch]

theorem sRead8_ok {s : State} {a : Int} (h0 : 0 ≤ a) (h1 : a + 1 ≤ s.cfg.scratchBytes) :
    sRead8 a s = .ok (Memory.read s.scratch a.toNat) s := by
  rw [sRead8, if_pos ((inScratch_iff s a 1).mpr ⟨h0, by simpa using h1⟩)]

theorem sWrite8_ok {s : State} {a : Int} (b : Byte) (h0 : 0 ≤ a) (h1 : a + 1 ≤ s.cfg.scratchBytes) :
    sWrite8 a b s = .ok () { s with scratch := Memory.write s.scratch a.toNat b } := by
  rw [sWrite8, if_pos ((inScratch_iff s a 1).mpr ⟨h0, by simpa using h1⟩)]

theorem sRead16_ok {s : State} {a : Int} (he : a % 2 = 0) (h0 : 0 ≤ a) (h1 : a + 2 ≤ s.cfg.scratchBytes) :
    sRead16 a s = .ok (scratchSample s a.toNat) s := by
  rw [sRead16, if_neg (by omega), if_pos ((inScratch_iff s a 2).mpr ⟨h0, by simpa using h1⟩)]

theorem sWrite16_ok {s : State} {a : Int} (v : Int) (he : a % 2 = 0) (h0 : 0 ≤ a)
    (h1 : a + 2 ≤ s.cfg.scratchBytes) :
    sWrite16 a v s =
      .ok () { s with scratch := storeBytes s.scratch a.toNat (toBytes s.cfg.endian 2 (mod16 v)) } := by
  rw [sWrite16, if_neg (by omega), if_pos ((inScratch_iff s a 2).mpr ⟨h0, by simpa using h1⟩)]

/-- Everything an 8-bit scratch write can do. -/
theorem sWrite8_cases (a : Int) (b : Byte) (s : State) :
    (0 ≤ a ∧ a + 1 ≤ s.cfg.scratchBytes ∧
        sWrite8 a b s = .ok () { s with scratch := Memory.write s.scratch a.toNat b }) ∨
      sWrite8 a b s = .error ⟨.scratchBounds, BitVec.ofInt 32 a⟩ s := by
  by_cases h : inScratch s a 1 = true
  · have h' := (inScratch_iff s a 1).mp h
    exact .inl ⟨h'.1, by simpa using h'.2, by rw [sWrite8, if_pos h]⟩
  · exact .inr (by rw [sWrite8, if_neg h])

/-- Everything a 16-bit scratch write can do. -/
theorem sWrite16_cases (a v : Int) (s : State) :
    (a % 2 = 0 ∧ 0 ≤ a ∧ a + 2 ≤ s.cfg.scratchBytes ∧ sWrite16 a v s =
        .ok () { s with scratch := storeBytes s.scratch a.toNat (toBytes s.cfg.endian 2 (mod16 v)) }) ∨
      (∃ e, sWrite16 a v s = .error e s ∧ e.info = BitVec.ofInt 32 a ∧
        (e.cause = .scratchMisaligned ∨ e.cause = .scratchBounds)) := by
  by_cases he : a % 2 = 0
  · by_cases h : inScratch s a 2 = true
    · have h' := (inScratch_iff s a 2).mp h
      exact .inl ⟨he, h'.1, by simpa using h'.2, by rw [sWrite16, if_neg (by omega), if_pos h]⟩
    · exact .inr ⟨_, by rw [sWrite16, if_neg (by omega), if_neg h], rfl, .inr rfl⟩
  · exact .inr ⟨_, by rw [sWrite16, if_pos he], rfl, .inl rfl⟩

/-- Everything an 8-bit scratch read can do. -/
theorem sRead8_cases (a : Int) (s : State) :
    (0 ≤ a ∧ a + 1 ≤ s.cfg.scratchBytes ∧ sRead8 a s = .ok (Memory.read s.scratch a.toNat) s) ∨
      (¬ (0 ≤ a ∧ a + 1 ≤ s.cfg.scratchBytes) ∧ sRead8 a s = .error ⟨.scratchBounds, BitVec.ofInt 32 a⟩ s) := by
  by_cases h : 0 ≤ a ∧ a + 1 ≤ s.cfg.scratchBytes
  · exact .inl ⟨h.1, h.2, sRead8_ok h.1 h.2⟩
  · exact .inr ⟨h, by rw [sRead8, if_neg (by rw [inScratch_iff]; simpa using h)]⟩

/-- Everything a 16-bit scratch read can do. -/
theorem sRead16_cases (a : Int) (s : State) :
    (a % 2 = 0 ∧ 0 ≤ a ∧ a + 2 ≤ s.cfg.scratchBytes ∧ sRead16 a s = .ok (scratchSample s a.toNat) s) ∨
      (a % 2 = 1 ∧ sRead16 a s = .error ⟨.scratchMisaligned, BitVec.ofInt 32 a⟩ s) ∨
      (a % 2 = 0 ∧ ¬ (0 ≤ a ∧ a + 2 ≤ s.cfg.scratchBytes) ∧
        sRead16 a s = .error ⟨.scratchBounds, BitVec.ofInt 32 a⟩ s) := by
  by_cases he : a % 2 = 0
  · by_cases h : 0 ≤ a ∧ a + 2 ≤ s.cfg.scratchBytes
    · exact .inl ⟨he, h.1, h.2, sRead16_ok he h.1 h.2⟩
    · exact .inr (.inr ⟨he, h, by
        rw [sRead16, if_neg (by omega), if_neg (by rw [inScratch_iff]; simpa using h)]⟩)
  · exact .inr (.inl ⟨by omega, by rw [sRead16, if_pos he]⟩)

theorem sRead8_state (a : Int) (s : State) : resultState (sRead8 a s) = s := by
  unfold sRead8
  split <;> rfl

theorem sRead16_state (a : Int) (s : State) : resultState (sRead16 a s) = s := by
  unfold sRead16
  split
  · rfl
  · split <;> rfl

/-- The sample at `x` of a scratch after a 16-bit store at `a`, both even. -/
theorem scratchSample_store (s : State) (a x : Nat) (v : Int) (ha : a % 2 = 0) (hx : x % 2 = 0)
    (h1 : -32768 ≤ v) (h2 : v ≤ 32767) :
    scratchSample { s with scratch := storeBytes s.scratch a (toBytes s.cfg.endian 2 (mod16 v)) } x =
      if x = a then v else scratchSample s x := by
  simp only [scratchSample, storeBytes_read, toBytes_length]
  by_cases h : x = a
  · subst h
    rw [if_pos rfl, if_pos ⟨by omega, by omega⟩, if_pos ⟨by omega, by omega⟩]
    obtain ⟨b, c, hbc⟩ := toBytes_two s.cfg.endian (mod16 v)
    have hv := ofBytes_toBytes s.cfg.endian 2 (mod16 v)
    have hl := mod16_lt v
    rw [hbc] at hv ⊢
    simp only [Nat.sub_self, Nat.add_sub_cancel_left, List.getD_cons_zero, List.getD_cons_succ]
    rw [hv, Nat.mod_eq_of_lt (by simpa using hl), sext16_mod16 v h1 h2]
  · rw [if_neg h, if_neg (by omega), if_neg (by omega)]

theorem scratchSample_range (s : State) (a : Nat) : -32768 ≤ scratchSample s a ∧ scratchSample s a ≤ 32767 :=
  sext16_range _

/-- A sample depends on its two scratch bytes and the byte order alone. -/
theorem scratchSample_congr {s t : State} {a : Nat} (he : t.cfg.endian = s.cfg.endian)
    (h0 : Memory.read t.scratch a = Memory.read s.scratch a)
    (h1 : Memory.read t.scratch (a + 1) = Memory.read s.scratch (a + 1)) :
    scratchSample t a = scratchSample s a := by
  simp [scratchSample, he, h0, h1]

/-! ### External memory -/

theorem racedValues_mem {s : State} {a : Word} {b : Byte} :
    b ∈ racedValues s a ↔ (a.toNat, b) ∈ s.raced := by
  simp [racedValues]

/-- A range is quiet exactly when no byte of it was written by the host during the run. -/
theorem quiet_iff {s : State} {a : Word} {n : Nat} :
    quiet s a n = true ↔ ∀ i, i < n → racedValues s (addrAdd a i) = [] := by
  simp [quiet]

theorem quiet_of_raced {s : State} (h : s.raced = []) (a : Word) (n : Nat) : quiet s a n = true :=
  quiet_iff.mpr fun i _ => by simp [racedValues, h]

/-- Whether a range is quiet depends on the record of the host's writes alone. -/
theorem quiet_congr {s t : State} (h : t.raced = s.raced) (a : Word) (n : Nat) : quiet t a n = quiet s a n := by
  simp [quiet, racedValues, h]

/-- What a racing byte reads as is one of its values. -/
theorem drawnFrom_mem (d : Nat) (v : Byte) (vs : List Byte) : drawnFrom d v vs = v ∨ drawnFrom d v vs ∈ vs := by
  unfold drawnFrom
  split
  · exact .inl rfl
  · rename_i w ws
    have h : Config.freePick d % (ws.length + 2) < (v :: w :: ws).length := by
      exact Nat.mod_lt (Config.freePick d) (y := ws.length + 2) (by omega)
    rw [List.getD_eq_getElem?_getD, List.getElem?_eq_getElem h, Option.getD_some]
    exact List.mem_cons.mp (List.getElem_mem h)

theorem readBytes_quiet {s : State} {a : Word} {n : Nat} (h : quiet s a n = true) :
    readBytes s a n = extBytes s a n := by
  unfold readBytes extBytes
  apply List.map_congr_left
  intro i hi
  rw [quiet_iff.mp h i (by simpa using hi), drawnFrom]

theorem afterRead_quiet {s : State} {a : Word} {n : Nat} (h : quiet s a n = true) : afterRead s a n = s := by
  rw [afterRead, if_pos h]

/-- All a read can change. -/
theorem afterRead_cases (s : State) (a : Word) (n : Nat) :
    afterRead s a n = s ∨ quiet s a n = false ∧ afterRead s a n = { s with draws := s.draws + n } := by
  unfold afterRead
  split
  · exact .inl rfl
  · rename_i h
    exact .inr ⟨by simpa using h, rfl⟩

theorem afterRead_draws (s : State) (a : Word) (n : Nat) : ∃ d, afterRead s a n = { s with draws := d } := by
  rcases afterRead_cases s a n with h | ⟨_, h⟩
  · exact ⟨s.draws, h⟩
  · exact ⟨_, h⟩

/-- A read of bytes the host has not written during the run. -/
theorem memRead_ok {s : State} {a : Word} {n : Nat}
    (h : extAdmits s.cfg a n .read = true ∧ quiet s a n = true) :
    memRead a n s = .ok (ofBytes s.cfg.endian (extBytes s a n)) s := by
  rw [memRead, if_pos h.1, readBytes_quiet h.2, afterRead_quiet h.2]

/-- Everything an external read can do. -/
theorem memRead_cases (a : Word) (n : Nat) (s : State) :
    (extAdmits s.cfg a n .read = true ∧
        memRead a n s = .ok (ofBytes s.cfg.endian (readBytes s a n)) (afterRead s a n)) ∨
      (extAdmits s.cfg a n .read = false ∧ memRead a n s = .error ⟨.extFault, a⟩ s) := by
  cases h : extAdmits s.cfg a n .read
  · exact .inr ⟨rfl, by rw [memRead, if_neg (by simp [h])]⟩
  · exact .inl ⟨rfl, by rw [memRead, if_pos h]⟩

theorem memRead_refused {s : State} {a : Word} {n : Nat} (h : extAdmits s.cfg a n .read = false) :
    memRead a n s = .error ⟨.extFault, a⟩ s := by
  rw [memRead, if_neg (by simp [h])]

theorem keeps_memRead {R : State → State → Prop} (h : RunRel R) (a : Word) (n : Nat) : Keeps R (memRead a n) := by
  intro s
  rcases memRead_cases a n s with ⟨_, hm⟩ | ⟨_, hm⟩ <;> rw [hm]
  · exact h.read s a n
  · exact h.refl s

theorem keeps_extRead16 {R : State → State → Prop} (h : RunRel R) (a : Word) : Keeps R (extRead16 a) :=
  keeps_bind h (keeps_memRead h a 2) fun _ => keeps_pure h _

theorem keeps_extRead32 {R : State → State → Prop} (h : RunRel R) (a : Word) : Keeps R (extRead32 a) :=
  keeps_bind h (keeps_memRead h a 4) fun _ => keeps_pure h _

theorem memWrite_ok {s : State} {a : Word} {n : Nat} (v : Nat) (h : extAdmits s.cfg a n .write = true)
    (ho : overlapsCommandList s a n = false) :
    memWrite a n v s = .ok () { s with ext := storeExt s.ext a (toBytes s.cfg.endian n v) } := by
  rw [memWrite, if_pos h, if_neg (by simp [ho])]

/-- Everything an external write can do. -/
theorem memWrite_cases (a : Word) (n v : Nat) (s : State) :
    (extAdmits s.cfg a n .write = true ∧ overlapsCommandList s a n = false ∧
        memWrite a n v s = .ok () { s with ext := storeExt s.ext a (toBytes s.cfg.endian n v) }) ∨
      (∃ e, memWrite a n v s = .error e s ∧ e.info = a ∧ (e.cause = .extFault ∨ e.cause = .cmdOverlap)) := by
  by_cases h : extAdmits s.cfg a n .write = true
  · by_cases ho : overlapsCommandList s a n = true
    · exact .inr ⟨_, by rw [memWrite, if_pos h, if_pos ho], rfl, .inr rfl⟩
    · have ho' : overlapsCommandList s a n = false := by simpa using ho
      exact .inl ⟨h, ho', memWrite_ok v h ho'⟩
  · exact .inr ⟨_, by rw [memWrite, if_neg h], rfl, .inl rfl⟩

/-- An external write that is stored leaves every byte of the command list as it was (20_memory.md R67). -/
theorem memWrite_keeps_commandList {a : Word} {n v : Nat} {s t : State} (h : memWrite a n v s = .ok () t)
    (x : Word) (hx : inCommandList s x = true) : Memory.read t.ext x.toNat = Memory.read s.ext x.toNat := by
  rcases memWrite_cases a n v s with ⟨_, ho, hw⟩ | ⟨e, hw, _⟩
  · rw [hw] at h
    injection h with _ h
    subst h
    apply storeExt_read_other
    intro i hi heq
    rw [toBytes_length] at hi
    have hxi : x = addrAdd a i := BitVec.eq_of_toNat_eq heq
    have : overlapsCommandList s a n = true := by
      rw [overlapsCommandList, List.any_eq_true]
      exact ⟨i, by simpa using hi, by rw [← hxi]; exact hx⟩
    rw [this] at ho
    exact absurd ho (by simp)
  · rw [hw] at h
    exact absurd h (by simp)

/-! ### Book and context -/

theorem coef_state (p r j : Nat) (s : State) : resultState (coef p r j s) = s := by
  unfold coef
  split <;> rfl

theorem coef_ok {s : State} {p r j : Nat} {b0 b1 : Byte} (h0 : Book.read s.book (coefOffset p r j) = some b0)
    (h1 : Book.read s.book (coefOffset p r j + 1) = some b1) :
    coef p r j s = .ok (sext16 (ofBytes s.cfg.endian [b0, b1])) s := by
  simp [coef, h0, h1]

theorem coef_unwritten {s : State} {p r j : Nat}
    (h : Book.read s.book (coefOffset p r j) = none ∨ Book.read s.book (coefOffset p r j + 1) = none) :
    coef p r j s = .error ⟨.uninitRead, 0x20000000#32 ||| BitVec.ofNat 32 (coefOffset p r j)⟩ s := by
  unfold coef
  split
  · rename_i h0 h1
    simp [h0, h1] at h
  · rfl

theorem ctxRead_state {w : Nat} (csr : Nat) (v : Context → Option (BitVec w)) (s : State) :
    resultState (ctxRead csr v s) = s := by
  unfold ctxRead
  split <;> rfl

theorem ctxRead_ok {w : Nat} {csr : Nat} {v : Context → Option (BitVec w)} {s : State} {x : BitVec w}
    (h : v s.ctx = some x) : ctxRead csr v s = .ok x s := by
  simp [ctxRead, h]

theorem ctxRead_unwritten {w : Nat} {csr : Nat} {v : Context → Option (BitVec w)} {s : State}
    (h : v s.ctx = none) : ctxRead csr v s = .error ⟨.uninitRead, BitVec.ofNat 32 csr⟩ s := by
  simp [ctxRead, h]

theorem reverbCheck_state (r u : Nat) (w0 : Word) (s : State) : resultState (reverbCheck r u w0 s) = s := by
  unfold reverbCheck
  repeat' split
  all_goals rfl

theorem readItem_state (r u : Nat) (rb : Reverb) (s : State) : resultState (readItem r u rb s) = s := by
  unfold readItem
  split <;> rfl

end Sys2Proof.Machine
end

