-- ==== Sys2Proof/Laws/Frames.lean ====
section
/-! SUPPORT. The frame `Changed` and one specification lemma for each access in its terms. -/

namespace Sys2Proof.Machine

theorem changed_refl (s : State) (P Q : Nat → Prop) : Changed s s P Q := ⟨rfl, fun _ _ => rfl, fun _ _ => rfl⟩

theorem Changed.trans {s t u : State} {P Q P' Q' : Nat → Prop} (h : Changed s t P Q) (h' : Changed t u P' Q') :
    Changed s u (fun x => P x ∨ P' x) (fun x => Q x ∨ Q' x) := by
  refine ⟨?_, fun x hx => ?_, fun x hx => ?_⟩
  · rw [h'.rest, h.rest]
  · rw [h'.scratch x fun hp => hx (.inr hp), h.scratch x fun hp => hx (.inl hp)]
  · rw [h'.ext x fun hq => hx (.inr hq), h.ext x fun hq => hx (.inl hq)]

theorem Changed.mono {s t : State} {P Q P' Q' : Nat → Prop} (h : Changed s t P Q) (hp : ∀ x, P x → P' x)
    (hq : ∀ x, Q x → Q' x) : Changed s t P' Q' :=
  ⟨h.rest, fun x hx => h.scratch x fun k => hx (hp x k), fun x hx => h.ext x fun k => hx (hq x k)⟩

/-- Two changes in a row, within one pair of spans. -/
theorem Changed.then {s t u : State} {P Q P₁ Q₁ P₂ Q₂ : Nat → Prop} (h : Changed s t P₁ Q₁)
    (h' : Changed t u P₂ Q₂) (hp : ∀ x, P₁ x ∨ P₂ x → P x) (hq : ∀ x, Q₁ x ∨ Q₂ x → Q x) : Changed s u P Q :=
  (h.trans h').mono hp hq

theorem Changed.cfg {s t : State} {P Q : Nat → Prop} (h : Changed s t P Q) : t.cfg = s.cfg := by rw [h.rest]

theorem Changed.ctx {s t : State} {P Q : Nat → Prop} (h : Changed s t P Q) : t.ctx = s.ctx := by rw [h.rest]

theorem Changed.book {s t : State} {P Q : Nat → Prop} (h : Changed s t P Q) : t.book = s.book := by rw [h.rest]

theorem Changed.reverb {s t : State} {P Q : Nat → Prop} (h : Changed s t P Q) : t.reverb = s.reverb := by rw [h.rest]

theorem Changed.cmdBase {s t : State} {P Q : Nat → Prop} (h : Changed s t P Q) : t.cmdBase = s.cmdBase := by
  rw [h.rest]

theorem Changed.cmdCount {s t : State} {P Q : Nat → Prop} (h : Changed s t P Q) : t.cmdCount = s.cmdCount := by
  rw [h.rest]

theorem Changed.overlaps {s t : State} {P Q : Nat → Prop} (h : Changed s t P Q) (a : Word) (n : Nat) :
    overlapsCommandList t a n = overlapsCommandList s a n := by
  simp [overlapsCommandList, inCommandList, h.cmdBase, h.cmdCount]

theorem Changed.raced {s t : State} {P Q : Nat → Prop} (h : Changed s t P Q) : t.raced = s.raced := by rw [h.rest]

/-- A read admitted and quiet before a change is so after it. -/
theorem Changed.mayRead {s t : State} {P Q : Nat → Prop} (h : Changed s t P Q) {a : Word} {n : Nat}
    (hr : s.mayRead a n) : t.mayRead a n := by
  unfold State.mayRead
  rw [h.cfg, quiet_congr h.raced]
  exact hr

theorem Changed.readable {s t : State} {P Q : Nat → Prop} (h : Changed s t P Q) {a : Word} {w n : Nat}
    (hr : s.readable a w n) : t.readable a w n := fun k hk => h.mayRead (hr k hk)

theorem Changed.writable {s t : State} {P Q : Nat → Prop} (h : Changed s t P Q) {a : Word} {w n : Nat}
    (hr : s.writable a w n) : t.writable a w n := by
  intro k hk
  rw [h.cfg, h.overlaps]
  exact hr k hk

/-- A sample outside the changed scratch bytes. -/
theorem Changed.sample {s t : State} {P Q : Nat → Prop} (h : Changed s t P Q) {a : Nat} (h0 : ¬ P a)
    (h1 : ¬ P (a + 1)) : scratchSample t a = scratchSample s a :=
  scratchSample_congr (by rw [h.cfg]) (h.scratch a h0) (h.scratch (a + 1) h1)

theorem Changed.extBytes {s t : State} {P Q : Nat → Prop} (h : Changed s t P Q) {a : Word} {n : Nat}
    (hq : ∀ i, i < n → ¬ Q (addrAdd a i).toNat) : extBytes t a n = extBytes s a n := by
  unfold Machine.extBytes
  apply List.map_congr_left
  intro i hi
  exact h.ext _ (hq i (by simpa using hi))

/-- An external sample outside the changed external bytes. -/
theorem Changed.extSample {s t : State} {P Q : Nat → Prop} (h : Changed s t P Q) {a : Word}
    (hq : ∀ i, i < 2 → ¬ Q (addrAdd a i).toNat) : t.extSample a = s.extSample a := by
  unfold State.extSample
  rw [h.cfg, h.extBytes hq]

theorem Changed.extLong {s t : State} {P Q : Nat → Prop} (h : Changed s t P Q) {a : Word}
    (hq : ∀ i, i < 4 → ¬ Q (addrAdd a i).toNat) : t.extLong a = s.extLong a := by
  unfold State.extLong
  rw [h.cfg, h.extBytes hq]

theorem Changed.holdsSamples {s t : State} {P Q : Nat → Prop} (h : Changed s t P Q) {a n : Nat}
    (hs : s.holdsSamples a n) : t.holdsSamples a n := by
  unfold State.holdsSamples
  rw [h.cfg]
  exact hs

/-- No external byte is changed: external memory reads as before, as data. -/
theorem Changed.ext_read {s t : State} {P : Nat → Prop} (h : Changed s t P noByte) (x : Nat) :
    Memory.read t.ext x = Memory.read s.ext x := h.ext x (fun h => h)

theorem Changed.scratch_read {s t : State} {Q : Nat → Prop} (h : Changed s t noByte Q) (x : Nat) :
    Memory.read t.scratch x = Memory.read s.scratch x := h.scratch x (fun h => h)

/-! ### Scratch accesses -/

theorem ends_sRead8 {s : State} (a : Nat) (h : a + 1 ≤ s.cfg.scratchBytes) :
    sRead8 (a : Int) s = .ok (Memory.read s.scratch a) s := by
  have := sRead8_ok (s := s) (a := (a : Int)) (by omega) (by omega)
  rwa [Int.toNat_natCast] at this

theorem ends_sWrite8 {s : State} (a : Nat) (b : Byte) (h : a + 1 ≤ s.cfg.scratchBytes) :
    Ends (sWrite8 (a : Int) b) s fun _ t =>
      Changed s t (inSpan a 1) noByte ∧ Memory.read t.scratch a = b := by
  have hw := sWrite8_ok (s := s) (a := (a : Int)) b (by omega) (by omega)
  rw [Int.toNat_natCast] at hw
  refine ends_ok hw ⟨⟨rfl, fun x hx => ?_, fun _ _ => rfl⟩, Memory.read_write_self _ _ _⟩
  apply Memory.read_write_other
  unfold inSpan at hx
  omega

theorem ends_sRead16 {s : State} (a : Nat) (he : a % 2 = 0) (h : a + 2 ≤ s.cfg.scratchBytes) :
    sRead16 (a : Int) s = .ok (scratchSample s a) s := by
  have := sRead16_ok (s := s) (a := (a : Int)) (by omega) (by omega) (by omega)
  rwa [Int.toNat_natCast] at this

theorem scratchSample_stored (s : State) (a : Nat) (v : Int) (h1 : -32768 ≤ v) (h2 : v ≤ 32767) :
    scratchSample { s with scratch := storeBytes s.scratch a (toBytes s.cfg.endian 2 (mod16 v)) } a = v := by
  simp only [scratchSample, storeBytes_read, toBytes_length]
  rw [if_pos ⟨by omega, by omega⟩, if_pos ⟨by omega, by omega⟩]
  obtain ⟨b, c, hbc⟩ := toBytes_two s.cfg.endian (mod16 v)
  have hv := ofBytes_toBytes s.cfg.endian 2 (mod16 v)
  have hl := mod16_lt v
  rw [hbc] at hv ⊢
  simp only [Nat.sub_self, Nat.add_sub_cancel_left, List.getD_cons_zero, List.getD_cons_succ]
  rw [hv, Nat.mod_eq_of_lt (by simpa using hl), sext16_mod16 v h1 h2]

theorem ends_sWrite16 {s : State} (a : Nat) (v : Int) (he : a % 2 = 0) (h : a + 2 ≤ s.cfg.scratchBytes)
    (h1 : -32768 ≤ v) (h2 : v ≤ 32767) :
    Ends (sWrite16 (a : Int) v) s fun _ t =>
      Changed s t (inSpan a 2) noByte ∧ scratchSample t a = v := by
  have hw := sWrite16_ok (s := s) (a := (a : Int)) v (by omega) (by omega) (by omega)
  rw [Int.toNat_natCast] at hw
  refine ends_ok hw ⟨⟨rfl, fun x hx => ?_, fun _ _ => rfl⟩, scratchSample_stored s a v h1 h2⟩
  show Memory.read (storeBytes s.scratch a _) x = _
  rw [storeBytes_read, if_neg]
  unfold inSpan at hx
  simpa using hx

/-! The same for an offset given as an integer that equals a natural number. -/

theorem read8_at {s : State} {a : Int} (n : Nat) (ha : a = n) (h : n + 1 ≤ s.cfg.scratchBytes) :
    sRead8 a s = .ok (Memory.read s.scratch n) s := by
  subst ha
  exact ends_sRead8 n h

theorem read16_at {s : State} {a : Int} (n : Nat) (ha : a = n) (he : n % 2 = 0) (h : n + 2 ≤ s.cfg.scratchBytes) :
    sRead16 a s = .ok (scratchSample s n) s := by
  subst ha
  exact ends_sRead16 n he h

theorem write16_at {s : State} {a v : Int} (n : Nat) (ha : a = n) (he : n % 2 = 0)
    (h : n + 2 ≤ s.cfg.scratchBytes) (hv : -32768 ≤ v ∧ v ≤ 32767) :
    Ends (sWrite16 a v) s fun _ t => Changed s t (inSpan n 2) noByte ∧ scratchSample t n = v := by
  subst ha
  exact ends_sWrite16 n v he h hv.1 hv.2

/-! ### External accesses -/

theorem extRead16_reads {s : State} {a : Word} (h : s.mayRead a 2) :
    extRead16 a s = .ok (s.extSample a) s := by
  unfold extRead16
  rw [bind_ok (memRead_ok h)]
  rfl

theorem extRead32_reads {s : State} {a : Word} (h : s.mayRead a 4) :
    extRead32 a s = .ok (s.extLong a) s := by
  unfold extRead32
  rw [bind_ok (memRead_ok h)]
  rfl

theorem memRead1_reads {s : State} {a : Word} (h : s.mayRead a 1) :
    memRead a 1 s = .ok (Memory.read s.ext a.toNat).toNat s := by
  rw [memRead_ok h]
  congr 1
  cases s.cfg.endian <;> simp [ofBytes, valueLE, extBytes]

theorem extBytes_stored (s : State) (a : Word) (n v : Nat) (hn : n ≤ 2 ^ 32) :
    extBytes { s with ext := storeExt s.ext a (toBytes s.cfg.endian n v) } a n = toBytes s.cfg.endian n v := by
  apply List.ext_getElem
  · simp [extBytes]
  · intro i h1 h2
    simp only [extBytes, List.getElem_map, List.getElem_range]
    rw [storeExt_read_at _ _ _ _ h2 (by simpa using hn)]
    rw [List.getD_eq_getElem?_getD, List.getElem?_eq_getElem h2, Option.getD_some]

/-- An external write: its bytes are the value's, no other byte changes. -/
theorem ends_memWrite {s : State} (a : Word) (n v : Nat) (hn : n ≤ 2 ^ 32)
    (h : extAdmits s.cfg a n .write = true ∧ overlapsCommandList s a n = false) :
    Ends (memWrite a n v) s fun _ t =>
      Changed s t noByte (inExtSpan a n) ∧ extBytes t a n = toBytes s.cfg.endian n v := by
  refine ends_ok (memWrite_ok v h.1 h.2) ⟨⟨rfl, fun _ _ => rfl, fun x hx => ?_⟩, extBytes_stored s a n v hn⟩
  apply storeExt_read_other
  intro i hi heq
  exact hx ⟨i, by simpa using hi, heq⟩

theorem ends_extWrite16 {s : State} (a : Word) (v : Int)
    (h : extAdmits s.cfg a 2 .write = true ∧ overlapsCommandList s a 2 = false) :
    Ends (extWrite16 a v) s fun _ t =>
      Changed s t noByte (inExtSpan a 2) ∧ t.extSample a = trunc16 v := by
  refine ends_mono (ends_memWrite a 2 (mod16 v) (by norm_num) h) ?_
  rintro _ t ⟨hc, hb⟩
  refine ⟨hc, ?_⟩
  unfold State.extSample
  rw [hb, hc.cfg, ofBytes_toBytes, Nat.mod_eq_of_lt (by simpa using mod16_lt v)]
  unfold sext16 trunc16
  congr 1
  apply BitVec.eq_of_toNat_eq
  simp only [BitVec.toNat_ofNat, BitVec.toNat_ofInt, mod16]
  norm_num
  omega

theorem trunc16_of_range {v : Int} (h1 : -32768 ≤ v) (h2 : v ≤ 32767) : trunc16 v = v := by
  unfold trunc16
  rw [BitVec.toInt_ofInt]
  norm_num [Int.bmod]
  split <;> omega

theorem sext32_eq (v : Nat) : sext32 v = if v % 4294967296 < 2147483648 then ((v % 4294967296 : Nat) : Int)
    else ((v % 4294967296 : Nat) : Int) - 4294967296 := by
  unfold sext32
  rw [BitVec.toInt_eq_toNat_cond, BitVec.toNat_ofNat]
  norm_num
  split <;> split <;> omega

theorem sext32_mod32 (v : Int) (h1 : -2147483648 ≤ v) (h2 : v ≤ 2147483647) : sext32 (mod32 v) = v := by
  rw [sext32_eq]; unfold mod32; split <;> omega

theorem mod32_lt (v : Int) : mod32 v < 4294967296 := by unfold mod32; omega

theorem ends_extWrite32 {s : State} (a : Word) (v : Int)
    (h : extAdmits s.cfg a 4 .write = true ∧ overlapsCommandList s a 4 = false)
    (h1 : -2147483648 ≤ v) (h2 : v ≤ 2147483647) :
    Ends (extWrite32 a v) s fun _ t =>
      Changed s t noByte (inExtSpan a 4) ∧ t.extLong a = v := by
  refine ends_mono (ends_memWrite a 4 (mod32 v) (by norm_num) h) ?_
  rintro _ t ⟨hc, hb⟩
  refine ⟨hc, ?_⟩
  unfold State.extLong
  rw [hb, hc.cfg, ofBytes_toBytes, Nat.mod_eq_of_lt (by simpa using mod32_lt v), sext32_mod32 v h1 h2]

theorem extSample_range (s : State) (a : Word) : -32768 ≤ s.extSample a ∧ s.extSample a ≤ 32767 := sext16_range _

/-- Two external spans from one base address, at offsets that do not meet. -/
theorem not_inExtSpan (a : Word) {j k n i : Nat} (hi : j + i < 2 ^ 32) (hn : k + n ≤ 2 ^ 32)
    (h : j + i < k ∨ k + n ≤ j + i) : ¬ inExtSpan (addrAdd a k) n (addrAdd (addrAdd a j) i).toNat := by
  rintro ⟨m, hm, heq⟩
  rw [addrAdd_addrAdd, addrAdd_addrAdd] at heq
  have := (addrAdd_inj a (j + i) (k + m) hi (by omega)).mp (BitVec.eq_of_toNat_eq heq)
  omega

theorem inExtSpan_mono (a : Word) {j n m x : Nat} (h : j + n ≤ m) (hx : inExtSpan (addrAdd a j) n x) :
    inExtSpan a m x := by
  obtain ⟨i, hi, rfl⟩ := hx
  exact ⟨j + i, by omega, by rw [addrAdd_addrAdd]⟩

end Sys2Proof.Machine
end

