-- ==== Sys2Proof/Laws/Copies.lean ====
section
/-! SUPPORT. The three sample loops the commands share: samples written to scratch, scratch samples written to external
memory, external samples written to scratch. -/

namespace Sys2Proof.Machine

theorem State.holdsSamples.get {s : State} {a n : Nat} (h : s.holdsSamples a n) {k : Nat} (hk : k < n) :
    a % 2 = 0 ∧ a + 2 * k + 2 ≤ s.cfg.scratchBytes := by
  rcases h with h | ⟨he, hb⟩ <;> omega

/-- Samples `v 0, v 1, …` that do not depend on what is written, into scratch from `a`. -/
theorem writeSamples_ends {f : Nat → M Unit} {s : State} (a n : Nat) (v : Nat → Int)
    (hf : ∀ k t, k < n → Changed s t (inSpan a (2 * k)) noByte →
      Ends (f k) t fun _ u => Changed t u (inSpan (a + 2 * k) 2) noByte ∧ scratchSample u (a + 2 * k) = v k) :
    Ends (forRange n f) s fun _ t =>
      Changed s t (inSpan a (2 * n)) noByte ∧ ∀ k, k < n → scratchSample t (a + 2 * k) = v k := by
  apply ends_forRange fun j t =>
    Changed s t (inSpan a (2 * j)) noByte ∧ ∀ k, k < j → scratchSample t (a + 2 * k) = v k
  · rintro j t hj ⟨ht, hw⟩
    refine ends_mono (hf j t hj ht) ?_
    rintro _ u ⟨hu, hx⟩
    refine ⟨ht.then hu (by unfold inSpan; omega) (by simp [noByte]), ?_⟩
    intro k hk
    by_cases hkj : k = j
    · rw [hkj, hx]
    · rw [hu.sample (by unfold inSpan; omega) (by unfold inSpan; omega), hw k (by omega)]
  · exact ⟨changed_refl _ _ _, fun k hk => by omega⟩

/-- The loop that writes `v k` at `a + 2k`. -/
theorem constSamples_ends {f : Nat → M Unit} {s : State} (a n : Nat) (v : Nat → Int) (hs : s.holdsSamples a n)
    (hv : ∀ k, k < n → -32768 ≤ v k ∧ v k ≤ 32767) (hf : ∀ k : Nat, f k = sWrite16 (a + 2 * k : Nat) (v k)) :
    Ends (forRange n f) s fun _ t =>
      Changed s t (inSpan a (2 * n)) noByte ∧ ∀ k, k < n → scratchSample t (a + 2 * k) = v k := by
  apply writeSamples_ends a n v
  intro k t hk ht
  have := hs.get hk
  rw [hf]
  exact write16_at _ rfl (by omega) (by rw [ht.cfg]; omega) (hv k hk)

/-- External samples from `base + off` into scratch from `a`. -/
theorem loadSamples_ends {f : Nat → M Unit} {s : State} (base : Word) (off a n : Nat) (hs : s.holdsSamples a n)
    (hr : ∀ k, k < n → s.mayRead (addrAdd base (off + 2 * k)) 2)
    (hf : ∀ k : Nat, f k = (extRead16 (addrAdd base (off + 2 * k)) >>= fun v => sWrite16 (a + 2 * k : Nat) v)) :
    Ends (forRange n f) s fun _ t =>
      Changed s t (inSpan a (2 * n)) noByte ∧
        ∀ k, k < n → scratchSample t (a + 2 * k) = s.extSample (addrAdd base (off + 2 * k)) := by
  apply writeSamples_ends a n _
  intro k t hk ht
  have hg := hs.get hk
  rw [hf]
  apply ends_bind
  refine ends_ok (extRead16_reads (ht.mayRead (hr k hk))) ?_
  have := ht.extSample (a := addrAdd base (off + 2 * k)) (fun i _ h => h)
  rw [this]
  exact write16_at _ rfl (by omega) (by rw [ht.cfg]; omega) (extSample_range s _)

/-- Scratch samples from `a` into external memory from `base + off`. -/
theorem saveSamples_ends {f : Nat → M Unit} {s : State} (base : Word) (off a n : Nat) (hs : s.holdsSamples a n)
    (hn : off + 2 * n ≤ 2 ^ 32)
    (hw : ∀ k, k < n → extAdmits s.cfg (addrAdd base (off + 2 * k)) 2 .write = true ∧
      overlapsCommandList s (addrAdd base (off + 2 * k)) 2 = false)
    (hf : ∀ k : Nat, f k = (sRead16 (a + 2 * k : Nat) >>= fun v => extWrite16 (addrAdd base (off + 2 * k)) v)) :
    Ends (forRange n f) s fun _ t =>
      Changed s t noByte (inExtSpan (addrAdd base off) (2 * n)) ∧
        ∀ k, k < n → t.extSample (addrAdd base (off + 2 * k)) = scratchSample s (a + 2 * k) := by
  apply ends_forRange fun j t =>
    Changed s t noByte (inExtSpan (addrAdd base off) (2 * j)) ∧
      ∀ k, k < j → t.extSample (addrAdd base (off + 2 * k)) = scratchSample s (a + 2 * k)
  · rintro j t hj ⟨ht, hv⟩
    have hg := hs.get hj
    rw [hf]
    apply ends_bind
    refine ends_ok (read16_at _ rfl (by omega) (by rw [ht.cfg]; omega)) ?_
    rw [ht.sample (by simp [noByte]) (by simp [noByte])]
    have hr := scratchSample_range s (a + 2 * j)
    refine ends_mono (ends_extWrite16 _ _ (by rw [ht.cfg, ht.overlaps]; exact hw j hj)) ?_
    rintro _ u ⟨hu, hx⟩
    rw [trunc16_of_range hr.1 hr.2] at hx
    refine ⟨ht.then hu (by simp [noByte]) ?_, ?_⟩
    · rintro x (hx | hx)
      · obtain ⟨i, hi, rfl⟩ := hx
        exact ⟨i, by omega, rfl⟩
      · obtain ⟨i, hi, rfl⟩ := hx
        exact ⟨2 * j + i, by omega, by rw [addrAdd_addrAdd, addrAdd_addrAdd, Nat.add_assoc]⟩
    · intro k hk
      by_cases hkj : k = j
      · rw [hkj, hx]
      · rw [hu.extSample fun i hi => not_inExtSpan base (by omega) (by omega) (by omega), hv k (by omega)]
  · exact ⟨changed_refl _ _ _, fun k hk => by omega⟩

/-- Samples of external memory, collected. -/
theorem collect_extSamples {s : State} (base : Word) (off n : Nat) (f : Nat → M Int)
    (hf : ∀ k : Nat, f k = extRead16 (addrAdd base (off + 2 * k)))
    (hr : ∀ k, k < n → s.mayRead (addrAdd base (off + 2 * k)) 2) :
    collect n f s = .ok ((List.range' 0 n).map fun k => s.extSample (addrAdd base (off + 2 * k))) s := by
  apply collect_read
  intro k hk
  rw [hf]
  exact extRead16_reads (hr k hk)

end Sys2Proof.Machine
end

