-- ==== Sys2Proof/Laws/Adpcm.lean ====
section
/-! SUPPORT. What ADPCM leaves when its operands are admitted and its packets lie clear of its output window
(41_adpcm.md R110 to R114, R116). -/

namespace Sys2Proof.Machine

theorem coef_reads {s : State} {p r j : Nat} (h : s.predictorLoaded p) (hr : r < 2) (hj : j < 8) :
    coef p r j s = .ok (s.bookCoef p r j) s := by
  have h0 := h (16 * r + 2 * j) (by omega)
  have h1 := h (16 * r + 2 * j + 1) (by omega)
  rw [Option.isSome_iff_exists] at h0 h1
  obtain ⟨b0, h0⟩ := h0
  obtain ⟨b1, h1⟩ := h1
  rw [← Nat.add_assoc] at h0 h1
  rw [← Nat.add_assoc] at h1
  have e : coefOffset p r j = 32 * p + 16 * r + 2 * j := rfl
  rw [← e] at h0 h1
  rw [coef_ok h0 h1]
  simp [State.bookCoef, h0, h1]

/-- A loop that only reads, adding products. -/
theorem foldFrom_sum {s : State} (f : Nat → M Int) (g d : Nat → Int) (n k : Nat) (x : Int)
    (h : ∀ j, k ≤ j → j < k + n → f j s = .ok (g j) s) :
    foldFrom (fun j acc => do
      let c ← f j
      pure (acc + c * d j)) n k x s = .ok (x + ((List.range' k n).map fun j => g j * d j).sum) s := by
  induction n generalizing k x with
  | zero => simp
  | succ n ih =>
    rw [foldFrom_succ, bind_apply, bind_ok (h k (by omega) (by omega))]
    show foldFrom _ n (k + 1) (x + g k * d k) s = _
    rw [ih (k + 1) _ fun j h1 h2 => h j (by omega) (by omega)]
    simp [List.range'_succ, add_assoc]

theorem adpcmAcc_reads {s : State} {pred : Nat} (h : s.predictorLoaded pred) (p1 p2 : Int) (d : List Int) (j : Nat)
    (hj : j < 8) :
    adpcmAcc pred p1 p2 d j s = .ok (s.bookCoef pred 0 j * p2 + s.bookCoef pred 1 j * p1 + d.getD j 0 * 2 ^ 11
      + ((List.range j).map fun k => s.bookCoef pred 1 (j - k - 1) * d.getD k 0).sum) s := by
  unfold adpcmAcc
  rw [bind_ok (coef_reads h (by omega) hj), bind_ok (coef_reads h (by omega) hj),
    bind_ok (foldFrom_sum (fun k => coef pred 1 (j - k - 1)) (fun k => s.bookCoef pred 1 (j - k - 1))
      (fun k => d.getD k 0) j 0 0 fun k _ hk => coef_reads h (by omega) (by omega))]
  simp [List.range_eq_range']

theorem deltasOf_getD (shift : Nat) (b0 b1 b2 b3 : Byte) (k : Nat) (hk : k < 8) :
    (deltasOf shift [b0, b1, b2, b3]).getD k 0 =
      scaledDelta (if k % 2 = 0 then ([b0, b1, b2, b3].getD (k / 2) 0).toNat / 16
        else ([b0, b1, b2, b3].getD (k / 2) 0).toNat % 16) shift := by
  interval_cases k <;> simp [deltasOf]

/-- An output depends on the deltas up to its own alone. -/
theorem adpcmOutput_congr (c : Nat → Nat → Int) (p1 p2 : Int) {d e : Nat → Int} {j : Nat}
    (h : ∀ k, k ≤ j → d k = e k) : adpcmOutput c p1 p2 d j = adpcmOutput c p1 p2 e j := by
  have hl : ((List.range j).map fun k => c 1 (j - k - 1) * d k) = (List.range j).map fun k => c 1 (j - k - 1) * e k :=
    List.map_congr_left fun k hk => by rw [h k (le_of_lt (List.mem_range.mp hk))]
  unfold adpcmOutput
  rw [hl, h j le_rfl]

/-- One half-packet (41_adpcm.md R111). -/
theorem adpcmHalf_ends {t : State} {pred shift src o : Nat} (hp : t.predictorLoaded pred)
    (hs : src + 4 ≤ t.cfg.scratchBytes) (he : o % 2 = 0) (h4 : 4 ≤ o) (ho : o + 16 ≤ t.cfg.scratchBytes) :
    Ends (adpcmHalf pred shift src o) t fun _ u =>
      Changed t u (inSpan o 16) noByte ∧ ∀ j, j < 8 → scratchSample u (o + 2 * j) =
        adpcmOutput (t.bookCoef pred) (scratchSample t (o - 2)) (scratchSample t (o - 4))
          (fun k => scaledDelta (if k % 2 = 0 then (Memory.read t.scratch (src + k / 2)).toNat / 16
            else (Memory.read t.scratch (src + k / 2)).toNat % 16) shift) j := by
  unfold adpcmHalf
  apply ends_bind
  refine ends_ok (read16_at (o - 2) (by omega) (by omega) (by omega)) ?_
  apply ends_bind
  refine ends_ok (read16_at (o - 4) (by omega) (by omega) (by omega)) ?_
  apply ends_bind
  refine ends_ok (collect_read _ (fun b => Memory.read t.scratch (src + b)) 4 t fun b hb =>
    read8_at (src + b) (by push_cast; rfl) (by omega)) ?_
  refine ends_mono (writeSamples_ends (s := t) o 8 (fun j =>
    adpcmOutput (t.bookCoef pred) (scratchSample t (o - 2)) (scratchSample t (o - 4))
      (fun k => scaledDelta (if k % 2 = 0 then (Memory.read t.scratch (src + k / 2)).toNat / 16
            else (Memory.read t.scratch (src + k / 2)).toNat % 16) shift) j) ?_) fun _ _ h => h
  intro j u hj hu
  have hb : u.book = t.book := hu.book
  have hc : u.cfg = t.cfg := hu.cfg
  have hpu : u.predictorLoaded pred := by
    intro k hk
    rw [hb]
    exact hp k hk
  have hcoef : u.bookCoef = t.bookCoef := by
    funext p r j
    simp [State.bookCoef, hb, hc]
  apply ends_bind
  refine ends_ok (adpcmAcc_reads hpu _ _ _ j hj) ?_
  refine ends_mono (write16_at (o + 2 * j) (by push_cast; rfl) (by omega) (by rw [hc]; omega) (sat16_range _)) ?_
  rintro _ v ⟨hv, hx⟩
  refine ⟨hv, ?_⟩
  rw [hx, hcoef]
  have hd : ∀ k, k < 8 → (deltasOf shift ((List.range' 0 4).map fun b => Memory.read t.scratch (src + b))).getD k 0 =
      scaledDelta (if k % 2 = 0 then (Memory.read t.scratch (src + k / 2)).toNat / 16
            else (Memory.read t.scratch (src + k / 2)).toNat % 16) shift := by
    intro k hk
    have hl : ((List.range' 0 4).map fun b => Memory.read t.scratch (src + b)) =
      [Memory.read t.scratch (src + 0), Memory.read t.scratch (src + 1), Memory.read t.scratch (src + 2),
        Memory.read t.scratch (src + 3)] := rfl
    rw [hl, deltasOf_getD _ _ _ _ _ _ hk]
    interval_cases k <;> simp
  exact adpcmOutput_congr (t.bookCoef pred) _ _
    (d := fun k => (deltasOf shift ((List.range' 0 4).map fun b => Memory.read t.scratch (src + b))).getD k 0)
    fun k hk => hd k (by omega)

theorem halfDecoded_congr {s t u : State} {src h e : Nat} (hd : halfDecoded s t src h e)
    (hk : ∀ a, e - 4 ≤ a → a < e + 16 → a % 2 = e % 2 → scratchSample u a = scratchSample t a) (h4 : 4 ≤ e) :
    halfDecoded s u src h e := by
  intro j hj
  rw [hk _ (by omega) (by omega) (by omega), hd j hj, hk (e - 2) (by omega) (by omega) (by omega),
    hk (e - 4) (by omega) (by omega) (by omega)]

/-- One packet whose nine bytes lie clear of its outputs (41_adpcm.md R109, R111). -/
theorem adpcmPacket_ends {t : State} {src o : Nat} (hp : t.predictorLoaded (t.packetPredictor src))
    (h8 : t.packetPredictor src < 8) (hs : src + 9 ≤ t.cfg.scratchBytes) (he : o % 2 = 0) (h4 : 4 ≤ o)
    (ho : o + 32 ≤ t.cfg.scratchBytes) (hd : apart src 9 o 32) :
    Ends (adpcmPacket src o) t fun _ u =>
      Changed t u (inSpan o 32) noByte ∧ ∀ h, h < 2 → halfDecoded t u src h (o + 16 * h) := by
  unfold adpcmPacket
  apply ends_bind
  refine ends_ok (read8_at src rfl (by omega)) ?_
  unfold State.packetPredictor at h8
  rw [if_neg (by omega)]
  refine ends_mono (ends_forRange (fun h u => Changed t u (inSpan o (16 * h)) noByte ∧
    ∀ g, g < h → halfDecoded t u src g (o + 16 * g)) 2 t ?_ ?_) fun _ _ h => h
  · rintro h u hh ⟨hu, hv⟩
    have hb : u.book = t.book := hu.book
    have hc : u.cfg = t.cfg := hu.cfg
    have hpu : u.predictorLoaded (t.packetPredictor src) := by
      intro k hk
      rw [hb]
      exact hp k hk
    have key := adpcmHalf_ends (t := u) (pred := t.packetPredictor src)
      (shift := (Memory.read t.scratch src).toNat / 16) (src := src + 1 + 4 * h) (o := o + 16 * h) hpu
      (by rw [hc]; omega) (by omega) (by omega) (by rw [hc]; omega)
    have e1 : ((src : Int) + 1 + 4 * h) = ((src + 1 + 4 * h : Nat) : Int) := by push_cast; rfl
    have e2 : ((o : Int) + 16 * h) = ((o + 16 * h : Nat) : Int) := by push_cast; rfl
    rw [e1, e2]
    refine ends_mono key ?_
    rintro _ v ⟨hvv, hx⟩
    refine ⟨hu.then hvv (by unfold inSpan; omega) (by simp [noByte]), ?_⟩
    have keep : ∀ a, a + 2 ≤ o + 16 * h → scratchSample v a = scratchSample u a := fun a ha =>
      hvv.sample (by unfold inSpan; omega) (by unfold inSpan; omega)
    intro g hg
    by_cases hgh : g = h
    · subst hgh
      intro j hj
      rw [hx j hj, keep _ (by omega), keep _ (by omega)]
      have hcoef : u.bookCoef = t.bookCoef := by
        funext p r j
        simp [State.bookCoef, hb, hc]
      rw [hcoef]
      have hd : ∀ k, k < 8 → scaledDelta
          (if k % 2 = 0 then (Memory.read u.scratch (src + 1 + 4 * g + k / 2)).toNat / 16
            else (Memory.read u.scratch (src + 1 + 4 * g + k / 2)).toNat % 16) ((Memory.read t.scratch src).toNat / 16)
          = t.packetDelta src (8 * g + k) := by
        intro k hk
        rw [hu.scratch _ (by unfold inSpan; unfold apart at hd; omega)]
        unfold State.packetDelta
        rw [show src + 1 + 4 * g + k / 2 = src + 1 + (8 * g + k) / 2 by omega,
          show (8 * g + k) % 2 = k % 2 by omega]
      exact adpcmOutput_congr _ _ _ fun k hk => hd k (by omega)
    · exact halfDecoded_congr (hv g (by omega)) (fun a h1 h2 h3 => keep a (by omega)) (by omega)
  · exact ⟨changed_refl _ _ _, fun k hk => by omega⟩

theorem adpcmSource_reads {s : State} {flags : BitVec 8} {addr : Word}
    (hl : flagLoop flags = true → flagInit flags = false → s.ctx.loopAddr.isSome = true) :
    ∃ w, adpcmSource flags addr s = .ok w s ∧ (flagInit flags = false → w = s.adpcmSource flags addr) := by
  unfold adpcmSource State.adpcmSource readLoopAddr
  cases hf : flagLoop flags <;> cases hi : flagInit flags
  · exact ⟨addr, by simp, by simp⟩
  · exact ⟨addr, by simp, by simp⟩
  · have := hl hf hi
    rw [Option.isSome_iff_exists] at this
    obtain ⟨w, hw⟩ := this
    exact ⟨w, by simpa using ctxRead_ok hw, by simp [hw]⟩
  · exact ⟨addr, by simp, by simp⟩

theorem adpcmPrefix_ends {s : State} {init : Bool} {src : Word} {o n : Nat} (hs : s.holdsSamples o n)
    (hr : init = false → s.readable src 2 n) :
    Ends (adpcmPrefix init src o n) s fun _ t =>
      Changed s t (inSpan o (2 * n)) noByte ∧ ∀ k, k < n →
        scratchSample t (o + 2 * k) = if init then 0 else s.extSample (addrAdd src (2 * k)) := by
  unfold adpcmPrefix
  apply writeSamples_ends o n _
  intro k t hk ht
  have hg := hs.get hk
  cases init with
  | true =>
    show Ends (sWrite16 ((o : Int) + 2 * k) 0) t _
    exact write16_at _ (by push_cast; rfl) (by omega) (by rw [ht.cfg]; omega) (by simp)
  | false =>
    apply ends_bind
    refine ends_ok (x := t.extSample (addrAdd src (2 * k)))
      (extRead16_reads (ht.mayRead (hr rfl k hk))) ?_
    rw [ht.extSample fun i _ h => h]
    exact write16_at _ (by push_cast; rfl) (by omega) (by rw [ht.cfg]; omega) (extSample_range _ _)

/-- ADPCM's packets, clear of the output window (41_adpcm.md R111). -/
theorem adpcmPackets_ends {s : State} {i o n : Nat} (he : o % 2 = 0) (h4 : 4 ≤ o)
    (hi : s.holds i (9 * n)) (ho : n = 0 ∨ o + 32 * n ≤ s.cfg.scratchBytes) (hd : apart i (9 * n) o (32 * n))
    (hp : ∀ pk, pk < n → s.packetPredictor (i + 9 * pk) < 8 ∧ s.predictorLoaded (s.packetPredictor (i + 9 * pk))) :
    Ends (forRange n fun pk => adpcmPacket ((i : Int) + 9 * pk) ((o : Int) + 32 * pk)) s fun _ t =>
      Changed s t (inSpan o (32 * n)) noByte ∧ ∀ pk h, pk < n → h < 2 →
        halfDecoded s t (i + 9 * pk) h (o + 32 * pk + 16 * h) := by
  apply ends_forRange fun j t => Changed s t (inSpan o (32 * j)) noByte ∧
    ∀ pk h, pk < j → h < 2 → halfDecoded s t (i + 9 * pk) h (o + 32 * pk + 16 * h)
  · rintro j t hj ⟨ht, hv⟩
    have hc : t.cfg = s.cfg := ht.cfg
    have hi' : i + 9 * n ≤ s.cfg.scratchBytes := by rcases hi with h | h <;> omega
    have ho' : o + 32 * n ≤ s.cfg.scratchBytes := by rcases ho with h | h <;> omega
    have src : ∀ a, i + 9 * j ≤ a → a < i + 9 * j + 9 → Memory.read t.scratch a = Memory.read s.scratch a :=
      fun a h1 h2 => ht.scratch a (by unfold inSpan; unfold apart at hd; omega)
    have hpred : t.packetPredictor (i + 9 * j) = s.packetPredictor (i + 9 * j) := by
      unfold State.packetPredictor
      rw [src _ (by omega) (by omega)]
    have hdelta : ∀ q, q < 16 → t.packetDelta (i + 9 * j) q = s.packetDelta (i + 9 * j) q := by
      intro q hq
      unfold State.packetDelta
      rw [src _ (by omega) (by omega), src _ (by omega) (by omega)]
    have hcoef : t.bookCoef = s.bookCoef := by
      funext p r j
      simp [State.bookCoef, ht.book, hc]
    obtain ⟨hp8, hpl⟩ := hp j hj
    have e1 : ((i : Int) + 9 * j) = ((i + 9 * j : Nat) : Int) := by push_cast; rfl
    have e2 : ((o : Int) + 32 * j) = ((o + 32 * j : Nat) : Int) := by push_cast; rfl
    rw [e1, e2]
    refine ends_mono (adpcmPacket_ends (t := t) (by rw [hpred]; intro k hk; rw [ht.book]; exact hpl k hk)
      (by rw [hpred]; exact hp8) (by rw [hc]; omega) (by omega) (by omega) (by rw [hc]; omega)
      (by unfold apart at hd ⊢; omega)) ?_
    rintro _ u ⟨hu, hx⟩
    refine ⟨ht.then hu (by unfold inSpan; omega) (by simp [noByte]), ?_⟩
    have keep : ∀ a, a + 2 ≤ o + 32 * j → scratchSample u a = scratchSample t a := fun a ha =>
      hu.sample (by unfold inSpan; omega) (by unfold inSpan; omega)
    intro pk h hpk hh
    by_cases hpj : pk = j
    · subst hpj
      intro m hm
      rw [hx h hh m hm, hpred, hcoef]
      exact adpcmOutput_congr _ _ _ fun k hk => hdelta _ (by omega)
    · exact halfDecoded_congr (hv pk h (by omega) hh) (fun a h1 h2 h3 => keep a (by omega)) (by omega)
  · exact ⟨changed_refl _ _ _, fun pk _ hpk => by omega⟩

/-- ADPCM in full (41_adpcm.md R108 to R114): the prefix, the packets' outputs, the saved record. -/
theorem adpcmBody_ends {s : State} {flags : BitVec 8} {addr : Word} {i o c : Half} (hi : s.ctx.inp = some i)
    (ho : s.ctx.out = some o) (hc : s.ctx.count = some c)
    (hl : flagLoop flags = true → flagInit flags = false → s.ctx.loopAddr.isSome = true)
    (hH4 : 4 ≤ s.cfg.histBytes) (hH : s.cfg.histBytes % 2 = 0) (hsmall : s.cfg.scratchBytes ≤ 4096)
    (he : o.toNat % 2 = 0)
    (hin : s.holds i.toNat (9 * (ru c.toNat 32 / 32)))
    (hout : o.toNat + s.cfg.histBytes + ru c.toNat 32 ≤ s.cfg.scratchBytes)
    (hd : apart i.toNat (9 * (ru c.toNat 32 / 32)) o.toNat (s.cfg.histBytes + ru c.toNat 32))
    (hr : flagInit flags = false → s.readable (s.adpcmSource flags addr) 2 (s.cfg.histBytes / 2))
    (hw : s.writable addr 2 (s.cfg.histBytes / 2))
    (hp : ∀ pk, pk < ru c.toNat 32 / 32 → s.packetPredictor (i.toNat + 9 * pk) < 8 ∧
      s.predictorLoaded (s.packetPredictor (i.toNat + 9 * pk))) :
    Ends (adpcmBody flags addr) s fun _ t =>
      Changed s t (inSpan o.toNat (s.cfg.histBytes + ru c.toNat 32)) (inExtSpan addr s.cfg.histBytes) ∧
        (∀ k, k < s.cfg.histBytes / 2 → scratchSample t (o.toNat + 2 * k) = s.adpcmHistory flags addr k) ∧
        (∀ pk h, pk < ru c.toNat 32 / 32 → h < 2 →
          halfDecoded s t (i.toNat + 9 * pk) h (o.toNat + s.cfg.histBytes + 32 * pk + 16 * h)) ∧
        ∀ k, k < s.cfg.histBytes / 2 → t.extSample (addrAdd addr (2 * k)) =
          scratchSample t (o.toNat + ru c.toNat 32 + 2 * k) := by
  have hm := ru_mod c.toNat 32
  obtain ⟨src, hsrc, hsrc'⟩ := adpcmSource_reads (addr := addr) hl
  unfold adpcmBody readIn readOut readCount
  apply ends_bind
  refine ends_ok hsrc ?_
  apply ends_bind
  refine ends_ok (ctxRead_ok ho) ?_
  apply ends_bind
  refine ends_ok (ctxRead_ok hi) ?_
  apply ends_bind
  refine ends_ok (ctxRead_ok hc) ?_
  apply ends_bind
  refine ends_ok (get_apply s) ?_
  apply ends_bind
  refine ends_mono (adpcmPrefix_ends (s := s) (init := flagInit flags) (src := src) (.inr ⟨he, by omega⟩) ?_) ?_
  · intro h
    rw [hsrc' h]
    exact hr h
  rintro _ t ⟨ht, hpre⟩
  apply ends_bind
  have e1 : ((o.toNat : Int) + s.cfg.histBytes) = ((o.toNat + s.cfg.histBytes : Nat) : Int) := by push_cast; rfl
  rw [e1]
  have read : ∀ a, i.toNat ≤ a → a < i.toNat + 9 * (ru c.toNat 32 / 32) →
      Memory.read t.scratch a = Memory.read s.scratch a :=
    fun a h1 h2 => ht.scratch a (by unfold inSpan; unfold apart at hd; omega)
  have pred : ∀ pk, pk < ru c.toNat 32 / 32 →
      t.packetPredictor (i.toNat + 9 * pk) = s.packetPredictor (i.toNat + 9 * pk) := by
    intro pk hpk
    unfold State.packetPredictor
    rw [read _ (by omega) (by omega)]
  refine ends_mono (adpcmPackets_ends (s := t) (i := i.toNat) (o := o.toNat + s.cfg.histBytes)
    (n := ru c.toNat 32 / 32) (by omega) (by omega) ?_ (by rw [ht.cfg]; omega) (by unfold apart at hd ⊢; omega) ?_) ?_
  · unfold State.holds at hin ⊢
    rw [ht.cfg]
    exact hin
  · intro pk hpk
    rw [pred pk hpk]
    refine ⟨(hp pk hpk).1, fun k hk => ?_⟩
    rw [ht.book]
    exact (hp pk hpk).2 k hk
  rintro _ u ⟨hu, hdec⟩
  unfold adpcmSave
  have e2 : ∀ k : Nat, (o.toNat + s.cfg.histBytes : Nat) + 32 * ((ru c.toNat 32 / 32 : Nat) : Int)
      - 2 * ((s.cfg.histBytes / 2 : Nat) : Int) + 2 * k = ((o.toNat + ru c.toNat 32 + 2 * k : Nat) : Int) := by
    intro k
    push_cast
    omega
  have htu : Changed s u (inSpan o.toNat (s.cfg.histBytes + ru c.toNat 32)) noByte :=
    ht.then hu (by unfold inSpan; omega) (by simp [noByte])
  have hbound : 0 + 2 * (s.cfg.histBytes / 2) ≤ 2 ^ 32 := by omega
  have hhold : u.holdsSamples (o.toNat + ru c.toNat 32) (s.cfg.histBytes / 2) :=
    .inr ⟨by omega, by rw [htu.cfg]; omega⟩
  refine ends_mono (saveSamples_ends (s := u) addr 0 (o.toNat + ru c.toNat 32) (s.cfg.histBytes / 2)
    hhold hbound ?_ (fun k => by rw [e2, Nat.zero_add])) ?_
  · intro k hk
    rw [Nat.zero_add]
    exact htu.writable hw k hk
  rintro _ v ⟨hv, hx⟩
  rw [addrAdd_zero] at hv
  have keep : ∀ a, scratchSample v a = scratchSample u a := fun a =>
    hv.sample (by simp [noByte]) (by simp [noByte])
  refine ⟨htu.then hv (by simp [noByte]) ?_, ?_, ?_, ?_⟩
  · rintro x (hx | ⟨j, hj, rfl⟩)
    · exact hx.elim
    · exact ⟨j, by omega, rfl⟩
  · intro k hk
    rw [keep, hu.sample (by unfold inSpan; omega) (by unfold inSpan; omega), hpre k hk]
    unfold State.adpcmHistory
    cases hf : flagInit flags with
    | true => rw [if_pos rfl, if_pos rfl]
    | false => rw [hsrc' hf]
  · intro pk h hpk hh m hm8
    have hq := hdec pk h hpk hh m hm8
    rw [keep, hq, keep, keep]
    have hcoef : t.bookCoef = s.bookCoef := by
      funext p r j
      simp [State.bookCoef, ht.book, ht.cfg]
    have hdelta : ∀ q, q < 16 → t.packetDelta (i.toNat + 9 * pk) q = s.packetDelta (i.toNat + 9 * pk) q := by
      intro q hq
      unfold State.packetDelta
      rw [read _ (by omega) (by omega), read _ (by omega) (by omega)]
    rw [pred pk hpk, hcoef]
    exact adpcmOutput_congr _ _ _ fun k hk => hdelta _ (by omega)
  · intro k hk
    have := hx k hk
    rw [Nat.zero_add] at this
    rw [this, keep]

end Sys2Proof.Machine
end

