-- ==== Sys2Proof/Laws/Reverb.lean ====
section
/-! SUPPORT. What the reverb commands leave when their operands are admitted (45_reverb.md R165 to R175). -/

namespace Sys2Proof.Machine

theorem reverbCheck_ready {s : State} {r u : Nat} {rb : Reverb} {w0 : Word} (h : s.ringReady r u rb) :
    reverbCheck r u w0 s = .ok (some rb) s := by
  unfold reverbCheck
  have h1 := h.instanceInRange
  have h2 := h.slotInRange
  have h3 := h.found
  have h4 := h.used
  have h5 := h.capacity
  have h6 := h.cursor
  have h7 := h.rate
  rw [if_neg (by omega), if_neg (by rw [h3, h4]; decide), if_neg (by rw [h3]; omega), if_neg (by rw [h3]; omega),
    if_neg (by rw [h3]; omega), h3]

theorem reverbCheck_unused {s : State} {r u : Nat} {w0 : Word} (hr : r < s.cfg.numReverb) (hu : u < s.cfg.maxChunks)
    (h : (reverbAt s r).ctrl = 0) : reverbCheck r u w0 s = .ok none s := by
  unfold reverbCheck
  rw [if_neg (by omega), if_pos h]

theorem reverbCheck_outside {s : State} {r u : Nat} {w0 : Word} (h : s.cfg.numReverb ≤ r ∨ s.cfg.maxChunks ≤ u) :
    reverbCheck r u w0 s = .error ⟨.ringConfig, w0⟩ s := by
  unfold reverbCheck
  rw [if_pos h]

/-- Whatever passes the checks is ready. -/
theorem reverbCheck_some {s : State} {r u : Nat} {rb : Reverb} {w0 : Word}
    (h : reverbCheck r u w0 s = .ok (some rb) s) : s.ringReady r u rb := by
  unfold reverbCheck at h
  split at h
  · exact absurd h (by simp)
  · split at h
    · exact absurd h (by simp)
    · split at h
      · exact absurd h (by simp)
      · split at h
        · exact absurd h (by simp)
        · split at h
          · exact absurd h (by simp)
          · rename_i h1 h2 h3 h4 h5
            injection h with h _
            injection h with h
            subst h
            have hone : ∀ b : BitVec 1, b ≠ 0 → b = 1 := by decide
            exact ⟨by omega, by omega, rfl, hone _ h2, by omega, by omega, by omega⟩

theorem readItem_found {s : State} {r u : Nat} {rb : Reverb} {it : Item}
    (h : itemAt s.cfg rb rb.parity.toNat u = some it) : readItem r u rb s = .ok it s := by
  simp [readItem, h]

/-! ### Ring spans -/

theorem ringAddr_eq (base : Word) (i : Nat) : ringAddr base i = addrAdd base (2 * i) := rfl

theorem Item.ringIndex_lt (it : Item) {k : Nat} (h : k < it.size) : it.ringIndex k < 131072 := by
  have h1 := it.start.isLt
  have h2 := it.lenA.isLt
  have h3 := it.lenB.isLt
  unfold Item.size at h
  unfold Item.ringIndex
  split <;> omega

theorem Item.ringIndex_A (it : Item) {k : Nat} (h : k < it.lenA.toNat) : it.ringIndex k = it.start.toNat + k := by
  unfold Item.ringIndex
  rw [if_pos h]

theorem Item.ringIndex_B (it : Item) (k : Nat) : it.ringIndex (it.lenA.toNat + k) = k := by
  unfold Item.ringIndex
  rw [if_neg (by omega)]
  omega

/-- Two samples of one item stand at different ring indexes when segment B ends before segment A starts. -/
theorem Item.ringIndex_inj (it : Item) (h : it.lenB.toNat ≤ it.start.toNat) {j k : Nat} (hj : j < it.size)
    (hk : k < it.size) (he : it.ringIndex j = it.ringIndex k) : j = k := by
  unfold Item.size at hj hk
  unfold Item.ringIndex at he
  split at he <;> split at he <;> omega

theorem sample_not_in_other (base : Word) {i j : Nat} (hi : i < 131072) (hj : j < 131072) (hne : i ≠ j) (m : Nat)
    (hm : m < 2) : ¬ inExtSpan (ringAddr base j) 2 (addrAdd (ringAddr base i) m).toNat :=
  not_inExtSpan base (by norm_num; omega) (by norm_num; omega) (by omega)

/-! ### RBREAD -/

theorem ringToScratch_ends {s : State} {base : Word} {i a n : Nat} (hs : s.holdsSamples a n)
    (hr : ∀ k, k < n → s.mayRead (ringAddr base (i + k)) 2) :
    Ends (ringToScratch base i a n) s fun _ t =>
      Changed s t (inSpan a (2 * n)) noByte ∧
        ∀ k, k < n → scratchSample t (a + 2 * k) = s.extSample (ringAddr base (i + k)) := by
  have e : ∀ k, ringAddr base (i + k) = addrAdd base (2 * i + 2 * k) := by
    intro k
    rw [ringAddr_eq]
    congr 1
    omega
  unfold ringToScratch
  refine ends_mono (loadSamples_ends (s := s) base (2 * i) a n hs (fun k hk => by rw [← e]; exact hr k hk)
    fun k => by rw [e]; push_cast; rfl) ?_
  rintro _ t ⟨ht, hv⟩
  exact ⟨ht, fun k hk => by rw [hv k hk, e]⟩

theorem holdsSamples_split {s : State} {a m n : Nat} (h : s.holdsSamples a (m + n)) :
    s.holdsSamples a m ∧ s.holdsSamples (a + 2 * m) n := by
  rcases h with h | ⟨he, hb⟩
  · exact ⟨.inl (by omega), .inl (by omega)⟩
  · exact ⟨.inr (by omega), .inr (by omega)⟩

/-- RBREAD of an instance in use (45_reverb.md R173). -/
theorem rbreadUsed_ends {s : State} {r u left right : Nat} {rb : Reverb} {it : Item}
    (hit : itemAt s.cfg rb rb.parity.toNat u = some it) (hl : s.holdsSamples left it.size)
    (hr : s.holdsSamples right it.size) (hL : s.ringReadable it rb.lbase) (hR : s.ringReadable it rb.rbase) :
    Ends (rbreadUsed r u left right rb) s fun _ t =>
      Changed s t (fun x => inSpan left (2 * it.size) x ∨ inSpan right (2 * it.size) x) noByte ∧
        (apart left (2 * it.size) right (2 * it.size) → ∀ k, k < it.size →
          scratchSample t (left + 2 * k) = s.extSample (ringAddr rb.lbase (it.ringIndex k)) ∧
            scratchSample t (right + 2 * k) = s.extSample (ringAddr rb.rbase (it.ringIndex k))) := by
  obtain ⟨hl1, hl2⟩ := holdsSamples_split hl
  obtain ⟨hr1, hr2⟩ := holdsSamples_split hr
  have readA : ∀ {base : Word}, s.ringReadable it base → ∀ k, k < it.lenA.toNat →
      s.mayRead (ringAddr base (it.start.toNat + k)) 2 := by
    intro base hb k hk
    have := hb k (by unfold Item.size; omega)
    rwa [it.ringIndex_A hk] at this
  have readB : ∀ {base : Word}, s.ringReadable it base → ∀ k, k < it.lenB.toNat →
      s.mayRead (ringAddr base (0 + k)) 2 := by
    intro base hb k hk
    have := hb (it.lenA.toNat + k) (by unfold Item.size; omega)
    rwa [it.ringIndex_B, ← Nat.zero_add k] at this
  have e1 : (left : Int) + 2 * it.lenA.toNat = ((left + 2 * it.lenA.toNat : Nat) : Int) := by push_cast; rfl
  have e2 : (right : Int) + 2 * it.lenA.toNat = ((right + 2 * it.lenA.toNat : Nat) : Int) := by push_cast; rfl
  unfold rbreadUsed
  apply ends_bind
  refine ends_ok (readItem_found hit) ?_
  apply ends_bind
  refine ends_mono (ringToScratch_ends (s := s) hl1 (readA hL)) ?_
  rintro _ t1 ⟨c1, v1⟩
  apply ends_bind
  refine ends_mono (ringToScratch_ends (s := t1) (c1.holdsSamples hr1) (fun k hk => c1.mayRead (readA hR k hk))) ?_
  rintro _ t2 ⟨c2, v2⟩
  have c12 := c1.trans c2
  rw [e1, e2]
  apply ends_bind
  refine ends_mono (ringToScratch_ends (s := t2) (c12.holdsSamples hl2) (fun k hk => c12.mayRead (readB hL k hk))) ?_
  rintro _ t3 ⟨c3, v3⟩
  have c123 := c12.trans c3
  refine ends_mono (ringToScratch_ends (s := t3) (c123.holdsSamples hr2) (fun k hk => c123.mayRead (readB hR k hk))) ?_
  rintro _ t ⟨c4, v4⟩
  refine ⟨c123.then c4 ?_ (by simp [noByte]), ?_⟩
  · unfold inSpan Item.size
    omega
  · intro hap k hk
    unfold apart Item.size at hap
    unfold Item.size at hk
    have src : ∀ {w : State} {P : Nat → Prop} (_ : Changed s w P noByte) (a : Word), w.extSample a = s.extSample a :=
      fun h a => h.extSample fun i _ h => h
    by_cases hkA : k < it.lenA.toNat
    · rw [it.ringIndex_A hkA]
      constructor
      · rw [c4.sample (by unfold inSpan; omega) (by unfold inSpan; omega),
          c3.sample (by unfold inSpan; omega) (by unfold inSpan; omega),
          c2.sample (by unfold inSpan; omega) (by unfold inSpan; omega), v1 k hkA]
      · rw [c4.sample (by unfold inSpan; omega) (by unfold inSpan; omega),
          c3.sample (by unfold inSpan; omega) (by unfold inSpan; omega), v2 k hkA,
          src (c1.mono (fun _ h => h) fun _ h => h)]
    · obtain ⟨j, rfl⟩ : ∃ j, k = it.lenA.toNat + j := ⟨k - it.lenA.toNat, by omega⟩
      rw [it.ringIndex_B]
      have h3 := v3 j (by omega)
      have h4 := v4 j (by omega)
      rw [Nat.zero_add] at h3 h4
      rw [show left + 2 * (it.lenA.toNat + j) = left + 2 * it.lenA.toNat + 2 * j by omega,
        show right + 2 * (it.lenA.toNat + j) = right + 2 * it.lenA.toNat + 2 * j by omega]
      constructor
      · rw [c4.sample (by unfold inSpan; omega) (by unfold inSpan; omega), h3]
        exact c12.extSample (by simp [noByte])
      · rw [h4]
        exact c123.extSample (by simp [noByte])

/-! ### RBWRITE -/

theorem scratchToRing_ends {s : State} {base : Word} {i a n : Nat} (hs : s.holdsSamples a n)
    (hn : 2 * i + 2 * n ≤ 4294967296)
    (hw : ∀ k, k < n → extAdmits s.cfg (ringAddr base (i + k)) 2 .write = true ∧
      overlapsCommandList s (ringAddr base (i + k)) 2 = false) :
    Ends (scratchToRing base i a n) s fun _ t =>
      Changed s t noByte (inExtSpan (ringAddr base i) (2 * n)) ∧
        ∀ k, k < n → t.extSample (ringAddr base (i + k)) = scratchSample s (a + 2 * k) := by
  have e : ∀ k, ringAddr base (i + k) = addrAdd base (2 * i + 2 * k) := by
    intro k
    rw [ringAddr_eq]
    congr 1
    omega
  have hn' : 2 * i + 2 * n ≤ 2 ^ 32 := by norm_num; exact hn
  unfold scratchToRing
  refine ends_mono (saveSamples_ends (s := s) base (2 * i) a n hs hn' (fun k hk => by rw [← e]; exact hw k hk)
    fun k => by rw [e]; push_cast; rfl) ?_
  rintro _ t ⟨ht, hv⟩
  exact ⟨ht, fun k hk => by rw [e, hv k hk]⟩

/-- The bytes of a segment are bytes of the item. -/
theorem segmentA_bytes (it : Item) (base : Word) (x : Nat)
    (h : inExtSpan (ringAddr base it.start.toNat) (2 * it.lenA.toNat) x) : it.ringBytes base x := by
  obtain ⟨i, hi, rfl⟩ := h
  refine ⟨i / 2, by unfold Item.size; omega, i % 2, by omega, ?_⟩
  rw [it.ringIndex_A (by omega), ringAddr_eq, ringAddr_eq, addrAdd_addrAdd, addrAdd_addrAdd]
  congr 2
  omega

theorem segmentB_bytes (it : Item) (base : Word) (x : Nat)
    (h : inExtSpan (ringAddr base 0) (2 * it.lenB.toNat) x) : it.ringBytes base x := by
  obtain ⟨i, hi, rfl⟩ := h
  refine ⟨it.lenA.toNat + i / 2, by unfold Item.size; omega, i % 2, by omega, ?_⟩
  rw [it.ringIndex_B, ringAddr_eq, ringAddr_eq, addrAdd_addrAdd, addrAdd_addrAdd]
  congr 2
  omega

/-- RBWRITE of an instance in use with RB_DSR = 1 (45_reverb.md R174). -/
theorem rbwriteRing_ends {s : State} {r u left right : Nat} {rb : Reverb} {it : Item} (hd : rb.dsr.toNat = 1)
    (hit : itemAt s.cfg rb rb.parity.toNat u = some it) (hl : s.holdsSamples left it.size)
    (hr : s.holdsSamples right it.size) (hL : s.ringWritable it rb.lbase) (hR : s.ringWritable it rb.rbase) :
    Ends (rbwriteUsed r u left right rb) s fun _ t =>
      Changed s t noByte (fun x => it.ringBytes rb.lbase x ∨ it.ringBytes rb.rbase x) ∧
        (it.lenB.toNat ≤ it.start.toNat → disjointBytes (it.ringBytes rb.lbase) (it.ringBytes rb.rbase) →
          ∀ k, k < it.size →
            t.extSample (ringAddr rb.lbase (it.ringIndex k)) = scratchSample s (left + 2 * k) ∧
              t.extSample (ringAddr rb.rbase (it.ringIndex k)) = scratchSample s (right + 2 * k)) := by
  obtain ⟨hl1, hl2⟩ := holdsSamples_split hl
  obtain ⟨hr1, hr2⟩ := holdsSamples_split hr
  have hst := it.start.isLt
  have hla := it.lenA.isLt
  have hlb := it.lenB.isLt
  have writeA : ∀ {base : Word}, s.ringWritable it base → ∀ k, k < it.lenA.toNat →
      extAdmits s.cfg (ringAddr base (it.start.toNat + k)) 2 .write = true ∧
        overlapsCommandList s (ringAddr base (it.start.toNat + k)) 2 = false := by
    intro base hb k hk
    have := hb k (by unfold Item.size; omega)
    rwa [it.ringIndex_A hk] at this
  have writeB : ∀ {base : Word}, s.ringWritable it base → ∀ k, k < it.lenB.toNat →
      extAdmits s.cfg (ringAddr base (0 + k)) 2 .write = true ∧
        overlapsCommandList s (ringAddr base (0 + k)) 2 = false := by
    intro base hb k hk
    have := hb (it.lenA.toNat + k) (by unfold Item.size; omega)
    rwa [it.ringIndex_B, ← Nat.zero_add k] at this
  have e1 : (left : Int) + 2 * it.lenA.toNat = ((left + 2 * it.lenA.toNat : Nat) : Int) := by push_cast; rfl
  have e2 : (right : Int) + 2 * it.lenA.toNat = ((right + 2 * it.lenA.toNat : Nat) : Int) := by push_cast; rfl
  unfold rbwriteUsed
  apply ends_bind
  refine ends_ok (readItem_found hit) ?_
  apply ends_bind
  refine ends_ok (get_apply s) ?_
  rw [if_pos hd]
  apply ends_bind
  refine ends_mono (scratchToRing_ends (s := s) hl1 (by omega) (writeA hL)) ?_
  rintro _ t1 ⟨c1, v1⟩
  apply ends_bind
  refine ends_mono (scratchToRing_ends (s := t1) (c1.holdsSamples hr1) (by omega)
    (by rw [c1.cfg]; intro k hk; rw [c1.overlaps]; exact writeA hR k hk)) ?_
  rintro _ t2 ⟨c2, v2⟩
  have c12 := c1.trans c2
  rw [e1, e2]
  apply ends_bind
  refine ends_mono (scratchToRing_ends (s := t2) (c12.holdsSamples hl2) (by omega)
    (by rw [c12.cfg]; intro k hk; rw [c12.overlaps]; exact writeB hL k hk)) ?_
  rintro _ t3 ⟨c3, v3⟩
  have c123 := c12.trans c3
  refine ends_mono (scratchToRing_ends (s := t3) (c123.holdsSamples hr2) (by omega)
    (by rw [c123.cfg]; intro k hk; rw [c123.overlaps]; exact writeB hR k hk)) ?_
  rintro _ t ⟨c4, v4⟩
  refine ⟨c123.then c4 (by simp [noByte]) ?_, ?_⟩
  · rintro x (((h | h) | h) | h)
    · exact .inl (segmentA_bytes it _ x h)
    · exact .inr (segmentA_bytes it _ x h)
    · exact .inl (segmentB_bytes it _ x h)
    · exact .inr (segmentB_bytes it _ x h)
  · intro hbs hdis k hk
    have inL : ∀ m, m < 2 → it.ringBytes rb.lbase (addrAdd (ringAddr rb.lbase (it.ringIndex k)) m).toNat :=
      fun m hm => ⟨k, hk, m, hm, rfl⟩
    have inR : ∀ m, m < 2 → it.ringBytes rb.rbase (addrAdd (ringAddr rb.rbase (it.ringIndex k)) m).toNat :=
      fun m hm => ⟨k, hk, m, hm, rfl⟩
    unfold Item.size at hk
    have self : ∀ (base : Word) (i j n m : Nat), i < 131072 → 2 * j + 2 * n ≤ 4294967296 → m < 2 →
        (i < j ∨ j + n ≤ i) → ¬ inExtSpan (ringAddr base j) (2 * n) (addrAdd (ringAddr base i) m).toNat := by
      intro base i j n m hi hj hm hne
      exact not_inExtSpan base (by norm_num; omega) (by norm_num; omega) (by omega)
    by_cases hkA : k < it.lenA.toNat
    · rw [it.ringIndex_A hkA] at inL inR ⊢
      constructor
      · rw [c4.extSample fun m hm h => hdis _ (inL m hm) (segmentB_bytes it _ _ h),
          c3.extSample fun m hm => self _ _ _ _ _ (by omega) (by omega) hm (by omega),
          c2.extSample fun m hm h => hdis _ (inL m hm) (segmentA_bytes it _ _ h), v1 k hkA]
      · rw [c4.extSample fun m hm => self _ _ _ _ _ (by omega) (by omega) hm (by omega),
          c3.extSample fun m hm h => hdis _ (segmentB_bytes it _ _ h) (inR m hm), v2 k hkA]
        exact c1.sample (by simp [noByte]) (by simp [noByte])
    · obtain ⟨j, rfl⟩ : ∃ j, k = it.lenA.toNat + j := ⟨k - it.lenA.toNat, by omega⟩
      rw [it.ringIndex_B] at inL inR ⊢
      have h3 := v3 j (by omega)
      have h4 := v4 j (by omega)
      rw [Nat.zero_add] at h3 h4
      rw [show left + 2 * (it.lenA.toNat + j) = left + 2 * it.lenA.toNat + 2 * j by omega,
        show right + 2 * (it.lenA.toNat + j) = right + 2 * it.lenA.toNat + 2 * j by omega]
      constructor
      · rw [c4.extSample fun m hm h => hdis _ (inL m hm) (segmentB_bytes it _ _ h), h3]
        exact c12.sample (by simp [noByte]) (by simp [noByte])
      · rw [h4]
        exact c123.sample (by simp [noByte]) (by simp [noByte])

/-- RBWRITE of an instance in use with RB_DSR > 1: the raw chunk goes to the TD buffers (45_reverb.md R174). -/
theorem rbwriteDeferred_ends {s : State} {r u left right : Nat} {rb : Reverb} {it : Item} {tl tr : Word}
    (hd : rb.dsr.toNat ≠ 1) (hit : itemAt s.cfg rb rb.parity.toNat u = some it)
    (htl : tl = tdAddr s.cfg rb.tdlbase rb.tdstride rb.parity.toNat u)
    (htr : tr = tdAddr s.cfg rb.tdrbase rb.tdstride rb.parity.toNat u)
    (hl : s.holdsSamples left it.chunkLen.toNat) (hr : s.holdsSamples right it.chunkLen.toNat)
    (hL : s.writable tl 2 it.chunkLen.toNat) (hR : s.writable tr 2 it.chunkLen.toNat) :
    Ends (rbwriteUsed r u left right rb) s fun _ t =>
      Changed s t noByte
        (fun x => inExtSpan tl (2 * it.chunkLen.toNat) x ∨ inExtSpan tr (2 * it.chunkLen.toNat) x) ∧
        (disjointBytes (inExtSpan tl (2 * it.chunkLen.toNat)) (inExtSpan tr (2 * it.chunkLen.toNat)) →
          ∀ k, k < it.chunkLen.toNat →
            t.extSample (addrAdd tl (2 * k)) = scratchSample s (left + 2 * k) ∧
              t.extSample (addrAdd tr (2 * k)) = scratchSample s (right + 2 * k)) := by
  have hn := it.chunkLen.isLt
  unfold rbwriteUsed
  apply ends_bind
  refine ends_ok (readItem_found hit) ?_
  apply ends_bind
  refine ends_ok (get_apply s) ?_
  rw [if_neg hd]
  rw [← htl, ← htr]
  apply ends_bind
  refine ends_mono (scratchToRing_ends (s := s) (base := tl) (i := 0) hl (by omega)
    fun k hk => by rw [Nat.zero_add]; exact hL k hk) ?_
  rintro _ t1 ⟨c1, v1⟩
  refine ends_mono (scratchToRing_ends (s := t1) (base := tr) (i := 0) (c1.holdsSamples hr) (by omega)
    fun k hk => by rw [Nat.zero_add, c1.cfg, c1.overlaps]; exact hR k hk) ?_
  rintro _ t ⟨c2, v2⟩
  have z : ∀ base : Word, ringAddr base 0 = base := fun base => addrAdd_zero base
  rw [z] at c1 c2
  refine ⟨c1.trans c2 |>.mono (by simp [noByte]) fun x h => h, ?_⟩
  intro hdis k hk
  have h1 := v1 k hk
  have h2 := v2 k hk
  rw [Nat.zero_add, ringAddr_eq] at h1 h2
  refine ⟨?_, by rw [h2]; exact c1.sample (by simp [noByte]) (by simp [noByte])⟩
  rw [c2.extSample fun m hm h => hdis _ ⟨2 * k + m, by omega, by rw [addrAdd_addrAdd]⟩ h, h1]

/-! ### RBPREP -/

/-- One run of decimated pairs (45_reverb.md R171): ring index `i0 + k` from TD sample `d * (j0 + k)`. -/
theorem decimate_ends {s : State} {rb : Reverb} {tl tr : Word} {f : Nat → M Unit} {i0 j0 d n : Nat}
    {P Q : Nat → Prop} (hn : i0 + n ≤ 131072)
    (hr : ∀ k, k < n → s.mayRead (addrAdd tl (2 * (d * (j0 + k)))) 2 ∧
      s.mayRead (addrAdd tr (2 * (d * (j0 + k)))) 2)
    (hw : ∀ k, k < n → (extAdmits s.cfg (ringAddr rb.lbase (i0 + k)) 2 .write = true ∧
        overlapsCommandList s (ringAddr rb.lbase (i0 + k)) 2 = false) ∧
      (extAdmits s.cfg (ringAddr rb.rbase (i0 + k)) 2 .write = true ∧
        overlapsCommandList s (ringAddr rb.rbase (i0 + k)) 2 = false))
    (hf : ∀ k, f k = decimatePair rb tl tr (i0 + k) (d * (j0 + k)))
    (hP : ∀ k, k < n → ∀ x, inExtSpan (ringAddr rb.lbase (i0 + k)) 2 x → P x)
    (hQ : ∀ k, k < n → ∀ x, inExtSpan (ringAddr rb.rbase (i0 + k)) 2 x → Q x) :
    Ends (forRange n f) s fun _ t =>
      Changed s t noByte (fun x => P x ∨ Q x) ∧
        (disjointBytes P Q → disjointBytes (decimatedBytes tl d (j0 + n)) (fun x => P x ∨ Q x) →
          disjointBytes (decimatedBytes tr d (j0 + n)) (fun x => P x ∨ Q x) → ∀ k, k < n →
          t.extSample (ringAddr rb.lbase (i0 + k)) = s.extSample (addrAdd tl (2 * (d * (j0 + k)))) ∧
            t.extSample (ringAddr rb.rbase (i0 + k)) = s.extSample (addrAdd tr (2 * (d * (j0 + k))))) := by
  refine ends_mono (ends_forRange (fun j t =>
      Changed s t noByte (fun x => P x ∨ Q x) ∧
        (disjointBytes P Q → disjointBytes (decimatedBytes tl d (j0 + n)) (fun x => P x ∨ Q x) →
          disjointBytes (decimatedBytes tr d (j0 + n)) (fun x => P x ∨ Q x) → ∀ k, k < j →
          t.extSample (ringAddr rb.lbase (i0 + k)) = s.extSample (addrAdd tl (2 * (d * (j0 + k)))) ∧
            t.extSample (ringAddr rb.rbase (i0 + k)) = s.extSample (addrAdd tr (2 * (d * (j0 + k))))))
      n s ?_ ?_) fun _ _ h => h
  · rintro j t hj ⟨ht, hv⟩
    have hc := ht.cfg
    obtain ⟨r1, r2⟩ := hr j hj
    obtain ⟨w1, w2⟩ := hw j hj
    rw [hf]
    unfold decimatePair
    apply ends_bind
    refine ends_ok (extRead16_reads (ht.mayRead r1)) ?_
    have rl := extSample_range t (addrAdd tl (2 * (d * (j0 + j))))
    apply ends_bind
    refine ends_mono (ends_extWrite16 (s := t) _ _ (by rw [hc, ht.overlaps]; exact w1)) ?_
    rintro _ a ⟨ha, hx⟩
    rw [trunc16_of_range rl.1 rl.2] at hx
    apply ends_bind
    refine ends_ok (extRead16_reads (ha.mayRead (ht.mayRead r2))) ?_
    have rr := extSample_range a (addrAdd tr (2 * (d * (j0 + j))))
    refine ends_mono (ends_extWrite16 (s := a) _ _ (by rw [ha.cfg, hc, ha.overlaps, ht.overlaps]; exact w2)) ?_
    rintro _ b ⟨hb, hy⟩
    rw [trunc16_of_range rr.1 rr.2] at hy
    refine ⟨ht.then (ha.trans hb) (by simp [noByte]) ?_, ?_⟩
    · rintro x (h | h | h)
      · exact h
      · exact .inl (hP j hj x h)
      · exact .inr (hQ j hj x h)
    · intro hPQ hTl hTr k hk
      have inP : ∀ k, k < n → ∀ m, m < 2 → P (addrAdd (ringAddr rb.lbase (i0 + k)) m).toNat :=
        fun k hk m hm => hP k hk _ ⟨m, hm, rfl⟩
      have inQ : ∀ k, k < n → ∀ m, m < 2 → Q (addrAdd (ringAddr rb.rbase (i0 + k)) m).toNat :=
        fun k hk m hm => hQ k hk _ ⟨m, hm, rfl⟩
      have tdl : ∀ m, m < 2 → ¬ (P (addrAdd (addrAdd tl (2 * (d * (j0 + j)))) m).toNat ∨
          Q (addrAdd (addrAdd tl (2 * (d * (j0 + j)))) m).toNat) :=
        fun m hm => hTl _ ⟨j0 + j, by omega, m, hm, rfl⟩
      have tdr : ∀ m, m < 2 → ¬ (P (addrAdd (addrAdd tr (2 * (d * (j0 + j)))) m).toNat ∨
          Q (addrAdd (addrAdd tr (2 * (d * (j0 + j)))) m).toNat) :=
        fun m hm => hTr _ ⟨j0 + j, by omega, m, hm, rfl⟩
      by_cases hkj : k = j
      · subst hkj
        constructor
        · rw [hb.extSample fun m hm h => hPQ _ (inP k hj m hm) (hQ k hj _ h), hx]
          exact ht.extSample tdl
        · rw [hy, ha.extSample fun m hm h => tdr m hm (.inl (hP k hj _ h))]
          exact ht.extSample tdr
      · obtain ⟨o1, o2⟩ := hv hPQ hTl hTr k (by omega)
        constructor
        · rw [hb.extSample fun m hm h => hPQ _ (inP k (by omega) m hm) (hQ j hj _ h),
            ha.extSample fun m hm => sample_not_in_other _ (by omega) (by omega) (by omega) m hm, o1]
        · rw [hb.extSample fun m hm => sample_not_in_other _ (by omega) (by omega) (by omega) m hm,
            ha.extSample fun m hm h => hPQ _ (hP j hj _ h) (inQ k (by omega) m hm), o2]
  · exact ⟨changed_refl _ _ _, fun _ _ _ k hk => by omega⟩

/-- The downsampler (45_reverb.md R171). -/
theorem downsample_ends {s : State} {r u : Nat} {rb : Reverb} {it : Item} {tl tr : Word}
    (hit : itemAt s.cfg rb rb.parity.toNat u = some it)
    (htl : tl = tdAddr s.cfg rb.tdlbase rb.tdstride rb.parity.toNat u)
    (htr : tr = tdAddr s.cfg rb.tdrbase rb.tdstride rb.parity.toNat u)
    (hr : ∀ k, k < it.size → s.mayRead (addrAdd tl (2 * (rb.dsr.toNat * k))) 2 ∧
      s.mayRead (addrAdd tr (2 * (rb.dsr.toNat * k))) 2)
    (hL : s.ringWritable it rb.lbase) (hR : s.ringWritable it rb.rbase) :
    Ends (downsample r u rb) s fun _ t =>
      Changed s t noByte (fun x => it.ringBytes rb.lbase x ∨ it.ringBytes rb.rbase x) ∧
        (it.lenB.toNat ≤ it.start.toNat → disjointBytes (it.ringBytes rb.lbase) (it.ringBytes rb.rbase) →
          disjointBytes (decimatedBytes tl rb.dsr.toNat it.size)
            (fun x => it.ringBytes rb.lbase x ∨ it.ringBytes rb.rbase x) →
          disjointBytes (decimatedBytes tr rb.dsr.toNat it.size)
            (fun x => it.ringBytes rb.lbase x ∨ it.ringBytes rb.rbase x) →
          ∀ k, k < it.size →
            t.extSample (ringAddr rb.lbase (it.ringIndex k)) = s.extSample (addrAdd tl (2 * (rb.dsr.toNat * k))) ∧
              t.extSample (ringAddr rb.rbase (it.ringIndex k)) =
                s.extSample (addrAdd tr (2 * (rb.dsr.toNat * k)))) := by
  have hst := it.start.isLt
  have hla := it.lenA.isLt
  have hlb := it.lenB.isLt
  unfold downsample
  apply ends_bind
  refine ends_ok (readItem_found hit) ?_
  apply ends_bind
  refine ends_ok (get_apply s) ?_
  dsimp only
  rw [← htl, ← htr]
  apply ends_bind
  refine ends_mono (decimate_ends (s := s) (rb := rb) (tl := tl) (tr := tr) (i0 := it.start.toNat) (j0 := 0)
    (d := rb.dsr.toNat) (n := it.lenA.toNat) (P := it.ringBytes rb.lbase) (Q := it.ringBytes rb.rbase) (by omega)
    ?_ ?_ (fun k => by rw [Nat.zero_add]) ?_ ?_) ?_
  · intro k hk
    rw [Nat.zero_add]
    exact hr k (by unfold Item.size; omega)
  · intro k hk
    rw [← it.ringIndex_A hk]
    exact ⟨hL k (by unfold Item.size; omega), hR k (by unfold Item.size; omega)⟩
  · intro k hk x hx
    exact ⟨k, by unfold Item.size; omega, by rwa [it.ringIndex_A hk]⟩
  · intro k hk x hx
    exact ⟨k, by unfold Item.size; omega, by rwa [it.ringIndex_A hk]⟩
  rintro _ t1 ⟨c1, v1⟩
  refine ends_mono (decimate_ends (s := t1) (rb := rb) (tl := tl) (tr := tr) (i0 := 0) (j0 := it.lenA.toNat)
    (d := rb.dsr.toNat) (n := it.lenB.toNat)
    (P := fun x => ∃ k, k < it.lenB.toNat ∧ inExtSpan (ringAddr rb.lbase k) 2 x)
    (Q := fun x => ∃ k, k < it.lenB.toNat ∧ inExtSpan (ringAddr rb.rbase k) 2 x) (by omega)
    ?_ ?_ (fun k => by rw [Nat.zero_add]) ?_ ?_) ?_
  · intro k hk
    have := hr (it.lenA.toNat + k) (by unfold Item.size; omega)
    exact ⟨c1.mayRead this.1, c1.mayRead this.2⟩
  · intro k hk
    have h1 := hL (it.lenA.toNat + k) (by unfold Item.size; omega)
    have h2 := hR (it.lenA.toNat + k) (by unfold Item.size; omega)
    rw [it.ringIndex_B] at h1 h2
    rw [Nat.zero_add, c1.cfg, c1.overlaps, c1.overlaps]
    exact ⟨h1, h2⟩
  · intro k hk x hx
    rw [Nat.zero_add] at hx
    exact ⟨k, hk, hx⟩
  · intro k hk x hx
    rw [Nat.zero_add] at hx
    exact ⟨k, hk, hx⟩
  rintro _ t ⟨c2, v2⟩
  have toL : ∀ x, (∃ k, k < it.lenB.toNat ∧ inExtSpan (ringAddr rb.lbase k) 2 x) → it.ringBytes rb.lbase x := by
    rintro x ⟨k, hk, hx⟩
    exact ⟨it.lenA.toNat + k, by unfold Item.size; omega, by rwa [it.ringIndex_B]⟩
  have toR : ∀ x, (∃ k, k < it.lenB.toNat ∧ inExtSpan (ringAddr rb.rbase k) 2 x) → it.ringBytes rb.rbase x := by
    rintro x ⟨k, hk, hx⟩
    exact ⟨it.lenA.toNat + k, by unfold Item.size; omega, by rwa [it.ringIndex_B]⟩
  refine ⟨c1.then c2 (by simp [noByte]) ?_, ?_⟩
  · rintro x (h | h | h)
    · exact h
    · exact .inl (toL x h)
    · exact .inr (toR x h)
  · intro hbs hdis hTl hTr k hk
    have sub : ∀ base : Word, ∀ x, decimatedBytes base rb.dsr.toNat (0 + it.lenA.toNat) x →
        decimatedBytes base rb.dsr.toNat it.size x := by
      rintro base x ⟨j, hj, h⟩
      exact ⟨j, by unfold Item.size; omega, h⟩
    have h1 := v1 hdis (fun x hx => hTl x (sub _ x hx)) fun x hx => hTr x (sub _ x hx)
    have up : ∀ x, ((∃ k, k < it.lenB.toNat ∧ inExtSpan (ringAddr rb.lbase k) 2 x) ∨
        ∃ k, k < it.lenB.toNat ∧ inExtSpan (ringAddr rb.rbase k) 2 x) →
        it.ringBytes rb.lbase x ∨ it.ringBytes rb.rbase x := by
      rintro x (h | h)
      · exact .inl (toL x h)
      · exact .inr (toR x h)
    have h2 := v2 (fun x hx hx' => hdis x (toL x hx) (toR x hx')) (fun x hx h => hTl x hx (up x h))
      fun x hx h => hTr x hx (up x h)
    have hkk := hk
    unfold Item.size at hk
    by_cases hkA : k < it.lenA.toNat
    · obtain ⟨o1, o2⟩ := h1 k hkA
      rw [Nat.zero_add] at o1 o2
      rw [it.ringIndex_A hkA]
      have inL : ∀ m, m < 2 → it.ringBytes rb.lbase (addrAdd (ringAddr rb.lbase (it.start.toNat + k)) m).toNat :=
        fun m hm => ⟨k, hkk, m, hm, by rw [it.ringIndex_A hkA]⟩
      have inR : ∀ m, m < 2 → it.ringBytes rb.rbase (addrAdd (ringAddr rb.rbase (it.start.toNat + k)) m).toNat :=
        fun m hm => ⟨k, hkk, m, hm, by rw [it.ringIndex_A hkA]⟩
      constructor
      · rw [c2.extSample fun m hm h => ?_, o1]
        rcases h with ⟨j, hj, h⟩ | h
        · exact sample_not_in_other _ (by omega) (by omega) (by omega) m hm h
        · exact hdis _ (inL m hm) (toR _ h)
      · rw [c2.extSample fun m hm h => ?_, o2]
        rcases h with h | ⟨j, hj, h⟩
        · exact hdis _ (toL _ h) (inR m hm)
        · exact sample_not_in_other _ (by omega) (by omega) (by omega) m hm h
    · obtain ⟨j, rfl⟩ : ∃ j, k = it.lenA.toNat + j := ⟨k - it.lenA.toNat, by omega⟩
      obtain ⟨o1, o2⟩ := h2 j (by omega)
      rw [Nat.zero_add] at o1 o2
      rw [it.ringIndex_B, o1, o2]
      exact ⟨c1.extSample fun m hm => hTl _ ⟨_, hkk, m, hm, rfl⟩,
        c1.extSample fun m hm => hTr _ ⟨_, hkk, m, hm, rfl⟩⟩

/-- RBPREP of an instance in use, without a downsample (45_reverb.md R169, R170). -/
theorem rbprepUsed_plain {s : State} {r u : Nat} {len : Half} {rb : Reverb}
    (hn : len.toNat / rb.dsr.toNat ≤ rb.cap.toNat) (hd : rb.dsr.toNat = 1 ∨ rb.ignore.toNat ≠ 0) :
    rbprepUsed r u len rb s = .ok () (setReverb s r (splitRecord s.cfg u (len.toNat / rb.dsr.toNat) len rb)) := by
  unfold rbprepUsed deferredDownsample
  rw [if_neg (by omega)]
  have : ¬ (rb.dsr.toNat ≠ 1 ∧ rb.ignore.toNat = 0) := by omega
  rw [if_neg this]
  rfl

/-- RBPREP of an instance in use, with the deferred downsample: the downsample, then the split. -/
theorem rbprepUsed_deferred {s : State} {r u : Nat} {len : Half} {rb : Reverb} {Q : State → Prop}
    (hn : len.toNat / rb.dsr.toNat ≤ rb.cap.toNat) (hd : rb.dsr.toNat ≠ 1) (hi : rb.ignore.toNat = 0)
    (h : Ends (downsample r u rb) s fun _ t => t.cfg = s.cfg ∧ Q t) :
    Ends (rbprepUsed r u len rb) s fun _ t => ∃ v, Q v ∧
      t = setReverb v r (splitRecord s.cfg u (len.toNat / rb.dsr.toNat) len rb) := by
  unfold rbprepUsed deferredDownsample
  rw [if_neg (by omega), if_pos ⟨hd, hi⟩]
  apply ends_bind
  refine ends_mono h ?_
  rintro _ t ⟨hc, hq⟩
  apply ends_bind
  refine ends_ok (get_apply t) ?_
  rw [hc]
  exact ends_ok (t := setReverb t r _) (x := ()) rfl ⟨t, hq, rfl⟩

end Sys2Proof.Machine
end

