-- ==== Sys2Proof/Laws/Keeps.lean ====
section
/-! SUPPORT. What each command's body keeps, however it ends. A relation between states that holds for each primitive
write of a body (`MemRel`, and one more clause for the book, the context or a reverb instance) holds for the body, so
a claim about all commands is proved once for each primitive write. -/

namespace Sys2Proof.Machine

variable {R : State → State → Prop} {α : Type}

/-- A relation that every write to scratch or external memory satisfies. -/
structure MemRel (R : State → State → Prop) : Prop extends RunRel R where
  scratch8 : ∀ a b s t, sWrite8 a b s = .ok () t → R s t
  scratch16 : ∀ a v s t, sWrite16 a v s = .ok () t → R s t
  ext : ∀ a n v s t, memWrite a n v s = .ok () t → R s t

/-- A body that writes only where it ends well, and then in relation, keeps the relation. -/
theorem keeps_of_ok (h : RunRel R) {m : M Unit} (herr : ∀ s e t, m s = .error e t → t = s)
    (hok : ∀ s t, m s = .ok () t → R s t) : Keeps R m := by
  intro s
  cases hm : m s with
  | ok x t => exact hok s t hm
  | error e t =>
    have := herr s e t hm
    subst this
    exact h.refl t

theorem keeps_sRead8 (h : RunRel R) (a : Int) : Keeps R (sRead8 a) := keeps_of_same h (sRead8_state a)

theorem keeps_sRead16 (h : RunRel R) (a : Int) : Keeps R (sRead16 a) := keeps_of_same h (sRead16_state a)

theorem keeps_coef (h : RunRel R) (p r j : Nat) : Keeps R (coef p r j) := keeps_of_same h (coef_state p r j)

theorem keeps_ctxRead (h : RunRel R) {w : Nat} (csr : Nat) (v : Context → Option (BitVec w)) :
    Keeps R (ctxRead csr v) := keeps_of_same h (ctxRead_state csr v)

theorem keeps_sWrite8 (h : MemRel R) (a : Int) (b : Byte) : Keeps R (sWrite8 a b) := by
  apply keeps_of_ok h.toRunRel _ (h.scratch8 a b)
  intro s e t he
  rcases sWrite8_cases a b s with ⟨_, _, hw⟩ | hw <;> rw [hw] at he
  · exact absurd he (by simp)
  · injection he with _ he
    exact he.symm

theorem keeps_sWrite16 (h : MemRel R) (a v : Int) : Keeps R (sWrite16 a v) := by
  apply keeps_of_ok h.toRunRel _ (h.scratch16 a v)
  intro s e t he
  rcases sWrite16_cases a v s with ⟨_, _, _, hw⟩ | ⟨_, hw, _⟩ <;> rw [hw] at he
  · exact absurd he (by simp)
  · injection he with _ he
    exact he.symm

theorem keeps_memWrite (h : MemRel R) (a : Word) (n v : Nat) : Keeps R (memWrite a n v) := by
  apply keeps_of_ok h.toRunRel _ (h.ext a n v)
  intro s e t he
  rcases memWrite_cases a n v s with ⟨_, _, hw⟩ | ⟨_, hw, _⟩ <;> rw [hw] at he
  · exact absurd he (by simp)
  · injection he with _ he
    exact he.symm

theorem keeps_extWrite16 (h : MemRel R) (a : Word) (v : Int) : Keeps R (extWrite16 a v) := keeps_memWrite h a 2 _

theorem keeps_extWrite32 (h : MemRel R) (a : Word) (v : Int) : Keeps R (extWrite32 a v) := keeps_memWrite h a 4 _

/-! ### Transfers -/

theorem clearbuffBody_keeps (h : MemRel R) (dmem count : Half) : Keeps R (clearbuffBody dmem count) :=
  keeps_forRange h.toRunRel (fun _ => keeps_sWrite8 h _ _) _

theorem dmemmoveBody_keeps (h : MemRel R) (inp out count : Half) : Keeps R (dmemmoveBody inp out count) :=
  keeps_bind h.toRunRel (keeps_collect h.toRunRel (fun _ => keeps_sRead8 h.toRunRel _) _) fun _ =>
    keeps_forRange h.toRunRel (fun _ => keeps_sWrite8 h _ _) _

/-- LOADADPCM writes the book alone. -/
theorem loadadpcmBody_keeps (h : RunRel R) (hb : ∀ k b s, k < 256 → R s { s with book := Book.write s.book k b })
    (count : BitVec 24) (addr : Word) : Keeps R (loadadpcmBody count addr) := by
  unfold loadadpcmBody
  split
  · exact keeps_raise h _ _
  · rename_i hc
    have key : ∀ n k, k + n ≤ 256 → Keeps R (foldFrom (fun k (_ : Unit) => do
        let b ← memRead (addrAdd addr k) 1
        bookWrite k (BitVec.ofNat 8 b)) n k ()) := by
      intro n
      induction n with
      | zero => exact fun k _ => keeps_pure h ()
      | succ n ih =>
        intro k hk
        rw [foldFrom_succ]
        refine keeps_bind h (keeps_bind h (keeps_memRead h _ _) fun b => ?_) fun _ => ih (k + 1) (by omega)
        exact fun s => hb k _ s (by omega)
    exact key _ 0 (by omega)

theorem loadbuffBody_keeps (h : MemRel R) (addr : Word) : Keeps R (loadbuffBody addr) :=
  keeps_bind h.toRunRel (keeps_ctxRead h.toRunRel _ _) fun _ =>
    keeps_bind h.toRunRel (keeps_ctxRead h.toRunRel _ _) fun _ =>
      keeps_forRange h.toRunRel
        (fun _ => keeps_bind h.toRunRel (keeps_memRead h.toRunRel _ _) fun _ => keeps_sWrite8 h _ _) _

theorem savebuffBody_keeps (h : MemRel R) (addr : Word) : Keeps R (savebuffBody addr) :=
  keeps_bind h.toRunRel (keeps_ctxRead h.toRunRel _ _) fun _ =>
    keeps_bind h.toRunRel (keeps_ctxRead h.toRunRel _ _) fun _ =>
      keeps_forRange h.toRunRel
        (fun _ => keeps_bind h.toRunRel (keeps_sRead8 h.toRunRel _) fun _ => keeps_memWrite h _ _ _) _

/-! ### ADPCM -/

theorem adpcmAcc_keeps (h : RunRel R) (pred : Nat) (p1 p2 : Int) (d : List Int) (j : Nat) :
    Keeps R (adpcmAcc pred p1 p2 d j) :=
  keeps_bind h (keeps_coef h _ _ _) fun _ =>
    keeps_bind h (keeps_coef h _ _ _) fun _ =>
      keeps_bind h
        (keeps_foldFrom h (fun _ _ => keeps_bind h (keeps_coef h _ _ _) fun _ => keeps_pure h _) _ _ _)
        fun _ => keeps_pure h _

theorem adpcmHalf_keeps (h : MemRel R) (pred shift : Nat) (src o : Int) : Keeps R (adpcmHalf pred shift src o) :=
  keeps_bind h.toRunRel (keeps_sRead16 h.toRunRel _) fun _ =>
    keeps_bind h.toRunRel (keeps_sRead16 h.toRunRel _) fun _ =>
      keeps_bind h.toRunRel (keeps_collect h.toRunRel (fun _ => keeps_sRead8 h.toRunRel _) _) fun _ =>
        keeps_forRange h.toRunRel
          (fun _ => keeps_bind h.toRunRel (adpcmAcc_keeps h.toRunRel _ _ _ _ _) fun _ => keeps_sWrite16 h _ _) _

theorem adpcmPacket_keeps (h : MemRel R) (src o : Int) : Keeps R (adpcmPacket src o) :=
  keeps_bind h.toRunRel (keeps_sRead8 h.toRunRel _) fun _ =>
    keeps_ite _ (keeps_raise h.toRunRel _ _) (keeps_forRange h.toRunRel (fun _ => adpcmHalf_keeps h _ _ _ _) _)

theorem histSample_keeps (h : RunRel R) (init : Bool) (src : Word) (k : Nat) : Keeps R (histSample init src k) :=
  keeps_ite _ (keeps_pure h _) (keeps_extRead16 h _)

theorem adpcmPrefix_keeps (h : MemRel R) (init : Bool) (src : Word) (out : Int) (n : Nat) :
    Keeps R (adpcmPrefix init src out n) :=
  keeps_forRange h.toRunRel
    (fun _ => keeps_bind h.toRunRel (histSample_keeps h.toRunRel _ _ _) fun _ => keeps_sWrite16 h _ _) _

theorem adpcmSave_keeps (h : MemRel R) (addr : Word) (e : Int) (n : Nat) : Keeps R (adpcmSave addr e n) :=
  keeps_forRange h.toRunRel
    (fun _ => keeps_bind h.toRunRel (keeps_sRead16 h.toRunRel _) fun _ => keeps_extWrite16 h _ _) _

theorem adpcmSource_keeps (h : RunRel R) (flags : BitVec 8) (addr : Word) : Keeps R (adpcmSource flags addr) :=
  keeps_ite _ (keeps_ctxRead h _ _) (keeps_pure h _)

theorem adpcmBody_keeps (h : MemRel R) (flags : BitVec 8) (addr : Word) : Keeps R (adpcmBody flags addr) :=
  keeps_bind h.toRunRel (adpcmSource_keeps h.toRunRel _ _) fun _ =>
    keeps_bind h.toRunRel (keeps_ctxRead h.toRunRel _ _) fun _ =>
      keeps_bind h.toRunRel (keeps_ctxRead h.toRunRel _ _) fun _ =>
        keeps_bind h.toRunRel (keeps_ctxRead h.toRunRel _ _) fun _ =>
          keeps_bind h.toRunRel (keeps_get h.toRunRel) fun _ =>
            keeps_bind h.toRunRel (adpcmPrefix_keeps h _ _ _ _) fun _ =>
              keeps_bind h.toRunRel (keeps_forRange h.toRunRel (fun _ => adpcmPacket_keeps h _ _) _) fun _ =>
                adpcmSave_keeps h _ _ _

/-! ### RESAMPLE -/

theorem resampleLoad_keeps (h : RunRel R) (flags : BitVec 8) (addr : Word) : Keeps R (resampleLoad flags addr) := by
  unfold resampleLoad
  refine keeps_ite _ (keeps_pure h _) ?_
  exact keeps_bind h (keeps_collect h (fun _ => keeps_extRead16 h _) _) fun _ =>
    keeps_bind h (keeps_extRead16 h _) fun _ =>
      keeps_bind h (keeps_extRead16 h _) fun _ =>
        keeps_bind h (keeps_collect h (fun _ => keeps_extRead16 h _) _) fun _ => keeps_pure h _

theorem resampleWindow_keeps (h : MemRel R) (flags : BitVec 8) (inp : Int) (hist : ResampleHistory) :
    Keeps R (resampleWindow flags inp hist) :=
  keeps_bind h.toRunRel
    (keeps_ite _ (keeps_forRange h.toRunRel (fun _ => keeps_sWrite16 h _ _) _) (keeps_pure h.toRunRel _)) fun _ =>
      keeps_forRange h.toRunRel (fun _ => keeps_sWrite16 h _ _) _

theorem resampleOutput_keeps (h : MemRel R) (pitch : Nat) (out : Int) (n : Nat) (c : ResampleCursor) :
    Keeps R (resampleOutput pitch out n c) :=
  keeps_bind h.toRunRel (keeps_get h.toRunRel) fun _ =>
    keeps_bind h.toRunRel (keeps_collect h.toRunRel (fun _ => keeps_sRead16 h.toRunRel _) _) fun _ =>
      keeps_bind h.toRunRel (keeps_sWrite16 h _ _) fun _ => keeps_pure h.toRunRel _

theorem resampleSave_keeps (h : MemRel R) (addr : Word) (inp : Int) (c : ResampleCursor) :
    Keeps R (resampleSave addr inp c) :=
  keeps_bind h.toRunRel
    (keeps_forRange h.toRunRel
      (fun _ => keeps_bind h.toRunRel (keeps_sRead16 h.toRunRel _) fun _ => keeps_extWrite16 h _ _) _) fun _ =>
    keeps_bind h.toRunRel (keeps_extWrite16 h _ _) fun _ =>
      keeps_bind h.toRunRel
        (keeps_forRange h.toRunRel
          (fun _ => keeps_bind h.toRunRel (keeps_sRead16 h.toRunRel _) fun _ => keeps_extWrite16 h _ _) _) fun _ =>
        keeps_extWrite16 h _ _

theorem resampleBody_keeps (h : MemRel R) (flags : BitVec 8) (pitch : Half) (addr : Word) :
    Keeps R (resampleBody flags pitch addr) := by
  unfold resampleBody
  refine keeps_ite _ (keeps_raise h.toRunRel _ _) ?_
  exact keeps_bind h.toRunRel (keeps_ctxRead h.toRunRel _ _) fun _ =>
    keeps_bind h.toRunRel (keeps_ctxRead h.toRunRel _ _) fun _ =>
      keeps_bind h.toRunRel (keeps_ctxRead h.toRunRel _ _) fun _ =>
        keeps_bind h.toRunRel (resampleLoad_keeps h.toRunRel _ _) fun _ =>
          keeps_bind h.toRunRel (resampleWindow_keeps h _ _ _) fun _ =>
            keeps_bind h.toRunRel
              (keeps_foldFrom h.toRunRel (fun _ _ => resampleOutput_keeps h _ _ _ _) _ _ _) fun _ =>
              resampleSave_keeps h _ _ _

/-! ### ENVMIXER -/

theorem envInit_keeps (h : RunRel R) : Keeps R envInit :=
  keeps_bind h (keeps_ctxRead h _ _) fun _ =>
    keeps_bind h (keeps_ctxRead h _ _) fun _ =>
      keeps_bind h (keeps_ctxRead h _ _) fun _ =>
        keeps_bind h (keeps_ctxRead h _ _) fun _ =>
          keeps_bind h (keeps_ctxRead h _ _) fun _ =>
            keeps_bind h (keeps_ctxRead h _ _) fun _ =>
              keeps_bind h (keeps_ctxRead h _ _) fun _ =>
                keeps_bind h (keeps_ctxRead h _ _) fun _ => keeps_pure h _

theorem envLoad_keeps (h : RunRel R) (addr : Word) : Keeps R (envLoad addr) :=
  keeps_bind h (keeps_collect h (fun _ => keeps_extRead32 h _) _) fun _ =>
    keeps_bind h (keeps_collect h (fun _ => keeps_extRead32 h _) _) fun _ =>
      keeps_bind h (keeps_extRead16 h _) fun _ =>
        keeps_bind h (keeps_extRead16 h _) fun _ =>
          keeps_bind h (keeps_extRead16 h _) fun _ =>
            keeps_bind h (keeps_extRead16 h _) fun _ =>
              keeps_bind h (keeps_extRead16 h _) fun _ =>
                keeps_bind h (keeps_extRead16 h _) fun _ =>
                  keeps_bind h (keeps_extRead16 h _) fun _ =>
                    keeps_bind h (keeps_extRead16 h _) fun _ => keeps_pure h _

theorem envAccumulate_keeps (h : MemRel R) (a x gain : Int) : Keeps R (envAccumulate a x gain) :=
  keeps_bind h.toRunRel (keeps_sRead16 h.toRunRel _) fun _ => keeps_sWrite16 h _ _

theorem envAccumulateWet_keeps (h : MemRel R) (wet : Option Int) (off x gain : Int) :
    Keeps R (envAccumulateWet wet off x gain) := by
  cases wet with
  | none => exact keeps_pure h.toRunRel _
  | some a => exact envAccumulate_keeps h _ _ _

theorem envLane_keeps (h : MemRel R) (rt tgt vd vw inp : Int) (bufs : EnvBuffers) (off vacc : Int) :
    Keeps R (envLane rt tgt vd vw inp bufs off vacc) :=
  keeps_bind h.toRunRel (keeps_sRead16 h.toRunRel _) fun _ =>
    keeps_bind h.toRunRel (envAccumulate_keeps h _ _ _) fun _ =>
      keeps_bind h.toRunRel (envAccumulateWet_keeps h _ _ _ _) fun _ => keeps_pure h.toRunRel _

theorem envGroup_keeps (h : MemRel R) (inp : Int) (bl br : EnvBuffers) (g : Nat) (e : EnvState) :
    Keeps R (envGroup inp bl br g e) :=
  have hc : ∀ vd vw b c, Keeps R (envChannelGroup vd vw inp b g c) := fun _ _ _ _ =>
    keeps_bind h.toRunRel (keeps_collect h.toRunRel (fun _ => envLane_keeps h _ _ _ _ _ _ _ _) _) fun _ =>
      keeps_pure h.toRunRel _
  keeps_bind h.toRunRel (hc _ _ _ _) fun _ => keeps_bind h.toRunRel (hc _ _ _ _) fun _ => keeps_pure h.toRunRel _

theorem envSave_keeps (h : MemRel R) (addr : Word) (e : EnvState) : Keeps R (envSave addr e) :=
  keeps_bind h.toRunRel (keeps_forRange h.toRunRel (fun _ => keeps_extWrite32 h _ _) _) fun _ =>
    keeps_bind h.toRunRel (keeps_forRange h.toRunRel (fun _ => keeps_extWrite32 h _ _) _) fun _ =>
      keeps_bind h.toRunRel (keeps_extWrite16 h _ _) fun _ =>
        keeps_bind h.toRunRel (keeps_extWrite16 h _ _) fun _ =>
          keeps_bind h.toRunRel (keeps_extWrite16 h _ _) fun _ =>
            keeps_bind h.toRunRel (keeps_extWrite16 h _ _) fun _ =>
              keeps_bind h.toRunRel (keeps_extWrite16 h _ _) fun _ =>
                keeps_bind h.toRunRel (keeps_extWrite16 h _ _) fun _ =>
                  keeps_bind h.toRunRel (keeps_extWrite16 h _ _) fun _ => keeps_extWrite16 h _ _

theorem envWet_keeps (h : RunRel R) (flags : BitVec 8) : Keeps R (envWet flags) :=
  keeps_ite _
    (keeps_bind h (keeps_ctxRead h _ _) fun _ => keeps_bind h (keeps_ctxRead h _ _) fun _ => keeps_pure h _)
    (keeps_pure h _)

theorem envStart_keeps (h : RunRel R) (flags : BitVec 8) (addr : Word) : Keeps R (envStart flags addr) :=
  keeps_ite _ (envInit_keeps h) (envLoad_keeps h _)

theorem envmixerBody_keeps (h : MemRel R) (flags : BitVec 8) (addr : Word) : Keeps R (envmixerBody flags addr) :=
  keeps_bind h.toRunRel (keeps_ctxRead h.toRunRel _ _) fun _ =>
    keeps_bind h.toRunRel (keeps_ctxRead h.toRunRel _ _) fun _ =>
      keeps_bind h.toRunRel (keeps_ctxRead h.toRunRel _ _) fun _ =>
        keeps_bind h.toRunRel (keeps_ctxRead h.toRunRel _ _) fun _ =>
          keeps_bind h.toRunRel (envWet_keeps h.toRunRel _) fun _ =>
            keeps_bind h.toRunRel (envStart_keeps h.toRunRel _ _) fun _ =>
              keeps_bind h.toRunRel (keeps_foldFrom h.toRunRel (fun _ _ => envGroup_keeps h _ _ _ _ _) _ _ _)
                fun _ => envSave_keeps h _ _

/-! ### Mixing -/

theorem mixerBody_keeps (h : MemRel R) (gain inp out : Half) : Keeps R (mixerBody gain inp out) :=
  keeps_bind h.toRunRel (keeps_ctxRead h.toRunRel _ _) fun _ =>
    keeps_bind h.toRunRel (keeps_get h.toRunRel) fun _ =>
      keeps_forRange h.toRunRel
        (fun _ => keeps_bind h.toRunRel (keeps_sRead16 h.toRunRel _) fun _ =>
          keeps_bind h.toRunRel (keeps_sRead16 h.toRunRel _) fun _ => keeps_sWrite16 h _ _) _

theorem interleaveGroup_keeps (h : MemRel R) (left right o : Int) (g : Nat) :
    Keeps R (interleaveGroup left right o g) :=
  keeps_bind h.toRunRel (keeps_collect h.toRunRel (fun _ => keeps_sRead16 h.toRunRel _) _) fun _ =>
    keeps_bind h.toRunRel (keeps_collect h.toRunRel (fun _ => keeps_sRead16 h.toRunRel _) _) fun _ =>
      keeps_forRange h.toRunRel
        (fun _ => keeps_bind h.toRunRel (keeps_sWrite16 h _ _) fun _ => keeps_sWrite16 h _ _) _

theorem interleaveBody_keeps (h : MemRel R) (left right : Half) : Keeps R (interleaveBody left right) :=
  keeps_bind h.toRunRel (keeps_ctxRead h.toRunRel _ _) fun _ =>
    keeps_bind h.toRunRel (keeps_ctxRead h.toRunRel _ _) fun _ =>
      keeps_forRange h.toRunRel (fun _ => interleaveGroup_keeps h _ _ _ _) _

theorem interleaveExtBody_keeps (h : MemRel R) (left right : BitVec 12) (addr : Word) :
    Keeps R (interleaveExtBody left right addr) :=
  keeps_bind h.toRunRel (keeps_ctxRead h.toRunRel _ _) fun _ =>
    keeps_forRange h.toRunRel
      (fun _ => keeps_bind h.toRunRel (keeps_sRead16 h.toRunRel _) fun _ =>
        keeps_bind h.toRunRel (keeps_sRead16 h.toRunRel _) fun _ =>
          keeps_bind h.toRunRel (keeps_extWrite16 h _ _) fun _ => keeps_extWrite16 h _ _) _

/-! ### Reverb -/

theorem ringToScratch_keeps (h : MemRel R) (base : Word) (i : Nat) (a : Int) (n : Nat) :
    Keeps R (ringToScratch base i a n) :=
  keeps_forRange h.toRunRel
    (fun _ => keeps_bind h.toRunRel (keeps_extRead16 h.toRunRel _) fun _ => keeps_sWrite16 h _ _) _

theorem scratchToRing_keeps (h : MemRel R) (base : Word) (i : Nat) (a : Int) (n : Nat) :
    Keeps R (scratchToRing base i a n) :=
  keeps_forRange h.toRunRel
    (fun _ => keeps_bind h.toRunRel (keeps_sRead16 h.toRunRel _) fun _ => keeps_extWrite16 h _ _) _

theorem decimatePair_keeps (h : MemRel R) (rb : Reverb) (tl tr : Word) (i src : Nat) :
    Keeps R (decimatePair rb tl tr i src) :=
  keeps_bind h.toRunRel (keeps_extRead16 h.toRunRel _) fun _ =>
    keeps_bind h.toRunRel (keeps_extWrite16 h _ _) fun _ =>
      keeps_bind h.toRunRel (keeps_extRead16 h.toRunRel _) fun _ => keeps_extWrite16 h _ _

theorem keeps_readItem (h : RunRel R) (r u : Nat) (rb : Reverb) : Keeps R (readItem r u rb) :=
  keeps_of_same h (readItem_state r u rb)

theorem keeps_reverbCheck (h : RunRel R) (r u : Nat) (w0 : Word) : Keeps R (reverbCheck r u w0) :=
  keeps_of_same h (reverbCheck_state r u w0)

theorem downsample_keeps (h : MemRel R) (r u : Nat) (rb : Reverb) : Keeps R (downsample r u rb) :=
  keeps_bind h.toRunRel (keeps_readItem h.toRunRel _ _ _) fun _ =>
    keeps_bind h.toRunRel (keeps_get h.toRunRel) fun _ =>
      keeps_bind h.toRunRel (keeps_forRange h.toRunRel (fun _ => decimatePair_keeps h _ _ _ _ _) _) fun _ =>
        keeps_forRange h.toRunRel (fun _ => decimatePair_keeps h _ _ _ _ _) _

theorem rbreadBody_keeps (h : MemRel R) (r u : BitVec 8) (left right : Half) :
    Keeps R (rbreadBody r u left right) := by
  refine keeps_bind h.toRunRel (keeps_reverbCheck h.toRunRel _ _ _) fun rb? => ?_
  cases rb? with
  | none => exact keeps_pure h.toRunRel _
  | some rb =>
    exact keeps_bind h.toRunRel (keeps_readItem h.toRunRel _ _ _) fun _ =>
      keeps_bind h.toRunRel (ringToScratch_keeps h _ _ _ _) fun _ =>
        keeps_bind h.toRunRel (ringToScratch_keeps h _ _ _ _) fun _ =>
          keeps_bind h.toRunRel (ringToScratch_keeps h _ _ _ _) fun _ => ringToScratch_keeps h _ _ _ _

theorem rbwriteBody_keeps (h : MemRel R) (r u : BitVec 8) (left right : Half) :
    Keeps R (rbwriteBody r u left right) := by
  refine keeps_bind h.toRunRel (keeps_reverbCheck h.toRunRel _ _ _) fun rb? => ?_
  cases rb? with
  | none => exact keeps_pure h.toRunRel _
  | some rb =>
    refine keeps_bind h.toRunRel (keeps_readItem h.toRunRel _ _ _) fun _ =>
      keeps_bind h.toRunRel (keeps_get h.toRunRel) fun _ => keeps_ite _ ?_ ?_
    · exact keeps_bind h.toRunRel (scratchToRing_keeps h _ _ _ _) fun _ =>
        keeps_bind h.toRunRel (scratchToRing_keeps h _ _ _ _) fun _ =>
          keeps_bind h.toRunRel (scratchToRing_keeps h _ _ _ _) fun _ => scratchToRing_keeps h _ _ _ _
    · exact keeps_bind h.toRunRel (scratchToRing_keeps h _ _ _ _) fun _ => scratchToRing_keeps h _ _ _ _

theorem deferredDownsample_keeps (h : MemRel R) (r u : Nat) (rb : Reverb) : Keeps R (deferredDownsample r u rb) :=
  keeps_ite _ (downsample_keeps h _ _ _) (keeps_pure h.toRunRel _)

/-- Cfg and the reverb instances, which no memory write touches. -/
def SameRings (s t : State) : Prop := t.cfg = s.cfg ∧ t.reverb = s.reverb

theorem sWrite8_scratch {a : Int} {b : Byte} {s t : State} (h : sWrite8 a b s = .ok () t) :
    ∃ m, t = { s with scratch := m } := by
  rcases sWrite8_cases a b s with ⟨_, _, hw⟩ | hw <;> rw [hw] at h
  · injection h with _ h
    exact ⟨_, h.symm⟩
  · exact absurd h (by simp)

theorem sWrite16_scratch {a v : Int} {s t : State} (h : sWrite16 a v s = .ok () t) :
    ∃ m, t = { s with scratch := m } := by
  rcases sWrite16_cases a v s with ⟨_, _, _, hw⟩ | ⟨_, hw, _⟩ <;> rw [hw] at h
  · injection h with _ h
    exact ⟨_, h.symm⟩
  · exact absurd h (by simp)

theorem memWrite_ext {a : Word} {n v : Nat} {s t : State} (h : memWrite a n v s = .ok () t) :
    ∃ m, t = { s with ext := m } := by
  rcases memWrite_cases a n v s with ⟨_, _, hw⟩ | ⟨_, hw, _⟩ <;> rw [hw] at h
  · injection h with _ h
    exact ⟨_, h.symm⟩
  · exact absurd h (by simp)

/-- A relation that ignores the two memories holds along every memory write. -/
theorem memRel_of_registers (h : RunRel R) (hs : ∀ s m, R s { s with scratch := m })
    (he : ∀ s m, R s { s with ext := m }) : MemRel R :=
  { h with
    scratch8 := fun a b s t hw => by obtain ⟨m, rfl⟩ := sWrite8_scratch hw; exact hs s m
    scratch16 := fun a v s t hw => by obtain ⟨m, rfl⟩ := sWrite16_scratch hw; exact hs s m
    ext := fun a n v s t hw => by obtain ⟨m, rfl⟩ := memWrite_ext hw; exact he s m }

theorem sameRings_memRel : MemRel SameRings :=
  memRel_of_registers ⟨fun _ => ⟨rfl, rfl⟩, fun _ _ _ h h' => ⟨h'.1.trans h.1, h'.2.trans h.2⟩,
      fun s a n => by obtain ⟨d, h⟩ := afterRead_draws s a n; rw [h]; exact ⟨rfl, rfl⟩⟩
    (fun _ _ => ⟨rfl, rfl⟩) fun _ _ => ⟨rfl, rfl⟩

theorem SameRings.ringReady {s t : State} (h : SameRings s t) {r u : Nat} {rb : Reverb} (hs : s.ringReady r u rb) :
    t.ringReady r u rb := by
  obtain ⟨h1, h2⟩ := h
  refine ⟨by rw [h1]; exact hs.instanceInRange, by rw [h1]; exact hs.slotInRange, ?_, hs.used, hs.capacity, hs.cursor,
    hs.rate⟩
  rw [← hs.found]
  simp [reverbAt, h1, h2]

/-- RBPREP of an instance in use, for a relation that also holds when the instance is replaced by the split's
record. -/
theorem rbprepUsed_keeps (h : MemRel R) {r u : Nat} {len : Half} {rb : Reverb} {s : State} (hs : s.ringReady r u rb)
    (hp : len.toNat / rb.dsr.toNat ≤ rb.cap.toNat → ∀ t, t.ringReady r u rb →
      R t (setReverb t r (splitRecord t.cfg u (len.toNat / rb.dsr.toNat) len rb))) :
    R s (resultState (rbprepUsed r u len rb s)) := by
  unfold rbprepUsed
  by_cases hn : rb.cap.toNat < len.toNat / rb.dsr.toNat
  · simp only [hn, if_true]
    exact h.refl s
  · simp only [hn, if_false]
    rw [bind_apply]
    have k1 := deferredDownsample_keeps h r u rb s
    have k2 := deferredDownsample_keeps sameRings_memRel r u rb s
    cases hd : deferredDownsample r u rb s with
    | error e t =>
      rw [hd] at k1
      exact k1
    | ok x t =>
      rw [hd] at k1 k2
      exact h.trans _ _ _ k1 (hp (by omega) t (k2.ringReady hs))

/-- RBPREP's body for a relation that also holds when instance `r`, having passed the checks, is replaced by the
split's record. -/
theorem rbprepBody_keeps (h : MemRel R) (r u : BitVec 8) (len : Half)
    (hp : ∀ t rb, t.ringReady r.toNat u.toNat rb → len.toNat / rb.dsr.toNat ≤ rb.cap.toNat →
      R t (setReverb t r.toNat (splitRecord t.cfg u.toNat (len.toNat / rb.dsr.toNat) len rb))) :
    Keeps R (rbprepBody r u len) := by
  intro s
  unfold rbprepBody
  rw [bind_apply]
  have hst := reverbCheck_state r.toNat u.toNat (encode (.rbprep r u len)).w0 s
  cases hc : reverbCheck r.toNat u.toNat (encode (.rbprep r u len)).w0 s with
  | error e t =>
    rw [hc] at hst
    simp only [resultState] at hst
    subst hst
    exact h.refl _
  | ok o t =>
    rw [hc] at hst
    simp only [resultState] at hst
    subst hst
    cases o with
    | none => exact h.refl _
    | some rb => exact rbprepUsed_keeps h (reverbCheck_some hc) fun hn t ht => hp t rb ht hn

/-! ### Every command -/

/-- The body of each command. -/
def bodyOf : Instr → M Unit
  | .noop => pure ()
  | .adpcm flags addr => adpcmBody flags addr
  | .clearbuff dmem count => clearbuffBody dmem count
  | .envmixer flags addr => envmixerBody flags addr
  | .loadbuff addr => loadbuffBody addr
  | .resample flags pitch addr => resampleBody flags pitch addr
  | .savebuff addr => savebuffBody addr
  | .setbuff flags inp out count => setCtx (setbuffContext flags inp out count)
  | .setvol flags v t r => setCtx (setvolContext flags v t r)
  | .dmemmove inp out count => dmemmoveBody inp out count
  | .loadadpcm count addr => loadadpcmBody count addr
  | .mixer gain inp out => mixerBody gain inp out
  | .interleave left right => interleaveBody left right
  | .setloop addr => setCtx fun c => { c with loopAddr := some addr }
  | .setreg reg value => setregBody reg value
  | .rbprep r u len => rbprepBody r u len
  | .rbread r u left right => rbreadBody r u left right
  | .rbwrite r u left right => rbwriteBody r u left right
  | .rbframe r => rbframeBody r
  | .interleaveExt left right addr => interleaveExtBody left right addr

/-- A command is its body, performed (40_context_and_scratch.md R97). -/
theorem exec_eq_perform (i : Instr) (s : State) : exec i s = perform (bodyOf i) s := by
  cases i <;> rfl

/-- A relation that holds for the writes a command can make holds from the state before it to the state its body
leaves, however it ends. -/
theorem bodyOf_keeps (h : MemRel R) (i : Instr)
    (hctx : i.writesContext = true → ∀ (f : Context → Context) s, R s { s with ctx := f s.ctx })
    (hbook : i.writesBook = true → ∀ k b s, k < 256 → R s { s with book := Book.write s.book k b })
    (hset : ∀ reg value, i = .setreg reg value → ∀ s r k, reverbCsr s.cfg reg.toNat = some (r, k) →
      R s (writeReverbCsr s r k value))
    (hprep : ∀ r u len, i = .rbprep r u len → ∀ t rb, t.ringReady r.toNat u.toNat rb →
      len.toNat / rb.dsr.toNat ≤ rb.cap.toNat →
      R t (setReverb t r.toNat (splitRecord t.cfg u.toNat (len.toNat / rb.dsr.toNat) len rb)))
    (hframe : ∀ r, i = .rbframe r → ∀ s, r.toNat < s.cfg.numReverb →
      R s (setReverb s r.toNat (frameEnd (reverbAt s r.toNat)))) :
    Keeps R (bodyOf i) := by
  cases i with
  | noop => exact keeps_pure h.toRunRel _
  | adpcm flags addr => exact adpcmBody_keeps h _ _
  | clearbuff dmem count => exact clearbuffBody_keeps h _ _
  | envmixer flags addr => exact envmixerBody_keeps h _ _
  | loadbuff addr => exact loadbuffBody_keeps h _
  | resample flags pitch addr => exact resampleBody_keeps h _ _ _
  | savebuff addr => exact savebuffBody_keeps h _
  | setbuff flags inp out count => exact fun s => hctx rfl _ s
  | setvol flags v t r => exact fun s => hctx rfl _ s
  | dmemmove inp out count => exact dmemmoveBody_keeps h _ _ _
  | loadadpcm count addr => exact loadadpcmBody_keeps h.toRunRel (hbook rfl) _ _
  | mixer gain inp out => exact mixerBody_keeps h _ _ _
  | interleave left right => exact interleaveBody_keeps h _ _
  | setloop addr => exact fun s => hctx rfl (fun c => { c with loopAddr := some addr }) s
  | setreg reg value =>
    intro s
    show R s (resultState (setregBody reg value s))
    unfold setregBody
    split
    · rename_i r k hk
      exact hset reg value rfl s r k hk
    · exact h.refl s
  | rbprep r u len => exact rbprepBody_keeps h r u len (hprep r u len rfl)
  | rbread r u left right => exact rbreadBody_keeps h _ _ _ _
  | rbwrite r u left right => exact rbwriteBody_keeps h _ _ _ _
  | rbframe r =>
    intro s
    show R s (resultState (rbframeBody r s))
    unfold rbframeBody
    split
    · exact h.refl s
    · exact hframe r rfl s (by omega)
  | interleaveExt left right addr => exact interleaveExtBody_keeps h _ _ _

end Sys2Proof.Machine
end

