-- ==== Sys2Proof/Laws/Blind.lean ====
section
/-! SUPPORT. Bodies that do not depend on what external memory holds: run on any other external memory they end the
same way, with the same registers and scratch, having written the same bytes (20_memory.md R66). -/

namespace Sys2Proof.Machine

variable {α β σ : Type}

/-- From `m` to `m'` and from `e` to `e'` the same bytes were written and the others left. -/
def SameStores (m e m' e' : Memory) : Prop :=
  ∀ x, Memory.read e' x = Memory.read m' x ∨
    (Memory.read m' x = Memory.read m x ∧ Memory.read e' x = Memory.read e x)

theorem sameStores_refl (m e : Memory) : SameStores m e m e := fun _ => .inr ⟨rfl, rfl⟩

theorem SameStores.trans {m e m' e' m'' e'' : Memory} (h : SameStores m e m' e') (h' : SameStores m' e' m'' e'') :
    SameStores m e m'' e'' := by
  intro x
  rcases h' x with h2 | ⟨h2, h3⟩
  · exact .inl h2
  · rcases h x with h1 | ⟨h1, h4⟩
    · exact .inl (by rw [h3, h1, h2])
    · exact .inr ⟨h2.trans h1, h3.trans h4⟩

/-- A result with another external memory. -/
def withExt (r : EStateM.Result Trap State α) (e : Memory) : EStateM.Result Trap State α :=
  match r with
  | .ok x t => .ok x { t with ext := e }
  | .error c t => .error c { t with ext := e }

/-- On any other external memory the body ends the same way and writes the same bytes. -/
def Blind (m : M α) : Prop :=
  ∀ (s : State) (e : Memory), ∃ e', m { s with ext := e } = withExt (m s) e' ∧
    SameStores s.ext e (resultState (m s)).ext e'

theorem blind_pure (x : α) : Blind (pure x : M α) := fun s e => ⟨e, rfl, sameStores_refl s.ext e⟩

theorem blind_raise (c : Cause) (v : Word) : Blind (raise c v : M α) := fun s e => ⟨e, rfl, sameStores_refl s.ext e⟩

theorem blind_bind {m : M α} {f : α → M β} (hm : Blind m) (hf : ∀ x, Blind (f x)) : Blind (m >>= f) := by
  intro s e
  obtain ⟨e1, h1, h2⟩ := hm s e
  rw [bind_apply, bind_apply, h1]
  cases hr : m s with
  | error c t => rw [hr] at h2; exact ⟨e1, rfl, h2⟩
  | ok x t =>
    rw [hr] at h2
    obtain ⟨e2, h3, h4⟩ := hf x t e1
    exact ⟨e2, h3, h2.trans h4⟩

/-- Reading the state is blind where what follows does not look at its external memory. -/
theorem blind_get {f : State → M β} (hs : ∀ s e, f { s with ext := e } = f s) (hf : ∀ s, Blind (f s)) :
    Blind ((get : M State) >>= f) := by
  intro s e
  rw [bind_ok (get_apply _), bind_ok (get_apply s), hs]
  exact hf s s e

theorem blind_ite (c : Prop) [Decidable c] {m m' : M α} (h : Blind m) (h' : Blind m') :
    Blind (if c then m else m') := by
  split
  · exact h
  · exact h'

theorem blind_foldFrom {f : Nat → σ → M σ} (hf : ∀ k x, Blind (f k x)) (n k : Nat) (x : σ) :
    Blind (foldFrom f n k x) := by
  induction n generalizing k x with
  | zero => exact blind_pure x
  | succ n ih => exact blind_bind (hf k x) fun y => ih (k + 1) y

theorem blind_forRange {f : Nat → M Unit} (hf : ∀ k, Blind (f k)) (n : Nat) : Blind (forRange n f) :=
  blind_foldFrom (fun k _ => hf k) n 0 ()

theorem blind_collect {f : Nat → M α} (hf : ∀ k, Blind (f k)) (n : Nat) : Blind (collect n f) := by
  have key : ∀ n k, Blind (collectFrom f n k) := by
    intro n
    induction n with
    | zero => exact fun _ => blind_pure _
    | succ n ih => exact fun k => blind_bind (hf k) fun _ => blind_bind (ih (k + 1)) fun _ => blind_pure _
  exact key n 0

/-! ### Accesses -/

theorem inScratch_ext (s : State) (e : Memory) (a : Int) (n : Nat) :
    inScratch { s with ext := e } a n = inScratch s a n := rfl

theorem blind_sRead8 (a : Int) : Blind (sRead8 a) := by
  intro s e
  refine ⟨e, ?_, by rw [sRead8_state]; exact sameStores_refl _ _⟩
  unfold sRead8
  rw [inScratch_ext]
  split <;> rfl

theorem blind_sRead16 (a : Int) : Blind (sRead16 a) := by
  intro s e
  refine ⟨e, ?_, by rw [sRead16_state]; exact sameStores_refl _ _⟩
  unfold sRead16
  rw [inScratch_ext]
  split
  · rfl
  · split <;> rfl

theorem blind_sWrite8 (a : Int) (b : Byte) : Blind (sWrite8 a b) := by
  intro s e
  refine ⟨e, ?_, ?_⟩ <;> unfold sWrite8
  · rw [inScratch_ext]
    split <;> rfl
  · split <;> exact sameStores_refl _ _

theorem blind_sWrite16 (a v : Int) : Blind (sWrite16 a v) := by
  intro s e
  refine ⟨e, ?_, ?_⟩ <;> unfold sWrite16
  · rw [inScratch_ext]
    split
    · rfl
    · split <;> rfl
  · split
    · exact sameStores_refl _ _
    · split <;> exact sameStores_refl _ _

theorem storeExt_same (m e : Memory) (a : Word) (bs : List Byte) :
    SameStores m e (storeExt m a bs) (storeExt e a bs) := by
  induction bs generalizing m e a with
  | nil => exact sameStores_refl m e
  | cons b bs ih =>
    refine SameStores.trans (m' := Memory.write m a.toNat b) (e' := Memory.write e a.toNat b) (fun x => ?_) (ih _ _ _)
    rw [Memory.read_write, Memory.read_write]
    by_cases h : x = a.toNat
    · exact .inl (by rw [if_pos h, if_pos h])
    · exact .inr ⟨by rw [if_neg h], by rw [if_neg h]⟩

theorem blind_memWrite (a : Word) (n v : Nat) : Blind (memWrite a n v) := by
  intro s e
  have ho : overlapsCommandList { s with ext := e } a n = overlapsCommandList s a n := rfl
  cases h : extAdmits s.cfg a n .write <;> cases h' : overlapsCommandList s a n
  case true.false =>
    refine ⟨storeExt e a (toBytes s.cfg.endian n v), ?_, ?_⟩ <;> rw [memWrite_ok v h h']
    · exact memWrite_ok (s := { s with ext := e }) v h (ho.trans h')
    · exact storeExt_same _ _ _ _
  all_goals
    refine ⟨e, ?_, ?_⟩ <;> simp only [memWrite, ho, h, h']
    · rfl
    · exact sameStores_refl _ _

theorem blind_extWrite16 (a : Word) (v : Int) : Blind (extWrite16 a v) := blind_memWrite a 2 _

theorem blind_extWrite32 (a : Word) (v : Int) : Blind (extWrite32 a v) := blind_memWrite a 4 _

theorem blind_coef (p r j : Nat) : Blind (coef p r j) := by
  intro s e
  refine ⟨e, ?_, by rw [coef_state]; exact sameStores_refl _ _⟩
  unfold coef
  dsimp only
  split <;> rfl

theorem blind_ctxRead {w : Nat} (csr : Nat) (v : Context → Option (BitVec w)) : Blind (ctxRead csr v) := by
  intro s e
  refine ⟨e, ?_, by rw [ctxRead_state]; exact sameStores_refl _ _⟩
  unfold ctxRead
  dsimp only
  split <;> rfl

theorem blind_reverbCheck (r u : Nat) (w0 : Word) : Blind (reverbCheck r u w0) := by
  intro s e
  refine ⟨e, ?_, by rw [reverbCheck_state]; exact sameStores_refl _ _⟩
  have hr : reverbAt { s with ext := e } r = reverbAt s r := rfl
  unfold reverbCheck
  rw [hr]
  dsimp only
  repeat' split
  all_goals rfl

theorem blind_readItem (r u : Nat) (rb : Reverb) : Blind (readItem r u rb) := by
  intro s e
  refine ⟨e, ?_, by rw [readItem_state]; exact sameStores_refl _ _⟩
  unfold readItem
  dsimp only
  split <;> rfl

/-! ### Bodies -/

theorem clearbuffBody_blind (dmem count : Half) : Blind (clearbuffBody dmem count) :=
  blind_forRange (fun _ => blind_sWrite8 _ _) _

theorem dmemmoveBody_blind (inp out count : Half) : Blind (dmemmoveBody inp out count) :=
  blind_bind (blind_collect (fun _ => blind_sRead8 _) _) fun _ => blind_forRange (fun _ => blind_sWrite8 _ _) _

theorem savebuffBody_blind (addr : Word) : Blind (savebuffBody addr) :=
  blind_bind (blind_ctxRead _ _) fun _ => blind_bind (blind_ctxRead _ _) fun _ =>
    blind_forRange (fun _ => blind_bind (blind_sRead8 _) fun _ => blind_memWrite _ _ _) _

theorem adpcmAcc_blind (pred : Nat) (p1 p2 : Int) (d : List Int) (j : Nat) : Blind (adpcmAcc pred p1 p2 d j) :=
  blind_bind (blind_coef _ _ _) fun _ => blind_bind (blind_coef _ _ _) fun _ =>
    blind_bind (blind_foldFrom (fun _ _ => blind_bind (blind_coef _ _ _) fun _ => blind_pure _) _ _ _)
      fun _ => blind_pure _

theorem adpcmHalf_blind (pred shift : Nat) (src o : Int) : Blind (adpcmHalf pred shift src o) :=
  blind_bind (blind_sRead16 _) fun _ => blind_bind (blind_sRead16 _) fun _ =>
    blind_bind (blind_collect (fun _ => blind_sRead8 _) _) fun _ =>
      blind_forRange (fun _ => blind_bind (adpcmAcc_blind _ _ _ _ _) fun _ => blind_sWrite16 _ _) _

theorem adpcmPacket_blind (src o : Int) : Blind (adpcmPacket src o) :=
  blind_bind (blind_sRead8 _) fun _ =>
    blind_ite _ (blind_raise _ _) (blind_forRange (fun _ => adpcmHalf_blind _ _ _ _) _)

/-- ADPCM under INIT reads no external memory (41_adpcm.md R110). -/
theorem adpcmBody_blind (flags : BitVec 8) (addr : Word) (h : flagInit flags = true) :
    Blind (adpcmBody flags addr) :=
  blind_bind (blind_ite _ (blind_ctxRead _ _) (blind_pure _)) fun _ =>
    blind_bind (blind_ctxRead _ _) fun _ => blind_bind (blind_ctxRead _ _) fun _ =>
      blind_bind (blind_ctxRead _ _) fun _ =>
        blind_get (fun _ _ => rfl) fun _ =>
          blind_bind
            (blind_forRange (fun _ => blind_bind
              (by rw [h]; exact blind_pure 0) fun _ => blind_sWrite16 _ _) _) fun _ =>
            blind_bind (blind_forRange (fun _ => adpcmPacket_blind _ _) _) fun _ =>
              blind_forRange (fun _ => blind_bind (blind_sRead16 _) fun _ => blind_extWrite16 _ _) _

theorem resampleWindow_blind (flags : BitVec 8) (inp : Int) (hist : ResampleHistory) :
    Blind (resampleWindow flags inp hist) :=
  blind_bind (blind_ite _ (blind_forRange (fun _ => blind_sWrite16 _ _) _) (blind_pure _)) fun _ =>
    blind_forRange (fun _ => blind_sWrite16 _ _) _

theorem resampleOutput_blind (pitch : Nat) (out : Int) (n : Nat) (c : ResampleCursor) :
    Blind (resampleOutput pitch out n c) :=
  blind_get (fun _ _ => rfl) fun _ => blind_bind (blind_collect (fun _ => blind_sRead16 _) _) fun _ =>
    blind_bind (blind_sWrite16 _ _) fun _ => blind_pure _

theorem resampleSave_blind (addr : Word) (inp : Int) (c : ResampleCursor) : Blind (resampleSave addr inp c) :=
  blind_bind (blind_forRange (fun _ => blind_bind (blind_sRead16 _) fun _ => blind_extWrite16 _ _) _) fun _ =>
    blind_bind (blind_extWrite16 _ _) fun _ =>
      blind_bind (blind_forRange (fun _ => blind_bind (blind_sRead16 _) fun _ => blind_extWrite16 _ _) _) fun _ =>
        blind_extWrite16 _ _

/-- RESAMPLE under INIT reads no external memory (42_resample.md R121). -/
theorem resampleBody_blind (flags : BitVec 8) (pitch : Half) (addr : Word) (h : flagInit flags = true) :
    Blind (resampleBody flags pitch addr) := by
  unfold resampleBody
  refine blind_ite _ (blind_raise _ _) ?_
  exact blind_bind (blind_ctxRead _ _) fun _ => blind_bind (blind_ctxRead _ _) fun _ =>
    blind_bind (blind_ctxRead _ _) fun _ =>
      blind_bind (by unfold resampleLoad; rw [h]; exact blind_pure _) fun _ =>
        blind_bind (resampleWindow_blind _ _ _) fun _ =>
          blind_bind (blind_foldFrom (fun _ _ => resampleOutput_blind _ _ _ _) _ _ _) fun _ =>
            resampleSave_blind _ _ _

theorem envInit_blind : Blind envInit :=
  blind_bind (blind_ctxRead _ _) fun _ => blind_bind (blind_ctxRead _ _) fun _ =>
    blind_bind (blind_ctxRead _ _) fun _ => blind_bind (blind_ctxRead _ _) fun _ =>
      blind_bind (blind_ctxRead _ _) fun _ => blind_bind (blind_ctxRead _ _) fun _ =>
        blind_bind (blind_ctxRead _ _) fun _ => blind_bind (blind_ctxRead _ _) fun _ => blind_pure _

theorem envAccumulate_blind (a x gain : Int) : Blind (envAccumulate a x gain) :=
  blind_bind (blind_sRead16 _) fun _ => blind_sWrite16 _ _

theorem envAccumulateWet_blind (wet : Option Int) (off x gain : Int) : Blind (envAccumulateWet wet off x gain) := by
  cases wet with
  | none => exact blind_pure _
  | some a => exact envAccumulate_blind _ _ _

theorem envGroup_blind (inp : Int) (bl br : EnvBuffers) (g : Nat) (e : EnvState) :
    Blind (envGroup inp bl br g e) :=
  have hl : ∀ rt tgt vd vw b off vacc, Blind (envLane rt tgt vd vw inp b off vacc) := fun _ _ _ _ _ _ _ =>
    blind_bind (blind_sRead16 _) fun _ => blind_bind (envAccumulate_blind _ _ _) fun _ =>
      blind_bind (envAccumulateWet_blind _ _ _ _) fun _ => blind_pure _
  have hc : ∀ vd vw b c, Blind (envChannelGroup vd vw inp b g c) := fun _ _ _ _ =>
    blind_bind (blind_collect (fun _ => hl _ _ _ _ _ _ _) _) fun _ => blind_pure _
  blind_bind (hc _ _ _ _) fun _ => blind_bind (hc _ _ _ _) fun _ => blind_pure _

theorem envSave_blind (addr : Word) (e : EnvState) : Blind (envSave addr e) :=
  blind_bind (blind_forRange (fun _ => blind_extWrite32 _ _) _) fun _ =>
    blind_bind (blind_forRange (fun _ => blind_extWrite32 _ _) _) fun _ =>
      blind_bind (blind_extWrite16 _ _) fun _ => blind_bind (blind_extWrite16 _ _) fun _ =>
        blind_bind (blind_extWrite16 _ _) fun _ => blind_bind (blind_extWrite16 _ _) fun _ =>
          blind_bind (blind_extWrite16 _ _) fun _ => blind_bind (blind_extWrite16 _ _) fun _ =>
            blind_bind (blind_extWrite16 _ _) fun _ => blind_extWrite16 _ _

/-- ENVMIXER under INIT reads no external memory (43_envmix.md R135). -/
theorem envmixerBody_blind (flags : BitVec 8) (addr : Word) (h : flagInit flags = true) :
    Blind (envmixerBody flags addr) :=
  blind_bind (blind_ctxRead _ _) fun _ => blind_bind (blind_ctxRead _ _) fun _ =>
    blind_bind (blind_ctxRead _ _) fun _ => blind_bind (blind_ctxRead _ _) fun _ =>
      blind_bind
        (blind_ite _
          (blind_bind (blind_ctxRead _ _) fun _ => blind_bind (blind_ctxRead _ _) fun _ => blind_pure _)
          (blind_pure _)) fun _ =>
        blind_bind (by unfold envStart; rw [h]; exact envInit_blind) fun _ =>
          blind_bind (blind_foldFrom (fun _ _ => envGroup_blind _ _ _ _ _) _ _ _) fun _ => envSave_blind _ _

theorem mixerBody_blind (gain inp out : Half) : Blind (mixerBody gain inp out) :=
  blind_bind (blind_ctxRead _ _) fun _ => blind_get (fun _ _ => rfl) fun _ =>
    blind_forRange (fun _ => blind_bind (blind_sRead16 _) fun _ => blind_bind (blind_sRead16 _) fun _ =>
      blind_sWrite16 _ _) _

theorem interleaveBody_blind (left right : Half) : Blind (interleaveBody left right) :=
  blind_bind (blind_ctxRead _ _) fun _ => blind_bind (blind_ctxRead _ _) fun _ =>
    blind_forRange (fun _ => blind_bind (blind_collect (fun _ => blind_sRead16 _) _) fun _ =>
      blind_bind (blind_collect (fun _ => blind_sRead16 _) _) fun _ =>
        blind_forRange (fun _ => blind_bind (blind_sWrite16 _ _) fun _ => blind_sWrite16 _ _) _) _

theorem interleaveExtBody_blind (left right : BitVec 12) (addr : Word) :
    Blind (interleaveExtBody left right addr) :=
  blind_bind (blind_ctxRead _ _) fun _ =>
    blind_forRange (fun _ => blind_bind (blind_sRead16 _) fun _ => blind_bind (blind_sRead16 _) fun _ =>
      blind_bind (blind_extWrite16 _ _) fun _ => blind_extWrite16 _ _) _

theorem scratchToRing_blind (base : Word) (i : Nat) (a : Int) (n : Nat) : Blind (scratchToRing base i a n) :=
  blind_forRange (fun _ => blind_bind (blind_sRead16 _) fun _ => blind_extWrite16 _ _) _

theorem rbwriteBody_blind (r u : BitVec 8) (left right : Half) : Blind (rbwriteBody r u left right) := by
  refine blind_bind (blind_reverbCheck _ _ _) fun rb? => ?_
  cases rb? with
  | none => exact blind_pure _
  | some rb =>
    refine blind_bind (blind_readItem _ _ _) fun _ => blind_get (fun _ _ => rfl) fun _ => blind_ite _ ?_ ?_
    · exact blind_bind (scratchToRing_blind _ _ _ _) fun _ => blind_bind (scratchToRing_blind _ _ _ _) fun _ =>
        blind_bind (scratchToRing_blind _ _ _ _) fun _ => scratchToRing_blind _ _ _ _
    · exact blind_bind (scratchToRing_blind _ _ _ _) fun _ => scratchToRing_blind _ _ _ _

end Sys2Proof.Machine
end

