-- ==== Sys2Proof/Laws/Commands.lean ====
section
/-! SUPPORT. What every command keeps, however its body ends: the run control, the command list, and the forms of the
memories, the book and the reverb instances. -/

namespace Sys2Proof.Machine

/-- The parameters, run-control registers and the model's own fields are as they were. -/
structure SameControl (s t : State) : Prop where
  cfg : t.cfg = s.cfg
  status : t.status = s.status
  faultCause : t.faultCause = s.faultCause
  faultCp : t.faultCp = s.faultCp
  faultInfo : t.faultInfo = s.faultInfo
  cmdBase : t.cmdBase = s.cmdBase
  cmdCount : t.cmdCount = s.cmdCount
  cp : t.cp = s.cp
  host : t.host = s.host
  readData : t.readData = s.readData
  raced : t.raced = s.raced
  past : t.past = s.past
  draws : s.raced = [] → t.draws = s.draws

theorem sameControl_runRel : RunRel SameControl where
  refl _ := by constructor <;> intros <;> rfl
  trans _ _ _ h h' := ⟨h'.cfg.trans h.cfg, h'.status.trans h.status, h'.faultCause.trans h.faultCause,
    h'.faultCp.trans h.faultCp, h'.faultInfo.trans h.faultInfo, h'.cmdBase.trans h.cmdBase,
    h'.cmdCount.trans h.cmdCount, h'.cp.trans h.cp, h'.host.trans h.host, h'.readData.trans h.readData,
    h'.raced.trans h.raced, h'.past.trans h.past, fun hr => (h'.draws (h.raced.trans hr)).trans (h.draws hr)⟩
  read s a n := by
    rcases afterRead_cases s a n with he | ⟨hq, he⟩ <;> rw [he]
    · constructor <;> intros <;> rfl
    · exact ⟨rfl, rfl, rfl, rfl, rfl, rfl, rfl, rfl, rfl, rfl, rfl, rfl, fun hr => by
        simp [quiet_of_raced hr] at hq⟩

theorem sameControl_memRel : MemRel SameControl :=
  memRel_of_registers sameControl_runRel (fun _ _ => by constructor <;> intros <;> rfl)
    fun _ _ => by constructor <;> intros <;> rfl

/-- No body touches the run control. -/
theorem bodyOf_sameControl (i : Instr) : Keeps SameControl (bodyOf i) :=
  bodyOf_keeps sameControl_memRel i (fun _ _ _ => by constructor <;> intros <;> rfl)
    (fun _ _ _ _ _ => by constructor <;> intros <;> rfl)
    (fun _ _ _ _ _ _ _ => by constructor <;> intros <;> rfl)
    (fun _ _ _ _ _ _ _ _ => by constructor <;> intros <;> rfl)
    fun _ _ _ _ => by constructor <;> intros <;> rfl

/-- The command list stands where it stood, and none of its bytes changed (20_memory.md R67). -/
structure SameList (s t : State) : Prop where
  base : t.cmdBase = s.cmdBase
  count : t.cmdCount = s.cmdCount
  bytes : ∀ x : Word, inCommandList s x = true → Memory.read t.ext x.toNat = Memory.read s.ext x.toNat

theorem SameList.inList {s t : State} (h : SameList s t) (x : Word) : inCommandList t x = inCommandList s x := by
  simp [inCommandList, h.base, h.count]

theorem sameList_runRel : RunRel SameList where
  refl _ := ⟨rfl, rfl, fun _ _ => rfl⟩
  trans _ _ _ h h' := ⟨h'.base.trans h.base, h'.count.trans h.count, fun x hx => by
    rw [h'.bytes x (by rw [h.inList]; exact hx), h.bytes x hx]⟩
  read s a n := by
    obtain ⟨d, h⟩ := afterRead_draws s a n
    rw [h]
    exact ⟨rfl, rfl, fun _ _ => rfl⟩

theorem sameList_memRel : MemRel SameList :=
  { sameList_runRel with
    scratch8 := fun a b s t hw => by obtain ⟨m, rfl⟩ := sWrite8_scratch hw; exact ⟨rfl, rfl, fun _ _ => rfl⟩
    scratch16 := fun a v s t hw => by obtain ⟨m, rfl⟩ := sWrite16_scratch hw; exact ⟨rfl, rfl, fun _ _ => rfl⟩
    ext := fun a n v s t hw => by
      have hb := memWrite_keeps_commandList hw
      obtain ⟨m, rfl⟩ := memWrite_ext hw
      exact ⟨rfl, rfl, hb⟩ }

/-- No body writes the command list. -/
theorem bodyOf_sameList (i : Instr) : Keeps SameList (bodyOf i) :=
  bodyOf_keeps sameList_memRel i (fun _ _ _ => ⟨rfl, rfl, fun _ _ => rfl⟩)
    (fun _ _ _ _ _ => ⟨rfl, rfl, fun _ _ => rfl⟩) (fun _ _ _ _ _ _ _ => ⟨rfl, rfl, fun _ _ => rfl⟩)
    (fun _ _ _ _ _ _ _ _ => ⟨rfl, rfl, fun _ _ => rfl⟩) fun _ _ _ _ => ⟨rfl, rfl, fun _ _ => rfl⟩

/-- The memories, the book and the reverb instances are sound: the part of the invariant a body can touch. -/
structure State.Stored (s : State) : Prop where
  scratchForm : Memory.wf s.scratch = true
  scratchSize : cellsBelow s.cfg.scratchBytes s.scratch = true
  extForm : Memory.wf s.ext = true
  extSize : cellsBelow (2 ^ 32) s.ext = true
  bookForm : cellsRising s.book = true
  bookSize : cellsBelow 256 s.book = true
  instances : s.reverb.length = s.cfg.numReverb
  reverbSound : ∀ rb, rb ∈ s.reverb → Reverb.sound s.cfg rb

theorem stored_runRel : RunRel (fun s t => s.Stored → t.Stored) where
  refl _ h := h
  trans _ _ _ h h' hs := h' (h hs)
  read s a n hs := by
    obtain ⟨d, h⟩ := afterRead_draws s a n
    rw [h]
    exact { hs with }

theorem stored_memRel : MemRel fun s t => s.Stored → t.Stored :=
  { stored_runRel with
    scratch8 := fun a b s t hw h => by
      rcases sWrite8_cases a b s with ⟨h0, h1, hx⟩ | hx <;> rw [hx] at hw
      · injection hw with _ hw
        subst hw
        exact { h with
          scratchForm := Memory.wf_write _ _ _ h.scratchForm
          scratchSize := cellsBelow_write _ _ _ _ h.scratchSize (by show a.toNat < s.cfg.scratchBytes; omega) }
      · exact absurd hw (by simp)
    scratch16 := fun a v s t hw h => by
      rcases sWrite16_cases a v s with ⟨_, h0, h1, hx⟩ | ⟨_, hx, _⟩ <;> rw [hx] at hw
      · injection hw with _ hw
        subst hw
        exact { h with
          scratchForm := storeBytes_wf _ _ _ h.scratchForm
          scratchSize := storeBytes_below _ _ _ _ h.scratchSize (by
            rw [toBytes_length]
            show a.toNat + 2 ≤ s.cfg.scratchBytes
            omega) }
      · exact absurd hw (by simp)
    ext := fun a n v s t hw h => by
      rcases memWrite_cases a n v s with ⟨_, _, hx⟩ | ⟨_, hx, _⟩ <;> rw [hx] at hw
      · injection hw with _ hw
        subst hw
        exact { h with
          extForm := storeExt_wf _ _ _ h.extForm
          extSize := storeExt_below _ _ _ h.extSize }
      · exact absurd hw (by simp) }

/-- Replacing an instance by a sound one keeps the instances sound. -/
theorem State.Stored.setReverb {s : State} (h : s.Stored) (r : Nat) {rb : Reverb} (hrb : Reverb.sound s.cfg rb) :
    (setReverb s r rb).Stored :=
  { h with
    instances := by
      show (s.reverb.set r rb).length = _
      rw [List.length_set]
      exact h.instances
    reverbSound := fun x hx => by
      rcases List.mem_or_eq_of_mem_set hx with hx | rfl
      · exact h.reverbSound x hx
      · exact hrb }

/-- The instance found is sound, whatever its number. -/
theorem reverbAt_sound {s : State} (h : s.Stored) (r : Nat) : Reverb.sound s.cfg (reverbAt s r) := by
  unfold reverbAt
  rw [List.getD_eq_getElem?_getD]
  cases hr : s.reverb[r]? with
  | some rb => exact h.reverbSound rb (List.mem_of_getElem? hr)
  | none =>
    refine ⟨by simp [Reverb.atReset], fun it hit => ?_⟩
    simp [Reverb.atReset] at hit

theorem writeField_items (rb : Reverb) (k : Nat) (v : Word) : (writeField rb k v).items = rb.items := by
  unfold writeField
  split <;> rfl

/-- The split's segments add up to the chunk and fit 16 bits (45_reverb.md R170). -/
theorem splitSpan_facts {cap w n : Nat} (hw : w < cap) (hn : n ≤ cap) :
    (splitSpan cap w n).1 + (splitSpan cap w n).2.1 = n ∧ (splitSpan cap w n).2.2 < cap ∧
      w + (splitSpan cap w n).1 ≤ cap ∧ (splitSpan cap w n).2.1 ≤ w := by
  unfold splitSpan
  split <;> refine ⟨?_, ?_, ?_, ?_⟩ <;> dsimp only <;> omega

theorem splitRecord_sound {cfg : Params} {u : Nat} {len : Half} {rb : Reverb} (h : Reverb.sound cfg rb)
    (hw : rb.wptr.toNat < rb.cap.toNat) (hn : len.toNat / rb.dsr.toNat ≤ rb.cap.toNat) :
    Reverb.sound cfg (splitRecord cfg u (len.toNat / rb.dsr.toNat) len rb) := by
  obtain ⟨h1, h2⟩ := h
  have hc := rb.cap.isLt
  obtain ⟨f1, f2, f3, f4⟩ := splitSpan_facts hw hn
  refine ⟨by simpa [splitRecord] using h1, fun it hit => ?_⟩
  rcases List.mem_or_eq_of_mem_set hit with hit | hit
  · exact h2 it hit
  · obtain rfl : it = _ := by simpa using hit
    simp only [BitVec.toNat_ofNat]
    rw [Nat.mod_eq_of_lt (by omega), Nat.mod_eq_of_lt (by omega), Nat.mod_eq_of_lt (by omega)]
    exact f1

/-- Every body keeps what is stored sound. -/
theorem bodyOf_stored (i : Instr) : Keeps (fun s t => s.Stored → t.Stored) (bodyOf i) :=
  bodyOf_keeps stored_memRel i (fun _ _ _ h => { h with })
    (fun _ k b s hk h => { h with
      bookForm := cellsRising_bookWrite _ _ _ h.bookForm
      bookSize := cellsBelow_bookWrite _ _ _ _ h.bookSize hk })
    (fun reg value _ s r k _ h => by
      have hs := reverbAt_sound h r
      refine h.setReverb r ⟨?_, ?_⟩
      · rw [writeField_items]; exact hs.1
      · rw [writeField_items]; exact hs.2)
    (fun r u len _ t rb ht hn h => h.setReverb _ (splitRecord_sound (by
      have := reverbAt_sound h r.toNat
      rwa [ht.found] at this) ht.cursor hn))
    fun r _ s _ h => h.setReverb _ (reverbAt_sound h r.toNat)

end Sys2Proof.Machine
end

