-- ==== Sys2Proof/Laws/Encoding.lean ====
section
/-! SUPPORT. The fields of a command word (30_encoding.md R73, R74, R84): what each field of a word the encoder built
reads as, a word rebuilt from its fields, and the row check as a check of each field. -/

namespace Sys2Proof

/-- A field that lies in the low part of a concatenation. -/
theorem extract_low {m n : Nat} (x : BitVec m) (y : BitVec n) (s k : Nat) (h : s + k ≤ n) :
    (x ++ y).extractLsb' s k = y.extractLsb' s k := by
  ext i hi
  simp only [BitVec.getElem_extractLsb', BitVec.getLsbD_append]
  rw [if_pos (by omega)]

/-- A field that lies in the high part of a concatenation. -/
theorem extract_high {m n : Nat} (x : BitVec m) (y : BitVec n) (s k : Nat) (h : n ≤ s) :
    (x ++ y).extractLsb' s k = x.extractLsb' (s - n) k := by
  ext i hi
  simp only [BitVec.getElem_extractLsb', BitVec.getLsbD_append]
  rw [if_neg (by omega)]
  congr 1
  omega

/-- The field that is the whole vector. -/
theorem extract_all {n : Nat} (x : BitVec n) : x.extractLsb' 0 n = x := by
  ext i hi
  simp

/-- A field of a field. -/
theorem extract_extract {n : Nat} (x : BitVec n) (s k s' k' : Nat) (h : s' + k' ≤ k) :
    (x.extractLsb' s k).extractLsb' s' k' = x.extractLsb' (s + s') k' := by
  ext i hi
  simp only [BitVec.getElem_extractLsb', BitVec.getLsbD_extractLsb']
  rw [decide_eq_true (by omega), Bool.true_and, Nat.add_assoc]

/-- A vector is its two parts put together. -/
theorem append_extract {m n : Nat} (x : BitVec (m + n)) : x.extractLsb' n m ++ x.extractLsb' 0 n = x := by
  ext i hi
  simp only [BitVec.getElem_append, BitVec.getElem_extractLsb']
  split
  · simp [BitVec.getLsbD_eq_getElem hi]
  · rw [show n + (i - n) = i by omega, BitVec.getLsbD_eq_getElem hi]

/-- Concatenations are equal exactly when both parts are. -/
theorem append_inj {m n : Nat} {x x' : BitVec m} {y y' : BitVec n} (h : x ++ y = x' ++ y') : x = x' ∧ y = y' := by
  have h1 := congrArg (fun z => z.extractLsb' n m) h
  have h0 := congrArg (fun z => z.extractLsb' 0 n) h
  rw [extract_high _ _ _ _ (Nat.le_refl n), extract_high _ _ _ _ (Nat.le_refl n), Nat.sub_self, extract_all,
    extract_all] at h1
  rw [extract_low _ _ _ _ (by omega), extract_low _ _ _ _ (by omega), extract_all, extract_all] at h0
  exact ⟨h1, h0⟩

/-! ### A word the encoder built -/

section
variable (op f : BitVec 8) (a : Half) (w1 : Word)

theorem packCommand_opcode : (packCommand op f a w1).opcode = op := by
  unfold packCommand Command.opcode
  rw [extract_high _ _ _ _ (by omega), extract_high _ _ _ _ (by omega), extract_high _ _ _ _ (by omega)]
  exact extract_all op

theorem packCommand_flagsByte : (packCommand op f a w1).flagsByte = f := by
  unfold packCommand Command.flagsByte
  rw [extract_high _ _ _ _ (by omega), extract_high _ _ _ _ (by omega), extract_low _ _ _ _ (by omega)]
  exact extract_all f

theorem packCommand_half0 : (packCommand op f a w1).half0 = a := by
  unfold packCommand Command.half0
  rw [extract_high _ _ _ _ (by omega), extract_low _ _ _ _ (by omega)]
  exact extract_all a

theorem packCommand_w1 : (packCommand op f a w1).w1 = w1 := by
  unfold packCommand Command.w1
  rw [extract_low _ _ _ _ (by omega)]
  exact extract_all w1

theorem packCommand_half1 (t r : Half) : (packCommand op f a (t ++ r)).half1 = t := by
  unfold packCommand Command.half1
  rw [extract_low _ _ _ _ (by omega), extract_high _ _ _ _ (by omega)]
  exact extract_all t

theorem packCommand_half2 (t r : Half) : (packCommand op f a (t ++ r)).half2 = r := by
  unfold packCommand Command.half2
  rw [extract_low _ _ _ _ (by omega), extract_low _ _ _ _ (by omega)]
  exact extract_all r

theorem packCommand_rField (r u : BitVec 8) : (packCommand op f (r ++ u) w1).rField = r := by
  unfold packCommand Command.rField
  rw [extract_high _ _ _ _ (by omega), extract_low _ _ _ _ (by omega), extract_high _ _ _ _ (by omega)]
  exact extract_all r

theorem packCommand_uField (r u : BitVec 8) : (packCommand op f (r ++ u) w1).uField = u := by
  unfold packCommand Command.uField
  rw [extract_high _ _ _ _ (by omega), extract_low _ _ _ _ (by omega), extract_low _ _ _ _ (by omega)]
  exact extract_all u

theorem packWide_opcode (c : BitVec 24) : (packWide op c w1).opcode = op := by
  unfold packWide Command.opcode
  rw [extract_high _ _ _ _ (by omega), extract_high _ _ _ _ (by omega)]
  exact extract_all op

theorem packWide_low24 (c : BitVec 24) : (packWide op c w1).low24 = c := by
  unfold packWide Command.low24
  rw [extract_high _ _ _ _ (by omega), extract_low _ _ _ _ (by omega)]
  exact extract_all c

theorem packWide_w1 (c : BitVec 24) : (packWide op c w1).w1 = w1 := by
  unfold packWide Command.w1
  rw [extract_low _ _ _ _ (by omega)]
  exact extract_all w1

/-- The row check of a word built by `packCommand`, field by field (30_encoding.md R76). -/
theorem packCommand_and (op' f' : BitVec 8) (a' : Half) (w1' : Word) :
    packCommand op f a w1 &&& packCommand op' f' a' w1' =
      packCommand (op &&& op') (f &&& f') (a &&& a') (w1 &&& w1') := by
  unfold packCommand
  rw [BitVec.and_append, BitVec.and_append, BitVec.and_append]

/-- The row check of a word built by `packWide`, field by field (30_encoding.md R76). -/
theorem packWide_and (c : BitVec 24) (op' : BitVec 8) (c' : BitVec 24) (w1' : Word) :
    packWide op c w1 &&& packWide op' c' w1' = packWide (op &&& op') (c &&& c') (w1 &&& w1') := by
  unfold packWide
  rw [BitVec.and_append, BitVec.and_append]

end

theorem packCommand_inj {op op' f f' : BitVec 8} {a a' : Half} {w1 w1' : Word}
    (h : packCommand op f a w1 = packCommand op' f' a' w1') : op = op' ∧ f = f' ∧ a = a' ∧ w1 = w1' := by
  obtain ⟨h, h3⟩ := append_inj h
  obtain ⟨h, h2⟩ := append_inj h
  obtain ⟨h0, h1⟩ := append_inj h
  exact ⟨h0, h1, h2, h3⟩

theorem packWide_inj {op op' : BitVec 8} {c c' : BitVec 24} {w1 w1' : Word}
    (h : packWide op c w1 = packWide op' c' w1') : op = op' ∧ c = c' ∧ w1 = w1' := by
  obtain ⟨h, h2⟩ := append_inj h
  obtain ⟨h0, h1⟩ := append_inj h
  exact ⟨h0, h1, h2⟩

/-! ### Any word, from its fields (30_encoding.md R74) -/

section
variable (w : Command)

theorem pack_fields : packCommand w.opcode w.flagsByte w.half0 w.w1 = w := by
  have h0 := append_extract (m := 32) (n := 32) w
  have h1 := append_extract (m := 16) (n := 16) (w.extractLsb' 32 32)
  have h2 := append_extract (m := 8) (n := 8) (w.extractLsb' 48 16)
  rw [extract_extract _ _ _ _ _ (by omega), extract_extract _ _ _ _ _ (by omega)] at h1 h2
  unfold packCommand Command.opcode Command.flagsByte Command.half0 Command.w1
  rw [h2, h1, h0]

theorem packWide_fields : packWide w.opcode w.low24 w.w1 = w := by
  have h0 := append_extract (m := 32) (n := 32) w
  have h1 := append_extract (m := 8) (n := 24) (w.extractLsb' 32 32)
  rw [extract_extract _ _ _ _ _ (by omega), extract_extract _ _ _ _ _ (by omega)] at h1
  unfold packWide Command.opcode Command.low24 Command.w1
  rw [h1, h0]

theorem w1_fields : w.half1 ++ w.half2 = w.w1 := by
  have h1 := append_extract (m := 16) (n := 16) (w.extractLsb' 0 32)
  rw [extract_extract _ _ _ _ _ (by omega), extract_extract _ _ _ _ _ (by omega)] at h1
  exact h1

theorem half0_fields : w.rField ++ w.uField = w.half0 := by
  have h1 := append_extract (m := 8) (n := 8) (w.extractLsb' 32 16)
  rw [extract_extract _ _ _ _ _ (by omega), extract_extract _ _ _ _ _ (by omega)] at h1
  exact h1

end

end Sys2Proof
end

