-- ==== Sys2Proof/Laws/Envmix.lean ====
section
/-! SUPPORT. What ENVMIXER leaves when its operands are admitted (43_envmix.md R133 to R143): the saved record and the
frame always; the destination samples when the buffers lie apart. -/

namespace Sys2Proof.Machine

/-! ### The envelope state -/

theorem envRamp_range (rt v : Int) : -2147483648 ≤ envRamp rt v ∧ envRamp rt v ≤ 2147483647 := sat32_range _

theorem accumulator_range (c : EnvChannel) (i g : Nat) (hg : 0 < g) :
    -2147483648 ≤ c.accumulator i g ∧ c.accumulator i g ≤ 2147483647 := by
  cases g with
  | zero => omega
  | succ g => exact envRamp_range _ _

/-- The fields that a record can hold. -/
structure EnvState.ranges (e : EnvState) : Prop where
  tgtL : -32768 ≤ e.left.tgt ∧ e.left.tgt ≤ 32767
  tgtR : -32768 ≤ e.right.tgt ∧ e.right.tgt ≤ 32767
  rtL : -2147483648 ≤ e.left.rt ∧ e.left.rt ≤ 2147483647
  rtR : -2147483648 ≤ e.right.rt ∧ e.right.rt ≤ 2147483647
  vd : -32768 ≤ e.vd ∧ e.vd ≤ 32767
  vw : -32768 ≤ e.vw ∧ e.vw ≤ 32767

theorem half_range (x : Half) : -32768 ≤ x.toInt ∧ x.toInt ≤ 32767 := by
  have h1 := BitVec.toInt_lt (x := x)
  have h2 := BitVec.le_toInt x
  norm_num at h1 h2
  omega

theorem word_range (x : Word) : -2147483648 ≤ x.toInt ∧ x.toInt ≤ 2147483647 := by
  have h1 := BitVec.toInt_lt (x := x)
  have h2 := BitVec.le_toInt x
  norm_num at h1 h2
  omega

theorem joinRate_range (hi lo : Int) : -2147483648 ≤ joinRate hi lo ∧ joinRate hi lo ≤ 2147483647 :=
  word_range _

theorem envStart_ranges (s : State) (flags : BitVec 8) (addr : Word) : (s.envStart flags addr).ranges := by
  unfold State.envStart
  split
  · exact ⟨half_range _, half_range _, word_range _, word_range _, half_range _, half_range _⟩
  · exact ⟨extSample_range _ _, extSample_range _ _, joinRate_range _ _, joinRate_range _ _, extSample_range _ _,
      extSample_range _ _⟩

/-- A rate written as two halves reads back as itself (43_envmix.md R134). -/
theorem joinRate_halves (rt : Int) (h1 : -2147483648 ≤ rt) (h2 : rt ≤ 2147483647) :
    joinRate (trunc16 (rateHigh rt)) (trunc16 (rateLow rt)) = rt := by
  have key : ∀ v : Int, 0 ≤ v → v < 65536 → (mod16 (trunc16 v) : Int) = v := by
    intro v h0 h65
    unfold mod16 trunc16
    rw [BitVec.toInt_ofInt]
    norm_num [Int.bmod]
    split <;> omega
  unfold joinRate
  have a := key (rateHigh rt) (by unfold rateHigh mod32; omega) (by unfold rateHigh mod32; omega)
  have b := key (rateLow rt) (by unfold rateLow mod32; omega) (by unfold rateLow mod32; omega)
  have e : mod16 (trunc16 (rateHigh rt)) * 65536 + mod16 (trunc16 (rateLow rt)) = mod32 rt := by
    have ha : (mod16 (trunc16 (rateHigh rt)) : Int) = mod32 rt / 65536 := by rw [a]; rfl
    have hb : (mod16 (trunc16 (rateLow rt)) : Int) = mod32 rt % 65536 := by rw [b]; rfl
    omega
  rw [e, sext32_mod32 rt h1 h2]

/-! ### Reading the state -/

theorem envInit_reads {s : State} (h : s.ctx.volumesWritten) : envInit s = .ok s.ctx.envInit s := by
  obtain ⟨h1, h2, h3, h4, h5, h6, h7, h8⟩ := h
  rw [Option.isSome_iff_exists] at h1 h2 h3 h4 h5 h6 h7 h8
  obtain ⟨v1, h1⟩ := h1
  obtain ⟨v2, h2⟩ := h2
  obtain ⟨v3, h3⟩ := h3
  obtain ⟨v4, h4⟩ := h4
  obtain ⟨v5, h5⟩ := h5
  obtain ⟨v6, h6⟩ := h6
  obtain ⟨v7, h7⟩ := h7
  obtain ⟨v8, h8⟩ := h8
  unfold envInit readVolL readRateL readTargetL readVolR readRateR readTargetR readVolDry readVolWet
  rw [bind_ok (ctxRead_ok h1), bind_ok (ctxRead_ok h2), bind_ok (ctxRead_ok h3), bind_ok (ctxRead_ok h4),
    bind_ok (ctxRead_ok h5), bind_ok (ctxRead_ok h6), bind_ok (ctxRead_ok h7), bind_ok (ctxRead_ok h8)]
  simp [Context.envInit, h1, h2, h3, h4, h5, h6, h7, h8]

theorem collect_longs {s : State} (base : Word) (off n : Nat) (f : Nat → M Int)
    (hf : ∀ k : Nat, f k = extRead32 (addrAdd base (off + 4 * k)))
    (hr : ∀ k, k < n → s.mayRead (addrAdd base (off + 4 * k)) 4) :
    collect n f s = .ok ((List.range' 0 n).map fun k => s.extLong (addrAdd base (off + 4 * k))) s := by
  apply collect_read
  intro k hk
  rw [hf]
  exact extRead32_reads (hr k hk)

theorem envLoad_reads {s : State} {addr : Word} (h4 : s.readable addr 4 16)
    (h2 : s.readable (addrAdd addr 64) 2 8) : envLoad addr s = .ok (s.envRecord addr) s := by
  have r : ∀ k, k < 8 → s.mayRead (addrAdd addr (64 + 2 * k)) 2 := by
    intro k hk
    have := h2 k hk
    rwa [addrAdd_addrAdd] at this
  unfold envLoad
  rw [bind_ok (collect_longs addr 0 8 _ (fun k => by rw [Nat.zero_add])
    fun k hk => by rw [Nat.zero_add]; exact h4 k (by omega))]
  rw [bind_ok (collect_longs addr 32 8 _ (fun k => rfl) fun k hk => by
    have := h4 (8 + k) (by omega)
    rwa [show 4 * (8 + k) = 32 + 4 * k by omega] at this)]
  rw [bind_ok (extRead16_reads (r 0 (by norm_num))), bind_ok (extRead16_reads (r 1 (by norm_num))),
    bind_ok (extRead16_reads (r 2 (by norm_num))), bind_ok (extRead16_reads (r 3 (by norm_num))),
    bind_ok (extRead16_reads (r 4 (by norm_num))), bind_ok (extRead16_reads (r 5 (by norm_num))),
    bind_ok (extRead16_reads (r 6 (by norm_num))), bind_ok (extRead16_reads (r 7 (by norm_num)))]
  simp only [State.envRecord, List.range_eq_range', Nat.zero_add]
  rfl

theorem envStart_reads {s : State} {flags : BitVec 8} {addr : Word}
    (hi : flagInit flags = true → s.ctx.volumesWritten)
    (hr : flagInit flags = false → s.readable addr 4 16 ∧ s.readable (addrAdd addr 64) 2 8) :
    envStart flags addr s = .ok (s.envStart flags addr) s := by
  unfold envStart State.envStart
  cases hf : flagInit flags with
  | true => exact envInit_reads (hi hf)
  | false => exact envLoad_reads (hr hf).1 (hr hf).2

/-! ### The lanes -/

/-- The buffers of a channel as offsets. -/
def buffersAt (dry : Nat) (wet : Option Nat) : EnvBuffers := { dry := dry, wet := wet.map fun w => (w : Int) }

theorem envAccumulate_ends {t : State} {a : Int} (n : Nat) (x gain : Int) (ha : a = n) (he : n % 2 = 0)
    (h : n + 2 ≤ t.cfg.scratchBytes) :
    Ends (envAccumulate a x gain) t fun _ u =>
      Changed t u (inSpan n 2) noByte ∧ scratchSample u n = envBlend (scratchSample t n) x gain := by
  unfold envAccumulate
  apply ends_bind
  refine ends_ok (read16_at n ha he h) ?_
  exact write16_at n ha he h (sat16_range _)

/-- One lane (43_envmix.md R138 to R142). -/
theorem envLane_ends {t : State} {rt tgt vd vw vacc : Int} {inp dry off : Nat} {wet : Option Nat}
    (hin : (inp + off) % 2 = 0 ∧ inp + off + 2 ≤ t.cfg.scratchBytes)
    (hdry : (dry + off) % 2 = 0 ∧ dry + off + 2 ≤ t.cfg.scratchBytes)
    (hwet : ∀ w, wet = some w → (w + off) % 2 = 0 ∧ w + off + 2 ≤ t.cfg.scratchBytes) :
    Ends (envLane rt tgt vd vw inp (buffersAt dry wet) off vacc) t fun v u =>
      v = envRamp rt (envClamp rt tgt vacc) ∧
        Changed t u (fun x => inSpan (dry + off) 2 x ∨ ∃ w, wet = some w ∧ inSpan (w + off) 2 x) noByte ∧
        ((∀ w, wet = some w → w + off ≠ dry + off) →
          scratchSample u (dry + off) = envBlend (scratchSample t (dry + off)) (scratchSample t (inp + off))
            (envGain (asr (envClamp rt tgt vacc) 16) vd) ∧
          ∀ w, wet = some w → scratchSample u (w + off) = envBlend (scratchSample t (w + off))
            (scratchSample t (inp + off)) (envGain (asr (envClamp rt tgt vacc) 16) vw)) := by
  unfold envLane
  apply ends_bind
  refine ends_ok (read16_at (inp + off) (by push_cast; rfl) hin.1 hin.2) ?_
  apply ends_bind
  refine ends_mono (envAccumulate_ends (t := t) (dry + off) _ _ (by simp [buffersAt]) hdry.1 hdry.2) ?_
  rintro _ u ⟨hu, hd⟩
  apply ends_bind
  cases wet with
  | none =>
    refine ends_pure (ends_pure ⟨rfl, hu.mono (fun x hx => .inl hx) fun x hx => hx, fun _ => ⟨hd, ?_⟩⟩)
    intro w hw
    exact absurd hw (by simp)
  | some w =>
    obtain ⟨hwe, hwb⟩ := hwet w rfl
    refine ends_mono (envAccumulate_ends (t := u) (w + off) _ _ (by simp) hwe (by rw [hu.cfg]; exact hwb)) ?_
    rintro _ v ⟨hv, hw⟩
    refine ends_pure ⟨rfl, hu.then hv ?_ (by simp [noByte]), fun hne => ⟨?_, ?_⟩⟩
    · rintro x (h | h)
      · exact .inl h
      · exact .inr ⟨w, rfl, h⟩
    · have := hne w rfl
      rw [hv.sample (by unfold inSpan; omega) (by unfold inSpan; omega), hd]
    · rintro w' hw'
      obtain rfl : w = w' := by simpa using hw'
      have := hne w rfl
      rw [hw, hu.sample (by unfold inSpan; omega) (by unfold inSpan; omega)]

theorem channelBlended_congr {s s' t t' : State} {vd vw : Int} {c : EnvChannel} {inp dry : Nat} {wet : Option Nat}
    {g i : Nat} (h : channelBlended s t vd vw c inp dry wet g i)
    (hs : ∀ b, (b = inp ∨ b = dry ∨ wet = some b) →
      scratchSample s' (b + 16 * g + 2 * i) = scratchSample s (b + 16 * g + 2 * i))
    (ht : ∀ b, (b = dry ∨ wet = some b) →
      scratchSample t' (b + 16 * g + 2 * i) = scratchSample t (b + 16 * g + 2 * i)) :
    channelBlended s' t' vd vw c inp dry wet g i := by
  refine ⟨?_, fun w hw => ?_⟩
  · rw [ht _ (.inl rfl), hs _ (.inr (.inl rfl)), hs _ (.inl rfl)]
    exact h.1
  · rw [ht _ (.inr hw), hs _ (.inr (.inr hw)), hs _ (.inl rfl)]
    exact h.2 w hw

/-- One channel's eight lanes of group `g`, from the state `t` (43_envmix.md R138). -/
theorem envChannelGroup_ends {t : State} {vd vw : Int} {inp dry g n : Nat} {wet : Option Nat} {c cur : EnvChannel}
    (hg : g < n) (hin : t.holdsSamples inp (8 * n)) (hdry : t.holdsSamples dry (8 * n))
    (hwet : ∀ w, wet = some w → t.holdsSamples w (8 * n)) (htgt : cur.tgt = c.tgt) (hrt : cur.rt = c.rt)
    (hacc : ∀ i, i < 8 → cur.vacc.getD i 0 = c.accumulator i g) :
    Ends (envChannelGroup vd vw inp (buffersAt dry wet) g cur) t fun d u =>
      d.tgt = c.tgt ∧ d.rt = c.rt ∧ (∀ i, i < 8 → d.vacc.getD i 0 = c.accumulator i (g + 1)) ∧
        Changed t u (destinations (dry + 16 * g) (wet.map fun w => w + 16 * g) 16) noByte ∧
        (channelApart inp dry wet (16 * n) → ∀ i, i < 8 → channelBlended t u vd vw c inp dry wet g i) := by
  unfold envChannelGroup
  apply ends_bind
  refine ends_mono (ends_collect (fun j u =>
      Changed t u (destinations (dry + 16 * g) (wet.map fun w => w + 16 * g) (2 * j)) noByte ∧
        (channelApart inp dry wet (16 * n) → ∀ i, i < j → channelBlended t u vd vw c inp dry wet g i))
      (fun i v => v = c.accumulator i (g + 1)) 0 8 t ?_ ?_) ?_
  · rintro j u hj ⟨hu, hv⟩
    have hcu := hu.cfg
    have g1 := hin.get (k := 8 * g + j) (by omega)
    have g2 := hdry.get (k := 8 * g + j) (by omega)
    have g3 : ∀ w, wet = some w → w % 2 = 0 ∧ w + 2 * (8 * g + j) + 2 ≤ t.cfg.scratchBytes :=
      fun w hw => (hwet w hw).get (k := 8 * g + j) (by omega)
    have eoff : (16 * (g : Int) + 2 * (j : Int)) = ((16 * g + 2 * j : Nat) : Int) := by push_cast; rfl
    rw [hacc j hj, htgt, hrt]
    have key := envLane_ends (t := u) (rt := c.rt) (tgt := c.tgt) (vd := vd) (vw := vw)
      (vacc := c.accumulator j g) (inp := inp) (dry := dry) (off := 16 * g + 2 * j) (wet := wet)
      ⟨by omega, by rw [hcu]; omega⟩ ⟨by omega, by rw [hcu]; omega⟩
      (fun w hw => by have := g3 w hw; exact ⟨by omega, by rw [hcu]; omega⟩)
    rw [← eoff] at key
    refine ends_mono key ?_
    rintro x v ⟨rfl, hv', hval⟩
    refine ⟨rfl, hu.then hv' ?_ (by simp [noByte]), ?_⟩
    · rintro y ((h | ⟨w, hw, h⟩) | (h | ⟨w, hw, h⟩))
      · left; unfold inSpan at h ⊢; omega
      · right; refine ⟨w, hw, ?_⟩; unfold inSpan at h ⊢; omega
      · left; unfold inSpan at h ⊢; omega
      · right; refine ⟨w + 16 * g, by simp [hw], ?_⟩; unfold inSpan at h ⊢; omega
    · intro hap i hi
      obtain ⟨hap1, hap2⟩ := hap
      have notin : ∀ b : Nat, ∀ m : Nat, b % 2 = 0 → m < 8 →
          (b = dry ∨ wet = some b) → m ≠ j → ¬ (fun x => inSpan (dry + (16 * g + 2 * j)) 2 x ∨
            ∃ w, wet = some w ∧ inSpan (w + (16 * g + 2 * j)) 2 x) (b + 16 * g + 2 * m) ∧
          ¬ (fun x => inSpan (dry + (16 * g + 2 * j)) 2 x ∨
            ∃ w, wet = some w ∧ inSpan (w + (16 * g + 2 * j)) 2 x) (b + 16 * g + 2 * m + 1) := by
        intro b m hb hm hcase hne
        have hwd : ∀ w, wet = some w → apart dry (16 * n) w (16 * n) := fun w hw => (hap2 w hw).2
        constructor
        · rintro (h | ⟨w, hw, h⟩)
          · rcases hcase with rfl | hbw
            · unfold inSpan at h; omega
            · have := hwd b hbw; unfold apart at this; unfold inSpan at h; omega
          · rcases hcase with rfl | hbw
            · have := hwd w hw; unfold apart at this; unfold inSpan at h; omega
            · obtain rfl : b = w := by rw [hw] at hbw; simpa using hbw.symm
              unfold inSpan at h; omega
        · rintro (h | ⟨w, hw, h⟩)
          · rcases hcase with rfl | hbw
            · unfold inSpan at h; omega
            · have := hwd b hbw; unfold apart at this; unfold inSpan at h; omega
          · rcases hcase with rfl | hbw
            · have := hwd w hw; unfold apart at this; unfold inSpan at h; omega
            · obtain rfl : b = w := by rw [hw] at hbw; simpa using hbw.symm
              unfold inSpan at h; omega
      have hbeven : ∀ b, (b = dry ∨ wet = some b) → b % 2 = 0 := by
        rintro b (rfl | hb)
        · exact g2.1
        · exact (g3 b hb).1
      by_cases hij : i = j
      · subst hij
        have hne : ∀ w, wet = some w → w + (16 * g + 2 * i) ≠ dry + (16 * g + 2 * i) := by
          intro w hw
          have := (hap2 w hw).2
          unfold apart at this
          omega
        obtain ⟨h1, h2⟩ := hval hne
        have old : ∀ b, (b = inp ∨ b = dry ∨ wet = some b) →
            scratchSample u (b + 16 * g + 2 * i) = scratchSample t (b + 16 * g + 2 * i) := by
          intro b hb
          have no : ∀ x, x = b + 16 * g + 2 * i ∨ x = b + 16 * g + 2 * i + 1 →
              ¬ destinations (dry + 16 * g) (wet.map fun w => w + 16 * g) (2 * i) x := by
            rintro x hx (h | ⟨w, hw, h⟩)
            · rcases hb with rfl | rfl | hb
              · unfold apart at hap1; unfold inSpan at h; omega
              · unfold inSpan at h; omega
              · have := (hap2 b hb).2; unfold apart at this; unfold inSpan at h; omega
            · simp only [Option.map_eq_some_iff] at hw
              obtain ⟨w', hw', rfl⟩ := hw
              rcases hb with rfl | rfl | hb
              · have := (hap2 w' hw').1; unfold apart at this; unfold inSpan at h; omega
              · have := (hap2 w' hw').2; unfold apart at this; unfold inSpan at h; omega
              · obtain rfl : b = w' := by rw [hw'] at hb; simpa using hb.symm
                unfold inSpan at h; omega
          exact hu.sample (no _ (.inl rfl)) (no _ (.inr rfl))
        refine ⟨?_, fun w hw => ?_⟩
        · have h1' := h1
          simp only [← Nat.add_assoc] at h1'
          rw [h1', old dry (.inr (.inl rfl)), old inp (.inl rfl)]
          rfl
        · have h2' := h2 w hw
          simp only [← Nat.add_assoc] at h2'
          rw [h2', old w (.inr (.inr hw)), old inp (.inl rfl)]
          rfl
      · refine channelBlended_congr (hv ⟨hap1, hap2⟩ i (by omega)) (fun b _ => rfl) fun b hb => ?_
        have := notin b i (hbeven b hb) (by omega) hb hij
        exact hv'.sample this.1 this.2
  · exact ⟨changed_refl _ _ _, fun _ i hi => by omega⟩
  · rintro xs u ⟨_, hxs, hu, hv⟩
    exact ends_pure ⟨htgt, hrt, hxs, hu, hv⟩

/-- The groups (43_envmix.md R138). -/
theorem envGroups_ends {s : State} {inp dl dr n : Nat} {wet : Option (Nat × Nat)} {e : EnvState}
    (hin : s.holdsSamples inp (8 * n)) (hdl : s.holdsSamples dl (8 * n)) (hdr : s.holdsSamples dr (8 * n))
    (hwet : ∀ w, wet = some w → s.holdsSamples w.1 (8 * n) ∧ s.holdsSamples w.2 (8 * n)) :
    Ends (foldFrom (envGroup inp (buffersAt dl (wet.map Prod.fst)) (buffersAt dr (wet.map Prod.snd))) n 0 e) s
      fun f t =>
        f.vd = e.vd ∧ f.vw = e.vw ∧ f.left.tgt = e.left.tgt ∧ f.left.rt = e.left.rt ∧
          f.right.tgt = e.right.tgt ∧ f.right.rt = e.right.rt ∧
          (∀ i, i < 8 → f.left.vacc.getD i 0 = e.left.accumulator i n) ∧
          (∀ i, i < 8 → f.right.vacc.getD i 0 = e.right.accumulator i n) ∧
          Changed s t (fun x => destinations dl (wet.map Prod.fst) (16 * n) x ∨
            destinations dr (wet.map Prod.snd) (16 * n) x) noByte ∧
          (buffersApart inp dl dr wet (16 * n) → allBlended s t e inp dl dr wet n) := by
  have h := ends_foldFrom
    (f := envGroup inp (buffersAt dl (wet.map Prod.fst)) (buffersAt dr (wet.map Prod.snd)))
    (fun j f t => f.vd = e.vd ∧ f.vw = e.vw ∧ f.left.tgt = e.left.tgt ∧ f.left.rt = e.left.rt ∧
          f.right.tgt = e.right.tgt ∧ f.right.rt = e.right.rt ∧
          (∀ i, i < 8 → f.left.vacc.getD i 0 = e.left.accumulator i j) ∧
          (∀ i, i < 8 → f.right.vacc.getD i 0 = e.right.accumulator i j) ∧
          Changed s t (fun x => destinations dl (wet.map Prod.fst) (16 * j) x ∨
            destinations dr (wet.map Prod.snd) (16 * j) x) noByte ∧
          (buffersApart inp dl dr wet (16 * n) → allBlended s t e inp dl dr wet j))
    n 0 e s ?_ ?_
  · rwa [Nat.zero_add] at h
  · rintro j f t _ hj ⟨hvd, hvw, hlt, hlr, hrt, hrr, hla, hra, ht, hv⟩
    have hj' : j < n := by omega
    have hw1 : ∀ w, wet.map Prod.fst = some w → s.holdsSamples w (8 * n) := by
      intro w hw
      simp only [Option.map_eq_some_iff] at hw
      obtain ⟨p, hp, rfl⟩ := hw
      exact (hwet p hp).1
    have hw2 : ∀ w, wet.map Prod.snd = some w → s.holdsSamples w (8 * n) := by
      intro w hw
      simp only [Option.map_eq_some_iff] at hw
      obtain ⟨p, hp, rfl⟩ := hw
      exact (hwet p hp).2
    unfold envGroup
    apply ends_bind
    refine ends_mono (envChannelGroup_ends (t := t) (vd := f.vd) (vw := f.vw) (c := e.left) hj'
      (ht.holdsSamples hin) (ht.holdsSamples hdl) (fun w hw => ht.holdsSamples (hw1 w hw)) hlt hlr hla) ?_
    rintro l u ⟨hl1, hl2, hl3, hu, hblL⟩
    have htu := ht.trans hu
    apply ends_bind
    refine ends_mono (envChannelGroup_ends (t := u) (vd := f.vd) (vw := f.vw) (c := e.right) hj'
      (htu.holdsSamples hin) (htu.holdsSamples hdr) (fun w hw => htu.holdsSamples (hw2 w hw)) hrt hrr hra) ?_
    rintro r v ⟨hr1, hr2, hr3, hvv, hblR⟩
    have widen : ∀ (d : Nat) (w : Option Nat) (x : Nat), destinations d w (16 * j) x →
        destinations d w (16 * (j + 1)) x := by
      rintro d w x (h | ⟨w', hw', h⟩)
      · left; unfold inSpan at h ⊢; omega
      · right; refine ⟨w', hw', ?_⟩; unfold inSpan at h ⊢; omega
    have place : ∀ (d : Nat) (w : Option Nat) (x : Nat),
        destinations (d + 16 * j) (w.map fun w => w + 16 * j) 16 x → destinations d w (16 * (j + 1)) x := by
      rintro d w x (h | ⟨w', hw', h⟩)
      · left; unfold inSpan at h ⊢; omega
      · simp only [Option.map_eq_some_iff] at hw'
        obtain ⟨w'', hw'', rfl⟩ := hw'
        right; refine ⟨w'', hw'', ?_⟩; unfold inSpan at h ⊢; omega
    refine ends_pure ⟨hvd, hvw, hl1, hl2, hr1, hr2, hl3, hr3, htu.then hvv ?_ (by simp [noByte]), ?_⟩
    · rintro x (((h | h) | h) | h)
      · exact .inl (widen _ _ _ h)
      · exact .inr (widen _ _ _ h)
      · exact .inl (place _ _ _ h)
      · exact .inr (place _ _ _ h)
    · intro hap
      have hap0 := hap
      obtain ⟨ha, hb, hc, hd⟩ := hap
      have haw : ∀ w, wet.map Prod.fst = some w → apart inp (16 * n) w (16 * n) ∧ apart dl (16 * n) w (16 * n) ∧
          apart w (16 * n) dr (16 * n) ∧ ∀ w', wet.map Prod.snd = some w' → apart w (16 * n) w' (16 * n) := by
        intro w hw
        have h1 := ha.2 w hw
        simp only [Option.map_eq_some_iff] at hw
        obtain ⟨p, hp, rfl⟩ := hw
        obtain ⟨d1, d2, d3⟩ := hd p hp
        refine ⟨h1.1, h1.2, by unfold apart at d2 ⊢; omega, ?_⟩
        intro w' hw'
        simp only [Option.map_eq_some_iff] at hw'
        obtain ⟨q, hq, rfl⟩ := hw'
        obtain rfl : p = q := by rw [hp] at hq; simpa using hq
        exact d3
      have hbw : ∀ w, wet.map Prod.snd = some w → apart inp (16 * n) w (16 * n) ∧ apart dr (16 * n) w (16 * n) ∧
          apart dl (16 * n) w (16 * n) := by
        intro w hw
        have h1 := hb.2 w hw
        simp only [Option.map_eq_some_iff] at hw
        obtain ⟨p, hp, rfl⟩ := hw
        exact ⟨h1.1, h1.2, (hd p hp).1⟩
      have hai := ha.1
      have hbi := hb.1
      -- a sample of `b` at group g is outside a channel's write of group k, when the buffers differ or the groups do
      have outL : ∀ (b g i k : Nat), g < n → i < 8 → k < n →
          (b = inp ∨ b = dr ∨ wet.map Prod.snd = some b ∨ ((b = dl ∨ wet.map Prod.fst = some b) ∧ g ≠ k)) →
          ∀ x, x = b + 16 * g + 2 * i ∨ x = b + 16 * g + 2 * i + 1 →
          ¬ destinations (dl + 16 * k) ((wet.map Prod.fst).map fun w => w + 16 * k) 16 x := by
        intro b g i k hg hi hk hb x hx hcon
        rcases hcon with h | ⟨w', hw', h⟩
        · rcases hb with rfl | rfl | hb | ⟨rfl | hb, hne⟩
          · unfold apart at hai; unfold inSpan at h; omega
          · unfold apart at hc; unfold inSpan at h; omega
          · have := (hbw b hb).2.2; unfold apart at this; unfold inSpan at h; omega
          · unfold inSpan at h; omega
          · have := (haw b hb).2.1; unfold apart at this; unfold inSpan at h; omega
        · rw [Option.map_eq_some_iff] at hw'
          obtain ⟨w, hw, rfl⟩ := hw'
          rcases hb with rfl | rfl | hb | ⟨rfl | hb, hne⟩
          · have := (haw w hw).1; unfold apart at this; unfold inSpan at h; omega
          · have := (haw w hw).2.2.1; unfold apart at this; unfold inSpan at h; omega
          · have := (haw w hw).2.2.2 b hb; unfold apart at this; unfold inSpan at h; omega
          · have := (haw w hw).2.1; unfold apart at this; unfold inSpan at h; omega
          · obtain rfl : b = w := by rw [hw] at hb; simpa using hb.symm
            unfold inSpan at h; omega
      have outR : ∀ (b g i k : Nat), g < n → i < 8 → k < n →
          (b = inp ∨ b = dl ∨ wet.map Prod.fst = some b ∨ ((b = dr ∨ wet.map Prod.snd = some b) ∧ g ≠ k)) →
          ∀ x, x = b + 16 * g + 2 * i ∨ x = b + 16 * g + 2 * i + 1 →
          ¬ destinations (dr + 16 * k) ((wet.map Prod.snd).map fun w => w + 16 * k) 16 x := by
        intro b g i k hg hi hk hb x hx hcon
        rcases hcon with h | ⟨w', hw', h⟩
        · rcases hb with rfl | rfl | hb | ⟨rfl | hb, hne⟩
          · unfold apart at hbi; unfold inSpan at h; omega
          · unfold apart at hc; unfold inSpan at h; omega
          · have := (haw b hb).2.2.1; unfold apart at this; unfold inSpan at h; omega
          · unfold inSpan at h; omega
          · have := (hbw b hb).2.1; unfold apart at this; unfold inSpan at h; omega
        · rw [Option.map_eq_some_iff] at hw'
          obtain ⟨w, hw, rfl⟩ := hw'
          rcases hb with rfl | rfl | hb | ⟨rfl | hb, hne⟩
          · have := (hbw w hw).1; unfold apart at this; unfold inSpan at h; omega
          · have := (hbw w hw).2.2; unfold apart at this; unfold inSpan at h; omega
          · have := (haw b hb).2.2.2 w hw; unfold apart at this; unfold inSpan at h; omega
          · have := (hbw w hw).2.1; unfold apart at this; unfold inSpan at h; omega
          · obtain rfl : b = w := by rw [hw] at hb; simpa using hb.symm
            unfold inSpan at h; omega
      -- what the first j groups leave alone
      have before : ∀ (b i : Nat), i < 8 →
          (b = inp ∨ b = dl ∨ b = dr ∨ wet.map Prod.fst = some b ∨ wet.map Prod.snd = some b) →
          scratchSample t (b + 16 * j + 2 * i) = scratchSample s (b + 16 * j + 2 * i) := by
        intro b i hi hb
        have no : ∀ x, x = b + 16 * j + 2 * i ∨ x = b + 16 * j + 2 * i + 1 →
            ¬ (destinations dl (wet.map Prod.fst) (16 * j) x ∨ destinations dr (wet.map Prod.snd) (16 * j) x) := by
          intro x hx hcon
          have split : ∀ (d : Nat) (w : Option Nat), destinations d w (16 * j) x →
              ∃ k, k < j ∧ destinations (d + 16 * k) (w.map fun w => w + 16 * k) 16 x := by
            rintro d w (h | ⟨w', hw', h⟩)
            · refine ⟨(x - d) / 16, by unfold inSpan at h; omega, .inl ?_⟩
              unfold inSpan at h ⊢; omega
            · refine ⟨(x - w') / 16, by unfold inSpan at h; omega, .inr ⟨w' + 16 * ((x - w') / 16), by simp [hw'], ?_⟩⟩
              unfold inSpan at h ⊢; omega
          rcases hcon with h | h
          · obtain ⟨k, hk, h⟩ := split _ _ h
            refine outL b j i k hj' hi (by omega) ?_ x hx h
            have : j ≠ k := by omega
            rcases hb with h | h | h | h | h <;> simp [h, this]
          · obtain ⟨k, hk, h⟩ := split _ _ h
            refine outR b j i k hj' hi (by omega) ?_ x hx h
            have : j ≠ k := by omega
            rcases hb with h | h | h | h | h <;> simp [h, this]
        exact ht.sample (no _ (.inl rfl)) (no _ (.inr rfl))
      intro g i hg hi
      by_cases hgj : g = j
      · subst hgj
        have bL := hblL ha i hi
        have bR := hblR hb i hi
        rw [hvd, hvw] at bL bR
        constructor
        · refine channelBlended_congr bL (fun b hb' => (before b i hi ?_).symm) fun b hb' => ?_
          · rcases hb' with h | h | h <;> simp [h]
          · have := outR b g i g hj' hi hj' (by rcases hb' with h | h <;> simp [h])
            exact hvv.sample (this _ (.inl rfl)) (this _ (.inr rfl))
        · have mid : ∀ b, (b = inp ∨ b = dr ∨ wet.map Prod.snd = some b) →
              scratchSample u (b + 16 * g + 2 * i) = scratchSample t (b + 16 * g + 2 * i) := by
            intro b hb'
            have := outL b g i g hj' hi hj' (by rcases hb' with h | h | h <;> simp [h])
            exact hu.sample (this _ (.inl rfl)) (this _ (.inr rfl))
          refine channelBlended_congr bR (fun b hb' => ?_) fun b _ => rfl
          rw [mid b hb']
          exact (before b i hi (by rcases hb' with h | h | h <;> simp [h])).symm
      · have hgn : g < n := by omega
        obtain ⟨oldL, oldR⟩ := hv hap0 g i (by omega) hi
        have keepT : ∀ b, (b = dl ∨ b = dr ∨ wet.map Prod.fst = some b ∨ wet.map Prod.snd = some b) →
            scratchSample v (b + 16 * g + 2 * i) = scratchSample t (b + 16 * g + 2 * i) := by
          intro b hb'
          have o1 := outR b g i j hgn hi hj' (by rcases hb' with h | h | h | h <;> simp [h, hgj])
          have o2 := outL b g i j hgn hi hj' (by rcases hb' with h | h | h | h <;> simp [h, hgj])
          rw [hvv.sample (o1 _ (.inl rfl)) (o1 _ (.inr rfl)), hu.sample (o2 _ (.inl rfl)) (o2 _ (.inr rfl))]
        exact ⟨channelBlended_congr oldL (fun _ _ => rfl) fun b hb' => keepT b (by rcases hb' with h | h <;> simp [h]),
          channelBlended_congr oldR (fun _ _ => rfl) fun b hb' => keepT b (by rcases hb' with h | h <;> simp [h])⟩
  · exact ⟨rfl, rfl, rfl, rfl, rfl, rfl, fun i _ => rfl, fun i _ => rfl, changed_refl _ _ _,
      fun _ g i hg => by omega⟩

/-! ### The saved record -/

/-- Offsets `lo .. hi-1` of the record at `addr`. -/
def recordBytes (addr : Word) (lo hi x : Nat) : Prop := ∃ i, lo ≤ i ∧ i < hi ∧ x = (addrAdd addr i).toNat

theorem inExtSpan_record {addr : Word} {k n lo hi x : Nat} (h : inExtSpan (addrAdd addr k) n x) (h1 : lo ≤ k)
    (h2 : k + n ≤ hi) : recordBytes addr lo hi x := by
  obtain ⟨i, hi', rfl⟩ := h
  exact ⟨k + i, by omega, by omega, by rw [addrAdd_addrAdd]⟩

theorem not_record {addr : Word} {k i lo hi : Nat} (h : k + i < lo) (hhi : hi ≤ 80) :
    ¬ recordBytes addr lo hi (addrAdd (addrAdd addr k) i).toNat := by
  rintro ⟨j, h1, h2, heq⟩
  rw [addrAdd_addrAdd] at heq
  have := (addrAdd_inj addr (k + i) j (by norm_num; omega) (by norm_num; omega)).mp (BitVec.eq_of_toNat_eq heq)
  omega

/-- Eight accumulators, four bytes each, from `addr + off`. -/
theorem saveLongs_ends {s : State} {f : Nat → M Unit} (addr : Word) (off : Nat) (v : Nat → Int) (hoff : off ≤ 48)
    (hv : ∀ i, i < 8 → -2147483648 ≤ v i ∧ v i ≤ 2147483647)
    (hw : ∀ i, i < 8 → extAdmits s.cfg (addrAdd addr (off + 4 * i)) 4 .write = true ∧
      overlapsCommandList s (addrAdd addr (off + 4 * i)) 4 = false)
    (hf : ∀ i : Nat, f i = extWrite32 (addrAdd addr (off + 4 * i)) (v i)) :
    Ends (forRange 8 f) s fun _ t =>
      Changed s t noByte (recordBytes addr off (off + 32)) ∧
        ∀ i, i < 8 → t.extLong (addrAdd addr (off + 4 * i)) = v i := by
  refine ends_mono (ends_forRange (fun j t =>
      Changed s t noByte (recordBytes addr off (off + 4 * j)) ∧
        ∀ i, i < j → t.extLong (addrAdd addr (off + 4 * i)) = v i) 8 s ?_ ?_) fun _ _ h => h
  · rintro j t hj ⟨ht, hx⟩
    rw [hf]
    refine ends_mono (ends_extWrite32 (s := t) _ _ (by rw [ht.cfg, ht.overlaps]; exact hw j hj) (hv j hj).1
      (hv j hj).2) ?_
    rintro _ u ⟨hu, hy⟩
    refine ⟨ht.then hu (by simp [noByte]) ?_, ?_⟩
    · rintro x (⟨i, h1, h2, rfl⟩ | h)
      · exact ⟨i, h1, by omega, rfl⟩
      · exact inExtSpan_record h (by omega) (by omega)
    · intro i hi
      by_cases hij : i = j
      · rw [hij, hy]
      · rw [hu.extLong fun m hm => not_inExtSpan addr (by norm_num; omega) (by norm_num; omega) (by omega),
          hx i (by omega)]
  · exact ⟨changed_refl _ _ _, fun i hi => by omega⟩

/-- 16-bit fields written in order. -/
def writeFields (addr : Word) : List (Nat × Int) → M Unit
  | [] => pure ()
  | (k, v) :: l => extWrite16 (addrAdd addr k) v >>= fun _ => writeFields addr l

theorem writeFields_ends {s : State} (addr : Word) (l : List (Nat × Int)) (lo : Nat)
    (hl : ∀ p, p ∈ l → lo ≤ p.1 ∧ p.1 + 2 ≤ 80) (hp : l.Pairwise fun p q => p.1 + 2 ≤ q.1)
    (hw : ∀ p, p ∈ l → extAdmits s.cfg (addrAdd addr p.1) 2 .write = true ∧
      overlapsCommandList s (addrAdd addr p.1) 2 = false) :
    Ends (writeFields addr l) s fun _ t =>
      Changed s t noByte (recordBytes addr lo 80) ∧
        ∀ p, p ∈ l → t.extSample (addrAdd addr p.1) = trunc16 p.2 := by
  induction l generalizing s lo with
  | nil => exact ends_pure ⟨changed_refl _ _ _, fun p hp => by simp at hp⟩
  | cons p l ih =>
    obtain ⟨k, v⟩ := p
    have hk := hl (k, v) (by simp)
    have hpw := List.pairwise_cons.mp hp
    apply ends_bind
    refine ends_mono (ends_extWrite16 (s := s) (addrAdd addr k) v (hw (k, v) (by simp))) ?_
    rintro _ t ⟨ht, hx⟩
    refine ends_mono (ih (s := t) (k + 2) ?_ hpw.2 ?_) ?_
    · intro q hq
      exact ⟨hpw.1 q hq, (hl q (by simp [hq])).2⟩
    · intro q hq
      rw [ht.cfg, ht.overlaps]
      exact hw q (by simp [hq])
    rintro _ u ⟨hu, hy⟩
    refine ⟨ht.then hu (by simp [noByte]) ?_, ?_⟩
    · rintro x (h | ⟨i, h1, h2, rfl⟩)
      · exact inExtSpan_record h hk.1 hk.2
      · exact ⟨i, by omega, h2, rfl⟩
    · intro q hq
      rcases List.mem_cons.mp hq with rfl | hq
      · rw [hu.extSample fun i hi => not_record (by omega) le_rfl, hx]
      · exact hy q hq

theorem envSave_eq (addr : Word) (e : EnvState) : envSave addr e =
    (forRange 8 fun i => extWrite32 (addrAdd addr (4 * i)) (e.left.vacc.getD i 0)) >>= fun _ =>
      (forRange 8 fun i => extWrite32 (addrAdd addr (32 + 4 * i)) (e.right.vacc.getD i 0)) >>= fun _ =>
        writeFields addr [(64, e.left.tgt), (66, rateHigh e.left.rt), (68, rateLow e.left.rt),
          (70, e.right.tgt), (72, rateHigh e.right.rt), (74, rateLow e.right.rt), (76, e.vd), (78, e.vw)] := by
  have bp : ∀ m : M Unit, (m >>= fun _ => pure ()) = m := by
    intro m
    funext s
    rw [bind_apply]
    cases m s <;> rfl
  unfold envSave
  simp only [writeFields, bp]

/-- The state save (43_envmix.md R143). -/
theorem envSave_ends {s : State} {addr : Word} {e f : EnvState} {g : Nat} (hg : 0 < g) (he : e.ranges)
    (h4 : s.writable addr 4 16) (h2 : s.writable (addrAdd addr 64) 2 8)
    (hf : f.vd = e.vd ∧ f.vw = e.vw ∧ f.left.tgt = e.left.tgt ∧ f.left.rt = e.left.rt ∧
      f.right.tgt = e.right.tgt ∧ f.right.rt = e.right.rt)
    (hl : ∀ i, i < 8 → f.left.vacc.getD i 0 = e.left.accumulator i g)
    (hr : ∀ i, i < 8 → f.right.vacc.getD i 0 = e.right.accumulator i g) :
    Ends (envSave addr f) s fun _ t =>
      Changed s t noByte (inExtSpan addr 80) ∧ envSaved t addr e g := by
  obtain ⟨f1, f2, f3, f4, f5, f6⟩ := hf
  have w16 : ∀ k, k < 8 → extAdmits s.cfg (addrAdd addr (64 + 2 * k)) 2 .write = true ∧
      overlapsCommandList s (addrAdd addr (64 + 2 * k)) 2 = false := by
    intro k hk
    have := h2 k hk
    rwa [addrAdd_addrAdd] at this
  rw [envSave_eq]
  apply ends_bind
  refine ends_mono (saveLongs_ends (s := s) addr 0 (fun i => f.left.vacc.getD i 0) (by omega)
    (fun i hi => by rw [hl i hi]; exact accumulator_range _ _ _ hg)
    (fun i hi => by rw [Nat.zero_add]; exact h4 i (by omega)) fun i => by rw [Nat.zero_add]) ?_
  rintro _ t ⟨ht, hL⟩
  apply ends_bind
  refine ends_mono (saveLongs_ends (s := t) addr 32 (fun i => f.right.vacc.getD i 0) (by omega)
    (fun i hi => by rw [hr i hi]; exact accumulator_range _ _ _ hg) (fun i hi => ?_) fun i => rfl) ?_
  · have := h4 (8 + i) (by omega)
    rw [show 4 * (8 + i) = 32 + 4 * i by omega] at this
    rw [ht.cfg, ht.overlaps]
    exact this
  rintro _ u ⟨hu, hR⟩
  have hsu := ht.trans hu
  refine ends_mono (writeFields_ends (s := u) addr _ 64 ?_ ?_ ?_) ?_
  · simp
  · simp
  · intro p hp
    rw [hsu.cfg, hsu.overlaps]
    simp only [List.mem_cons, List.not_mem_nil, or_false] at hp
    rcases hp with rfl | rfl | rfl | rfl | rfl | rfl | rfl | rfl
    · exact w16 0 (by norm_num)
    · exact w16 1 (by norm_num)
    · exact w16 2 (by norm_num)
    · exact w16 3 (by norm_num)
    · exact w16 4 (by norm_num)
    · exact w16 5 (by norm_num)
    · exact w16 6 (by norm_num)
    · exact w16 7 (by norm_num)
  rintro _ v ⟨hv, hx⟩
  have x0 := hx (64, f.left.tgt) (by simp)
  have x1 := hx (66, rateHigh f.left.rt) (by simp)
  have x2 := hx (68, rateLow f.left.rt) (by simp)
  have x3 := hx (70, f.right.tgt) (by simp)
  have x4 := hx (72, rateHigh f.right.rt) (by simp)
  have x5 := hx (74, rateLow f.right.rt) (by simp)
  have x6 := hx (76, f.vd) (by simp)
  have x7 := hx (78, f.vw) (by simp)
  simp only at x0 x1 x2 x3 x4 x5 x6 x7
  refine ⟨hsu.then hv (by simp [noByte]) ?_, ?_⟩
  · rintro x ((⟨i, h1, hi, rfl⟩ | ⟨i, h1, hi, rfl⟩) | ⟨i, h1, hi, rfl⟩) <;> exact ⟨i, by omega, rfl⟩
  refine ⟨?_, ?_, ?_, ?_, ?_, ?_, ?_, ?_⟩
  · intro i hi
    have h1 := hL i hi
    rw [Nat.zero_add] at h1
    rw [hv.extLong fun m hm => not_record (by omega) le_rfl, hu.extLong fun m hm => ?_, h1]
    · exact hl i hi
    · rintro ⟨j, j1, j2, heq⟩
      rw [addrAdd_addrAdd] at heq
      have := (addrAdd_inj addr (4 * i + m) j (by norm_num; omega) (by norm_num; omega)).mp
        (BitVec.eq_of_toNat_eq heq)
      omega
  · intro i hi
    rw [hv.extLong fun m hm => not_record (by omega) le_rfl, hR i hi]
    exact hr i hi
  · rw [x0, f3, trunc16_of_range he.tgtL.1 he.tgtL.2]
  · rw [x1, x2, f4, joinRate_halves _ he.rtL.1 he.rtL.2]
  · rw [x3, f5, trunc16_of_range he.tgtR.1 he.tgtR.2]
  · rw [x4, x5, f6, joinRate_halves _ he.rtR.1 he.rtR.2]
  · rw [x6, f1, trunc16_of_range he.vd.1 he.vd.2]
  · rw [x7, f2, trunc16_of_range he.vw.1 he.vw.2]

/-! ### The command -/

theorem envWet_reads {s : State} {flags : BitVec 8}
    (h : flagAux flags = true → s.ctx.wetLeft.isSome = true ∧ s.ctx.wetRight.isSome = true) :
    ∃ p : Option (Half × Half), envWet flags s = .ok p s ∧
      p.map (fun q => (q.1.toNat, q.2.toNat)) = s.ctx.wetBuffers flags := by
  unfold envWet Context.wetBuffers readWetLeft readWetRight
  cases hf : flagAux flags with
  | false => exact ⟨none, rfl, rfl⟩
  | true =>
    obtain ⟨h1, h2⟩ := h hf
    rw [Option.isSome_iff_exists] at h1 h2
    obtain ⟨wl, h1⟩ := h1
    obtain ⟨wr, h2⟩ := h2
    refine ⟨some (wl, wr), ?_, by simp [h1, h2]⟩
    rw [if_pos rfl, bind_ok (ctxRead_ok h1), bind_ok (ctxRead_ok h2)]
    rfl

/-- ENVMIXER in full (43_envmix.md R133 to R143). -/
theorem envmixerBody_ends {s : State} {flags : BitVec 8} {addr : Word} {i o dr c : Half}
    (hi : s.ctx.inp = some i) (ho : s.ctx.out = some o) (hdr : s.ctx.dryRight = some dr)
    (hc : s.ctx.count = some c)
    (hwet : flagAux flags = true → s.ctx.wetLeft.isSome = true ∧ s.ctx.wetRight.isSome = true)
    (hvol : flagInit flags = true → s.ctx.volumesWritten)
    (hin : s.holdsSamples i.toNat (8 * groups c.toNat)) (hdl : s.holdsSamples o.toNat (8 * groups c.toNat))
    (hdrs : s.holdsSamples dr.toNat (8 * groups c.toNat))
    (hws : ∀ w, s.ctx.wetBuffers flags = some w →
      s.holdsSamples w.1 (8 * groups c.toNat) ∧ s.holdsSamples w.2 (8 * groups c.toNat))
    (hr : flagInit flags = false → s.readable addr 4 16 ∧ s.readable (addrAdd addr 64) 2 8)
    (hw : s.writable addr 4 16 ∧ s.writable (addrAdd addr 64) 2 8) :
    Ends (envmixerBody flags addr) s fun _ t =>
      Changed s t (fun x => destinations o.toNat ((s.ctx.wetBuffers flags).map Prod.fst) (16 * groups c.toNat) x ∨
          destinations dr.toNat ((s.ctx.wetBuffers flags).map Prod.snd) (16 * groups c.toNat) x)
        (inExtSpan addr 80) ∧
      envSaved t addr (s.envStart flags addr) (groups c.toNat) ∧
      (buffersApart i.toNat o.toNat dr.toNat (s.ctx.wetBuffers flags) (16 * groups c.toNat) →
        allBlended s t (s.envStart flags addr) i.toNat o.toNat dr.toNat (s.ctx.wetBuffers flags)
          (groups c.toNat)) := by
  have hg : 0 < groups c.toNat := by unfold groups; omega
  obtain ⟨p, hp, hpw⟩ := envWet_reads hwet
  unfold envmixerBody readIn readOut readDryRight readCount
  apply ends_bind
  refine ends_ok (ctxRead_ok hi) ?_
  apply ends_bind
  refine ends_ok (ctxRead_ok ho) ?_
  apply ends_bind
  refine ends_ok (ctxRead_ok hdr) ?_
  apply ends_bind
  refine ends_ok (ctxRead_ok hc) ?_
  apply ends_bind
  refine ends_ok hp ?_
  apply ends_bind
  refine ends_ok (envStart_reads hvol hr) ?_
  apply ends_bind
  have e1 : ({ dry := (o.toNat : Int), wet := p.map fun q => (q.1.toNat : Int) } : EnvBuffers) =
      buffersAt o.toNat ((s.ctx.wetBuffers flags).map Prod.fst) := by
    unfold buffersAt
    rw [← hpw]
    cases p <;> rfl
  have e2 : ({ dry := (dr.toNat : Int), wet := p.map fun q => (q.2.toNat : Int) } : EnvBuffers) =
      buffersAt dr.toNat ((s.ctx.wetBuffers flags).map Prod.snd) := by
    unfold buffersAt
    rw [← hpw]
    cases p <;> rfl
  rw [e1, e2]
  refine ends_mono (envGroups_ends (s := s) (e := s.envStart flags addr) hin hdl hdrs hws) ?_
  rintro f t ⟨a1, a2, a3, a4, a5, a6, hl, hrr, ht, hb⟩
  refine ends_mono (envSave_ends (s := t) (e := s.envStart flags addr) (g := groups c.toNat) hg
    (envStart_ranges s flags addr) (ht.writable hw.1) (ht.writable hw.2) ⟨a1, a2, a3, a4, a5, a6⟩ hl hrr) ?_
  rintro _ u ⟨hu, hsv⟩
  refine ⟨ht.then hu (by rintro x (h | h); exacts [h, h.elim]) (by rintro x (h | h); exacts [h.elim, h]), hsv, ?_⟩
  intro hap g j hgn hj
  obtain ⟨b1, b2⟩ := hb hap g j hgn hj
  have keep : ∀ a, scratchSample u a = scratchSample t a := fun a =>
    hu.sample (by simp [noByte]) (by simp [noByte])
  exact ⟨channelBlended_congr b1 (fun _ _ => rfl) fun b _ => keep _,
    channelBlended_congr b2 (fun _ _ => rfl) fun b _ => keep _⟩

end Sys2Proof.Machine
end

