-- ==== Sys2Proof/Laws/Mix.lean ====
section
/-! SUPPORT. What MIXER, INTERLEAVE and INTERLEAVE_EXT leave when their operands are admitted, overlapping or not. -/

namespace Sys2Proof.Machine

theorem mixSample_range (form : MixForm) (gain o i : Int) :
    -32768 ≤ mixSample form gain o i ∧ mixSample form gain o i ≤ 32767 := by
  unfold mixSample
  split
  · exact sat16_range _
  · cases form <;> exact sat16_range _

/-- MIXER: each destination sample is mixed from its old value and from the input sample, which is an earlier result
of the same command where the ranges overlap so (44_mix_interleave.md R150, 20_memory.md R61). -/
theorem mixerBody_ends {s : State} {gain inp out c : Half} (hc : s.ctx.count = some c)
    (ho : s.holdsSamples out.toNat (ru c.toNat 32 / 2)) (hi : s.holdsSamples inp.toNat (ru c.toNat 32 / 2)) :
    Ends (mixerBody gain inp out) s fun _ t =>
      Changed s t (inSpan out.toNat (ru c.toNat 32)) noByte ∧
        ∀ k, k < ru c.toNat 32 / 2 → scratchSample t (out.toNat + 2 * k) =
          mixSample s.cfg.mixForm gain.toInt (scratchSample s (out.toNat + 2 * k))
            (if out.toNat ≤ inp.toNat + 2 * k ∧ inp.toNat + 2 * k < out.toNat + 2 * k
              then scratchSample t (inp.toNat + 2 * k) else scratchSample s (inp.toNat + 2 * k)) := by
  unfold mixerBody readCount
  apply ends_bind
  refine ends_ok (ctxRead_ok hc) ?_
  apply ends_bind
  refine ends_ok (get_apply s) ?_
  have hm := ru_mod c.toNat 32
  refine ends_mono (ends_forRange (fun j t =>
    Changed s t (inSpan out.toNat (2 * j)) noByte ∧
      ∀ k, k < j → scratchSample t (out.toNat + 2 * k) =
        mixSample s.cfg.mixForm gain.toInt (scratchSample s (out.toNat + 2 * k))
          (if out.toNat ≤ inp.toNat + 2 * k ∧ inp.toNat + 2 * k < out.toNat + 2 * k
            then scratchSample t (inp.toNat + 2 * k) else scratchSample s (inp.toNat + 2 * k)))
    (ru c.toNat 32 / 2) s ?_ ?_) ?_
  · rintro j t hj ⟨ht, hv⟩
    have hcfg := ht.cfg
    rcases ho with ho | ⟨hoe, hob⟩
    · omega
    rcases hi with hi | ⟨hie, hib⟩
    · omega
    apply ends_bind
    refine ends_ok (read16_at (out.toNat + 2 * j) (by push_cast; rfl) (by omega) (by rw [hcfg]; omega)) ?_
    apply ends_bind
    refine ends_ok (read16_at (inp.toNat + 2 * j) (by push_cast; rfl) (by omega) (by rw [hcfg]; omega)) ?_
    have hr := mixSample_range s.cfg.mixForm gain.toInt (scratchSample t (out.toNat + 2 * j))
      (scratchSample t (inp.toNat + 2 * j))
    refine ends_mono (write16_at (out.toNat + 2 * j) (by push_cast; rfl) (by omega) (by rw [hcfg]; omega) hr) ?_
    rintro _ u ⟨hu, hw⟩
    refine ⟨ht.then hu (by unfold inSpan; omega) (by simp [noByte]), ?_⟩
    have keep : ∀ a, a % 2 = 0 → a ≠ out.toNat + 2 * j → scratchSample u a = scratchSample t a := fun a ha hne =>
      hu.sample (by unfold inSpan; omega) (by unfold inSpan; omega)
    intro k hk
    by_cases hkj : k = j
    · subst hkj
      rw [hw, ht.sample (a := out.toNat + 2 * k) (by unfold inSpan; omega) (by unfold inSpan; omega)]
      congr 1
      split
      · rw [keep _ (by omega) (by omega)]
      · rw [ht.sample (by unfold inSpan; omega) (by unfold inSpan; omega)]
    · rw [keep _ (by omega) (by omega), hv k (by omega)]
      congr 1
      split
      · rw [keep _ (by omega) (by omega)]
      · rfl
  · exact ⟨changed_refl _ _ _, fun k hk => by omega⟩
  · rintro _ t ⟨ht, hv⟩
    exact ⟨ht.mono (by unfold inSpan; omega) (fun _ h => h), hv⟩

theorem collect_samples {s : State} (a n : Nat) (f : Nat → M Int) (hf : ∀ i : Nat, f i = sRead16 (a + 2 * i : Nat))
    (h : s.holdsSamples a n) :
    collect n f s = .ok ((List.range' 0 n).map fun i => scratchSample s (a + 2 * i)) s := by
  apply collect_read
  intro i hi
  rw [hf]
  rcases h with h | ⟨he, hb⟩
  · omega
  · exact ends_sRead16 _ (by omega) (by omega)

/-- One group of INTERLEAVE: its sixteen inputs are read before its 32 bytes are written. -/
theorem interleaveGroup_ends {s : State} (l r o g : Nat) (hl : s.holdsSamples (l + 16 * g) 8)
    (hr : s.holdsSamples (r + 16 * g) 8) (ho : o % 2 = 0) (hb : o + 32 * g + 32 ≤ s.cfg.scratchBytes) :
    Ends (interleaveGroup l r o g) s fun _ t =>
      Changed s t (inSpan (o + 32 * g) 32) noByte ∧ ∀ i, i < 8 →
        scratchSample t (o + 32 * g + 4 * i) = scratchSample s (l + 16 * g + 2 * i) ∧
          scratchSample t (o + 32 * g + 4 * i + 2) = scratchSample s (r + 16 * g + 2 * i) := by
  unfold interleaveGroup
  apply ends_bind
  refine ends_ok (collect_samples (l + 16 * g) 8 _ (fun i => by push_cast; rfl) hl) ?_
  apply ends_bind
  refine ends_ok (collect_samples (r + 16 * g) 8 _ (fun i => by push_cast; rfl) hr) ?_
  refine ends_mono (ends_forRange (fun j t =>
    Changed s t (inSpan (o + 32 * g) (4 * j)) noByte ∧ ∀ i, i < j →
        scratchSample t (o + 32 * g + 4 * i) = scratchSample s (l + 16 * g + 2 * i) ∧
          scratchSample t (o + 32 * g + 4 * i + 2) = scratchSample s (r + 16 * g + 2 * i)) 8 s ?_ ?_) ?_
  · rintro j t hj ⟨ht, hv⟩
    have hcfg := ht.cfg
    rw [getD_range'_map _ _ _ _ _ hj, getD_range'_map _ _ _ _ _ hj, Nat.zero_add]
    have r1 := scratchSample_range s (l + 16 * g + 2 * j)
    have r2 := scratchSample_range s (r + 16 * g + 2 * j)
    apply ends_bind
    refine ends_mono (write16_at (o + 32 * g + 4 * j) (by push_cast; rfl) (by omega) (by rw [hcfg]; omega) r1) ?_
    rintro _ u ⟨hu, hw⟩
    refine ends_mono (write16_at (o + 32 * g + 4 * j + 2) (by push_cast; rfl) (by omega) (by rw [hu.cfg, hcfg]; omega) r2) ?_
    rintro _ v ⟨hv', hw'⟩
    refine ⟨ht.then (hu.trans hv') (by unfold inSpan; omega) (by simp [noByte]), ?_⟩
    intro i hi
    by_cases hij : i = j
    · subst hij
      refine ⟨?_, hw'⟩
      rw [hv'.sample (by unfold inSpan; omega) (by unfold inSpan; omega), hw]
    · rw [hv'.sample (by unfold inSpan; omega) (by unfold inSpan; omega),
        hu.sample (by unfold inSpan; omega) (by unfold inSpan; omega),
        hv'.sample (by unfold inSpan; omega) (by unfold inSpan; omega),
        hu.sample (by unfold inSpan; omega) (by unfold inSpan; omega)]
      exact hv i (by omega)
  · exact ⟨changed_refl _ _ _, fun k hk => by omega⟩
  · rintro _ t ⟨ht, hv⟩
    exact ⟨ht.mono (by unfold inSpan; omega) (fun _ h => h), hv⟩

theorem holdsSamples_part {s : State} {a n : Nat} (h : s.holdsSamples a n) (i m : Nat) (him : i + m ≤ n)
    : s.holdsSamples (a + 2 * i) m := by
  rcases h with h | ⟨he, hb⟩
  · left; omega
  · right; omega

theorem interleaveBody_ends {s : State} {left right o c : Half} (ho : s.ctx.out = some o)
    (hc : s.ctx.count = some c) (hl : s.holdsSamples left.toNat (ru c.toNat 16 / 2))
    (hr : s.holdsSamples right.toNat (ru c.toNat 16 / 2)) (hs : s.holdsSamples o.toNat (ru c.toNat 16)) :
    Ends (interleaveBody left right) s fun _ t =>
      Changed s t (inSpan o.toNat (2 * ru c.toNat 16)) noByte ∧
        ∀ g i, g < ru c.toNat 16 / 16 → i < 8 →
          scratchSample t (o.toNat + 32 * g + 4 * i) =
              interleaveSource s t o.toNat g (left.toNat + 16 * g + 2 * i) ∧
            scratchSample t (o.toNat + 32 * g + 4 * i + 2) =
              interleaveSource s t o.toNat g (right.toNat + 16 * g + 2 * i) := by
  unfold interleaveBody readOut readCount
  apply ends_bind
  refine ends_ok (ctxRead_ok ho) ?_
  apply ends_bind
  refine ends_ok (ctxRead_ok hc) ?_
  have hm := ru_mod c.toNat 16
  refine ends_mono (ends_forRange (fun j t =>
    Changed s t (inSpan o.toNat (32 * j)) noByte ∧
        ∀ g i, g < j → i < 8 →
          scratchSample t (o.toNat + 32 * g + 4 * i) =
              interleaveSource s t o.toNat g (left.toNat + 16 * g + 2 * i) ∧
            scratchSample t (o.toNat + 32 * g + 4 * i + 2) =
              interleaveSource s t o.toNat g (right.toNat + 16 * g + 2 * i)) (ru c.toNat 16 / 16) s ?_ ?_) ?_
  · rintro j t hj ⟨ht, hv⟩
    have hcfg := ht.cfg
    have hs' := hs
    have hl' := hl
    have hr' := hr
    rcases hs' with hs' | ⟨hse, hsb⟩
    · omega
    rcases hl' with hl' | ⟨hle, hlb⟩
    · omega
    rcases hr' with hr' | ⟨hre, hrb⟩
    · omega
    have hL : t.holdsSamples (left.toNat + 16 * j) 8 := by right; rw [hcfg]; omega
    have hR : t.holdsSamples (right.toNat + 16 * j) 8 := by right; rw [hcfg]; omega
    refine ends_mono (interleaveGroup_ends left.toNat right.toNat o.toNat j hL hR hse (by rw [hcfg]; omega)) ?_
    rintro _ u ⟨hu, hw⟩
    refine ⟨ht.then hu (by unfold inSpan; omega) (by simp [noByte]), ?_⟩
    have keep : ∀ a, a % 2 = 0 → (a < o.toNat + 32 * j ∨ o.toNat + 32 * j + 32 ≤ a) →
        scratchSample u a = scratchSample t a := fun a ha hne =>
      hu.sample (by unfold inSpan; omega) (by unfold inSpan; omega)
    have src : ∀ g a, g ≤ j → a % 2 = 0 → interleaveSource s u o.toNat g a = interleaveSource s t o.toNat g a := by
      intro g a hg ha
      unfold interleaveSource
      split
      · rw [keep a ha (by omega)]
      · rfl
    have old : ∀ a, a % 2 = 0 → scratchSample t a = interleaveSource s t o.toNat j a := by
      intro a ha
      unfold interleaveSource
      split
      · rfl
      · exact ht.sample (by unfold inSpan; omega) (by unfold inSpan; omega)
    intro g i hg hi
    by_cases hgj : g = j
    · subst hgj
      rw [(hw i hi).1, (hw i hi).2, src _ _ le_rfl (by omega), src _ _ le_rfl (by omega), old _ (by omega),
        old _ (by omega)]
      exact ⟨rfl, rfl⟩
    · rw [keep _ (by omega) (by omega), keep _ (by omega) (by omega), src _ _ (by omega) (by omega),
        src _ _ (by omega) (by omega)]
      exact hv g i (by omega) hi
  · exact ⟨changed_refl _ _ _, fun k _ hk => by omega⟩
  · rintro _ t ⟨ht, hv⟩
    exact ⟨ht.mono (by unfold inSpan; omega) (fun _ h => h), hv⟩

/-- INTERLEAVE_EXT: pair `i` stands at `addr + 4i`; the scratch is not written (44_mix_interleave.md R154). -/
theorem interleaveExtBody_ends {s : State} {left right : BitVec 12} {addr : Word} {c : Half}
    (hc : s.ctx.count = some c) (hl : s.holdsSamples left.toNat (ru c.toNat 16 / 2))
    (hr : s.holdsSamples right.toNat (ru c.toNat 16 / 2)) (hw : s.writable addr 2 (ru c.toNat 16)) :
    Ends (interleaveExtBody left right addr) s fun _ t =>
      Changed s t noByte (inExtSpan addr (2 * ru c.toNat 16)) ∧
        ∀ i, i < ru c.toNat 16 / 2 →
          t.extSample (addrAdd addr (4 * i)) = scratchSample s (left.toNat + 2 * i) ∧
            t.extSample (addrAdd addr (4 * i + 2)) = scratchSample s (right.toNat + 2 * i) := by
  unfold interleaveExtBody readCount
  apply ends_bind
  refine ends_ok (ctxRead_ok hc) ?_
  have hm := ru_mod c.toNat 16
  have hn : ru c.toNat 16 ≤ 65536 := by
    have := c.isLt
    unfold ru
    omega
  refine ends_mono (ends_forRange (fun j t =>
      Changed s t noByte (inExtSpan addr (4 * j)) ∧
        ∀ i, i < j →
          t.extSample (addrAdd addr (4 * i)) = scratchSample s (left.toNat + 2 * i) ∧
            t.extSample (addrAdd addr (4 * i + 2)) = scratchSample s (right.toNat + 2 * i))
      (ru c.toNat 16 / 2) s ?_ ?_) ?_
  · rintro j t hj ⟨ht, hv⟩
    have hcfg := ht.cfg
    rcases hl with hl | ⟨hle, hlb⟩
    · omega
    rcases hr with hr | ⟨hre, hrb⟩
    · omega
    have r1 := scratchSample_range s (left.toNat + 2 * j)
    have r2 := scratchSample_range s (right.toNat + 2 * j)
    apply ends_bind
    refine ends_ok (read16_at (left.toNat + 2 * j) (by push_cast; rfl) (by omega) (by rw [hcfg]; omega)) ?_
    apply ends_bind
    refine ends_ok (read16_at (right.toNat + 2 * j) (by push_cast; rfl) (by omega) (by rw [hcfg]; omega)) ?_
    rw [ht.sample (by simp [noByte]) (by simp [noByte]), ht.sample (by simp [noByte]) (by simp [noByte])]
    have w1 := ht.writable hw (2 * j) (by omega)
    have w2 := ht.writable hw (2 * j + 1) (by omega)
    rw [show 2 * (2 * j) = 4 * j by omega] at w1
    rw [show 2 * (2 * j + 1) = 4 * j + 2 by omega] at w2
    apply ends_bind
    refine ends_mono (ends_extWrite16 _ _ w1) ?_
    rintro _ u ⟨hu, hw1⟩
    rw [trunc16_of_range r1.1 r1.2] at hw1
    have w2' : extAdmits u.cfg (addrAdd addr (4 * j + 2)) 2 .write = true ∧
        overlapsCommandList u (addrAdd addr (4 * j + 2)) 2 = false := by
      rw [hu.cfg, hu.overlaps]
      exact w2
    refine ends_mono (ends_extWrite16 _ _ w2') ?_
    rintro _ v ⟨hv', hw2⟩
    rw [trunc16_of_range r2.1 r2.2] at hw2
    refine ⟨ht.then (hu.trans hv') (by simp [noByte]) ?_, ?_⟩
    · rintro x (hx | hx | hx)
      · obtain ⟨i, hi, rfl⟩ := hx
        exact ⟨i, by omega, rfl⟩
      · exact inExtSpan_mono addr (by omega) hx
      · exact inExtSpan_mono addr (by omega) hx
    · have keepV : ∀ k, k + 2 ≤ 4 * j + 2 → v.extSample (addrAdd addr k) = u.extSample (addrAdd addr k) :=
        fun k hk => hv'.extSample fun i hi => not_inExtSpan addr (by omega) (by omega) (by omega)
      have keepU : ∀ k, k + 2 ≤ 4 * j → u.extSample (addrAdd addr k) = t.extSample (addrAdd addr k) :=
        fun k hk => hu.extSample fun i hi => not_inExtSpan addr (by omega) (by omega) (by omega)
      intro i hi
      by_cases hij : i = j
      · subst hij
        exact ⟨by rw [keepV _ (by omega), hw1], hw2⟩
      · rw [keepV _ (by omega), keepV _ (by omega), keepU _ (by omega), keepU _ (by omega)]
        exact hv i (by omega)
  · exact ⟨changed_refl _ _ _, fun k hk => by omega⟩
  · rintro _ t ⟨ht, hv⟩
    refine ⟨ht.mono (fun _ h => h) ?_, hv⟩
    rintro x ⟨i, hi, rfl⟩
    exact ⟨i, by omega, rfl⟩

end Sys2Proof.Machine
end

