-- ==== Sys2Proof/Laws/PerInstr.lean ====
section
/-! SUPPORT. A family of statements made one lemma per command: the opcode a command's encoding carries is the one
its row of 30_encoding.md R77 gives. -/

namespace Sys2Proof

/-- The opcode of a command (30_encoding.md R77). -/
def Laws.opcodeOf : Instr → BitVec 8
  | .noop => 0x00#8
  | .adpcm _ _ => 0x01#8
  | .clearbuff _ _ => 0x02#8
  | .envmixer _ _ => 0x03#8
  | .loadbuff _ => 0x04#8
  | .resample _ _ _ => 0x05#8
  | .savebuff _ => 0x06#8
  | .setbuff _ _ _ _ => 0x08#8
  | .setvol _ _ _ _ => 0x09#8
  | .dmemmove _ _ _ => 0x0A#8
  | .loadadpcm _ _ => 0x0B#8
  | .mixer _ _ _ => 0x0C#8
  | .interleave _ _ => 0x0D#8
  | .setloop _ => 0x0F#8
  | .setreg _ _ => 0x10#8
  | .rbprep _ _ _ => 0x11#8
  | .rbread _ _ _ _ => 0x12#8
  | .rbwrite _ _ _ _ => 0x13#8
  | .rbframe _ => 0x14#8
  | .interleaveExt _ _ _ => 0x15#8

/-- The encoding of a command carries its opcode (30_encoding.md R74, R77). -/
def Laws.EncodedOpcode.Statement (i : Instr) : Prop := (encode i).opcode = Laws.opcodeOf i

theorem Laws.EncodedOpcode.noop :
    Laws.EncodedOpcode.Statement (.noop) := packCommand_opcode _ _ _ _

theorem Laws.EncodedOpcode.adpcm (f : BitVec 8) (a : Word) :
    Laws.EncodedOpcode.Statement (.adpcm f a) := packCommand_opcode _ _ _ _

theorem Laws.EncodedOpcode.clearbuff (d c : Half) :
    Laws.EncodedOpcode.Statement (.clearbuff d c) := packCommand_opcode _ _ _ _

theorem Laws.EncodedOpcode.envmixer (f : BitVec 8) (a : Word) :
    Laws.EncodedOpcode.Statement (.envmixer f a) := packCommand_opcode _ _ _ _

theorem Laws.EncodedOpcode.loadbuff (a : Word) :
    Laws.EncodedOpcode.Statement (.loadbuff a) := packCommand_opcode _ _ _ _

theorem Laws.EncodedOpcode.resample (f : BitVec 8) (p : Half) (a : Word) :
    Laws.EncodedOpcode.Statement (.resample f p a) := packCommand_opcode _ _ _ _

theorem Laws.EncodedOpcode.savebuff (a : Word) :
    Laws.EncodedOpcode.Statement (.savebuff a) := packCommand_opcode _ _ _ _

theorem Laws.EncodedOpcode.setbuff (f : BitVec 8) (i o c : Half) :
    Laws.EncodedOpcode.Statement (.setbuff f i o c) := packCommand_opcode _ _ _ _

theorem Laws.EncodedOpcode.setvol (f : BitVec 8) (v t r : Half) :
    Laws.EncodedOpcode.Statement (.setvol f v t r) := packCommand_opcode _ _ _ _

theorem Laws.EncodedOpcode.dmemmove (i o c : Half) :
    Laws.EncodedOpcode.Statement (.dmemmove i o c) := packCommand_opcode _ _ _ _

theorem Laws.EncodedOpcode.loadadpcm (c : BitVec 24) (a : Word) :
    Laws.EncodedOpcode.Statement (.loadadpcm c a) := packWide_opcode _ _ _

theorem Laws.EncodedOpcode.mixer (g i o : Half) :
    Laws.EncodedOpcode.Statement (.mixer g i o) := packCommand_opcode _ _ _ _

theorem Laws.EncodedOpcode.interleave (l r : Half) :
    Laws.EncodedOpcode.Statement (.interleave l r) := packCommand_opcode _ _ _ _

theorem Laws.EncodedOpcode.setloop (a : Word) :
    Laws.EncodedOpcode.Statement (.setloop a) := packCommand_opcode _ _ _ _

theorem Laws.EncodedOpcode.setreg (n : Half) (v : Word) :
    Laws.EncodedOpcode.Statement (.setreg n v) := packCommand_opcode _ _ _ _

theorem Laws.EncodedOpcode.rbprep (r u : BitVec 8) (l : Half) :
    Laws.EncodedOpcode.Statement (.rbprep r u l) := packCommand_opcode _ _ _ _

theorem Laws.EncodedOpcode.rbread (r u : BitVec 8) (a b : Half) :
    Laws.EncodedOpcode.Statement (.rbread r u a b) := packCommand_opcode _ _ _ _

theorem Laws.EncodedOpcode.rbwrite (r u : BitVec 8) (a b : Half) :
    Laws.EncodedOpcode.Statement (.rbwrite r u a b) := packCommand_opcode _ _ _ _

theorem Laws.EncodedOpcode.rbframe (r : BitVec 8) :
    Laws.EncodedOpcode.Statement (.rbframe r) := packCommand_opcode _ _ _ _

theorem Laws.EncodedOpcode.interleaveExt (l r : BitVec 12) (a : Word) :
    Laws.EncodedOpcode.Statement (.interleaveExt l r a) := packWide_opcode _ _ _

end Sys2Proof
end

