-- ==== Sys2Proof/Laws/Resample.lean ====
section
/-! SUPPORT. What RESAMPLE leaves when its operands are admitted, overlapping or not (42_resample.md R121 to R126). -/

namespace Sys2Proof.Machine

theorem getD_range_map (g : Nat → Int) (n i : Nat) (d : Int) (h : i < n) :
    ((List.range n).map g).getD i d = g i := by
  simp [List.getD_eq_getElem?_getD, h]

theorem resampleHistory_h (s : State) (flags : BitVec 8) (addr : Word) (k : Nat) :
    -32768 ≤ (s.resampleHistory flags addr).h.getD k 0 ∧ (s.resampleHistory flags addr).h.getD k 0 ≤ 32767 := by
  unfold State.resampleHistory
  split
  · rcases k with _ | _ | _ | _ | k <;> simp
  · by_cases hk : k < 4
    · rw [getD_range_map _ _ _ _ hk]
      exact extSample_range _ _
    · rw [List.getD_eq_getElem?_getD, List.getElem?_eq_none (by simpa using hk)]
      simp

theorem resampleHistory_rh (s : State) (flags : BitVec 8) (addr : Word) (k : Nat) :
    -32768 ≤ (s.resampleHistory flags addr).rh.getD k 0 ∧ (s.resampleHistory flags addr).rh.getD k 0 ≤ 32767 := by
  unfold State.resampleHistory
  split
  · simp
  · by_cases hk : k < 8
    · rw [getD_range_map _ _ _ _ hk]
      exact extSample_range _ _
    · rw [List.getD_eq_getElem?_getD, List.getElem?_eq_none (by simpa using hk)]
      simp

theorem resampleHistory_pacc (s : State) (flags : BitVec 8) (addr : Word) :
    (s.resampleHistory flags addr).pacc < 65536 := by
  unfold State.resampleHistory
  split
  · simp
  · exact mod16_lt _

theorem resampleHistory_ofs (s : State) (flags : BitVec 8) (addr : Word) :
    (s.resampleHistory flags addr).ofs < 8 := by
  unfold State.resampleHistory
  split
  · simp
  · exact Nat.mod_lt _ (by norm_num)

theorem resampleLoad_reads {s : State} {flags : BitVec 8} {addr : Word}
    (hr : flagInit flags = false → s.readable addr 2 6 ∧ s.readable (addrAdd addr 16) 2 8) :
    resampleLoad flags addr s = .ok (s.resampleHistory flags addr) s := by
  unfold resampleLoad State.resampleHistory
  cases hf : flagInit flags with
  | true => rfl
  | false =>
    obtain ⟨h1, h2⟩ := hr hf
    simp only [Bool.false_eq_true, if_false]
    rw [bind_ok (collect_extSamples addr 0 4 _ (fun k => by rw [Nat.zero_add])
      fun k hk => by rw [Nat.zero_add]; exact h1 k (by omega))]
    rw [bind_ok (extRead16_reads (h1 4 (by norm_num)))]
    rw [bind_ok (extRead16_reads (h1 5 (by norm_num)))]
    rw [bind_ok (collect_extSamples addr 16 8 _ (fun k => rfl) fun k hk => by
      have := h2 k hk
      rwa [addrAdd_addrAdd] at this)]
    simp only [List.range_eq_range', Nat.zero_add]
    rfl

/-- The window set-up (42_resample.md R122). -/
theorem resampleWindow_ends {s : State} {flags : BitVec 8} {inp : Nat} {hist : ResampleHistory}
    (hfit : windowFits flags inp hist) (hofs : hist.ofs < 8) (hle : inp ≤ s.cfg.scratchBytes)
    (hh : ∀ k, -32768 ≤ hist.h.getD k 0 ∧ hist.h.getD k 0 ≤ 32767)
    (hrh : ∀ k, -32768 ≤ hist.rh.getD k 0 ∧ hist.rh.getD k 0 ≤ 32767) :
    Ends (resampleWindow flags inp hist) s fun _ t =>
      Changed s t (windowBytes flags inp hist) noByte ∧
        ∀ a, a % 2 = 0 → scratchSample t a = s.windowSample flags inp hist a := by
  obtain ⟨he, hlow⟩ := hfit
  unfold resampleWindow
  apply ends_bind
  have restart : Ends (resampleRestart flags inp hist) s fun _ t =>
      Changed s t (fun x => flagRestart flags = true ∧ inSpan (inp - 16) 16 x) noByte ∧
        ∀ a, a % 2 = 0 → scratchSample t a =
          if flagRestart flags = true ∧ inp - 16 ≤ a ∧ a < inp then hist.rh.getD ((a - (inp - 16)) / 2) 0
          else scratchSample s a := by
    unfold resampleRestart
    cases hf : flagRestart flags with
    | false => exact ends_pure ⟨changed_refl _ _ _, fun a _ => by simp⟩
    | true =>
      rw [hf] at hlow
      simp only [if_true] at hlow ⊢
      refine ends_mono (constSamples_ends (s := s) (inp - 16) 8 (fun k => hist.rh.getD k 0) (.inr (by omega))
        (fun k _ => hrh k) fun k => ?_) ?_
      · congr 1
        omega
      · rintro _ t ⟨ht, hv⟩
        refine ⟨ht.mono (fun x hx => ⟨trivial, hx⟩) fun x hx => hx, fun a ha => ?_⟩
        by_cases hin : inp - 16 ≤ a ∧ a < inp
        · rw [if_pos ⟨trivial, hin⟩]
          have := hv ((a - (inp - 16)) / 2) (by omega)
          rwa [show inp - 16 + 2 * ((a - (inp - 16)) / 2) = a by omega] at this
        · rw [if_neg fun h => hin h.2]
          exact ht.sample (by unfold inSpan; omega) (by unfold inSpan; omega)
  refine ends_mono restart ?_
  rintro _ t ⟨ht, hv⟩
  have hw : windowStart flags inp hist = (windowOffset flags inp hist : Nat) := by
    unfold windowStart windowOffset
    split at hlow <;> rename_i hf <;> simp only [hf] <;> simp <;> omega
  have hwe : windowOffset flags inp hist % 2 = 0 := by
    unfold windowOffset
    split <;> omega
  have hwb : windowOffset flags inp hist + 8 ≤ inp := by
    unfold windowOffset
    split at hlow <;> rename_i hf <;> simp only [hf] <;> simp <;> omega
  have hcfg := ht.cfg
  rw [hw]
  refine ends_mono (constSamples_ends (s := t) (windowOffset flags inp hist) 4 (fun k => hist.h.getD k 0)
    (.inr ⟨hwe, by rw [hcfg]; omega⟩) (fun k _ => hh k) fun k => by push_cast; rfl) ?_
  rintro _ u ⟨hu, hx⟩
  refine ⟨ht.then hu ?_ (by simp [noByte]), ?_⟩
  · rintro x (h | h)
    · exact .inr h
    · exact .inl h
  · intro a ha
    unfold State.windowSample
    by_cases hin : windowOffset flags inp hist ≤ a ∧ a < windowOffset flags inp hist + 8
    · rw [if_pos hin]
      have := hx ((a - windowOffset flags inp hist) / 2) (by omega)
      rwa [show windowOffset flags inp hist + 2 * ((a - windowOffset flags inp hist) / 2) = a by omega] at this
    · rw [if_neg hin, hu.sample (by unfold inSpan; omega) (by unfold inSpan; omega), hv a ha]

theorem nextCursor_at (w0 pacc pitch n : Nat) :
    nextCursor pitch { w := (windowAt w0 pacc pitch n : Nat), pacc := paccAt pacc pitch n } =
      { w := (windowAt w0 pacc pitch (n + 1) : Nat), pacc := paccAt pacc pitch (n + 1) } := by
  have h : pacc + 2 * pitch * (n + 1) = pacc + 2 * pitch * n + 2 * pitch := by ring
  have h1 : ((windowAt w0 pacc pitch n : Nat) : Int) + 2 * ((paccAt pacc pitch n + 2 * pitch) / 65536 : Nat) =
      (windowAt w0 pacc pitch (n + 1) : Nat) := by
    unfold windowAt paccAt
    rw [h]
    generalize pacc + 2 * pitch * n = A
    omega
  have h2 : (paccAt pacc pitch n + 2 * pitch) % 65536 = paccAt pacc pitch (n + 1) := by
    unfold paccAt
    rw [h]
    generalize pacc + 2 * pitch * n = A
    omega
  unfold nextCursor
  rw [h1, h2]

theorem windowAt_mono (w0 pacc pitch : Nat) {m n : Nat} (h : m ≤ n) :
    windowAt w0 pacc pitch m ≤ windowAt w0 pacc pitch n := by
  unfold windowAt
  have : 2 * pitch * m ≤ 2 * pitch * n := Nat.mul_le_mul_left _ h
  omega

/-- RESAMPLE's outputs, from the state `t` the window set-up left (42_resample.md R123). -/
theorem resampleOutputs_ends {s t : State} {flags : BitVec 8} {inp out : Nat} {hist : ResampleHistory}
    {pitch n w0 : Nat} (hpacc : hist.pacc < 65536) (hcfg : t.cfg = s.cfg)
    (hwin : ∀ a, a % 2 = 0 → scratchSample t a = s.windowSample flags inp hist a) (hw0 : w0 % 2 = 0)
    (ho : t.holdsSamples out n) (hw : n = 0 ∨ windowAt w0 hist.pacc pitch (n - 1) + 8 ≤ t.cfg.scratchBytes) :
    Ends (foldFrom (resampleOutput pitch out) n 0 { w := (w0 : Nat), pacc := hist.pacc }) t fun c u =>
      c = { w := (windowAt w0 hist.pacc pitch n : Nat), pacc := paccAt hist.pacc pitch n } ∧
        Changed t u (inSpan out (2 * n)) noByte ∧
        ∀ m, m < n → scratchSample u (out + 2 * m) =
          sat16 (resampleFilter s.cfg.round (romRow s.cfg (paccAt hist.pacc pitch m))
            (s.resampleTaps u flags inp out hist m (windowAt w0 hist.pacc pitch m))) := by
  have h := ends_foldFrom (f := resampleOutput pitch out) (fun j c u =>
      c = { w := (windowAt w0 hist.pacc pitch j : Nat), pacc := paccAt hist.pacc pitch j } ∧
        Changed t u (inSpan out (2 * j)) noByte ∧
        ∀ m, m < j → scratchSample u (out + 2 * m) =
          sat16 (resampleFilter s.cfg.round (romRow s.cfg (paccAt hist.pacc pitch m))
            (s.resampleTaps u flags inp out hist m (windowAt w0 hist.pacc pitch m))))
      n 0 { w := (w0 : Nat), pacc := hist.pacc } t ?_ ?_
  · rwa [Nat.zero_add] at h
  · rintro j c u _ hj ⟨rfl, hu, hv⟩
    have hg := ho.get (k := j) (by omega)
    have hcu : u.cfg = s.cfg := by rw [hu.cfg, hcfg]
    have hwj : windowAt w0 hist.pacc pitch j + 8 ≤ s.cfg.scratchBytes := by
      have := windowAt_mono w0 hist.pacc pitch (m := j) (n := n - 1) (by omega)
      rw [hcfg] at hw
      omega
    have hpar : ∀ m, windowAt w0 hist.pacc pitch m % 2 = 0 := by
      intro m
      unfold windowAt
      omega
    unfold resampleOutput
    apply ends_bind
    refine ends_ok (get_apply u) ?_
    apply ends_bind
    refine ends_ok (collect_read _ (fun k => scratchSample u (windowAt w0 hist.pacc pitch j + 2 * k)) 4 u
      fun k hk => read16_at _ (by push_cast; rfl) (by have := hpar j; omega) (by rw [hcu]; omega)) ?_
    apply ends_bind
    refine ends_mono (write16_at (out + 2 * j) (by push_cast; rfl) (by omega) (by rw [hu.cfg]; omega)
      (sat16_range _)) ?_
    rintro _ v ⟨hvv, hx⟩
    refine ends_pure ⟨nextCursor_at _ _ _ _, hu.then hvv (by unfold inSpan; omega) (by simp [noByte]), ?_⟩
    have keep : ∀ a, a % 2 = 0 → a ≠ out + 2 * j → scratchSample v a = scratchSample u a := fun a ha hne =>
      hvv.sample (by unfold inSpan; omega) (by unfold inSpan; omega)
    have taps : ∀ m, m ≤ j → s.resampleTaps v flags inp out hist m (windowAt w0 hist.pacc pitch m) =
        s.resampleTaps u flags inp out hist m (windowAt w0 hist.pacc pitch m) := by
      intro m hm
      unfold State.resampleTaps
      apply List.map_congr_left
      intro k _
      unfold State.resampleSource
      split
      · exact keep _ (by have := hpar m; omega) (by omega)
      · rfl
    intro m hm
    by_cases hmj : m = j
    · subst hmj
      rw [hx, hcu, taps m le_rfl]
      congr 2
      unfold State.resampleTaps
      rw [List.range_eq_range']
      apply List.map_congr_left
      intro k _
      unfold State.resampleSource
      split
      · rfl
      · rw [hu.sample (by unfold inSpan; have := hpar m; omega) (by unfold inSpan; have := hpar m; omega)]
        exact hwin _ (by have := hpar m; omega)
    · rw [keep _ (by omega) (by omega), taps m (by omega)]
      exact hv m (by omega)
  · refine ⟨?_, changed_refl _ _ _, fun m hm => by omega⟩
    unfold windowAt paccAt
    simp [Nat.mod_eq_of_lt hpacc, Nat.div_eq_of_lt hpacc]

theorem savedOffset_range (inp w : Int) : 0 ≤ savedOffset inp w ∧ savedOffset inp w ≤ 7 := by
  unfold savedOffset
  omega

/-- RESAMPLE's state save (42_resample.md R126). -/
theorem resampleSave_ends {s : State} {addr : Word} {inp w pacc : Nat}
    (hw : s.writable addr 2 6 ∧ s.writable (addrAdd addr 16) 2 8) (hwe : w % 2 = 0)
    (hpos : 2 * savedOffset inp w ≤ w + 8) (hb : restartOffset inp w + 16 ≤ s.cfg.scratchBytes) :
    Ends (resampleSave addr inp { w := (w : Nat), pacc := pacc }) s fun _ t =>
      Changed s t noByte (resampleRecordBytes addr) ∧
        (∀ k, k < 4 → t.extSample (addrAdd addr (2 * k)) = scratchSample s (w + 2 * k)) ∧
        t.extSample (addrAdd addr 8) = trunc16 pacc ∧
        t.extSample (addrAdd addr 10) = savedOffset inp w ∧
        ∀ k, k < 8 → t.extSample (addrAdd addr (16 + 2 * k)) = scratchSample s (restartOffset inp w + 2 * k) := by
  obtain ⟨w1, w2⟩ := hw
  have hso := savedOffset_range inp w
  have hro : ((restartOffset inp w : Nat) : Int) = w + 8 - 2 * savedOffset inp w := by
    unfold restartOffset
    push_cast
    omega
  have hroe : restartOffset inp w % 2 = 0 := by omega
  unfold resampleSave
  apply ends_bind
  have hb1 : 0 + 2 * 4 ≤ 2 ^ 32 := by norm_num
  have hb2 : 16 + 2 * 8 ≤ 2 ^ 32 := by norm_num
  refine ends_mono (saveSamples_ends (s := s) addr 0 w 4 (.inr ⟨hwe, by omega⟩) hb1
    (fun k hk => by rw [Nat.zero_add]; exact w1 k (by omega))
    fun k => by rw [Nat.zero_add]; push_cast; rfl) ?_
  rintro _ t ⟨ht, hH⟩
  rw [addrAdd_zero] at ht
  apply ends_bind
  refine ends_mono (ends_extWrite16 (s := t) (addrAdd addr 8) _ (ht.writable w1 4 (by norm_num))) ?_
  rintro _ u ⟨hu, hP⟩
  have hsu := ht.trans hu
  apply ends_bind
  refine ends_mono (saveSamples_ends (s := u) addr 16 (restartOffset inp w) 8
    (.inr ⟨hroe, by rw [hsu.cfg]; omega⟩) hb2 (fun k hk => ?_) fun k => ?_) ?_
  · have := hsu.writable w2 k hk
    rwa [addrAdd_addrAdd] at this
  · push_cast
    rw [hro]
  rintro _ v ⟨hv, hR⟩
  have hsv := hsu.trans hv
  refine ends_mono (ends_extWrite16 (s := v) (addrAdd addr 10) _ (hsv.writable w1 5 (by norm_num))) ?_
  rintro _ x ⟨hx, hO⟩
  have far : ∀ {j k n i : Nat}, j + i < 4294967296 → k + n ≤ 4294967296 → (j + i < k ∨ k + n ≤ j + i) →
      ¬ inExtSpan (addrAdd addr k) n (addrAdd (addrAdd addr j) i).toNat :=
    fun h1 h2 h3 => not_inExtSpan addr (by norm_num; exact h1) (by norm_num; exact h2) h3
  have far0 : ∀ {j n i : Nat}, j + i < 4294967296 → n ≤ 4294967296 → (n ≤ j + i) →
      ¬ inExtSpan addr n (addrAdd (addrAdd addr j) i).toNat := by
    intro j n i h1 h2 h3
    have := far (k := 0) (n := n) h1 (by omega) (.inr (by omega))
    rwa [addrAdd_zero] at this
  refine ⟨hsv.then hx (by simp [noByte]) ?_, ?_, ?_, ?_, ?_⟩
  · rintro y (((h | h) | h) | h)
    · exact .inl (by obtain ⟨i, hi, rfl⟩ := h; exact ⟨i, by omega, rfl⟩)
    · exact .inl (inExtSpan_mono addr (by norm_num) h)
    · exact .inr h
    · exact .inl (inExtSpan_mono addr (by norm_num) h)
  · intro k hk
    have := hH k hk
    rw [Nat.zero_add] at this
    rw [hx.extSample fun i hi => far (by omega) (by omega) (by omega),
      hv.extSample fun i hi => far (by omega) (by omega) (by omega),
      hu.extSample fun i hi => far (by omega) (by omega) (by omega), this]
  · rw [hx.extSample fun i hi => far (by omega) (by omega) (by omega),
      hv.extSample fun i hi => far (by omega) (by omega) (by omega), hP]
  · rw [hO]
    exact trunc16_of_range (v := savedOffset inp w) (by omega) (by omega)
  · intro k hk
    rw [hx.extSample fun i hi => far (by omega) (by omega) (by omega), hR k hk,
      hsu.sample (by simp [noByte]) (by simp [noByte])]

/-- RESAMPLE in full (42_resample.md R118 to R126). -/
theorem resampleBody_ends {s : State} {flags : BitVec 8} {pitch : Half} {addr : Word} {i o c : Half}
    {hist : ResampleHistory} {w0 we : Nat} (hflags : ¬ (flagInit flags = true ∧ flagRestart flags = true))
    (hi : s.ctx.inp = some i) (ho : s.ctx.out = some o) (hc : s.ctx.count = some c)
    (hhist : hist = s.resampleHistory flags addr) (hw0 : w0 = windowOffset flags i.toNat hist)
    (hwe : we = windowAt w0 hist.pacc pitch.toNat (8 * groups c.toNat))
    (hfit : windowFits flags i.toNat hist) (hout : s.holdsSamples o.toNat (8 * groups c.toNat))
    (hlast : restartOffset i.toNat we + 16 ≤ s.cfg.scratchBytes)
    (hr : flagInit flags = false → s.readable addr 2 6 ∧ s.readable (addrAdd addr 16) 2 8)
    (hw : s.writable addr 2 6 ∧ s.writable (addrAdd addr 16) 2 8) :
    Ends (resampleBody flags pitch addr) s fun _ t =>
      Changed s t (fun x => windowBytes flags i.toNat hist x ∨ inSpan o.toNat (16 * groups c.toNat) x)
        (resampleRecordBytes addr) ∧
      (∀ n, n < 8 * groups c.toNat → scratchSample t (o.toNat + 2 * n) =
        sat16 (resampleFilter s.cfg.round (romRow s.cfg (paccAt hist.pacc pitch.toNat n))
          (s.resampleTaps t flags i.toNat o.toNat hist n (windowAt w0 hist.pacc pitch.toNat n)))) ∧
      (∀ a, a % 2 = 0 → ¬ inSpan o.toNat (16 * groups c.toNat) a →
        scratchSample t a = s.windowSample flags i.toNat hist a) ∧
      (∀ k, k < 4 → t.extSample (addrAdd addr (2 * k)) = scratchSample t (we + 2 * k)) ∧
      t.extSample (addrAdd addr 8) = trunc16 (paccAt hist.pacc pitch.toNat (8 * groups c.toNat)) ∧
      t.extSample (addrAdd addr 10) = savedOffset i.toNat we ∧
      ∀ k, k < 8 → t.extSample (addrAdd addr (16 + 2 * k)) =
        scratchSample t (restartOffset i.toNat we + 2 * k) := by
  have hofs : hist.ofs < 8 := by rw [hhist]; exact resampleHistory_ofs _ _ _
  have hpacc : hist.pacc < 65536 := by rw [hhist]; exact resampleHistory_pacc _ _ _
  have hgr : 1 ≤ groups c.toNat := by unfold groups; omega
  -- where the window stands
  have hwpar : w0 % 2 = 0 := by
    rw [hw0]
    unfold windowOffset
    have := hfit.1
    split <;> omega
  have hwlow : i.toNat ≤ w0 + 24 ∧ w0 + 8 ≤ i.toNat ∧ i.toNat ≤ w0 + 8 + 16 := by
    rw [hw0]
    have := hfit.2
    unfold windowOffset
    split at this <;> rename_i hf <;> simp only [hf] <;> simp <;> omega
  have hwemono : w0 ≤ we := by
    have := windowAt_mono w0 hist.pacc pitch.toNat (m := 0) (n := 8 * groups c.toNat) (by omega)
    rw [← hwe] at this
    unfold windowAt at this
    simp only [Nat.mul_zero, Nat.add_zero, Nat.div_eq_of_lt hpacc] at this
    exact this
  have hwepar : we % 2 = 0 := by rw [hwe]; unfold windowAt; omega
  have hso := savedOffset_range i.toNat we
  have h16 : 16 ≤ i.toNat ∨ (i.toNat : Int) ≤ w0 + 8 := by
    have h := hfit.2
    rw [hw0]
    unfold windowOffset
    split at h
    · exact .inl h.1
    · rename_i hf
      simp only [hf]
      simp
      omega
  have hpos : 2 * savedOffset i.toNat we ≤ we + 8 := by
    unfold savedOffset
    omega
  have hro : ((restartOffset i.toNat we : Nat) : Int) = we + 8 - 2 * savedOffset i.toNat we := by
    unfold restartOffset
    push_cast
    omega
  have hile : i.toNat ≤ restartOffset i.toNat we + 16 := by
    unfold savedOffset at hro
    omega
  have hwe8 : we + 8 ≤ s.cfg.scratchBytes := by omega
  unfold resampleBody readIn readOut readCount
  rw [if_neg (by simpa using hflags)]
  apply ends_bind
  refine ends_ok (ctxRead_ok hi) ?_
  apply ends_bind
  refine ends_ok (ctxRead_ok hc) ?_
  apply ends_bind
  refine ends_ok (ctxRead_ok ho) ?_
  apply ends_bind
  refine ends_ok (resampleLoad_reads hr) ?_
  rw [← hhist]
  apply ends_bind
  refine ends_mono (resampleWindow_ends (s := s) hfit hofs (by omega)
    (by rw [hhist]; exact resampleHistory_h _ _ _) (by rw [hhist]; exact resampleHistory_rh _ _ _)) ?_
  rintro _ t ⟨ht, hwin⟩
  have hstart : windowStart flags i.toNat hist = (w0 : Nat) := by
    rw [hw0]
    have := hfit.2
    unfold windowStart windowOffset
    split at this <;> rename_i hf <;> simp only [hf] <;> simp <;> omega
  rw [hstart]
  apply ends_bind
  refine ends_mono (resampleOutputs_ends (s := s) (t := t) (flags := flags) (inp := i.toNat) hpacc ht.cfg hwin hwpar
    (ht.holdsSamples hout) (.inr ?_)) ?_
  · rw [ht.cfg]
    have := windowAt_mono w0 hist.pacc pitch.toNat (m := 8 * groups c.toNat - 1) (n := 8 * groups c.toNat) (by omega)
    omega
  rintro _ u ⟨rfl, hu, hv⟩
  rw [← hwe]
  have hsu := ht.trans hu
  refine ends_mono (resampleSave_ends (s := u) (addr := addr) (inp := i.toNat) (w := we) ?_ hwepar hpos
    (by rw [hsu.cfg]; exact hlast)) ?_
  · exact ⟨hsu.writable hw.1, hsu.writable hw.2⟩
  rintro _ v ⟨hvv, hH, hP, hO, hR⟩
  have keep : ∀ a, scratchSample v a = scratchSample u a := fun a =>
    hvv.sample (by simp [noByte]) (by simp [noByte])
  refine ⟨hsu.then hvv ?_ ?_, ?_, ?_, ?_, hP, hO, ?_⟩
  · rintro x ((h | h) | h)
    · exact .inl h
    · refine .inr ?_
      unfold inSpan at h ⊢
      omega
    · exact h.elim
  · rintro x ((h | h) | h)
    · exact h.elim
    · exact h.elim
    · exact h
  · intro n hn
    rw [keep, hv n hn]
    congr 2
    unfold State.resampleTaps
    apply List.map_congr_left
    intro k _
    unfold State.resampleSource
    split
    · exact (keep _).symm
    · rfl
  · intro a ha hout'
    have hoe : o.toNat % 2 = 0 := (hout.get (k := 0) (by omega)).1
    unfold inSpan at hout'
    rw [keep, hu.sample (by unfold inSpan; omega) (by unfold inSpan; omega), hwin a ha]
  · intro k hk
    rw [hH k hk, keep]
  · intro k hk
    rw [hR k hk, keep]

end Sys2Proof.Machine
end

