-- ==== Sys2Proof/Laws/State.lean ====
section
/-! SUPPORT. One lemma per field for each named update of the state: the advance of CP, fault entry, the replacing of a
reverb instance, and the end of a run. -/

namespace Sys2Proof.Machine

/-! ### `cp <- cp + 1` (10_state.md R21) -/

@[simp] theorem advance_cfg (s : State) : (advance s).cfg = s.cfg := rfl
@[simp] theorem advance_status (s : State) : (advance s).status = s.status := rfl
@[simp] theorem advance_faultCause (s : State) : (advance s).faultCause = s.faultCause := rfl
@[simp] theorem advance_faultCp (s : State) : (advance s).faultCp = s.faultCp := rfl
@[simp] theorem advance_faultInfo (s : State) : (advance s).faultInfo = s.faultInfo := rfl
@[simp] theorem advance_cmdBase (s : State) : (advance s).cmdBase = s.cmdBase := rfl
@[simp] theorem advance_cmdCount (s : State) : (advance s).cmdCount = s.cmdCount := rfl
@[simp] theorem advance_cp (s : State) : (advance s).cp = s.cp + 1 := rfl
@[simp] theorem advance_ctx (s : State) : (advance s).ctx = s.ctx := rfl
@[simp] theorem advance_book (s : State) : (advance s).book = s.book := rfl
@[simp] theorem advance_scratch (s : State) : (advance s).scratch = s.scratch := rfl
@[simp] theorem advance_reverb (s : State) : (advance s).reverb = s.reverb := rfl
@[simp] theorem advance_ext (s : State) : (advance s).ext = s.ext := rfl
@[simp] theorem advance_host (s : State) : (advance s).host = s.host := rfl
@[simp] theorem advance_readData (s : State) : (advance s).readData = s.readData := rfl
@[simp] theorem advance_draws (s : State) : (advance s).draws = s.draws := rfl
@[simp] theorem advance_raced (s : State) : (advance s).raced = s.raced := rfl
@[simp] theorem advance_past (s : State) : (advance s).past = s.past := rfl

/-! ### Fault entry (60_exceptions.md R187) -/

@[simp] theorem takeFault_cfg (e : Trap) (s : State) : (takeFault e s).cfg = s.cfg := rfl
@[simp] theorem takeFault_status (e : Trap) (s : State) :
    (takeFault e s).status = { s.status with fault := true, busy := false } := rfl
@[simp] theorem takeFault_faultCause (e : Trap) (s : State) : (takeFault e s).faultCause = causeCode e.cause := rfl
@[simp] theorem takeFault_faultCp (e : Trap) (s : State) : (takeFault e s).faultCp = s.cp := rfl
@[simp] theorem takeFault_faultInfo (e : Trap) (s : State) : (takeFault e s).faultInfo = e.info := rfl
@[simp] theorem takeFault_cmdBase (e : Trap) (s : State) : (takeFault e s).cmdBase = s.cmdBase := rfl
@[simp] theorem takeFault_cmdCount (e : Trap) (s : State) : (takeFault e s).cmdCount = s.cmdCount := rfl
@[simp] theorem takeFault_cp (e : Trap) (s : State) : (takeFault e s).cp = s.cp := rfl
@[simp] theorem takeFault_ctx (e : Trap) (s : State) : (takeFault e s).ctx = s.ctx := rfl
@[simp] theorem takeFault_book (e : Trap) (s : State) : (takeFault e s).book = s.book := rfl
@[simp] theorem takeFault_scratch (e : Trap) (s : State) : (takeFault e s).scratch = s.scratch := rfl
@[simp] theorem takeFault_reverb (e : Trap) (s : State) : (takeFault e s).reverb = s.reverb := rfl
@[simp] theorem takeFault_ext (e : Trap) (s : State) : (takeFault e s).ext = s.ext := rfl
@[simp] theorem takeFault_host (e : Trap) (s : State) : (takeFault e s).host = s.host := rfl
@[simp] theorem takeFault_readData (e : Trap) (s : State) : (takeFault e s).readData = s.readData := rfl
@[simp] theorem takeFault_draws (e : Trap) (s : State) : (takeFault e s).draws = s.draws := rfl
@[simp] theorem takeFault_raced (e : Trap) (s : State) : (takeFault e s).raced = s.raced := rfl
@[simp] theorem takeFault_past (e : Trap) (s : State) : (takeFault e s).past = s.past := rfl

/-! ### A reverb instance replaced (10_state.md R32 to R41) -/

@[simp] theorem setReverb_cfg (s : State) (r : Nat) (rb : Reverb) : (setReverb s r rb).cfg = s.cfg := rfl
@[simp] theorem setReverb_status (s : State) (r : Nat) (rb : Reverb) : (setReverb s r rb).status = s.status := rfl
@[simp] theorem setReverb_faultCause (s : State) (r : Nat) (rb : Reverb) : (setReverb s r rb).faultCause = s.faultCause := rfl
@[simp] theorem setReverb_faultCp (s : State) (r : Nat) (rb : Reverb) : (setReverb s r rb).faultCp = s.faultCp := rfl
@[simp] theorem setReverb_faultInfo (s : State) (r : Nat) (rb : Reverb) : (setReverb s r rb).faultInfo = s.faultInfo := rfl
@[simp] theorem setReverb_cmdBase (s : State) (r : Nat) (rb : Reverb) : (setReverb s r rb).cmdBase = s.cmdBase := rfl
@[simp] theorem setReverb_cmdCount (s : State) (r : Nat) (rb : Reverb) : (setReverb s r rb).cmdCount = s.cmdCount := rfl
@[simp] theorem setReverb_cp (s : State) (r : Nat) (rb : Reverb) : (setReverb s r rb).cp = s.cp := rfl
@[simp] theorem setReverb_ctx (s : State) (r : Nat) (rb : Reverb) : (setReverb s r rb).ctx = s.ctx := rfl
@[simp] theorem setReverb_book (s : State) (r : Nat) (rb : Reverb) : (setReverb s r rb).book = s.book := rfl
@[simp] theorem setReverb_scratch (s : State) (r : Nat) (rb : Reverb) : (setReverb s r rb).scratch = s.scratch := rfl
@[simp] theorem setReverb_reverb (s : State) (r : Nat) (rb : Reverb) : (setReverb s r rb).reverb = s.reverb.set r rb := rfl
@[simp] theorem setReverb_ext (s : State) (r : Nat) (rb : Reverb) : (setReverb s r rb).ext = s.ext := rfl
@[simp] theorem setReverb_host (s : State) (r : Nat) (rb : Reverb) : (setReverb s r rb).host = s.host := rfl
@[simp] theorem setReverb_readData (s : State) (r : Nat) (rb : Reverb) : (setReverb s r rb).readData = s.readData := rfl
@[simp] theorem setReverb_draws (s : State) (r : Nat) (rb : Reverb) : (setReverb s r rb).draws = s.draws := rfl
@[simp] theorem setReverb_raced (s : State) (r : Nat) (rb : Reverb) : (setReverb s r rb).raced = s.raced := rfl
@[simp] theorem setReverb_past (s : State) (r : Nat) (rb : Reverb) : (setReverb s r rb).past = s.past := rfl

/-! ### The end of a run (60_exceptions.md R198) -/

/-- The end of a run changes STATUS alone. -/
theorem endOfRun_rest (s : State) : endOfRun s = { s with status := (endOfRun s).status } := by
  unfold endOfRun
  split <;> rfl

/-- STATUS after the end of a run: BUSY off and DONE on when the last command has completed. -/
theorem endOfRun_status (s : State) : (endOfRun s).status =
    if s.status.busy = true ∧ s.cp = s.cmdCount then { s.status with busy := false, done := true } else s.status := by
  unfold endOfRun
  by_cases h : s.status.busy = true ∧ s.cp = s.cmdCount
  · rw [if_pos h, if_pos (by simp [h.1, h.2])]
  · rw [if_neg h, if_neg (by simpa using h)]

/-- A state that is not BUSY is no end of a run. -/
theorem endOfRun_idle {s : State} (h : s.status.busy = false) : endOfRun s = s := by simp [endOfRun, h]

/-- A state with commands left is no end of a run. -/
theorem endOfRun_left {s : State} (h : s.cp ≠ s.cmdCount) : endOfRun s = s := by simp [endOfRun, h]

@[simp] theorem endOfRun_cfg (s : State) : (endOfRun s).cfg = s.cfg := by unfold endOfRun; split <;> rfl
@[simp] theorem endOfRun_faultCause (s : State) : (endOfRun s).faultCause = s.faultCause := by unfold endOfRun; split <;> rfl
@[simp] theorem endOfRun_faultCp (s : State) : (endOfRun s).faultCp = s.faultCp := by unfold endOfRun; split <;> rfl
@[simp] theorem endOfRun_faultInfo (s : State) : (endOfRun s).faultInfo = s.faultInfo := by unfold endOfRun; split <;> rfl
@[simp] theorem endOfRun_cmdBase (s : State) : (endOfRun s).cmdBase = s.cmdBase := by unfold endOfRun; split <;> rfl
@[simp] theorem endOfRun_cmdCount (s : State) : (endOfRun s).cmdCount = s.cmdCount := by unfold endOfRun; split <;> rfl
@[simp] theorem endOfRun_cp (s : State) : (endOfRun s).cp = s.cp := by unfold endOfRun; split <;> rfl
@[simp] theorem endOfRun_ctx (s : State) : (endOfRun s).ctx = s.ctx := by unfold endOfRun; split <;> rfl
@[simp] theorem endOfRun_book (s : State) : (endOfRun s).book = s.book := by unfold endOfRun; split <;> rfl
@[simp] theorem endOfRun_scratch (s : State) : (endOfRun s).scratch = s.scratch := by unfold endOfRun; split <;> rfl
@[simp] theorem endOfRun_reverb (s : State) : (endOfRun s).reverb = s.reverb := by unfold endOfRun; split <;> rfl
@[simp] theorem endOfRun_ext (s : State) : (endOfRun s).ext = s.ext := by unfold endOfRun; split <;> rfl
@[simp] theorem endOfRun_host (s : State) : (endOfRun s).host = s.host := by unfold endOfRun; split <;> rfl
@[simp] theorem endOfRun_readData (s : State) : (endOfRun s).readData = s.readData := by unfold endOfRun; split <;> rfl
@[simp] theorem endOfRun_draws (s : State) : (endOfRun s).draws = s.draws := by unfold endOfRun; split <;> rfl
@[simp] theorem endOfRun_raced (s : State) : (endOfRun s).raced = s.raced := by unfold endOfRun; split <;> rfl
@[simp] theorem endOfRun_past (s : State) : (endOfRun s).past = s.past := by unfold endOfRun; split <;> rfl

end Sys2Proof.Machine
end

