-- ==== Sys2Proof/Laws/Transfer.lean ====
section
/-! SUPPORT. What CLEARBUFF, DMEMMOVE, LOADADPCM, LOADBUFF and SAVEBUFF leave when their operands are admitted. -/

namespace Sys2Proof.Machine

/-- The canonical loop over bytes: round `j` changes byte `a + j` alone. -/
theorem ends_writeBytes {f : Nat → M Unit} {s : State} (a n : Nat) (b : Nat → Byte) (hs : s.holds a n)
    (hf : ∀ j t, j < n → Changed s t (inSpan a j) noByte → a + j + 1 ≤ t.cfg.scratchBytes →
      Ends (f j) t fun _ u => Changed t u (inSpan (a + j) 1) noByte ∧ Memory.read u.scratch (a + j) = b j) :
    Ends (forRange n f) s fun _ t =>
      Changed s t (inSpan a n) noByte ∧ ∀ j, j < n → Memory.read t.scratch (a + j) = b j := by
  apply ends_forRange fun j t =>
    Changed s t (inSpan a j) noByte ∧ ∀ i, i < j → Memory.read t.scratch (a + i) = b i
  · rintro j t hj ⟨hc, hb⟩
    have hle : a + j + 1 ≤ t.cfg.scratchBytes := by
      rw [hc.cfg]
      rcases hs with h | h <;> omega
    refine ends_mono (hf j t hj hc hle) ?_
    rintro _ u ⟨hu, hv⟩
    refine ⟨hc.then hu (by unfold inSpan; omega) (by simp [noByte]), ?_⟩
    intro i hi
    by_cases hij : i = j
    · rw [hij, hv]
    · rw [hu.scratch _ (by unfold inSpan; omega), hb i (by omega)]
  · exact ⟨changed_refl _ _ _, fun i hi => by omega⟩

theorem clearbuffBody_ends {s : State} {dmem count : Half} (h : s.holds dmem.toNat (ru count.toNat 16)) :
    Ends (clearbuffBody dmem count) s fun _ t =>
      Changed s t (inSpan dmem.toNat (ru count.toNat 16)) noByte ∧
        ∀ j, j < ru count.toNat 16 → Memory.read t.scratch (dmem.toNat + j) = 0 := by
  apply ends_writeBytes dmem.toNat _ (fun _ => 0) h
  intro j t _ _ hle
  have := ends_sWrite8 (s := t) (dmem.toNat + j) 0 hle
  simpa only [Nat.cast_add] using this

theorem dmemmoveBody_ends {s : State} {inp out count : Half} (hi : s.holds inp.toNat (ru count.toNat 16))
    (ho : s.holds out.toNat (ru count.toNat 16)) :
    Ends (dmemmoveBody inp out count) s fun _ t =>
      Changed s t (inSpan out.toNat (ru count.toNat 16)) noByte ∧
        ∀ j, j < ru count.toNat 16 →
          Memory.read t.scratch (out.toNat + j) = Memory.read s.scratch (inp.toNat + j) := by
  unfold dmemmoveBody
  apply ends_bind
  have hr : ∀ j, j < ru count.toNat 16 →
      (fun k : Nat => sRead8 ((inp.toNat : Int) + k)) j s = .ok (Memory.read s.scratch (inp.toNat + j)) s := by
    intro j hj
    have := ends_sRead8 (s := s) (inp.toNat + j) (by rcases hi with h | h <;> omega)
    simpa only [Nat.cast_add] using this
  refine ends_ok (collect_read _ (fun j => Memory.read s.scratch (inp.toNat + j)) _ s hr) ?_
  refine ends_mono (ends_writeBytes out.toNat _ (fun j =>
    ((List.range' 0 (ru count.toNat 16)).map fun j => Memory.read s.scratch (inp.toNat + j)).getD j 0) ho ?_) ?_
  · intro j t _ _ hle
    have := ends_sWrite8 (s := t) (out.toNat + j)
      (((List.range' 0 (ru count.toNat 16)).map fun j => Memory.read s.scratch (inp.toNat + j)).getD j 0) hle
    simpa only [Nat.cast_add] using this
  · rintro _ t ⟨hc, hb⟩
    refine ⟨hc, fun j hj => ?_⟩
    rw [hb j hj, getD_range'_map _ _ _ _ _ hj, Nat.zero_add]

theorem loadbuffBody_ends {s : State} {addr : Word} {i c : Half} (hi : s.ctx.inp = some i)
    (hc : s.ctx.count = some c) (hs : s.holds i.toNat (ru c.toNat 8)) (hr : s.readable addr 1 (ru c.toNat 8)) :
    Ends (loadbuffBody addr) s fun _ t =>
      Changed s t (inSpan i.toNat (ru c.toNat 8)) noByte ∧
        ∀ j, j < ru c.toNat 8 → Memory.read t.scratch (i.toNat + j) = s.extByte addr j := by
  unfold loadbuffBody readIn readCount
  apply ends_bind
  refine ends_ok (ctxRead_ok hi) ?_
  apply ends_bind
  refine ends_ok (ctxRead_ok hc) ?_
  apply ends_writeBytes i.toNat _ (fun j => s.extByte addr j) hs
  intro j t hj ht hle
  apply ends_bind
  have hadm := ht.readable hr j hj
  rw [Nat.one_mul] at hadm
  refine ends_ok (memRead1_reads hadm) ?_
  have := ends_sWrite8 (s := t) (i.toNat + j) (BitVec.ofNat 8 (Memory.read t.ext (addrAdd addr j).toNat).toNat) hle
  refine ends_mono (by simpa only [Nat.cast_add] using this) ?_
  rintro _ u ⟨hu, hv⟩
  refine ⟨hu, ?_⟩
  rw [hv, ht.ext_read]
  simp [State.extByte]

theorem savebuffBody_ends {s : State} {addr : Word} {o c : Half} (ho : s.ctx.out = some o)
    (hc : s.ctx.count = some c) (hs : s.holds o.toNat (ru c.toNat 8)) (hw : s.writable addr 1 (ru c.toNat 8)) :
    Ends (savebuffBody addr) s fun _ t =>
      Changed s t noByte (inExtSpan addr (ru c.toNat 8)) ∧
        ∀ j, j < ru c.toNat 8 → t.extByte addr j = Memory.read s.scratch (o.toNat + j) := by
  unfold savebuffBody readOut readCount
  apply ends_bind
  refine ends_ok (ctxRead_ok ho) ?_
  apply ends_bind
  refine ends_ok (ctxRead_ok hc) ?_
  have hn : ru c.toNat 8 ≤ 65536 := by
    have := c.isLt
    unfold ru
    omega
  apply ends_forRange fun j t =>
    Changed s t noByte (inExtSpan addr j) ∧ ∀ i, i < j → t.extByte addr i = Memory.read s.scratch (o.toNat + i)
  · rintro j t hj ⟨ht, hb⟩
    apply ends_bind
    have hle : o.toNat + j + 1 ≤ t.cfg.scratchBytes := by
      rw [ht.cfg]
      rcases hs with h | h <;> omega
    refine ends_ok (by simpa only [Nat.cast_add] using ends_sRead8 (s := t) (o.toNat + j) hle) ?_
    have hadm := ht.writable hw j hj
    rw [Nat.one_mul] at hadm
    refine ends_mono (ends_memWrite _ 1 _ (by norm_num) hadm) ?_
    rintro _ u ⟨hu, hv⟩
    refine ⟨ht.then hu (by simp [noByte]) ?_, ?_⟩
    · rintro x (hx | hx)
      · obtain ⟨i, hi, rfl⟩ := hx
        exact ⟨i, by omega, rfl⟩
      · exact inExtSpan_mono addr (by omega) hx
    · intro i hi
      by_cases hij : i = j
      · subst hij
        have h0 := congrArg (fun l => l.getD 0 0) hv
        have he : toBytes t.cfg.endian 1 (Memory.read t.scratch (o.toNat + i)).toNat =
            [Memory.read t.scratch (o.toNat + i)] := by
          cases t.cfg.endian <;> simp [toBytes, bytesLE]
        rw [he] at h0
        simp only [extBytes, List.range_one, List.map_cons, List.map_nil, List.getD_cons_zero,
          addrAdd_zero] at h0
        rw [State.extByte, h0, ht.scratch_read]
      · rw [← hb i (by omega)]
        apply hu.ext
        have := not_inExtSpan addr (j := i) (k := j) (n := 1) (i := 0) (by omega) (by omega) (by omega)
        rwa [addrAdd_zero] at this
  · exact ⟨changed_refl _ _ _, fun i hi => by omega⟩

/-- LOADADPCM leaves the book with the loaded bytes written and everything else as it was. -/
theorem loadadpcmBody_ends {s : State} {count : BitVec 24} {addr : Word} (hc : count.toNat ≤ 256)
    (hr : s.readable addr 1 count.toNat) :
    Ends (loadadpcmBody count addr) s fun _ t =>
      t = { s with book := t.book } ∧ ∀ k, Book.read t.book k =
        if k < count.toNat then some (s.extByte addr k) else Book.read s.book k := by
  unfold loadadpcmBody
  rw [if_neg (by omega)]
  apply ends_forRange fun j t =>
    t = { s with book := t.book } ∧ ∀ k, Book.read t.book k =
      if k < j then some (s.extByte addr k) else Book.read s.book k
  · rintro j t hj ⟨ht, hb⟩
    apply ends_bind
    have hadm := hr j hj
    rw [Nat.one_mul] at hadm
    have hadm' : t.mayRead (addrAdd addr j) 1 := by
      rw [ht]
      exact hadm
    refine ends_ok (memRead1_reads hadm') ?_
    refine ends_ok (t := { t with book := Book.write t.book j _ }) (x := ()) rfl ⟨?_, ?_⟩
    · rw [ht]
    · intro k
      show Book.read (Book.write t.book j _) k = _
      have he : t.ext = s.ext := by rw [ht]
      rw [Book.read_write, hb k, he]
      by_cases hk : k = j
      · subst hk
        simp [State.extByte]
      · rw [if_neg hk]
        by_cases hlt : k < j
        · rw [if_pos hlt, if_pos (by omega)]
        · rw [if_neg hlt, if_neg (by omega)]
  · exact ⟨rfl, fun k => by simp⟩

end Sys2Proof.Machine
end

