-- ==== Sys2Proof/Tests/Slice0.lean ====
section
/-! SUPPORT. Tests. Expected values come from the spec: its encoding table and examples (30_encoding.md R84, R95), the
worked examples of its rules and the vectors of 95_test_vectors.md. -/

namespace Sys2Proof.Tests

set_option Elab.async false

open Sys2Proof Sys2Proof.Machine

/-! ### Helpers -/

/-- Samples stored in the scratch from `a`. -/
def putScratch (s : State) (a : Nat) : List Int → State
  | [] => s
  | x :: xs => putScratch { s with scratch := storeBytes s.scratch a (toBytes s.cfg.endian 2 (mod16 x)) } (a + 2) xs

/-- Samples stored in external memory from `a`. -/
def putExt (s : State) (a : Nat) : List Int → State
  | [] => s
  | x :: xs =>
    putExt { s with ext := storeExt s.ext (BitVec.ofNat 32 a) (toBytes s.cfg.endian 2 (mod16 x)) } (a + 2) xs

/-- `n` scratch samples from `a`. -/
def samples (s : State) (a n : Nat) : List Int := (List.range n).map fun k => scratchSample s (a + 2 * k)

/-- `n` external samples from `a`. -/
def extSamples (s : State) (a n : Nat) : List Int :=
  (List.range n).map fun k => sext16 (ofBytes s.cfg.endian (extBytes s (BitVec.ofNat 32 (a + 2 * k)) 2))

/-- What `f` finds in the next state of an outcome. -/
def found {α : Type} (o : Host.Outcome State Fault Refusal) (f : State → α) : Option α :=
  match o with
  | .next t => some (f t)
  | .fault _ => none
  | .refused _ => none

/-- IN, OUT and COUNT set. -/
def withBuffers (s : State) (i o c : Half) : State :=
  { s with ctx := { s.ctx with inp := some i, out := some o, count := some c } }

/-- Cause and info of a fault, and CP. -/
def faultOf (t : State) : Nat × Nat × Nat := (t.faultCause.toNat, t.faultInfo.toNat, t.cp.toNat)

/-- An instance with the values of 45_reverb.md R172's examples: capacity 100, cursor 90, in use. -/
def ring100 : Reverb := { Reverb.atReset 4 with ctrl := 1, cap := 100, wptr := 90 }

/-! ### The decoder at the words of 30_encoding.md R84 -/

/-- 0x00, every other bit 0 -/
theorem test_decode_noop : decode 0x0000000000000000#64 = .ok .noop := by decide

/-- 0x01, flags LOOP and INIT, addr in w1 -/
theorem test_decode_adpcm : decode 0x0103000012345678#64 = .ok (.adpcm 0x03 0x12345678) := by decide

/-- 0x02, dmem in w0 low, count in w1 low -/
theorem test_decode_clearbuff : decode 0x020012340000ABCD#64 = .ok (.clearbuff 0x1234 0xABCD) := by decide

/-- 0x03, flags AUX and INIT -/
theorem test_decode_envmixer : decode 0x0309000000006000#64 = .ok (.envmixer 0x09 0x6000) := by decide

theorem test_decode_loadbuff : decode 0x0400000089ABCDEF#64 = .ok (.loadbuff 0x89ABCDEF) := by decide

theorem test_decode_resample : decode 0x0502432189ABCDEF#64 = .ok (.resample 0x02 0x4321 0x89ABCDEF) := by decide

theorem test_decode_savebuff : decode 0x0600000089ABCDEF#64 = .ok (.savebuff 0x89ABCDEF) := by decide

/-- 0x08, in, out, count from the top down -/
theorem test_decode_setbuff : decode 0x0808032005000510#64 = .ok (.setbuff 0x08 0x0320 0x0500 0x0510) := by decide

theorem test_decode_setvol : decode 0x0902200000018000#64 = .ok (.setvol 0x02 0x2000 0x0001 0x8000) := by decide

theorem test_decode_dmemmove : decode 0x0A00111122223333#64 = .ok (.dmemmove 0x1111 0x2222 0x3333) := by decide

/-- 0x0B, count in w0[23:0] -/
theorem test_decode_loadadpcm : decode 0x0B12345600001000#64 = .ok (.loadadpcm 0x123456 0x1000) := by decide

theorem test_decode_mixer : decode 0x0C00800002000300#64 = .ok (.mixer 0x8000 0x0200 0x0300) := by decide

theorem test_decode_interleave : decode 0x0D00000011112222#64 = .ok (.interleave 0x1111 0x2222) := by decide

theorem test_decode_setloop : decode 0x0F00000000003000#64 = .ok (.setloop 0x3000) := by decide

theorem test_decode_setreg : decode 0x1000010100000010#64 = .ok (.setreg 0x0101 0x10) := by decide

/-- 0x11, r in w0[15:8], u in w0[7:0], len in w1 low -/
theorem test_decode_rbprep : decode 0x1100010200000014#64 = .ok (.rbprep 1 2 20) := by decide

theorem test_decode_rbread : decode 0x1200010205000540#64 = .ok (.rbread 1 2 0x0500 0x0540) := by decide

theorem test_decode_rbwrite : decode 0x13000102058005C0#64 = .ok (.rbwrite 1 2 0x0580 0x05C0) := by decide

theorem test_decode_rbframe : decode 0x1400010000000000#64 = .ok (.rbframe 1) := by decide

/-- 0x15, left in w0[23:12], right in w0[11:0] -/
theorem test_decode_interleaveExt : decode 0x1540050000008000#64 = .ok (.interleaveExt 0x400 0x500 0x8000) := by
  decide

/-- The reserved words of 95_test_vectors.md section 2, and the two reserved opcodes around 0x0D. -/
theorem test_decode_refuses :
    decode 0x0700000000000000#64 = .error .reservedOpcode ∧ decode 0x0E00000000000000#64 = .error .reservedOpcode ∧
    decode 0x1600000000000000#64 = .error .reservedOpcode ∧ decode 0x0100000100003000#64 = .error .reservedBits ∧
    decode 0x0302000000006000#64 = .error .reservedBits ∧ decode 0x0000000000000001#64 = .error .reservedBits := by
  decide

/-- The bytes of 0x08000000 01000020 in both byte orders (95_test_vectors.md section 2, 30_encoding.md R79). -/
theorem test_decodeBytes :
    decodeBytes .little [0x00, 0x00, 0x00, 0x08, 0x20, 0x00, 0x00, 0x01] = .ok (.setbuff 0 0 0x100 0x20) ∧
    decodeBytes .big [0x08, 0x00, 0x00, 0x00, 0x01, 0x00, 0x00, 0x20] = .ok (.setbuff 0 0 0x100 0x20) ∧
    decodeBytes .little [0x00, 0x00, 0x00, 0x08] = .error .truncated := by
  decide +kernel

theorem test_decodeTableWord :
    decodeTableWord 64 0x0101000000002000 = some (.adpcm 0x01 0x2000) ∧
      decodeTableWord 64 0x0700000000000000 = none := by
  decide +kernel

/-! ### WellFormed and the parameters: each check refuses an ill-formed term -/

theorem test_wellFormed_adpcm : (Instr.adpcm 0x04 0).wellFormed = false := by decide
theorem test_wellFormed_resample : (Instr.resample 0x08 0 0).wellFormed = false := by decide
theorem test_wellFormed_envmixer : (Instr.envmixer 0x02 0).wellFormed = false := by decide
theorem test_wellFormed_setbuff : (Instr.setbuff 0x01 0 0 0).wellFormed = false := by decide
theorem test_wellFormed_setvol : (Instr.setvol 0x01 0 0 0).wellFormed = false := by decide

/-- Each clause of the parameters' legality refuses a value just outside it (00_scope.md R8 to R15). -/
theorem test_legal :
    defaultParams.legal = true ∧ { defaultParams with scratchBytes := 2032 }.legal = false ∧
    { defaultParams with scratchBytes := 4112 }.legal = false ∧
    { defaultParams with scratchBytes := 2520 }.legal = false ∧ { defaultParams with histBytes := 2 }.legal = false ∧
    { defaultParams with histBytes := 17 }.legal = false ∧ { defaultParams with rom := [] }.legal = false ∧
    { defaultParams with numReverb := 0 }.legal = false ∧ { defaultParams with numReverb := 9 }.legal = false ∧
    { defaultParams with maxChunks := 0 }.legal = false ∧ { defaultParams with maxChunks := 33 }.legal = false := by
  decide +kernel

/-- Rows 31 and 32 of the default ROM as 42_resample.md R130 gives them, one the mirror of the other. -/
theorem test_rom : defaultRom.getD 31 ⟨0, 0, 0, 0⟩ = ⟨0xfeb6#16, 0x424a#16, 0x4060#16, 0xfeaf#16⟩ ∧
    defaultRom.getD 32 ⟨0, 0, 0, 0⟩ = ⟨0xfeaf#16, 0x4060#16, 0x424a#16, 0xfeb6#16⟩ := by
  decide +kernel

/-! ### Context and transfers (95_test_vectors.md section 3) -/

/-- K-14 -/
theorem test_noop : found (exec .noop State.reset) (fun t => (t.cp.toNat, t.scratch, t.ext)) = some (1, [], []) := by
  decide +kernel

/-- K-2 on the state of K-1: IN stays, WET_RIGHT is the third operand. -/
theorem test_setbuff_aux :
    found (exec (.setbuff 0x08 0x320 0x500 0x510) (withBuffers State.reset 0x200 0x300 16))
      (fun t => (t.ctx.inp, t.ctx.dryRight, t.ctx.wetLeft, t.ctx.wetRight)) =
    some (some 0x200, some 0x320, some 0x500, some 0x510) := by
  decide +kernel

/-- K-3 -/
theorem test_setvol_rate : found (exec (.setvol 0x02 0x2000 0x0001 0x8000) State.reset)
    (fun t => (t.ctx.targetL, t.ctx.rateL, t.ctx.targetR)) = some (some 0x2000, some 0x00018000, none) := by
  decide +kernel

/-- K-6: AUX wins. -/
theorem test_setvol_aux : found (exec (.setvol 0x0E 0x1234 0 0x0042) State.reset)
    (fun t => (t.ctx.volDry, t.ctx.volWet, t.ctx.volL)) = some (some 0x1234, some 0x0042, none) := by
  decide +kernel

/-- K-7 -/
theorem test_setloop : found (exec (.setloop 0x3000) State.reset) (fun t => (t.ctx.loopAddr, t.cp.toNat)) =
    some (some 0x3000, 1) := by
  decide +kernel

/-- K-8: 20 rounds to 32 bytes; the sample behind them stays. -/
theorem test_clearbuff :
    found (exec (.clearbuff 0x10 20) (putScratch State.reset 0x10 (List.replicate 17 (-21846))))
      (fun t => samples t 0x10 17) = some (List.replicate 16 0 ++ [-21846]) := by
  decide +kernel

/-- K-10, with samples: DMEMMOVE 0, 8, 8 copies 16 bytes of the old contents. -/
theorem test_dmemmove :
    found (exec (.dmemmove 0 8 8) (putScratch State.reset 0 [1, 2, 3, 4, 5, 6, 7, 8])) (fun t => samples t 0 13) =
      some [1, 2, 3, 4, 1, 2, 3, 4, 5, 6, 7, 8, 0] := by
  decide +kernel

/-- K-13: the coefficient bytes 0 to 31 are written, byte 32 is not. -/
theorem test_loadadpcm :
    found (exec (.loadadpcm 32 0x4000) (putExt State.reset 0x4000 [0x1234]))
      (fun t => (Book.read t.book 0, Book.read t.book 1, Book.read t.book 31, Book.read t.book 32)) =
    some (some 0x34, some 0x12, some 0, none) := by
  decide +kernel

/-- 40_context_and_scratch.md R104: 257 bytes overflow the book before any access. -/
theorem test_loadadpcm_overflow :
    found (exec (.loadadpcm 257 0) State.reset) (fun t => (faultOf t, t.book)) = some ((6, 257, 0), []) := by
  decide +kernel

/-- K-11: COUNT = 9 moves 16 bytes to IN. -/
theorem test_loadbuff :
    found (exec (.loadbuff 0x5000)
        (putExt (withBuffers State.reset 0x200 0 9) 0x5000 [1, 2, 3, 4, 5, 6, 7, 8, 9])) (fun t => samples t 0x200 9) =
      some [1, 2, 3, 4, 5, 6, 7, 8, 0] := by
  decide +kernel

/-- K-12: COUNT = 4 moves 8 bytes from OUT. -/
theorem test_savebuff :
    found (exec (.savebuff 0x6000) (putScratch (withBuffers State.reset 0 0x300 4) 0x300 [1, -2, 3, -4, 5]))
      (fun t => extSamples t 0x6000 5) = some [1, -2, 3, -4, 0] := by
  decide +kernel

/-- 20_memory.md R67: a write into the command list faults with its address. -/
theorem test_savebuff_overlap :
    found (exec (.savebuff 0x7FD)
        { withBuffers State.reset 0 0x300 4 with cmdBase := 0x800, cmdCount := 1 }) faultOf = some (11, 0x800, 0) := by
  decide +kernel

/-! ### ADPCM, RESAMPLE, ENVMIXER (95_test_vectors.md sections 4 to 6) -/

/-- A book of `n` zero bytes. -/
def zeroBook (n : Nat) : Book := (List.range n).map fun k => (k, 0)

/-- A-1 -/
theorem test_adpcm :
    found (exec (.adpcm 0x01 0x3000)
        (putScratch { withBuffers State.reset 0x200 0x100 32 with book := zeroBook 32 } 0x200
          [0x1200, 0x5634, -0x6588, -0x2144, 0x00F0]))
      (fun t => (samples t 0x110 16, extSamples t 0x3000 8)) =
    some ([1, 2, 3, 4, 5, 6, 7, -8, -7, -6, -5, -4, -3, -2, -1, 0], [-7, -6, -5, -4, -3, -2, -1, 0]) := by
  decide +kernel

/-- Program P4 of 95_test_vectors.md: the header 09 names predictor 9. -/
theorem test_adpcm_predictor :
    found (exec (.adpcm 0x01 0x3000) (putScratch (withBuffers State.reset 0 0x100 32) 0 [0x1109])) faultOf =
      some (5, 9, 0) := by
  decide +kernel

/-- RS-1 -/
theorem test_resample :
    found (exec (.resample 0x01 0x8000 0x3000)
        (putScratch (withBuffers State.reset 0x200 0x400 32) 0x200 (List.replicate 16 1000)))
      (fun t => (samples t 0x400 16, extSamples t 0x3000 6)) =
    some ([0, -1, 103, 905] ++ List.replicate 12 1000, [1000, 1000, 1000, 1000, 0, 0]) := by
  decide +kernel

/-- RS-4: pitch 0 keeps the window on the saved history, at phase 32. -/
theorem test_resample_continued :
    found (exec (.resample 0x00 0x0000 0x3000)
        (putExt (withBuffers State.reset 0x200 0x400 16) 0x3000 [100, 200, 300, 400, -32768]))
      (fun t => (samples t 0x400 8, extSamples t 0x3000 5)) =
    some (List.replicate 8 251, [100, 200, 300, 400, -32768]) := by
  decide +kernel

/-- The volumes of E-2. -/
def rampState : State :=
  { State.reset with
    ctx :=
      { inp := some 0x200, out := some 0x300, count := some 16, dryRight := some 0x340, wetLeft := some 0x380,
        wetRight := some 0x3C0, volL := some 0x1000, volR := some 0x1000, targetL := some 0x2000,
        targetR := some 0x0800, rateL := some 0x00018000, rateR := some 0x00008000, volDry := some 0x7FFF,
        volWet := some 0x4000, loopAddr := none } }

/-- The first group of E-2 in the dry left and wet right buffers. -/
theorem test_envmixer :
    found (exec (.envmixer 0x09 0x3000) (putScratch rampState 0x200 (List.replicate 8 0x4000)))
      (fun t => (samples t 0x300 8, samples t 0x3C0 8)) =
    some ([2176, 2304, 2432, 2560, 2688, 2816, 2944, 3072], [960, 896, 832, 768, 704, 640, 576, 512]) := by
  decide +kernel

/-- E-1 in part: the unity envelope, in the dry right buffer (43_envmix.md R148). -/
theorem test_envmixer_unity :
    found (exec (.envmixer 0x01 0x3000)
        (putScratch { rampState with ctx := { rampState.ctx with
            volL := some 0x7FFF, volR := some 0x7FFF, targetL := some 0x7FFF, targetR := some 0x7FFF,
            rateL := some 0x00010000, rateR := some 0x00010000 } }
          0x200 [0, 1, -1, 100, 8192, 8193, -8191, -8192]))
      (fun t => samples t 0x340 8) = some [0, 1, -1, 100, 8192, 8192, -8191, -8191] := by
  decide +kernel

/-! ### MIXER and the interleaves (44_mix_interleave.md) -/

/-- The last pair of 44_mix_interleave.md R152: the subtract of -32768 from -32768 is 0. -/
theorem test_mixer_subtract :
    found (exec (.mixer 0x8000 0x200 0x300)
        (putScratch (putScratch (withBuffers State.reset 0 0 32) 0x200 [-32768, 5]) 0x300 [-32768, 3]))
      (fun t => samples t 0x300 2) = some [0, -2] := by
  decide +kernel

/-- The first pair of 44_mix_interleave.md R152: 32767 and 1 at gain 0x4000 give 32767 (doc). -/
theorem test_mixer :
    found (exec (.mixer 0x4000 0x200 0x300)
        (putScratch (putScratch (withBuffers State.reset 0 0 32) 0x200 [1, 1000]) 0x300 [32767, 100]))
      (fun t => samples t 0x300 2) = some [32767, 600] := by
  decide +kernel

/-- 44_mix_interleave.md R153: left first in each pair. -/
theorem test_interleave :
    found (exec (.interleave 0x200 0x210)
        (putScratch (withBuffers State.reset 0 0x300 16) 0x200 [1, 2, 3, 4, 5, 6, 7, 8, -1, -2, -3, -4, -5, -6, -7, -8]))
      (fun t => samples t 0x300 16) = some [1, -1, 2, -2, 3, -3, 4, -4, 5, -5, 6, -6, 7, -7, 8, -8] := by
  decide +kernel

/-- 44_mix_interleave.md R154: the same pairs in external memory. -/
theorem test_interleaveExt :
    found (exec (.interleaveExt 0x200 0x210 0x8000)
        (putScratch (withBuffers State.reset 0 0x300 16) 0x200 [1, 2, 3, 4, 5, 6, 7, 8, -1, -2, -3, -4, -5, -6, -7, -8]))
      (fun t => (extSamples t 0x8000 4, samples t 0x300 2)) = some ([1, -1, 2, -2], [0, 0]) := by
  decide +kernel

/-! ### Reverb (45_reverb.md) -/

/-- 45_reverb.md R165's examples. -/
theorem test_setreg :
    found (exec (.setreg 0x101 100) State.reset) (fun t => (reverbAt t 0).cap) = some 100 ∧
      found (exec (.setreg 0x010 5) State.reset) faultOf = some (1, 0x10000010, 0) := by
  decide +kernel

/-- S-1: the chunk that wraps. -/
theorem test_rbprep :
    found (exec (.rbprep 0 0 20) { State.reset with reverb := [ring100] })
      (fun t => (itemAt t.cfg (reverbAt t 0) 0 0, (reverbAt t 0).wptr)) =
    some (some { start := 90, lenA := 10, lenB := 10, nsad := 20, chunkLen := 20 }, 10) := by
  decide +kernel

/-- 45_reverb.md R169: 101 samples overrun a ring of 100. -/
theorem test_rbprep_overrun :
    found (exec (.rbprep 0 0 101) { State.reset with reverb := [ring100] }) faultOf = some (9, 101, 0) := by
  decide +kernel

/-- A ring of 8 samples with an item of 4 that wraps (program P3 of 95_test_vectors.md). -/
def ring8 : State :=
  { State.reset with
    reverb := [{ Reverb.atReset 4 with
      ctrl := 1, cap := 8, wptr := 2, lbase := 0x8000, rbase := 0x8100,
      items := some { start := 6, lenA := 2, lenB := 2, nsad := 4, chunkLen := 4 } :: List.replicate 7 none }] }

/-- P3's read. -/
theorem test_rbread :
    found (exec (.rbread 0 0 0x500 0x540) (putExt (putExt ring8 0x8000 [10, 11, 12, 13, 14, 15, 16, 17])
        0x8100 [-10, -11, -12, -13, -14, -15, -16, -17]))
      (fun t => (samples t 0x500 5, samples t 0x540 5)) = some ([16, 17, 10, 11, 0], [-16, -17, -10, -11, 0]) := by
  decide +kernel

/-- P3's write. -/
theorem test_rbwrite :
    found (exec (.rbwrite 0 0 0x580 0x5C0) (putScratch (putScratch ring8 0x580 [100, 101, 102, 103])
        0x5C0 [200, 201, 202, 203]))
      (fun t => (extSamples t 0x8000 8, extSamples t 0x8100 8)) =
    some ([102, 103, 0, 0, 0, 0, 100, 101], [202, 203, 0, 0, 0, 0, 200, 201]) := by
  decide +kernel

/-- 45_reverb.md R175's example. -/
theorem test_rbframe :
    found (exec (.rbframe 0) { State.reset with reverb := [{ ring100 with ignore := 2 }] })
      (fun t => ((reverbAt t 0).parity, (reverbAt t 0).ignore)) = some (1, 1) := by
  decide +kernel

/-! ### The step -/

/-- GO with no command ends at once (60_exceptions.md R198); the host then reads DONE. -/
theorem test_go :
    found (step { State.reset with host := [.writeCsr 0 1] }) (fun t => (t.status, t.irq)) =
      some (⟨false, true, false⟩, true) := by
  decide +kernel

/-- One command placed where step fetches runs, and ends the run. -/
theorem test_step :
    found (step (State.reset.withFetchWord 64 0x0F00000000003000)) (fun t => (t.ctx.loopAddr, t.cp, t.status)) =
      some (some 0x3000, 1, ⟨false, true, false⟩) := by
  decide +kernel

/-- An illegal word placed there faults with its w0 (30_encoding.md R78). -/
theorem test_step_illegal :
    found (step (State.reset.withFetchWord 64 0x0700000000000005)) (fun t => (faultOf t, t.status)) =
      some ((1, 0x07000000, 0), ⟨false, false, true⟩) := by
  decide +kernel

/-! ### Witnesses: a state and operands that meet the hypotheses of each statement, clause by clause -/

/-- Every register written, the volumes those of the unity envelope, book zero, ring of `ring8`. -/
def full : State :=
  { ring8 with
    ctx :=
      { inp := some 0x200, out := some 0x400, count := some 0x20, dryRight := some 0x500, wetLeft := some 0x600,
        wetRight := some 0x700, volL := some 0x7FFF, volR := some 0x7FFF, targetL := some 0x7FFF,
        targetR := some 0x7FFF, rateL := some 0x00010000, rateR := some 0x00010000, volDry := some 0x7FFF,
        volWet := some 0x4000, loopAddr := some 0x3200 }
    book := zeroBook 256 }

/-- `full` with reads of one byte at 0x40FF refused. -/
def refusing : State := { full with cfg := { full.cfg with refused := [⟨0x40FF, 0x40FF, 1, .read⟩] } }

/-- `full` in a run of two commands at 0x800. -/
def running : State := { full with status := ⟨true, false, false⟩, cmdBase := 0x800, cmdCount := 2, cp := 1 }

/-- The instance and item of `full`. -/
def fullRing : Reverb := reverbAt full 0

def fullItem : Item := { start := 6, lenA := 2, lenB := 2, nsad := 4, chunkLen := 4 }

theorem exec_answers (i : Instr) (s : State) : ∃ t, exec i s = .next t := by
  rw [exec_eq_perform]
  rcases perform_cases (bodyOf i) s with ⟨t, _, h⟩ | ⟨e, t, _, h⟩ <;> exact ⟨_, h⟩

/-- The addresses of a span that does not wrap. -/
theorem span_bounds {a : Word} {n x : Nat} (h : inExtSpan a n x) (hn : a.toNat + n ≤ 2 ^ 32) :
    a.toNat ≤ x ∧ x < a.toNat + n := by
  obtain ⟨i, hi, rfl⟩ := h
  have : (addrAdd a i).toNat = a.toNat + i := by
    rw [addrAdd, BitVec.toNat_add, BitVec.toNat_ofNat]
    omega
  omega

theorem full_legal : full.cfg.legal = true := by decide +kernel

theorem full_admits (a : Word) (n : Nat) (k : Access) : extAdmits full.cfg a n k = true := rfl

theorem full_mayRead (a : Word) (n : Nat) : full.mayRead a n := ⟨rfl, quiet_of_raced rfl a n⟩

theorem full_readable (a : Word) (w n : Nat) : full.readable a w n := fun _ _ => full_mayRead _ _

theorem full_overlaps (a : Word) (n : Nat) : overlapsCommandList full a n = false := by
  simp [overlapsCommandList, inCommandList, full, ring8, State.reset]

theorem full_writable (a : Word) (w n : Nat) : full.writable a w n := fun _ _ => ⟨rfl, full_overlaps _ _⟩

theorem full_ringReady : full.ringReady 0 0 fullRing :=
  ⟨by decide, by decide, rfl, by decide, by decide, by decide, by decide⟩

theorem witness_NoopAdvances : Command.opcode 0x0000000000000001#64 = 0x00#8 ∧
    (0x0000000000000001#64 : Command) ≠ 0#64 := by decide

theorem witness_SetbuffWritesContext : (0x00#8).getLsbD 3 = false ∧ (0x08#8).getLsbD 3 = true := by decide

/-- 2496 + 16 = 2512 just fits; 2497 + 16 does not. -/
theorem witness_ClearbuffClears : full.holds (2496#16).toNat (ru (1#16).toNat 16) ∧
    ¬ full.holds (2497#16).toNat (ru (1#16).toNat 16) := by unfold State.holds; decide +kernel

theorem witness_DmemmoveCopies :
    (full.holds (0#16).toNat (ru (16#16).toNat 16) ∧ full.holds (2496#16).toNat (ru (16#16).toNat 16)) ∧
    ¬ full.holds (2497#16).toNat (ru (16#16).toNat 16) := by unfold State.holds; decide +kernel

theorem witness_LoadadpcmLoadsBook :
    ((256#24).toNat ≤ 256 ∧ full.readable 0x4000 1 (256#24).toNat) ∧ 256 < (257#24).toNat ∧
    ((256#24).toNat ≤ 256 ∧ 255 < (256#24).toNat ∧ refusing.readable 0x4000 1 255 ∧
      extAdmits refusing.cfg (addrAdd 0x4000 255) 1 .read = false) := by
  refine ⟨⟨by decide, full_readable _ _ _⟩, by decide, by decide, by decide, ?_, by decide⟩
  unfold State.readable State.mayRead
  decide +kernel

theorem witness_LoadbuffLoads : full.ctx.inp = some 0x200 ∧ full.ctx.count = some 0x20 ∧
    full.holds (0x200#16).toNat (ru (0x20#16).toNat 8) ∧ full.readable 0x5000 1 (ru (0x20#16).toNat 8) :=
  ⟨rfl, rfl, by unfold State.holds; decide, full_readable _ _ _⟩

theorem witness_SavebuffSaves : full.ctx.out = some 0x400 ∧ full.ctx.count = some 0x20 ∧
    full.holds (0x400#16).toNat (ru (0x20#16).toNat 8) ∧ full.writable 0x6000 1 (ru (0x20#16).toNat 8) :=
  ⟨rfl, rfl, by unfold State.holds; decide, full_writable _ _ _⟩

theorem witness_AdpcmDecodes : full.cfg.legal = true ∧
    full.ctx.inp = some 0x200 ∧ full.ctx.out = some 0x400 ∧ full.ctx.count = some 0x20 ∧
    full.ctx.loopAddr.isSome = true ∧ (0x400#16).toNat % 2 = 0 ∧
    full.holds (0x200#16).toNat (9 * (ru (0x20#16).toNat 32 / 32)) ∧
    (0x400#16).toNat + full.cfg.histBytes + ru (0x20#16).toNat 32 ≤ full.cfg.scratchBytes ∧
    apart (0x200#16).toNat (9 * (ru (0x20#16).toNat 32 / 32)) (0x400#16).toNat
      (full.cfg.histBytes + ru (0x20#16).toNat 32) ∧
    (∀ flags, full.readable (full.adpcmSource flags 0x3000) 2 (full.cfg.histBytes / 2)) ∧
    full.writable 0x3000 2 (full.cfg.histBytes / 2) ∧
    ∀ pk, pk < ru (0x20#16).toNat 32 / 32 → full.packetPredictor ((0x200#16).toNat + 9 * pk) < 8 ∧
      full.predictorLoaded (full.packetPredictor ((0x200#16).toNat + 9 * pk)) := by
  refine ⟨full_legal, rfl, rfl, rfl, rfl, by decide, by unfold State.holds; decide, by decide,
    by unfold apart; decide, fun _ => full_readable _ _ _, full_writable _ _ _, ?_⟩
  unfold State.predictorLoaded
  decide +kernel

/-- Two packets at 0x200: the first names predictor 0, the second predictor 8. -/
def badPacket : State :=
  { full with ctx := { full.ctx with count := some 0x40 }, scratch := [(0x209, 0x08)] }

/-- AdpcmPredictorFaults, its coefficients: the last one loaded, with its second byte unwritten, and the first of an
empty book. -/
theorem witness_AdpcmPredictorFaults_coef : 254 = 32 * 7 + 16 * 1 + 2 * 7 ∧
    ((Book.read full.book 254).isSome = true ∧ (Book.read full.book (254 + 1)).isSome = true) ∧
    Book.read [(254, 1)] (254 + 1) = none ∧ Book.read State.reset.book (32 * 0 + 16 * 0 + 2 * 0) = none := by decide +kernel

theorem witness_AdpcmPredictorFaults : badPacket.cfg.legal = true ∧
    badPacket.ctx.inp = some 0x200 ∧ badPacket.ctx.out = some 0x400 ∧ badPacket.ctx.count = some 0x40 ∧
    badPacket.ctx.loopAddr.isSome = true ∧ (0x400#16).toNat % 2 = 0 ∧
    badPacket.holds (0x200#16).toNat (9 * (ru (0x40#16).toNat 32 / 32)) ∧
    (0x400#16).toNat + badPacket.cfg.histBytes + ru (0x40#16).toNat 32 ≤ badPacket.cfg.scratchBytes ∧
    apart (0x200#16).toNat (9 * (ru (0x40#16).toNat 32 / 32)) (0x400#16).toNat
      (badPacket.cfg.histBytes + ru (0x40#16).toNat 32) ∧
    (∀ flags, badPacket.readable (badPacket.adpcmSource flags 0x3000) 2 (badPacket.cfg.histBytes / 2)) ∧
    1 < ru (0x40#16).toNat 32 / 32 ∧
    (∀ pk, pk < 1 → badPacket.packetPredictor ((0x200#16).toNat + 9 * pk) < 8 ∧
      badPacket.predictorLoaded (badPacket.packetPredictor ((0x200#16).toNat + 9 * pk))) ∧
    8 ≤ badPacket.packetPredictor ((0x200#16).toNat + 9 * 1) := by
  refine ⟨full_legal, rfl, rfl, rfl, rfl, by decide, by unfold State.holds; decide, by decide,
    by unfold apart; decide, fun _ => full_readable _ _ _, by decide, ?_, by decide +kernel⟩
  unfold State.predictorLoaded
  decide +kernel

/-- Both set-ups: INIT, and RESTART with an empty record. -/
theorem witness_ResampleFilters (flags : BitVec 8) (h : flags = 0x01 ∨ flags = 0x02) :
    ¬ (flagInit flags = true ∧ flagRestart flags = true) ∧
    full.ctx.inp = some 0x200 ∧ full.ctx.out = some 0x400 ∧ full.ctx.count = some 0x20 ∧
    windowFits flags (0x200#16).toNat (full.resampleHistory flags 0x3000) ∧
    full.holdsSamples (0x400#16).toNat (8 * groups (0x20#16).toNat) ∧
    restartOffset (0x200#16).toNat (windowAt (windowOffset flags (0x200#16).toNat (full.resampleHistory flags 0x3000))
      (full.resampleHistory flags 0x3000).pacc (0x8000#16).toNat (8 * groups (0x20#16).toNat)) + 16 ≤
        full.cfg.scratchBytes ∧
    (full.readable 0x3000 2 6 ∧ full.readable (addrAdd 0x3000 16) 2 8) ∧
    (full.writable 0x3000 2 6 ∧ full.writable (addrAdd 0x3000 16) 2 8) := by
  refine ⟨?_, rfl, rfl, rfl, ?_, by unfold State.holdsSamples; decide, ?_, ⟨full_readable _ _ _, full_readable _ _ _⟩,
    full_writable _ _ _, full_writable _ _ _⟩
  · rcases h with rfl | rfl <;> decide
  · unfold windowFits
    rcases h with rfl | rfl <;> decide +kernel
  · rcases h with rfl | rfl <;> decide +kernel

theorem witness_ResampleFlagConflict : (0x03#8).getLsbD 0 = true ∧ (0x03#8).getLsbD 1 = true := by decide

/-- The ends of the range of samples, and a row of the ROM. -/
theorem witness_SteadyStateFilter : (-32768 : Int) ≤ -32768 ∧ (32767 : Int) ≤ 32767 ∧
    (⟨0x0c39#16, 0x66ad#16, 0x0d46#16, 0xffdf#16⟩ : RomRow) ∈ defaultRom := by decide +kernel

/-- With INIT and AUX (0x09) and with neither (0x00). -/
theorem witness_EnvmixerMixes :
    full.ctx.inp = some 0x200 ∧ full.ctx.out = some 0x400 ∧ full.ctx.dryRight = some 0x500 ∧
    full.ctx.count = some 0x20 ∧ (full.ctx.wetLeft.isSome = true ∧ full.ctx.wetRight.isSome = true) ∧
    full.ctx.volumesWritten ∧ full.holdsSamples (0x200#16).toNat (8 * groups (0x20#16).toNat) ∧
    full.holdsSamples (0x400#16).toNat (8 * groups (0x20#16).toNat) ∧
    full.holdsSamples (0x500#16).toNat (8 * groups (0x20#16).toNat) ∧
    (∀ flags w, full.ctx.wetBuffers flags = some w → full.holdsSamples w.1 (8 * groups (0x20#16).toNat) ∧
      full.holdsSamples w.2 (8 * groups (0x20#16).toNat)) ∧
    (full.readable 0x3000 4 16 ∧ full.readable (addrAdd 0x3000 64) 2 8) ∧
    (full.writable 0x3000 4 16 ∧ full.writable (addrAdd 0x3000 64) 2 8) ∧
    ∀ flags, buffersApart (0x200#16).toNat (0x400#16).toNat (0x500#16).toNat (full.ctx.wetBuffers flags)
      (16 * groups (0x20#16).toNat) := by
  have hw : ∀ flags w, full.ctx.wetBuffers flags = some w → w = (0x600, 0x700) := by
    intro flags w h
    unfold Context.wetBuffers at h
    split at h
    · exact (Option.some.inj h).symm
    · exact absurd h (by simp)
  refine ⟨rfl, rfl, rfl, rfl, ⟨rfl, rfl⟩, by unfold Context.volumesWritten; decide,
    by unfold State.holdsSamples; decide, by unfold State.holdsSamples; decide,
    by unfold State.holdsSamples; decide, ?_, ⟨full_readable _ _ _, full_readable _ _ _⟩,
    ⟨full_writable _ _ _, full_writable _ _ _⟩, ?_⟩
  · rintro flags w h
    obtain rfl := hw flags w h
    unfold State.holdsSamples
    decide
  · intro flags
    unfold buffersApart channelApart apart
    refine ⟨⟨by decide, ?_⟩, ⟨by decide, ?_⟩, by decide, ?_⟩
    · rintro w h
      obtain ⟨p, hp, rfl⟩ := Option.map_eq_some_iff.mp h
      obtain rfl := hw flags p hp
      decide
    · rintro w h
      obtain ⟨p, hp, rfl⟩ := Option.map_eq_some_iff.mp h
      obtain rfl := hw flags p hp
      decide
    · rintro w h
      obtain rfl := hw flags w h
      decide

/-- The rates just at and below 1.0. -/
theorem witness_ClampFollowsRate : (0x10000 : Int) ≤ 0x10000 ∧ (0xFFFF : Int) < 0x10000 := by decide

theorem witness_RampNeverOvershoots : 0 < asr 0x10000 16 ∧ asr 0xFFFF 16 ≤ 0 := by decide

/-- What UnityEnvelope asks beyond witness_EnvmixerMixes, and the ends of its ranges. -/
theorem witness_UnityEnvelope : flagInit 0x01#8 = true ∧ full.ctx.volL = some 0x7FFF#16 ∧
    full.ctx.targetL = some 0x7FFF#16 ∧ full.ctx.rateL = some 0x00010000#32 ∧ full.ctx.volR = some 0x7FFF#16 ∧
    full.ctx.targetR = some 0x7FFF#16 ∧ full.ctx.rateR = some 0x00010000#32 ∧ full.ctx.volDry = some 0x7FFF#16 ∧
    (∀ k, k < 8 * groups (0x20#16).toNat → scratchSample full ((0x400#16).toNat + 2 * k) = 0 ∧
      scratchSample full ((0x500#16).toNat + 2 * k) = 0) ∧
    ((8192 : Int) < 8193 ∧ (24576 : Int) ≤ 24576 ∧ (24576 : Int) < 24577 ∧ (-24576 : Int) < -24575 ∧
      (-24576 : Int) ≤ -24576) := by
  refine ⟨by decide, rfl, rfl, rfl, rfl, rfl, rfl, rfl, ?_, by decide⟩
  decide +kernel

/-- MixerMixes, SubtractGain and DecayScales: a buffer at the very end of the scratch. -/
theorem witness_MixerMixes : full.ctx.count = some 0x20 ∧ full.cfg.mixForm = .doc ∧
    full.holdsSamples (2480#16).toNat (ru (0x20#16).toNat 32 / 2) ∧
    full.holdsSamples (0x200#16).toNat (ru (0x20#16).toNat 32 / 2) :=
  ⟨rfl, rfl, by unfold State.holdsSamples; decide, by unfold State.holdsSamples; decide⟩

/-- InterleaveMerges, InterleaveExtWrites and InterleavePathsAgree. -/
theorem witness_InterleavePathsAgree : full.ctx.out = some 0x400 ∧ full.ctx.count = some 0x20 ∧
    full.holdsSamples (0x200#12).toNat (ru (0x20#16).toNat 16 / 2) ∧
    full.holdsSamples (0x3E0#12).toNat (ru (0x20#16).toNat 16 / 2) ∧
    full.holdsSamples (0x400#16).toNat (ru (0x20#16).toNat 16) ∧ full.writable 0x8000 2 (ru (0x20#16).toNat 16) ∧
    apart (0x400#16).toNat (2 * ru (0x20#16).toNat 16) (0x200#12).toNat (ru (0x20#16).toNat 16) ∧
    apart (0x400#16).toNat (2 * ru (0x20#16).toNat 16) (0x3E0#12).toNat (ru (0x20#16).toNat 16) := by
  refine ⟨rfl, rfl, ?_, ?_, ?_, full_writable _ _ _, ?_, ?_⟩
  · unfold State.holdsSamples; decide
  · unfold State.holdsSamples; decide
  · unfold State.holdsSamples; decide
  · unfold apart; decide
  · unfold apart; decide

/-- The last register of the only instance, and the number behind it. -/
theorem witness_SetregWrites :
    (0x100 ≤ (0x10A#16).toNat ∧ (0x10A#16).toNat < 0x100 + 0x20 * full.cfg.numReverb ∧
      ((0x10A#16).toNat - 0x100) % 0x20 ≤ 0xA) ∧
    ¬ (0x100 ≤ (0x10B#16).toNat ∧ (0x10B#16).toNat < 0x100 + 0x20 * full.cfg.numReverb ∧
      ((0x10B#16).toNat - 0x100) % 0x20 ≤ 0xA) := by decide +kernel

/-- A chunk that ends just before the ring's end (9), and one that ends exactly at it (10). -/
theorem witness_SplitRecords : ring100.wptr.toNat < ring100.cap.toNat ∧ 10 ≤ ring100.cap.toNat ∧
    itemIndex full.cfg ring100.parity.toNat 3 < ring100.items.length ∧
    ring100.wptr.toNat + 9 < ring100.cap.toNat ∧ ring100.cap.toNat ≤ ring100.wptr.toNat + 10 := by decide +kernel

/-- RbprepSplits: a chunk of the ring's whole capacity. -/
theorem witness_RbprepSplits : full.ringReady (0#8).toNat (0#8).toNat fullRing ∧
    (8#16).toNat / fullRing.dsr.toNat ≤ fullRing.cap.toNat ∧ fullRing.dsr.toNat = 1 :=
  ⟨full_ringReady, by decide, by decide⟩

/-- `full` with RB_DSR = 2 and TD buffers at 0x9000 and 0x9100. -/
def halved : Reverb := { fullRing with dsr := 2, tdlbase := 0x9000, tdrbase := 0x9100, tdstride := 0x20 }

def downsampling : State := { full with reverb := [halved] }

theorem downsampling_ringReady : downsampling.ringReady 0 0 halved :=
  ⟨by decide, by decide, rfl, by decide, by decide, by decide, by decide⟩

theorem downsampling_ringWritable (base : Word) : downsampling.ringWritable fullItem base := fun _ _ =>
  ⟨rfl, by simp [overlapsCommandList, inCommandList, downsampling, full, ring8, State.reset]⟩

/-- RbprepDownsamples: a chunk of 16 is 8 samples. -/
theorem witness_RbprepDownsamples : downsampling.ringReady (0#8).toNat (0#8).toNat halved ∧
    (16#16).toNat / halved.dsr.toNat ≤ halved.cap.toNat ∧ halved.dsr.toNat ≠ 1 ∧ halved.ignore.toNat = 0 ∧
    itemAt downsampling.cfg halved halved.parity.toNat (0#8).toNat = some fullItem ∧
    tdAddr downsampling.cfg halved.tdlbase halved.tdstride halved.parity.toNat (0#8).toNat = 0x9000 ∧
    tdAddr downsampling.cfg halved.tdrbase halved.tdstride halved.parity.toNat (0#8).toNat = 0x9100 ∧
    (∀ k, k < fullItem.size → downsampling.mayRead (addrAdd 0x9000 (2 * (halved.dsr.toNat * k))) 2 ∧
      downsampling.mayRead (addrAdd 0x9100 (2 * (halved.dsr.toNat * k))) 2) ∧
    downsampling.ringWritable fullItem halved.lbase ∧ downsampling.ringWritable fullItem halved.rbase ∧
    fullItem.lenB.toNat ≤ fullItem.start.toNat := by
  refine ⟨downsampling_ringReady, by decide, by decide, by decide, by decide +kernel, by decide +kernel,
    by decide +kernel, fun _ _ => ⟨⟨rfl, quiet_of_raced rfl _ _⟩, rfl, quiet_of_raced rfl _ _⟩, downsampling_ringWritable _,
    downsampling_ringWritable _, by decide⟩

/-- The bytes of an item of `full` in a ring of 8 samples, and those of its decimated TD samples. -/
theorem item_bounds {base : Word} {x : Nat} (h : fullItem.ringBytes base x) (hb : base.toNat + 16 ≤ 2 ^ 32) :
    base.toNat ≤ x ∧ x < base.toNat + 16 := by
  obtain ⟨k, hk, j, hj, rfl⟩ := h
  have hk' : fullItem.ringIndex k < 8 := by
    have hs : fullItem.size = 4 := by decide
    rw [hs] at hk
    interval_cases k <;> decide
  rw [ringAddr, addrAdd, addrAdd, BitVec.toNat_add, BitVec.toNat_add, BitVec.toNat_ofNat, BitVec.toNat_ofNat]
  omega

theorem decimated_bounds {base : Word} {x : Nat} (h : decimatedBytes base 2 fullItem.size x)
    (hb : base.toNat + 16 ≤ 2 ^ 32) : base.toNat ≤ x := by
  obtain ⟨k, hk, j, hj, rfl⟩ := h
  rw [show fullItem.size = 4 by decide] at hk
  rw [addrAdd, addrAdd, BitVec.toNat_add, BitVec.toNat_add, BitVec.toNat_ofNat, BitVec.toNat_ofNat]
  omega

/-- The rings of `full` share no byte with each other or with the TD buffers of `halved`. -/
theorem witness_ringsApart : disjointBytes (fullItem.ringBytes 0x8000) (fullItem.ringBytes 0x8100) ∧
    disjointBytes (decimatedBytes 0x9000 2 fullItem.size)
      (fun x => fullItem.ringBytes 0x8000 x ∨ fullItem.ringBytes 0x8100 x) ∧
    disjointBytes (decimatedBytes 0x9100 2 fullItem.size)
      (fun x => fullItem.ringBytes 0x8000 x ∨ fullItem.ringBytes 0x8100 x) ∧
    fullRing.lbase = 0x8000 ∧ fullRing.rbase = 0x8100 := by
  have far : ∀ b, 0x9000 ≤ b.toNat → b.toNat + 16 ≤ 2 ^ 32 → disjointBytes (decimatedBytes b 2 fullItem.size)
      (fun x => fullItem.ringBytes 0x8000 x ∨ fullItem.ringBytes 0x8100 x) := by
    intro b h1 h2 x hx hy
    have h3 := decimated_bounds hx h2
    have h4 : x < 0x8110 := by
      rcases hy with hy | hy
      · have := (item_bounds hy (by decide)).2
        rw [show (0x8000 : Word).toNat = 0x8000 by decide] at this
        omega
      · have := (item_bounds hy (by decide)).2
        rw [show (0x8100 : Word).toNat = 0x8100 by decide] at this
        omega
    omega
  refine ⟨?_, far _ (by decide) (by decide), far _ (by decide) (by decide), by decide +kernel, by decide +kernel⟩
  intro x hx hy
  have h1 := (item_bounds hx (by decide)).2
  have h2 := (item_bounds hy (by decide)).1
  rw [show (0x8000 : Word).toNat = 0x8000 by decide] at h1
  rw [show (0x8100 : Word).toNat = 0x8100 by decide] at h2
  omega

/-- RbreadReads and RbwriteWritesRing. -/
theorem witness_RbreadReads : full.ringReady (0#8).toNat (0#8).toNat fullRing ∧ fullRing.dsr.toNat = 1 ∧
    itemAt full.cfg fullRing fullRing.parity.toNat (0#8).toNat = some fullItem ∧
    full.holdsSamples (0x500#16).toNat fullItem.size ∧ full.holdsSamples (0x508#16).toNat fullItem.size ∧
    full.ringReadable fullItem fullRing.lbase ∧ full.ringReadable fullItem fullRing.rbase ∧
    full.ringWritable fullItem fullRing.lbase ∧ full.ringWritable fullItem fullRing.rbase ∧
    apart (0x500#16).toNat (2 * fullItem.size) (0x508#16).toNat (2 * fullItem.size) ∧
    fullItem.lenB.toNat ≤ fullItem.start.toNat := by
  refine ⟨full_ringReady, by decide, by decide +kernel, ?_, ?_, fun _ _ => full_mayRead _ _, fun _ _ => full_mayRead _ _,
    fun _ _ => ⟨rfl, full_overlaps _ _⟩, fun _ _ => ⟨rfl, full_overlaps _ _⟩, ?_, by decide⟩
  · unfold State.holdsSamples; decide
  · unfold State.holdsSamples; decide
  · unfold apart; decide

theorem witness_RbwriteDefers : downsampling.ringReady (0#8).toNat (0#8).toNat halved ∧ halved.dsr.toNat ≠ 1 ∧
    itemAt downsampling.cfg halved halved.parity.toNat (0#8).toNat = some fullItem ∧
    downsampling.holdsSamples (0x500#16).toNat fullItem.chunkLen.toNat ∧
    downsampling.holdsSamples (0x508#16).toNat fullItem.chunkLen.toNat ∧
    downsampling.writable 0x9000 2 fullItem.chunkLen.toNat ∧ downsampling.writable 0x9100 2 fullItem.chunkLen.toNat ∧
    disjointBytes (inExtSpan 0x9000 (2 * fullItem.chunkLen.toNat))
      (inExtSpan 0x9100 (2 * fullItem.chunkLen.toNat)) := by
  have hw : ∀ (a : Word) (w n : Nat), downsampling.writable a w n := fun _ _ _ _ _ =>
    ⟨rfl, by simp [overlapsCommandList, inCommandList, downsampling, full, ring8, State.reset]⟩
  refine ⟨downsampling_ringReady, by decide, by decide +kernel, ?_, ?_, hw _ _ _, hw _ _ _, ?_⟩
  · unfold State.holdsSamples; decide
  · unfold State.holdsSamples; decide
  · intro x hx hy
    have h1 := (span_bounds hx (by decide)).2
    have h2 := (span_bounds hy (by decide)).1
    rw [show (0x9000 : Word).toNat + 2 * fullItem.chunkLen.toNat = 0x9008 by decide] at h1
    rw [show (0x9100 : Word).toNat = 0x9100 by decide] at h2
    omega

/-- RbframeEndsFrame: the last instance and the number behind it, and a word with a reserved bit. -/
theorem witness_RbframeEndsFrame : (0#8).toNat < full.cfg.numReverb ∧ full.cfg.numReverb ≤ (1#8).toNat ∧
    Command.opcode 0x1400000100000000#64 = 0x14#8 ∧
    (0x1400000100000000#64 : Command) &&& 0x00FF00FFFFFFFFFF#64 ≠ 0#64 := by decide +kernel

/-- UnusedInstanceSkipped and the first two clauses of RingChecksFault: USE = 0; r and u just out of range. -/
theorem witness_UnusedInstanceSkipped : (0#8).toNat < State.reset.cfg.numReverb ∧
    (3#8).toNat < State.reset.cfg.maxChunks ∧ (reverbAt State.reset (0#8).toNat).ctrl = 0 ∧
    State.reset.cfg.numReverb ≤ (1#8).toNat ∧ State.reset.cfg.maxChunks ≤ (4#8).toNat := by decide +kernel

/-- RingChecksFault: USE = 1 with capacity 0, then the cursor at the capacity, then a rate of 0. -/
theorem witness_RingChecksFault :
    ({ Reverb.atReset 4 with ctrl := 1 }.ctrl = 1 ∧ { Reverb.atReset 4 with ctrl := 1 }.cap.toNat < 1) ∧
    (1 ≤ { ring100 with wptr := 100 }.cap.toNat ∧
      { ring100 with wptr := 100 }.cap.toNat ≤ { ring100 with wptr := 100 }.wptr.toNat) ∧
    (1 ≤ { ring100 with dsr := 0 }.cap.toNat ∧
      { ring100 with dsr := 0 }.wptr.toNat < { ring100 with dsr := 0 }.cap.toNat ∧
      { ring100 with dsr := 0 }.dsr.toNat < 1) := by decide

/-- RingRunFaults: nine samples in a ring of eight; slot 1 holds no item. -/
theorem witness_RingRunFaults : full.ringReady (0#8).toNat (1#8).toNat fullRing ∧
    fullRing.cap.toNat < (9#16).toNat / fullRing.dsr.toNat ∧
    itemAt full.cfg fullRing fullRing.parity.toNat (1#8).toNat = none ∧
    (downsampling.ringReady (0#8).toNat (1#8).toNat halved ∧
      (16#16).toNat / halved.dsr.toNat ≤ halved.cap.toNat ∧ halved.dsr.toNat ≠ 1 ∧ halved.ignore.toNat = 0 ∧
      itemAt downsampling.cfg halved halved.parity.toNat (1#8).toNat = none) :=
  ⟨⟨by decide, by decide, rfl, by decide, by decide, by decide, by decide⟩, by decide, by decide +kernel,
    ⟨by decide, by decide, rfl, by decide, by decide, by decide, by decide⟩, by decide, by decide, by decide,
    by decide +kernel⟩

/-- RingInvariantKept: the ring of `full` and a command that moves its cursor. -/
theorem witness_RingInvariantKept : (∃ t, exec (.rbprep 0 0 4) full = .next t) ∧
    full.reverb[0]? = some fullRing ∧ Reverb.ringOk fullRing := by
  refine ⟨exec_answers _ _, rfl, by decide, fun it h => ?_⟩
  have : it = fullItem := by simpa [fullRing, reverbAt, full, ring8, fullItem] using h
  subst this
  decide

/-- The last context register ENVMIXER reads, and the first; the first that ADPCM reads, without and with LOOP (R97
(a), R110). -/
theorem witness_UnwrittenContextFaults :
    (((Instr.envmixer 0x09 0).contextReads { full.ctx with volWet := none }).find? fun p => !p.2) =
      some (0x01D, false) ∧
    (((Instr.envmixer 0x09 0).contextReads Context.unwritten).find? fun p => !p.2) = some (0x010, false) ∧
    (((Instr.adpcm 0x00 0).contextReads Context.unwritten).find? fun p => !p.2) = some (0x011, false) ∧
    (((Instr.adpcm 0x02 0).contextReads Context.unwritten).find? fun p => !p.2) = some (0x01E, false) := by
  decide

/-- An odd offset below the scratch; even offsets just outside it and at its two ends; bytes just outside it and at its
ends. -/
theorem witness_MisalignedBeforeBounds : (-1 : Int) % 2 = 1 ∧
    ((-2 : Int) % 2 = 0 ∧ (-2 : Int) < 0 ∧ (2512 : Int) % 2 = 0 ∧ full.cfg.scratchBytes < (2512 : Int) + 2) ∧
    ((0 : Int) % 2 = 0 ∧ (2510 : Int) % 2 = 0 ∧ (2510 : Int) + 2 ≤ full.cfg.scratchBytes) ∧
    ((-1 : Int) < 0 ∧ full.cfg.scratchBytes < (2512 : Int) + 1) ∧
    (0 : Int) ≤ 2511 ∧ (2511 : Int) + 1 ≤ full.cfg.scratchBytes := by decide +kernel

/-- A refused read, a refused write, an overlapping write, a write just below the command list, a quiet read and one
that races. -/
theorem witness_ExternalAccessChecks : 255 < 256 ^ 1 ∧ extAdmits refusing.cfg 0x40FF 1 .read = false ∧
    extAdmits { full.cfg with refused := [⟨0, 7, 4, .write⟩] } 7 4 .write = false ∧
    (extAdmits running.cfg 0x7FD 4 .write = true ∧ 0 < 8 * running.cmdCount.toNat ∧
      ((0x7FD#32).toNat + 3) % 2 ^ 32 = (running.cmdBase.toNat + 0) % 2 ^ 32) ∧
    (extAdmits running.cfg 0x7FC 4 .write = true ∧ 8 * running.cmdCount.toNat ≤ 16 ∧
      ∀ k, k < 4 → ∀ j, j < 16 → ((0x7FC#32).toNat + k) % 2 ^ 32 ≠ (running.cmdBase.toNat + j) % 2 ^ 32) ∧
    extAdmits full.cfg 0x7FC 4 .read = true ∧ quiet full 0x7FC 4 = true ∧
    quiet { running with raced := [(0x7FF, 1)] } 0x7FC 4 = false := by decide +kernel

theorem witness_FaultEntry : (raise .flagConflict 3 : M Unit) full = .error ⟨.flagConflict, 3⟩ full := rfl

/-- CommandListKept, StateWriters and InitFormsBlind: commands that run while a list stands at 0x800. -/
theorem witness_CommandListKept : (∃ t, exec (.savebuff 0x6000) running = .next t) ∧
    15 < 8 * running.cmdCount.toNat ∧ (Instr.savebuff 0x6000).readsExternal = false ∧
    (Instr.savebuff 0x6000).writesContext = false ∧ (Instr.savebuff 0x6000).writesBook = false ∧
    (Instr.rbframe 0).writesInstance ≠ some 1 := ⟨exec_answers _ _, by decide, by decide, by decide, by decide, by decide⟩

theorem witness_DecodeEncode : (Instr.envmixer 0x09 0xFFFFFFFF).wellFormed = true := by decide

/-- A row that a word matches; a word that matches no row. -/
theorem witness_DecodeFollowsTable :
    ((0xFFFC000000000000#64, 0x0500000000000000#64) ∈ commandRows ∧
      (0x0503FFFFFFFFFFFF#64 : Command) &&& 0xFFFC000000000000#64 = 0x0500000000000000#64) ∧
    ∀ row, row ∈ commandRows → (0x0504FFFFFFFFFFFF#64 : Command) &&& row.1 ≠ row.2 := by
  refine ⟨⟨by simp [commandRows, commandRowsLow], by decide⟩, fun row h => ?_⟩
  have all : (commandRows.all fun r => (0x0504FFFFFFFFFFFF#64 : Command) &&& r.1 != r.2) = true := by decide +kernel
  simpa using List.all_eq_true.mp all row h

/-- Words of the reserved opcodes at the ends of their ranges. -/
theorem witness_ReservedOpcodesRejected : Command.opcode 0x07FFFFFFFFFFFFFF#64 = 0x07#8 ∧
    Command.opcode 0x0E00000000000000#64 = 0x0E#8 ∧ 0x16 ≤ (Command.opcode 0x1600000000000000#64).toNat ∧
    0x16 ≤ (Command.opcode 0xFF00000000000000#64).toNat := by decide

/-- StepRunsCommand and Termination: the second of two commands, `SETLOOP 0x3000`, with and without an idle move. -/
theorem witness_StepRunsCommand (host : List HostOp) (h : host = [] ∨ host = [.idle]) :
    let s : State := { running with ext := storeExt [] 0x808 (commandBytes .little 0x0F00000000003000#64), host := host }
    s.status.busy = true ∧ s.cp ≠ s.cmdCount ∧ s.cmdBase + 8#32 * s.cp = 0x808 ∧
    extAdmits s.cfg 0x808 4 .read = true ∧ extAdmits s.cfg (0x808 + 4#32) 4 .read = true ∧ quiet s 0x808 8 = true ∧
    decode (commandOfBytes s.cfg.endian (extBytes s 0x808 8)) = .ok (.setloop 0x3000) ∧
    (s.host = [] ∨ s.host = .idle :: []) := by
  rcases h with rfl | rfl <;> decide +kernel

/-- FetchFaults: both hosts and each of its three clauses, the command at 0x808. -/
theorem witness_FetchFaults : running.host = [] ∧ { running with host := [.idle] }.host = .idle :: [] ∧ running.status.busy = true ∧ running.cp ≠ running.cmdCount ∧
    running.cmdBase + 8#32 * running.cp = 0x808 ∧
    extAdmits { running.cfg with refused := [⟨0x808, 0x808, 4, .read⟩] } 0x808 4 .read = false ∧
    (extAdmits { running.cfg with refused := [⟨0x80C, 0x80C, 4, .read⟩] } 0x808 4 .read = true ∧
      quiet running 0x808 4 = true ∧ quiet running 0x808 8 = true ∧
      extAdmits { running.cfg with refused := [⟨0x80C, 0x80C, 4, .read⟩] } 0x80C 4 .read = false) ∧
    decode (commandOfBytes .little (extBytes { running with ext := [(0x80B, 0xFF)] } 0x808 8)) =
      .error .reservedOpcode := by
  decide +kernel

/-- GoStartsRun: GO and no GO; CMD_BASE unaligned and aligned; some commands and none. -/
theorem witness_GoStartsRun : full.status.busy = false ∧ full.status.fault = false ∧
    (2 : Word).getLsbD 0 = false ∧ (1 : Word).getLsbD 0 = true ∧ (0x804#32).toNat % 8 ≠ 0 ∧
    (0x800#32).toNat % 8 = 0 ∧ running.cmdCount ≠ 0 ∧ full.cmdCount = 0 := by decide +kernel

/-- A state after a fault. -/
def halted : State := takeFault ⟨.uninitRead, 0x010⟩ { State.reset with status := ⟨true, false, false⟩ }

/-- StickyHalt: a faulted, sound state, and a move that is no reset. -/
theorem witness_StickyHalt : halted.status.fault = true ∧ halted.status.busy = false ∧ halted.host = [] ∧
    (∃ t, step { halted with host := [.writeCsr 0 1] } = .next t) ∧
    (∃ t, step { halted with host := [.reset] } = .next t) :=
  ⟨rfl, rfl, rfl, ⟨_, rfl⟩, ⟨_, rfl⟩⟩

/-- HostAccessWhileBusy, and the first clause of HostMovesKeepInternals. -/
theorem witness_HostAccessWhileBusy : running.status.busy = true ∧
    (∃ t, step { running with host := [.readCsr 0] } = .next t) ∧ HostOp.readCsr 0 ≠ .idle ∧
    HostOp.readCsr 0 ≠ .reset := ⟨rfl, ⟨_, rfl⟩, by decide, by decide⟩

/-- HostMovesKeepInternals: CSR numbers of each kind at the ends of their ranges (10_state.md R43). -/
theorem witness_HostMovesKeepInternals : full.cfg.legal = true ∧ full.status.busy = false ∧
    (¬ isControllerCsr full.cfg 0x10B ∧ ¬ isControllerCsr full.cfg 0x120 ∧ isControllerCsr full.cfg 0x10A) ∧
    ((0x010, (some 0x200 : Option Word)) ∈ full.ctx.csrs ∧ (0x01E, (none : Option Word)) ∈ Context.unwritten.csrs) ∧
    (isItemCsr full.cfg 0x83D 0 1 3 5 ∧ (itemCsrs none)[5]? = some (some 0) ∧ (itemCsrs none)[0]? = some none) ∧
    isUnassignedCsr full.cfg 0x00F := by
  refine ⟨full_legal, rfl, ?_, by decide +kernel, ?_, .inl (by decide)⟩
  · unfold isControllerCsr; decide +kernel
  · unfold isItemCsr; decide +kernel

/-- A host write during a run is on record, and the host reads it back where no command wrote (20_memory.md R69). -/
theorem test_host_memory_while_busy :
    (hostReadExt 0x9000 (hostWriteExt 0x9000 0x5A running)).readData = 0x5A ∧
    (hostWriteExt 0x9000 0x5A running).raced = [(0x9000, 0), (0x9000, 0x5A)] ∧
    quiet (hostWriteExt 0x9000 0x5A running) 0x9000 1 = false ∧
    quiet (hostWriteExt 0x9000 0x5A running) 0x9001 4 = true := by decide +kernel

/-- HostWriteIsSetreg: the first and the last register of the only instance. -/
theorem witness_HostWriteIsSetreg : full.status.busy = false ∧ 0x100 ≤ (0x100#16).toNat ∧
    (0x10A#16).toNat < 0x100 + 0x20 * full.cfg.numReverb ∧ ((0x10A#16).toNat - 0x100) % 0x20 ≤ 0xA := by
  decide +kernel

/-- ResetMove: a block that is not BUSY, and the byte at the scratch's end. -/
theorem witness_ResetMove : { halted with host := [.reset] }.host = [.reset] ∧ halted.status.busy = false ∧
    halted.cfg.scratchReset = .zero ∧ 2511 < halted.cfg.scratchBytes := by decide +kernel

/-- StepKeepsInv: a sound BUSY state that runs a NOOP. -/
theorem witness_StepKeepsInv :
    (∃ t, step { State.reset with cmdCount := 2, status := ⟨true, false, false⟩ } = .next t ∧ t.cp = 1) ∧
    ({ State.reset with cmdCount := 2, status := ⟨true, false, false⟩ } : State).Inv := by
  refine ⟨⟨_, rfl, by decide⟩, ?_⟩
  constructor <;> try decide
  intro rb h
  obtain rfl : rb = Reverb.atReset 4 := by simpa [State.reset] using h
  exact ⟨by decide, fun it hit => by simp [Reverb.atReset] at hit⟩

end Sys2Proof.Tests
end

section
/-! SUPPORT. The fetch and what one step of the block does, the state a reset leaves, the invariant that every
step keeps, and the context registers a command reads first. -/

namespace Sys2Proof.Machine

/-! ### Bytes an external read returns (20_memory.md R63, R69) -/

@[simp] theorem readBytes_length (s : State) (a : Word) (n : Nat) : (readBytes s a n).length = n := by
  simp [readBytes]

/-- A byte read is the byte as it stands, or a value of the host's writes of it during the run. -/
theorem readBytes_getD (s : State) (a : Word) {n i : Nat} (hi : i < n) :
    (readBytes s a n).getD i 0 = s.extByte a i ∨
      ((addrAdd a i).toNat, (readBytes s a n).getD i 0) ∈ s.raced := by
  have hget : (readBytes s a n).getD i 0 =
      drawnFrom (s.draws + i) (s.extByte a i) (racedValues s (addrAdd a i)) := by
    simp [readBytes, List.getD_eq_getElem?_getD, hi, State.extByte]
  rw [hget, ← racedValues_mem]
  exact drawnFrom_mem _ _ _

/-- A quiet run of bytes is two quiet runs. -/
theorem quiet_append {s : State} {a : Word} {m n : Nat} (h : quiet s a (m + n) = true) :
    quiet s a m = true ∧ quiet s (addrAdd a m) n = true := by
  rw [quiet_iff] at h
  constructor <;> rw [quiet_iff] <;> intro i hi
  · exact h i (by omega)
  · rw [addrAdd_addrAdd]
    exact h (m + i) (by omega)

theorem extBytes_append (s : State) (a : Word) (m n : Nat) :
    extBytes s a (m + n) = extBytes s a m ++ extBytes s (addrAdd a m) n := by
  simp [extBytes, List.range_add, addrAdd_addrAdd]

/-! ### The fetch (30_encoding.md R79) -/

/-- The eight bytes a fetch at `s` reads: those of w0, then those of w1. -/
def fetchedBytes (s : State) : List Byte :=
  readBytes s (fetchAddr s) 4 ++ readBytes (afterRead s (fetchAddr s) 4) (addrAdd (fetchAddr s) 4) 4

/-- The state a fetch leaves: `s`, but for the number of the next draw where the fetch races. -/
def afterFetch (s : State) : State :=
  afterRead (afterRead s (fetchAddr s) 4) (addrAdd (fetchAddr s) 4) 4

theorem afterFetch_draws (s : State) : ∃ d, afterFetch s = { s with draws := d } := by
  obtain ⟨d, hd⟩ := afterRead_draws s (fetchAddr s) 4
  obtain ⟨d', hd'⟩ := afterRead_draws (afterRead s (fetchAddr s) 4) (addrAdd (fetchAddr s) 4) 4
  exact ⟨d', by rw [afterFetch, hd', hd]⟩

theorem fetchedBytes_length (s : State) : (fetchedBytes s).length = 8 := by simp [fetchedBytes]

/-- Each fetched byte is the byte as it stands, or a value of the host's writes of it during the run (R69). -/
theorem fetchedBytes_getD (s : State) {k : Nat} (hk : k < 8) :
    (fetchedBytes s).getD k 0 = s.extByte (fetchAddr s) k ∨
      ((addrAdd (fetchAddr s) k).toNat, (fetchedBytes s).getD k 0) ∈ s.raced := by
  unfold fetchedBytes
  by_cases h4 : k < 4
  · rw [List.getD_append _ _ _ _ (by simpa using h4)]
    exact readBytes_getD s _ h4
  · obtain ⟨d, hd⟩ := afterRead_draws s (fetchAddr s) 4
    rw [List.getD_append_right _ _ _ _ (by simpa using h4), readBytes_length, hd]
    have h := readBytes_getD { s with draws := d } (addrAdd (fetchAddr s) 4) (n := 4) (i := k - 4) (by omega)
    rw [State.extByte, addrAdd_addrAdd, show 4 + (k - 4) = k by omega] at h
    exact h

/-- A fetch of bytes the host has not written during the run reads them as they stand and draws nothing. -/
theorem fetch_quiet {s : State} (h : quiet s (fetchAddr s) 8 = true) :
    fetchedBytes s = extBytes s (fetchAddr s) 8 ∧ afterFetch s = s := by
  obtain ⟨h0, h1⟩ := quiet_append (m := 4) (n := 4) h
  constructor
  · rw [fetchedBytes, afterRead_quiet h0, readBytes_quiet h0, readBytes_quiet h1, ← extBytes_append]
  · rw [afterFetch, afterRead_quiet h0, afterRead_quiet h1]

/-- An admitted fetch: the word its eight bytes form. -/
theorem fetch_ok {s : State} (h0 : extAdmits s.cfg (fetchAddr s) 4 .read = true)
    (h1 : extAdmits s.cfg (addrAdd (fetchAddr s) 4) 4 .read = true) :
    fetch s = .ok (commandOfBytes s.cfg.endian (fetchedBytes s)) (afterFetch s) := by
  obtain ⟨d, hd⟩ := afterRead_draws s (fetchAddr s) 4
  have hcfg : (afterRead s (fetchAddr s) 4).cfg = s.cfg := by rw [hd]
  have hr0 : memRead (fetchAddr s) 4 s =
      .ok (ofBytes s.cfg.endian (readBytes s (fetchAddr s) 4)) (afterRead s (fetchAddr s) 4) := by
    rw [memRead, if_pos h0]
  have hr1 : memRead (addrAdd (fetchAddr s) 4) 4 (afterRead s (fetchAddr s) 4) =
      .ok (ofBytes s.cfg.endian (readBytes (afterRead s (fetchAddr s) 4) (addrAdd (fetchAddr s) 4) 4))
        (afterFetch s) := by
    rw [memRead, hcfg, if_pos h1, afterFetch]
  rw [fetch, bind_ok (get_apply s), bind_ok hr0, bind_ok hr1, pure_apply]
  simp [commandOfBytes, fetchedBytes, List.take_of_length_le]

/-- However a fetch ends, it leaves all but the number of the next draw. -/
theorem fetch_draws (s : State) : ∃ d, resultState (fetch s) = { s with draws := d } := by
  have hrel : RunRel fun s t : State => ∃ d, t = { s with draws := d } :=
    ⟨fun s => ⟨s.draws, rfl⟩, fun _ _ _ ⟨_, h⟩ ⟨d, h'⟩ => ⟨d, by rw [h', h]⟩, afterRead_draws⟩
  exact keeps_bind hrel (keeps_get hrel) (fun _ => keeps_bind hrel (keeps_memRead hrel _ _) fun _ =>
    keeps_bind hrel (keeps_memRead hrel _ _) fun _ => keeps_pure hrel _) s

/-! ### One step (60_exceptions.md R197, R198) -/

/-- The end of a run, with STATUS written out. -/
theorem endOfRun_eq (s : State) : endOfRun s =
    if s.status.busy = true ∧ s.cp = s.cmdCount then { s with status := ⟨false, true, s.status.fault⟩ } else s := by
  rw [endOfRun_rest, endOfRun_status]
  split <;> rfl

/-- A word that is a command: the command is performed, then the end of the run is checked. -/
theorem runWord_command {w : Command} {i : Instr} (s : State) (h : decode w = .ok i) :
    ∃ t, exec i s = .next t ∧ runWord w s = .next (endOfRun t) := by
  have hrun : runWord w s = afterCommand (exec i s) := by rw [runWord, h]
  rw [hrun, exec_eq_perform]
  rcases perform_cases (bodyOf i) s with ⟨t, _, ht⟩ | ⟨e, t, _, ht⟩ <;> exact ⟨_, ht, by rw [ht]; rfl⟩

/-- A word that is no command faults with its w0 (30_encoding.md R80). -/
theorem runWord_illegal {w : Command} {e : DecodeError} (s : State) (h : decode w = .error e) :
    runWord w s = .next (takeFault ⟨.illegalCommand, w.w0⟩ s) := by
  rw [runWord, h]

/-- A BUSY block with commands left and an admitted fetch runs the word it fetches. -/
theorem blockStep_fetched {s : State} (hb : s.status.busy = true) (hcp : s.cp ≠ s.cmdCount)
    (h0 : extAdmits s.cfg (fetchAddr s) 4 .read = true)
    (h1 : extAdmits s.cfg (addrAdd (fetchAddr s) 4) 4 .read = true) :
    blockStep s = runWord (commandOfBytes s.cfg.endian (fetchedBytes s)) (afterFetch s) := by
  rw [blockStep, if_pos hb, if_neg hcp, fetch_ok h0 h1]

/-- The fetched word is a command: it is performed after the fetch, then the end of the run is checked. -/
theorem blockStep_command {s : State} {i : Instr} (hb : s.status.busy = true) (hcp : s.cp ≠ s.cmdCount)
    (h0 : extAdmits s.cfg (fetchAddr s) 4 .read = true)
    (h1 : extAdmits s.cfg (addrAdd (fetchAddr s) 4) 4 .read = true)
    (hi : decode (commandOfBytes s.cfg.endian (fetchedBytes s)) = .ok i) :
    ∃ t, exec i (afterFetch s) = .next t ∧ blockStep s = .next (endOfRun t) := by
  rw [blockStep_fetched hb hcp h0 h1]
  exact runWord_command _ hi

/-- A step of a BUSY block for which the host names no move is a block step, at a state from which `s` differs in the
host's list and the record of boundaries alone. -/
theorem step_no_move {s u : State} {rest : List HostOp} (hb : s.status.busy = true)
    (h : s.host = [] ∧ u = s ∨ s.host = .idle :: rest ∧ u = { s with host := rest, past := s.ext :: s.past }) :
    step s = blockStep u ∧ ∃ ops past, s = { u with host := ops, past := past } := by
  rcases h with ⟨hh, rfl⟩ | ⟨hh, rfl⟩
  · exact ⟨by rw [step, hh], _, _, rfl⟩
  · exact ⟨by rw [step, hh]; simp only [recordBoundary, hb, if_true], s.host, s.past, rfl⟩

/-- Settles O49: the bytes are those the fetch reads, and where none of them races they are the bytes at CP. -/
theorem stepRunsCommand : Obligations.StepRunsCommand := by
  intro s u rest a hb hcp ha h0 h1 hu
  obtain ⟨hstep, ops, past, hs⟩ := step_no_move hb hu
  subst ha hs
  obtain ⟨d, hd⟩ := afterFetch_draws u
  refine ⟨fun i hq hi => ?_, fetchedBytes u, d, fetchedBytes_length u, fun k hk => fetchedBytes_getD u hk,
    fun i hi => ?_, fun e he => ?_⟩
  · obtain ⟨hbytes, hsame⟩ := fetch_quiet (s := u) hq
    obtain ⟨t, ht, hnext⟩ := blockStep_command (s := u) hb hcp h0 h1 (by rw [hbytes]; exact hi)
    exact ⟨t, by rw [← hsame]; exact ht, by rw [hstep, hnext, endOfRun_eq]⟩
  · obtain ⟨t, ht, hnext⟩ := blockStep_command (s := u) hb hcp h0 h1 hi
    exact ⟨t, by rw [← hd]; exact ht, by rw [hstep, hnext, endOfRun_eq]⟩
  · rw [hstep, blockStep_fetched (s := u) hb hcp h0 h1, runWord_illegal _ he, hd]

/-! ### Reset (10_state.md R44, 70_reset_and_hazards.md R206, R207) -/

/-- The memory that holds `f k` at each offset `k` below `n`, and nothing else. -/
def filled (f : Nat → Byte) (n : Nat) : Memory := (List.range n).foldl (fun m k => Memory.write m k (f k)) []

theorem filled_succ (f : Nat → Byte) (n : Nat) : filled f (n + 1) = Memory.write (filled f n) n (f n) := by
  rw [filled, List.range_succ, List.foldl_append]
  rfl

theorem filled_read (f : Nat → Byte) {n k : Nat} (hk : k < n) : Memory.read (filled f n) k = f k := by
  induction n with
  | zero => omega
  | succ n ih =>
    rw [filled_succ, Memory.read_write]
    split
    · next h => rw [h]
    · exact ih (by omega)

theorem filled_wf (f : Nat → Byte) (n : Nat) : Memory.wf (filled f n) = true := by
  induction n with
  | zero => rfl
  | succ n ih => rw [filled_succ]; exact Memory.wf_write _ _ _ ih

theorem filled_below (f : Nat → Byte) {n bound : Nat} (h : n ≤ bound) : cellsBelow bound (filled f n) = true := by
  induction n with
  | zero => rfl
  | succ n ih => rw [filled_succ]; exact cellsBelow_write _ _ _ _ (ih (by omega)) (by omega)

theorem scratchAtReset_zero {cfg : Params} (h : cfg.scratchReset = .zero) (n : Nat) : scratchAtReset cfg n = [] := by
  rw [scratchAtReset, h]

theorem scratchAtReset_unspecified {cfg : Params} (h : cfg.scratchReset = .unspecified) (n : Nat) :
    scratchAtReset cfg n = filled (Config.freeScratch n) cfg.scratchBytes := by
  rw [scratchAtReset, h, filled]

/-- The scratch after a reset has the canonical form and the scratch's size, zero or drawn. -/
theorem scratchAtReset_sound (cfg : Params) (n : Nat) :
    Memory.wf (scratchAtReset cfg n) = true ∧ cellsBelow cfg.scratchBytes (scratchAtReset cfg n) = true := by
  cases h : cfg.scratchReset with
  | zero => rw [scratchAtReset_zero h]; exact ⟨rfl, rfl⟩
  | unspecified => rw [scratchAtReset_unspecified h]; exact ⟨filled_wf _ _, filled_below _ le_rfl⟩

/-- The reset move of a block that is not BUSY. -/
theorem step_reset {s : State} {rest : List HostOp} (h : s.host = .reset :: rest) (hb : s.status.busy = false) :
    step s = .next (resetBlock { s with host := rest }) := by
  rw [step, h]
  simp [hostReset, hb]

/-- Resetting the block right after power-on changes nothing. -/
theorem resetBlock_reset : resetBlock State.reset = State.reset := rfl

/-- Settles O57: each register as `State.reset` gives it, the reverb registers as `Reverb.atReset` does. -/
theorem resetValues : Obligations.ResetValues := by
  refine ⟨rfl, rfl, rfl, rfl, rfl, rfl, rfl, rfl, fun _ => rfl, fun _ => rfl, rfl, fun rb hrb => ?_⟩
  exact List.mem_singleton.mp hrb

/-- Settles O58: the registers are those of `resetBlock`; the scratch goes by the two cases of SCRATCH_RESET. -/
theorem resetMove : Obligations.ResetMove := by
  intro s rest hh hb
  refine ⟨_, step_reset hh hb, rfl, rfl, rfl, rfl, rfl, rfl, rfl, rfl, rfl, fun _ => rfl, List.length_replicate,
    fun rb hrb => List.eq_of_mem_replicate hrb, fun hz k => ?_, fun hu k hk => ?_, rfl, rfl⟩
  · show Memory.read (scratchAtReset s.cfg s.draws) k = 0
    rw [scratchAtReset_zero hz, Memory.read_nil]
  · show Memory.read (scratchAtReset s.cfg s.draws) k = Config.freeScratch s.draws k
    rw [scratchAtReset_unspecified hu, filled_read _ hk]

/-! ### The invariant, without its clause on the commands left -/

/-- The invariant but for its clause that a BUSY block has a command left, which a completed command breaks until
the end of the run has been checked (60_exceptions.md R198). -/
structure State.Sound (s : State) : Prop extends State.Stored s where
  legal : s.cfg.legal = true
  pastForm : ∀ m, m ∈ s.past → Memory.wf m = true ∧ cellsBelow (2 ^ 32) m = true
  busyAlone : s.status.busy = true → s.status.done = false ∧ s.status.fault = false
  doneAlone : s.status.done = true → s.status.fault = false
  noFault : s.status.fault = false → s.faultCause = 0 ∧ s.faultCp = 0 ∧ s.faultInfo = 0
  faulted : s.status.fault = true → 1 ≤ s.faultCause.toNat ∧ s.faultCause.toNat ≤ 12 ∧ s.faultCp = s.cp

theorem State.inv_iff (s : State) :
    s.Inv ↔ s.Sound ∧ (s.status.busy = true → s.cp.toNat < s.cmdCount.toNat) :=
  ⟨fun h => ⟨{ h with }, h.commandLeft⟩, fun ⟨h, hleft⟩ => { h with commandLeft := hleft }⟩

theorem State.Inv.sound {s : State} (h : s.Inv) : s.Sound := ((State.inv_iff s).mp h).1

/-- The codes of the causes are 1 to 12 (60_exceptions.md R186). -/
theorem causeCode_bounds (c : Cause) : 1 ≤ (causeCode c).toNat ∧ (causeCode c).toNat ≤ 12 := by
  cases c <;> decide

/-- Fault entry leaves a sound state sound, when DONE is off. -/
theorem State.Sound.takeFault_inv {s : State} (h : s.Sound) (hdone : s.status.done = false) (e : Trap) :
    (takeFault e s).Inv :=
  (State.inv_iff _).mpr ⟨{ h with
    busyAlone := nofun
    doneAlone := fun hd => nomatch hdone.symm.trans hd
    noFault := nofun
    faulted := fun _ => ⟨(causeCode_bounds e.cause).1, (causeCode_bounds e.cause).2, rfl⟩ }, nofun⟩

/-- The check of the run's end restores the clause on the commands left. -/
theorem State.Sound.endOfRun_inv {s : State} (h : s.Sound)
    (hle : s.status.busy = true → s.cp.toNat ≤ s.cmdCount.toNat) : (endOfRun s).Inv := by
  rw [endOfRun_eq]
  split
  · next hend =>
    obtain ⟨hbusy, _⟩ := hend
    obtain ⟨_, hfault⟩ := h.busyAlone hbusy
    exact (State.inv_iff _).mpr ⟨{ h with
      busyAlone := nofun
      doneAlone := fun _ => hfault }, nofun⟩
  · next hend =>
    refine (State.inv_iff _).mpr ⟨h, fun hbusy => ?_⟩
    have hne : s.cp.toNat ≠ s.cmdCount.toNat := fun heq => hend ⟨hbusy, BitVec.eq_of_toNat_eq heq⟩
    have := hle hbusy
    omega

/-! ### A command keeps the invariant -/

/-- A state with the control of a sound one, and sound memories, book and instances, is sound. -/
theorem State.Inv.of_body {s t : State} (h : s.Inv) (hc : SameControl s t) (hst : t.Stored) : t.Inv :=
  { hst with
    legal := by rw [hc.cfg]; exact h.legal
    pastForm := by rw [hc.past]; exact h.pastForm
    busyAlone := by rw [hc.status]; exact h.busyAlone
    doneAlone := by rw [hc.status]; exact h.doneAlone
    commandLeft := by rw [hc.status, hc.cp, hc.cmdCount]; exact h.commandLeft
    noFault := by rw [hc.status, hc.faultCause, hc.faultCp, hc.faultInfo]; exact h.noFault
    faulted := by rw [hc.status, hc.faultCause, hc.faultCp, hc.cp]; exact h.faulted }

/-- A body leaves a sound state sound, however it ends. -/
theorem bodyOf_inv (i : Instr) {s : State} (h : s.Inv) : (resultState (bodyOf i s)).Inv :=
  h.of_body (bodyOf_sameControl i s) (bodyOf_stored i s h.sound.toStored)

/-- A completed command of a BUSY block: CP moves up to CMD_COUNT at most, and then the run ends. -/
theorem State.Inv.endOfRun_advance_inv {s : State} (h : s.Inv) (hb : s.status.busy = true) :
    (endOfRun (advance s)).Inv := by
  obtain ⟨_, hfault⟩ := h.busyAlone hb
  have hleft := h.commandLeft hb
  refine State.Sound.endOfRun_inv { h with faulted := fun hf => nomatch hfault.symm.trans hf } fun _ => ?_
  rw [advance_cp, advance_cmdCount, BitVec.toNat_add]
  exact (Nat.mod_le _ _).trans hleft

/-- The word at CP run on a BUSY block: the command completes or its fault is taken, or the word is illegal. -/
theorem runWord_inv {w : Command} {s t : State} (h : s.Inv) (hb : s.status.busy = true)
    (hr : runWord w s = .next t) : t.Inv := by
  obtain ⟨hdone, _⟩ := h.busyAlone hb
  cases hw : decode w with
  | error e =>
    rw [runWord_illegal s hw] at hr
    cases hr
    exact h.sound.takeFault_inv hdone _
  | ok i =>
    obtain ⟨u, hexec, hrun⟩ := runWord_command s hw
    rw [hrun] at hr
    cases hr
    rw [exec_eq_perform] at hexec
    have hinv := bodyOf_inv i h
    have hstatus := (bodyOf_sameControl i s).status
    rcases perform_cases (bodyOf i) s with ⟨v, hbody, hperf⟩ | ⟨e, v, hbody, hperf⟩
    · rw [hbody, resultState] at hinv hstatus
      rw [hperf] at hexec
      cases hexec
      exact hinv.endOfRun_advance_inv (by rw [hstatus]; exact hb)
    · rw [hbody, resultState] at hinv hstatus
      rw [hperf] at hexec
      cases hexec
      rw [endOfRun_idle rfl]
      exact hinv.sound.takeFault_inv (by rw [hstatus]; exact hdone) e

theorem fetch_inv {s : State} (h : s.Inv) (hb : s.status.busy = true) :
    (resultState (fetch s)).Inv ∧ (resultState (fetch s)).status.busy = true := by
  obtain ⟨d, hd⟩ := fetch_draws s
  rw [hd]
  exact ⟨{ h with }, hb⟩

theorem blockStep_inv {s t : State} (h : s.Inv) (hs : blockStep s = .next t) : t.Inv := by
  unfold blockStep at hs
  split at hs
  · next hb =>
    split at hs
    · cases hs
      exact h.sound.endOfRun_inv fun hb => (h.commandLeft hb).le
    · obtain ⟨hinv, hbusy⟩ := fetch_inv h hb
      cases hf : fetch s with
      | ok w u =>
        rw [hf] at hs hinv hbusy
        exact runWord_inv hinv hbusy hs
      | error e u =>
        rw [hf] at hs hinv hbusy
        cases hs
        exact hinv.sound.takeFault_inv (hinv.busyAlone hbusy).1 e
  · cases hs
    exact h

/-! ### The host's moves keep the invariant -/

theorem recordBoundary_inv {s : State} (h : s.Inv) : (recordBoundary s).Inv := by
  unfold recordBoundary
  split
  · exact { h with
      pastForm := fun m hm => by
        rcases List.mem_cons.mp hm with rfl | hm
        · exact ⟨h.extForm, h.extSize⟩
        · exact h.pastForm m hm }
  · exact h

theorem hostReadCsr_inv {s : State} (h : s.Inv) (n : Nat) : (hostReadCsr n s).Inv := by
  unfold hostReadCsr
  split <;> exact { h with }

theorem hostReadExt_inv {s : State} (h : s.Inv) (a : Word) : (hostReadExt a s).Inv := by
  unfold hostReadExt
  split <;> exact { h with }

/-- A byte written keeps an external memory's form. -/
theorem write_ext_sound {m : Memory} (h : Memory.wf m = true ∧ cellsBelow (2 ^ 32) m = true) (a : Word) (b : Byte) :
    Memory.wf (m.write a.toNat b) = true ∧ cellsBelow (2 ^ 32) (m.write a.toNat b) = true :=
  ⟨Memory.wf_write _ _ _ h.1, cellsBelow_write _ _ _ _ h.2 a.isLt⟩

theorem hostWriteExt_inv {s : State} (h : s.Inv) (a : Word) (b : Byte) : (hostWriteExt a b s).Inv := by
  obtain ⟨hform, hsize⟩ := write_ext_sound ⟨h.extForm, h.extSize⟩ a b
  unfold hostWriteExt
  split
  · exact { h with
      extForm := hform
      extSize := hsize
      pastForm := fun m hm => by
        obtain ⟨m', hm', rfl⟩ := List.mem_map.mp hm
        exact write_ext_sound (h.pastForm m' hm') a b }
  · exact { h with extForm := hform, extSize := hsize }

/-- All that the GO request can do (60_exceptions.md R200). -/
theorem go_cases (s : State) :
    go s = s ∨ s.status.busy = false ∧ s.status.fault = false ∧
      (go s = takeFault ⟨.cmdAlign, s.cmdBase⟩ { s with status := { s.status with done := false }, cp := 0 } ∨
        go s = endOfRun
          { s with status := { s.status with busy := true, done := false }, cp := 0, raced := [], past := [] }) := by
  unfold go
  split
  · exact .inl rfl
  · next hidle =>
    simp only [Bool.or_eq_true, not_or, Bool.not_eq_true] at hidle
    refine .inr ⟨hidle.1, hidle.2, ?_⟩
    split
    · exact .inl rfl
    · exact .inr rfl

theorem go_inv {s : State} (h : s.Inv) : (go s).Inv := by
  rcases go_cases s with hg | ⟨hbusy, hfault, hg | hg⟩ <;> rw [hg]
  · exact h
  · exact State.Sound.takeFault_inv (s := { s with status := { s.status with done := false }, cp := 0 }) { h with
      busyAlone := fun hb => nomatch hbusy.symm.trans hb
      doneAlone := nofun
      faulted := fun hf => nomatch hfault.symm.trans hf } rfl _
  · exact State.Sound.endOfRun_inv { h with
      pastForm := nofun
      busyAlone := fun _ => ⟨rfl, hfault⟩
      doneAlone := nofun
      faulted := fun hf => nomatch hfault.symm.trans hf } fun _ => Nat.zero_le _

/-- All that a host write of a CSR can do (10_state.md R43; 60_exceptions.md R201). -/
theorem hostWriteCsr_cases (n : Nat) (v : Word) (s : State) :
    hostWriteCsr n v s = s ∨ s.status.busy = false ∧
      (hostWriteCsr n v s = go s ∨ hostWriteCsr n v s = { s with cmdBase := v } ∨
        hostWriteCsr n v s = { s with cmdCount := v } ∨
        ∃ r k, reverbCsr s.cfg n = some (r, k) ∧ hostWriteCsr n v s = writeReverbCsr s r k v) := by
  unfold hostWriteCsr
  split
  · exact .inl rfl
  · next hb =>
    have hidle : s.status.busy = false := by simpa using hb
    split
    · split
      · exact .inr ⟨hidle, .inl rfl⟩
      · exact .inl rfl
    · exact .inr ⟨hidle, .inr (.inl rfl)⟩
    · exact .inr ⟨hidle, .inr (.inr (.inl rfl))⟩
    · split
      · next hr => exact .inr ⟨hidle, .inr (.inr (.inr ⟨_, _, hr, rfl⟩))⟩
      · exact .inl rfl

/-- A write of a controller register keeps the instances sound: it touches no item. -/
theorem writeReverbCsr_stored {s : State} (h : s.Stored) (r k : Nat) (v : Word) : (writeReverbCsr s r k v).Stored := by
  obtain ⟨hlen, hitems⟩ := reverbAt_sound h r
  exact h.setReverb r ⟨by rw [writeField_items]; exact hlen, by rw [writeField_items]; exact hitems⟩

theorem hostWriteCsr_inv {s : State} (h : s.Inv) (n : Nat) (v : Word) : (hostWriteCsr n v s).Inv := by
  rcases hostWriteCsr_cases n v s with hw | ⟨hidle, hw | hw | hw | ⟨r, k, _, hw⟩⟩ <;> rw [hw]
  · exact h
  · exact go_inv h
  · exact { h with }
  · exact { h with commandLeft := fun hb => nomatch hidle.symm.trans hb }
  · have hst := writeReverbCsr_stored h.sound.toStored r k v
    exact { h with instances := hst.instances, reverbSound := hst.reverbSound }

/-- A reset leaves a sound state, whatever the block's own state was. -/
theorem resetBlock_inv {s : State} (hlegal : s.cfg.legal = true)
    (hext : Memory.wf s.ext = true ∧ cellsBelow (2 ^ 32) s.ext = true) : (resetBlock s).Inv where
  legal := hlegal
  scratchForm := (scratchAtReset_sound s.cfg s.draws).1
  scratchSize := (scratchAtReset_sound s.cfg s.draws).2
  extForm := hext.1
  extSize := hext.2
  pastForm := nofun
  bookForm := rfl
  bookSize := rfl
  instances := List.length_replicate
  reverbSound := fun rb hrb => by
    rw [List.eq_of_mem_replicate hrb]
    exact ⟨List.length_replicate, fun it hit => absurd (List.eq_of_mem_replicate hit) nofun⟩
  busyAlone := nofun
  doneAlone := nofun
  commandLeft := nofun
  noFault := fun _ => ⟨rfl, rfl, rfl⟩
  faulted := nofun

theorem hostReset_inv {s t : State} (h : s.Inv) (hs : hostReset s = .next t) : t.Inv := by
  unfold hostReset at hs
  split at hs
  · exact absurd hs nofun
  · cases hs
    exact resetBlock_inv h.legal ⟨h.extForm, h.extSize⟩

/-! ### The state after power-on, and every step -/

theorem defaultParams_legal : defaultParams.legal = true := by decide

/-- Settles O59: the state after power-on is what a reset leaves. -/
theorem resetInv : Obligations.ResetInv := by
  unfold Obligations.ResetInv
  rw [← resetBlock_reset]
  exact resetBlock_inv defaultParams_legal ⟨rfl, rfl⟩

/-- Settles O60, by the cases of a step: a block step, or one of the host's moves. -/
theorem stepKeepsInv : Obligations.StepKeepsInv := by
  intro s t h hs
  cases hh : s.host with
  | nil =>
    rw [step, hh] at hs
    exact blockStep_inv h hs
  | cons op rest =>
    have hrest : State.Inv { s with host := rest } := { h with }
    rw [step, hh] at hs
    cases op with
    | idle => exact blockStep_inv (recordBoundary_inv hrest) hs
    | readCsr n => cases hs; exact hostReadCsr_inv hrest n
    | writeCsr n v => cases hs; exact hostWriteCsr_inv hrest n v
    | readExt a => cases hs; exact hostReadExt_inv hrest a
    | writeExt a b => cases hs; exact hostWriteExt_inv hrest a b
    | reset => exact hostReset_inv hrest hs

/-! ### Context registers read first (10_state.md R25, 40_context_and_scratch.md R97) -/

section ContextReads

variable {α β : Type}

/-- The first unwritten register among `reads`, in their order: `(CSR number, written)`. -/
def firstUnwritten (reads : List (Nat × Bool)) : Option (Nat × Bool) := reads.find? fun p => !p.2

theorem firstUnwritten_append (l₁ l₂ : List (Nat × Bool)) :
    firstUnwritten (l₁ ++ l₂) = (firstUnwritten l₁).or (firstUnwritten l₂) := List.find?_append

/-- Run at `s`, the body faults with the first unwritten register of `reads`, nothing written, if there is one. -/
def FaultsFirst (reads : List (Nat × Bool)) (m : M α) (s : State) : Prop :=
  ∀ p, firstUnwritten reads = some p → m s = .error ⟨.uninitRead, BitVec.ofNat 32 p.1⟩ s

/-- Run at `s`, the body does no more than read the registers `reads` in their order. -/
structure ReadsJust (reads : List (Nat × Bool)) (m : M α) (s : State) : Prop where
  faults : FaultsFirst reads m s
  ends : firstUnwritten reads = none → ∃ x, m s = .ok x s

theorem faultsFirst_nil (m : M α) (s : State) : FaultsFirst [] m s := nofun

/-- What follows a body that faults first does not matter. -/
theorem FaultsFirst.before {reads : List (Nat × Bool)} {m : M α} {s : State} (h : FaultsFirst reads m s)
    (f : α → M β) : FaultsFirst reads (m >>= f) s := fun p hp => bind_error (h p hp)

theorem readsJust_pure (x : α) (s : State) : ReadsJust [] (pure x : M α) s :=
  ⟨faultsFirst_nil _ s, fun _ => ⟨x, rfl⟩⟩

theorem readsJust_ctxRead {w : Nat} (csr : Nat) (v : Context → Option (BitVec w)) (s : State) :
    ReadsJust [(csr, (v s.ctx).isSome)] (ctxRead csr v) s := by
  cases hv : v s.ctx with
  | none =>
    refine ⟨fun p hp => ?_, nofun⟩
    cases hp
    exact ctxRead_unwritten hv
  | some x => exact ⟨nofun, fun _ => ⟨x, ctxRead_ok hv⟩⟩

/-- In sequence: the registers of the first part come before those of the second. -/
theorem faultsFirst_bind {l₁ l₂ : List (Nat × Bool)} {m : M α} {f : α → M β} {s : State} (hm : ReadsJust l₁ m s)
    (hf : ∀ x, FaultsFirst l₂ (f x) s) : FaultsFirst (l₁ ++ l₂) (m >>= f) s := by
  intro p hp
  rw [firstUnwritten_append] at hp
  cases h₁ : firstUnwritten l₁ with
  | some q =>
    rw [h₁] at hp
    cases hp
    exact hm.faults.before f _ h₁
  | none =>
    obtain ⟨x, hx⟩ := hm.ends h₁
    rw [h₁] at hp
    rw [bind_ok hx]
    exact hf x p hp

theorem readsJust_bind {l₁ l₂ : List (Nat × Bool)} {m : M α} {f : α → M β} {s : State} (hm : ReadsJust l₁ m s)
    (hf : ∀ x, ReadsJust l₂ (f x) s) : ReadsJust (l₁ ++ l₂) (m >>= f) s := by
  refine ⟨faultsFirst_bind hm fun x => (hf x).faults, fun hnone => ?_⟩
  rw [firstUnwritten_append, Option.or_eq_none_iff] at hnone
  obtain ⟨h₁, h₂⟩ := hnone
  obtain ⟨x, hx⟩ := hm.ends h₁
  rw [bind_ok hx]
  exact (hf x).ends h₂

/-- A body that begins by reading a context register. -/
theorem faultsFirst_ctxRead {w : Nat} {csr : Nat} {v : Context → Option (BitVec w)} {l : List (Nat × Bool)}
    {f : BitVec w → M β} {s : State} (hf : ∀ x, FaultsFirst l (f x) s) :
    FaultsFirst ((csr, (v s.ctx).isSome) :: l) (ctxRead csr v >>= f) s :=
  faultsFirst_bind (readsJust_ctxRead csr v s) hf

end ContextReads

/-- ADPCM's source: LOOP_ADDR is read only with LOOP and without INIT (41_adpcm.md R110). -/
theorem adpcmSource_readsJust (flags : BitVec 8) (addr : Word) (s : State) :
    ReadsJust (if flagLoop flags && !flagInit flags then [(0x01E, s.ctx.loopAddr.isSome)] else [])
      (adpcmSource flags addr) s := by
  unfold adpcmSource
  split
  · exact readsJust_ctxRead 0x01E Context.loopAddr s
  · exact readsJust_pure addr s

/-- ENVMIXER's wet offsets are read only with AUX (43_envmix.md R133). -/
theorem envWet_readsJust (flags : BitVec 8) (s : State) :
    ReadsJust (if flagAux flags then [(0x014, s.ctx.wetLeft.isSome), (0x015, s.ctx.wetRight.isSome)] else [])
      (envWet flags) s := by
  unfold envWet
  split
  · exact readsJust_bind (readsJust_ctxRead 0x014 Context.wetLeft s) fun _ =>
      readsJust_bind (readsJust_ctxRead 0x015 Context.wetRight s) fun _ => readsJust_pure _ s
  · exact readsJust_pure none s

/-- INIT's volume registers, read in R133's order (43_envmix.md R135). -/
theorem envInit_readsJust (s : State) :
    ReadsJust
      [(0x016, s.ctx.volL.isSome), (0x01A, s.ctx.rateL.isSome), (0x018, s.ctx.targetL.isSome),
        (0x017, s.ctx.volR.isSome), (0x01B, s.ctx.rateR.isSome), (0x019, s.ctx.targetR.isSome),
        (0x01C, s.ctx.volDry.isSome), (0x01D, s.ctx.volWet.isSome)] envInit s :=
  readsJust_bind (readsJust_ctxRead 0x016 Context.volL s) fun _ =>
    readsJust_bind (readsJust_ctxRead 0x01A Context.rateL s) fun _ =>
    readsJust_bind (readsJust_ctxRead 0x018 Context.targetL s) fun _ =>
    readsJust_bind (readsJust_ctxRead 0x017 Context.volR s) fun _ =>
    readsJust_bind (readsJust_ctxRead 0x01B Context.rateR s) fun _ =>
    readsJust_bind (readsJust_ctxRead 0x019 Context.targetR s) fun _ =>
    readsJust_bind (readsJust_ctxRead 0x01C Context.volDry s) fun _ =>
    readsJust_bind (readsJust_ctxRead 0x01D Context.volWet s) fun _ => readsJust_pure _ s

/-- ENVMIXER's start reads the volume registers only with INIT (43_envmix.md R135, R136). -/
theorem envStart_faultsFirst (flags : BitVec 8) (addr : Word) (s : State) :
    FaultsFirst
      (if flagInit flags then
        [(0x016, s.ctx.volL.isSome), (0x01A, s.ctx.rateL.isSome), (0x018, s.ctx.targetL.isSome),
          (0x017, s.ctx.volR.isSome), (0x01B, s.ctx.rateR.isSome), (0x019, s.ctx.targetR.isSome),
          (0x01C, s.ctx.volDry.isSome), (0x01D, s.ctx.volWet.isSome)]
      else [])
      (envStart flags addr) s := by
  unfold envStart
  split
  · exact (envInit_readsJust s).faults
  · exact faultsFirst_nil _ s

/-- RESAMPLE reads its registers only when its flags do not conflict (42_resample.md R120). -/
theorem resampleBody_faultsFirst (flags : BitVec 8) (pitch : Half) (addr : Word) (s : State) :
    FaultsFirst
      (if flagInit flags && flagRestart flags then []
      else [(0x010, s.ctx.inp.isSome), (0x012, s.ctx.count.isSome), (0x011, s.ctx.out.isSome)])
      (resampleBody flags pitch addr) s := by
  unfold resampleBody
  split
  · exact faultsFirst_nil _ s
  · exact faultsFirst_ctxRead (v := Context.inp) fun _ =>
      faultsFirst_ctxRead (v := Context.count) fun _ =>
      faultsFirst_ctxRead (v := Context.out) fun _ => faultsFirst_nil _ s

/-- Every body reads its context registers before it does anything else, in the order of `Instr.contextReads`. -/
theorem bodyOf_faultsFirst (i : Instr) (s : State) : FaultsFirst (i.contextReads s.ctx) (bodyOf i) s := by
  cases i with
  | adpcm flags addr =>
    exact faultsFirst_bind (adpcmSource_readsJust flags addr s) fun _ =>
      faultsFirst_ctxRead (v := Context.out) fun _ =>
      faultsFirst_ctxRead (v := Context.inp) fun _ =>
      faultsFirst_ctxRead (v := Context.count) fun _ => faultsFirst_nil _ s
  | resample flags pitch addr => exact resampleBody_faultsFirst flags pitch addr s
  | envmixer flags addr =>
    exact faultsFirst_ctxRead (v := Context.inp) fun _ =>
      faultsFirst_ctxRead (v := Context.out) fun _ =>
      faultsFirst_ctxRead (v := Context.dryRight) fun _ =>
      faultsFirst_ctxRead (v := Context.count) fun _ =>
      faultsFirst_bind (envWet_readsJust flags s) fun _ =>
      (envStart_faultsFirst flags addr s).before _
  | loadbuff addr =>
    exact faultsFirst_ctxRead (v := Context.inp) fun _ =>
      faultsFirst_ctxRead (v := Context.count) fun _ => faultsFirst_nil _ s
  | savebuff addr =>
    exact faultsFirst_ctxRead (v := Context.out) fun _ =>
      faultsFirst_ctxRead (v := Context.count) fun _ => faultsFirst_nil _ s
  | mixer gain inp out => exact faultsFirst_ctxRead (v := Context.count) fun _ => faultsFirst_nil _ s
  | interleave left right =>
    exact faultsFirst_ctxRead (v := Context.out) fun _ =>
      faultsFirst_ctxRead (v := Context.count) fun _ => faultsFirst_nil _ s
  | interleaveExt left right addr => exact faultsFirst_ctxRead (v := Context.count) fun _ => faultsFirst_nil _ s
  | noop | clearbuff _ _ | setbuff _ _ _ _ | setvol _ _ _ _ | dmemmove _ _ _ | loadadpcm _ _ | setloop _
  | setreg _ _ | rbprep _ _ _ | rbread _ _ _ _ | rbwrite _ _ _ _ | rbframe _ => exact faultsFirst_nil _ s

/-- Settles O37: the fault is raised before the body has changed anything, so its entry is at `s` itself. -/
theorem unwrittenContextFaults : Obligations.UnwrittenContextFaults := by
  intro i s n b h
  rw [exec_eq_perform]
  exact perform_error (bodyOf_faultsFirst i s (n, b) h)

end Sys2Proof.Machine
end

section
/-! SUPPORT. The access rules of 20_memory.md: scratch and external accesses with their checks, the command list that
no command writes, the commands that do not read external memory, and the host's accesses to the registers. -/

namespace Sys2Proof.Machine

/-! ### Single bytes of a value (20_memory.md R49, R63) -/

theorem bytesLE_getD {n k : Nat} (v : Nat) (hk : k < n) : (bytesLE n v).getD k 0 = BitVec.ofNat 8 (v / 256 ^ k) := by
  induction n generalizing v k with
  | zero => omega
  | succ n ih =>
    cases k with
    | zero => simp [bytesLE]
    | succ k => rw [bytesLE, List.getD_cons_succ, ih _ (by omega), Nat.div_div_eq_div_mul, Nat.pow_succ']

/-- The byte at place `k` of a value's `n` bytes in ENDIAN order. -/
theorem toBytes_getD (e : Endian) {n k : Nat} (v : Nat) (hk : k < n) :
    (toBytes e n v).getD k 0 = BitVec.ofNat 8 (v / 256 ^ (if e = .little then k else n - 1 - k)) := by
  cases e with
  | little => exact bytesLE_getD v hk
  | big =>
    rw [toBytes, List.getD_eq_getElem?_getD, List.getElem?_reverse (by simpa using hk), ← List.getD_eq_getElem?_getD,
      bytesLE_length, bytesLE_getD v (by omega), if_neg nofun]

/-- The signed value of two bytes in ENDIAN order is that of the word they form. -/
theorem sext16_ofBytes_pair (e : Endian) (b c : Byte) :
    sext16 (ofBytes e [b, c]) = if e = .little then (c ++ b).toInt else (b ++ c).toInt := by
  have hword : ∀ lo hi : Byte, BitVec.ofNat 16 (valueLE [lo, hi]) = hi ++ lo := by
    intro lo hi
    apply BitVec.eq_of_toNat_eq
    rw [BitVec.toNat_append, ← Nat.shiftLeft_add_eq_or_of_lt lo.isLt, Nat.shiftLeft_eq]
    simp only [valueLE, BitVec.toNat_ofNat]
    omega
  cases e with
  | little => exact congrArg BitVec.toInt (hword b c)
  | big => exact congrArg BitVec.toInt (hword c b)

/-- The low byte of `v mod 2^16`. -/
theorem ofNat_mod16 (v : Int) : BitVec.ofNat 8 (mod16 v) = BitVec.ofInt 8 v := by
  apply BitVec.eq_of_toNat_eq
  simp only [BitVec.toNat_ofNat, BitVec.toNat_ofInt, mod16]
  omega

/-- The high byte of `v mod 2^16`. -/
theorem ofNat_mod16_div (v : Int) : BitVec.ofNat 8 (mod16 v / 256) = BitVec.ofInt 8 (v / 256) := by
  apply BitVec.eq_of_toNat_eq
  simp only [BitVec.toNat_ofNat, BitVec.toNat_ofInt, mod16]
  omega

/-! ### Scratch accesses (20_memory.md R46 to R48, R55 to R58) -/

theorem access16_misaligned {a : Int} (v : Int) (s : State) (h : a % 2 = 1) :
    sRead16 a s = .error ⟨.scratchMisaligned, BitVec.ofInt 32 a⟩ s ∧
      sWrite16 a v s = .error ⟨.scratchMisaligned, BitVec.ofInt 32 a⟩ s := by
  have hodd : a % 2 ≠ 0 := by omega
  exact ⟨by rw [sRead16, if_pos hodd], by rw [sWrite16, if_pos hodd]⟩

theorem access16_outside {a : Int} (v : Int) {s : State} (he : a % 2 = 0)
    (h : a < 0 ∨ s.cfg.scratchBytes < a + 2) :
    sRead16 a s = .error ⟨.scratchBounds, BitVec.ofInt 32 a⟩ s ∧
      sWrite16 a v s = .error ⟨.scratchBounds, BitVec.ofInt 32 a⟩ s := by
  have hout : ¬ inScratch s a 2 = true := by rw [inScratch_iff]; omega
  exact ⟨by rw [sRead16, if_neg (by omega), if_neg hout], by rw [sWrite16, if_neg (by omega), if_neg hout]⟩

theorem access8_outside {a : Int} (b : Byte) {s : State} (h : a < 0 ∨ s.cfg.scratchBytes < a + 1) :
    sRead8 a s = .error ⟨.scratchBounds, BitVec.ofInt 32 a⟩ s ∧
      sWrite8 a b s = .error ⟨.scratchBounds, BitVec.ofInt 32 a⟩ s := by
  have hout : ¬ inScratch s a 1 = true := by rw [inScratch_iff]; omega
  exact ⟨by rw [sRead8, if_neg hout], by rw [sWrite8, if_neg hout]⟩

/-- A 16-bit write inside the scratch changes its two bytes alone, to the bytes of `v mod 2^16` (R58). -/
theorem sWrite16_bytes {a : Int} (v : Int) {s : State} (he : a % 2 = 0) (h0 : 0 ≤ a)
    (h1 : a + 2 ≤ s.cfg.scratchBytes) :
    ∃ t, sWrite16 a v s = .ok () t ∧ Changed s t (inSpan a.toNat 2) noByte ∧
      Memory.read t.scratch a.toNat = BitVec.ofInt 8 (if s.cfg.endian = .little then v else v / 256) ∧
      Memory.read t.scratch (a.toNat + 1) = BitVec.ofInt 8 (if s.cfg.endian = .little then v / 256 else v) := by
  have hread : ∀ x, Memory.read (storeBytes s.scratch a.toNat (toBytes s.cfg.endian 2 (mod16 v))) x =
      if a.toNat ≤ x ∧ x < a.toNat + 2 then (toBytes s.cfg.endian 2 (mod16 v)).getD (x - a.toNat) 0
      else Memory.read s.scratch x := by
    intro x
    rw [storeBytes_read, toBytes_length]
  refine ⟨_, sWrite16_ok v he h0 h1, ⟨rfl, fun x hx => ?_, fun _ _ => rfl⟩, ?_, ?_⟩
  · exact (hread x).trans (if_neg hx)
  · rw [hread, if_pos ⟨by omega, by omega⟩, Nat.sub_self, toBytes_getD _ _ (by omega)]
    cases s.cfg.endian <;> simp [ofNat_mod16, ofNat_mod16_div]
  · rw [hread, if_pos ⟨by omega, by omega⟩, Nat.add_sub_cancel_left, toBytes_getD _ _ (by omega)]
    cases s.cfg.endian <;> simp [ofNat_mod16, ofNat_mod16_div]

/-- An 8-bit write inside the scratch changes its byte alone (R56). -/
theorem sWrite8_byte {a : Int} (b : Byte) {s : State} (h0 : 0 ≤ a) (h1 : a + 1 ≤ s.cfg.scratchBytes) :
    ∃ t, sWrite8 a b s = .ok () t ∧ Changed s t (inSpan a.toNat 1) noByte ∧ Memory.read t.scratch a.toNat = b := by
  obtain ⟨n, rfl⟩ := Int.eq_ofNat_of_zero_le h0
  obtain ⟨_, t, ht, hq⟩ := ends_sWrite8 n b (s := s) (by omega)
  exact ⟨t, ht, hq⟩

/-- Settles O38: one lemma for each of the faults and for each width's access inside the scratch. -/
theorem misalignedBeforeBounds : Obligations.MisalignedBeforeBounds := by
  intro s a v b
  refine ⟨access16_misaligned v s, access16_outside v, fun he h0 h1 => ⟨?_, sWrite16_bytes v he h0 h1⟩,
    access8_outside b, fun h0 h1 => ⟨sRead8_ok h0 h1, sWrite8_byte b h0 h1⟩⟩
  rw [sRead16_ok he h0 h1, scratchSample, sext16_ofBytes_pair]

/-! ### The command list (20_memory.md R67) -/

theorem addrAdd_toNat (a : Word) (k : Nat) : (addrAdd a k).toNat = (a.toNat + k) % 2 ^ 32 := by
  rw [addrAdd, BitVec.toNat_add, BitVec.toNat_ofNat, Nat.add_mod_mod]

/-- The bytes of the command list: `[CMD_BASE, CMD_BASE + 8*CMD_COUNT)` mod 2^32. -/
theorem inCommandList_iff {s : State} {x : Word} : inCommandList s x = true ↔
    ∃ j, j < 8 * s.cmdCount.toNat ∧ x.toNat = (s.cmdBase.toNat + j) % 2 ^ 32 := by
  rw [inCommandList, decide_eq_true_eq]
  have hx := x.isLt
  have hb := s.cmdBase.isLt
  constructor
  · intro h
    exact ⟨_, h, by rw [BitVec.toNat_sub]; omega⟩
  · rintro ⟨j, hj, hxj⟩
    rw [BitVec.toNat_sub]
    omega

/-- An access overlaps the command list exactly when one of its bytes is one of the list's. -/
theorem overlapsCommandList_iff {s : State} {a : Word} {n : Nat} : overlapsCommandList s a n = true ↔
    ∃ k j, k < n ∧ j < 8 * s.cmdCount.toNat ∧ (a.toNat + k) % 2 ^ 32 = (s.cmdBase.toNat + j) % 2 ^ 32 := by
  simp only [overlapsCommandList, List.any_eq_true, List.mem_range, inCommandList_iff, addrAdd_toNat]
  exact ⟨fun ⟨k, hk, j, h⟩ => ⟨k, j, hk, h⟩, fun ⟨k, j, hk, h⟩ => ⟨k, hk, j, h⟩⟩

/-- Performing a command leaves external memory as its body leaves it. -/
theorem exec_ext {i : Instr} {s t : State} (h : exec i s = .next t) : t.ext = (resultState (bodyOf i s)).ext := by
  rw [exec_eq_perform] at h
  rcases perform_cases (bodyOf i) s with ⟨u, hbody, hperf⟩ | ⟨e, u, hbody, hperf⟩
  all_goals
    rw [hperf] at h
    cases h
    rw [hbody]
    rfl

/-- Settles O42: no body writes the list, and neither completion nor fault entry touches external memory. -/
theorem commandListKept : Obligations.CommandListKept := by
  intro i s t j h hj
  have hkept := (bodyOf_sameList i s).bytes (addrAdd s.cmdBase j) (inCommandList_iff.mpr ⟨j, hj, addrAdd_toNat _ _⟩)
  rwa [← exec_ext h, addrAdd_toNat] at hkept

/-! ### External accesses (20_memory.md R63, R69) -/

theorem memWrite_refused {s : State} {a : Word} {n : Nat} (v : Nat) (h : extAdmits s.cfg a n .write = false) :
    memWrite a n v s = .error ⟨.extFault, a⟩ s := by
  rw [memWrite, if_neg (by simp [h])]

theorem memWrite_overlap {s : State} {a : Word} {n : Nat} (v : Nat) (h : extAdmits s.cfg a n .write = true)
    (ho : overlapsCommandList s a n = true) : memWrite a n v s = .error ⟨.cmdOverlap, a⟩ s := by
  rw [memWrite, if_pos h, if_pos ho]

/-- Byte `k` of a span, as a list and as a read of memory. -/
theorem extBytes_getD (s : State) (a : Word) {n k : Nat} (hk : k < n) :
    (extBytes s a n).getD k 0 = Memory.read s.ext ((a.toNat + k) % 2 ^ 32) := by
  rw [← addrAdd_toNat]
  simp [extBytes, List.getD_eq_getElem?_getD, hk]

/-- An admitted write apart from the command list: the bytes it stores, and what a read of them then returns. -/
theorem memWrite_stores {s : State} {a : Word} {n v : Nat} (hn : n ≤ 2 ^ 32) (hv : v < 256 ^ n)
    (h : extAdmits s.cfg a n .write = true) (ho : overlapsCommandList s a n = false) :
    ∃ t, memWrite a n v s = .ok () t ∧ Changed s t noByte (inExtSpan a n) ∧
      (s.mayRead a n → memRead a n t = .ok v t) ∧
      ∀ k, k < n → Memory.read t.ext ((a.toNat + k) % 2 ^ 32) =
        BitVec.ofNat 8 (v / 256 ^ (if s.cfg.endian = .little then k else n - 1 - k)) := by
  obtain ⟨_, t, ht, hc, hb⟩ := ends_memWrite a n v hn ⟨h, ho⟩
  refine ⟨t, ht, hc, fun hr => ?_, fun k hk => ?_⟩
  · rw [memRead_ok (hc.mayRead hr), hb, hc.cfg, ofBytes_toBytes, Nat.mod_eq_of_lt hv]
  · rw [← extBytes_getD t a hk, hb, toBytes_getD _ _ hk]

/-- A span none of whose bytes stands in the record of the host's writes is quiet. -/
theorem quiet_of_not_raced {s : State} {a : Word} {n : Nat}
    (h : ∀ k b, k < n → ((a.toNat + k) % 2 ^ 32, b) ∉ s.raced) : quiet s a n = true := by
  refine quiet_iff.mpr fun i hi => List.eq_nil_iff_forall_not_mem.mpr fun b hb => h i b hi ?_
  rwa [← addrAdd_toNat, ← racedValues_mem]

/-- An admitted read: the value of the bytes read, drawing only where the host has written during the run. -/
theorem memRead_reads {s : State} {a : Word} {n : Nat} (h : extAdmits s.cfg a n .read = true) :
    ∃ r d, memRead a n s = .ok r { s with draws := d } ∧ r < 256 ^ n ∧
      ((∀ k b, k < n → ((a.toNat + k) % 2 ^ 32, b) ∉ s.raced) → d = s.draws) ∧
      ∀ k b, k < n → b = BitVec.ofNat 8 (r / 256 ^ (if s.cfg.endian = .little then k else n - 1 - k)) →
        b = Memory.read s.ext ((a.toNat + k) % 2 ^ 32) ∨ ((a.toNat + k) % 2 ^ 32, b) ∈ s.raced := by
  obtain ⟨d, hd⟩ := afterRead_draws s a n
  have hlen := readBytes_length s a n
  have hbytes := toBytes_ofBytes s.cfg.endian (readBytes s a n)
  have hlt := ofBytes_lt s.cfg.endian (readBytes s a n)
  rw [hlen] at hbytes hlt
  refine ⟨_, d, by rw [memRead, if_pos h, hd], hlt, fun hr => ?_, fun k b hk hb => ?_⟩
  · rw [afterRead_quiet (quiet_of_not_raced hr)] at hd
    exact congrArg State.draws hd.symm
  · rw [← toBytes_getD _ _ hk, hbytes] at hb
    rw [hb, ← addrAdd_toNat]
    exact readBytes_getD s a hk

/-- Settles O39: one lemma for each way an access can end. -/
theorem externalAccessChecks : Obligations.ExternalAccessChecks := by
  intro s a n v hn hv
  refine ⟨memRead_refused, memWrite_refused v, fun h hov => memWrite_overlap v h (overlapsCommandList_iff.mpr hov),
    fun h hap => memWrite_stores (by omega) hv h ?_, memRead_reads⟩
  rw [← Bool.not_eq_true, overlapsCommandList_iff]
  rintro ⟨k, j, hk, hj, heq⟩
  exact hap k j hk hj heq

/-! ### Commands that do not read external memory (20_memory.md R66) -/

theorem blind_setCtx (f : Context → Context) : Blind (setCtx f) := fun s e => ⟨e, rfl, sameStores_refl s.ext e⟩

theorem setregBody_blind (reg : Half) (value : Word) : Blind (setregBody reg value) := by
  intro s e
  unfold setregBody
  dsimp only
  split <;> exact ⟨e, rfl, sameStores_refl s.ext e⟩

theorem rbframeBody_blind (r : BitVec 8) : Blind (rbframeBody r) := by
  intro s e
  unfold rbframeBody
  dsimp only
  split <;> exact ⟨e, rfl, sameStores_refl s.ext e⟩

/-- The body of a command that reads no external memory does not depend on it. -/
theorem bodyOf_blind (i : Instr) (h : i.readsExternal = false) : Blind (bodyOf i) := by
  cases i with
  | noop => exact blind_pure ()
  | adpcm flags addr => exact adpcmBody_blind flags addr (by simpa [Instr.readsExternal] using h)
  | resample flags pitch addr => exact resampleBody_blind flags pitch addr (by simpa [Instr.readsExternal] using h)
  | envmixer flags addr => exact envmixerBody_blind flags addr (by simpa [Instr.readsExternal] using h)
  | clearbuff dmem count => exact clearbuffBody_blind dmem count
  | dmemmove inp out count => exact dmemmoveBody_blind inp out count
  | savebuff addr => exact savebuffBody_blind addr
  | mixer gain inp out => exact mixerBody_blind gain inp out
  | interleave left right => exact interleaveBody_blind left right
  | interleaveExt left right addr => exact interleaveExtBody_blind left right addr
  | rbwrite r u left right => exact rbwriteBody_blind r u left right
  | setreg reg value => exact setregBody_blind reg value
  | rbframe r => exact rbframeBody_blind r
  | setbuff flags inp out count => exact blind_setCtx (setbuffContext flags inp out count)
  | setvol flags v t r => exact blind_setCtx (setvolContext flags v t r)
  | setloop addr => exact blind_setCtx fun c => { c with loopAddr := some addr }
  | loadbuff _ | loadadpcm _ _ | rbprep _ _ _ | rbread _ _ _ _ => exact nomatch h

/-- Performing a blind body is blind. -/
theorem Blind.perform {m : M Unit} (hm : Blind m) {s t : State} (e : Memory) (h : perform m s = .next t) :
    ∃ e', Machine.perform m { s with ext := e } = .next { t with ext := e' } ∧ SameStores s.ext e t.ext e' := by
  obtain ⟨e', hrun, hsame⟩ := hm s e
  refine ⟨e', ?_⟩
  rcases perform_cases m s with ⟨u, hbody, hperf⟩ | ⟨c, u, hbody, hperf⟩
  all_goals
    rw [hperf] at h
    cases h
    rw [hbody] at hrun hsame
  · exact ⟨perform_ok hrun, hsame⟩
  · exact ⟨perform_error hrun, hsame⟩

/-- Settles O44, by the blindness of each body. -/
theorem initFormsBlind : Obligations.InitFormsBlind := by
  intro i s t e hread h
  rw [exec_eq_perform] at h ⊢
  exact (bodyOf_blind i hread).perform e h

/-! ### Host moves and the block's internals (20_memory.md R72) -/

/-- The scratch, the book and the context registers are as they were. -/
structure SameInternals (s t : State) : Prop where
  scratch : t.scratch = s.scratch
  book : t.book = s.book
  ctx : t.ctx = s.ctx

theorem SameInternals.of_host {s t : State} {ops : List HostOp} (h : SameInternals { s with host := ops } t) :
    SameInternals s t := ⟨h.scratch, h.book, h.ctx⟩

theorem hostReadCsr_internals (n : Nat) (s : State) : SameInternals s (hostReadCsr n s) := by
  unfold hostReadCsr
  split <;> exact ⟨rfl, rfl, rfl⟩

theorem hostReadExt_internals (a : Word) (s : State) : SameInternals s (hostReadExt a s) := by
  unfold hostReadExt
  split <;> exact ⟨rfl, rfl, rfl⟩

theorem hostWriteExt_internals (a : Word) (b : Byte) (s : State) :
    SameInternals s (hostWriteExt a b s) ∧ (hostWriteExt a b s).readData = s.readData := by
  unfold hostWriteExt
  split <;> exact ⟨⟨rfl, rfl, rfl⟩, rfl⟩

theorem go_internals (s : State) : SameInternals s (go s) ∧ (go s).readData = s.readData := by
  rcases go_cases s with hg | ⟨_, _, hg | hg⟩ <;> rw [hg]
  · exact ⟨⟨rfl, rfl, rfl⟩, rfl⟩
  · exact ⟨⟨rfl, rfl, rfl⟩, rfl⟩
  · exact ⟨⟨endOfRun_scratch _, endOfRun_book _, endOfRun_ctx _⟩, endOfRun_readData _⟩

theorem hostWriteCsr_internals (n : Nat) (v : Word) (s : State) :
    SameInternals s (hostWriteCsr n v s) ∧ (hostWriteCsr n v s).readData = s.readData := by
  rcases hostWriteCsr_cases n v s with hw | ⟨_, hw | hw | hw | ⟨_, _, _, hw⟩⟩ <;> rw [hw]
  · exact ⟨⟨rfl, rfl, rfl⟩, rfl⟩
  · exact go_internals s
  all_goals exact ⟨⟨rfl, rfl, rfl⟩, rfl⟩

/-- What a CSR read returns does not depend on the scratch or the book. -/
theorem hostReadCsr_hides (n : Nat) (s : State) (m : Memory) (b : Book) :
    (hostReadCsr n { s with scratch := m, book := b }).readData = (hostReadCsr n s).readData := by
  have hv : csrValue { s with scratch := m, book := b } n = csrValue s n := rfl
  unfold hostReadCsr
  rw [hv]
  split <;> rfl

/-- Nor does what a read of external memory returns. -/
theorem hostReadExt_hides (a : Word) (s : State) (m : Memory) (b : Book) :
    (hostReadExt a { s with scratch := m, book := b }).readData = (hostReadExt a s).readData := by
  unfold hostReadExt
  dsimp only
  split <;> rfl

/-- A host move that is no block step and no reset keeps the internals, and what is read does not depend on them. -/
theorem step_hostMove {s t : State} {op : HostOp} {rest : List HostOp} (hh : s.host = op :: rest) (hidle : op ≠ .idle)
    (hreset : op ≠ .reset) (h : step s = .next t) : SameInternals s t ∧ ∀ (m : Memory) (b : Book),
      ∃ u, step { s with scratch := m, book := b } = .next u ∧ u.readData = t.readData := by
  simp only [step, hh] at h ⊢
  cases op with
  | idle => exact absurd rfl hidle
  | reset => exact absurd rfl hreset
  | readCsr n =>
    cases h
    exact ⟨(hostReadCsr_internals n _).of_host,
      fun m b => ⟨_, rfl, hostReadCsr_hides n { s with host := rest } m b⟩⟩
  | readExt a =>
    cases h
    exact ⟨(hostReadExt_internals a _).of_host,
      fun m b => ⟨_, rfl, hostReadExt_hides a { s with host := rest } m b⟩⟩
  | writeCsr n v =>
    cases h
    obtain ⟨hsame, hread⟩ := hostWriteCsr_internals n v { s with host := rest }
    exact ⟨hsame.of_host, fun _ _ => ⟨_, rfl, (hostWriteCsr_internals n v _).2.trans hread.symm⟩⟩
  | writeExt a b =>
    cases h
    obtain ⟨hsame, hread⟩ := hostWriteExt_internals a b { s with host := rest }
    exact ⟨hsame.of_host, fun _ _ => ⟨_, rfl, (hostWriteExt_internals a b _).2.trans hread.symm⟩⟩

/-! ### The CSR map (10_state.md R41, R43) -/

theorem controlCsr_outside (s : State) {n : Nat} (h : 0x006 < n) : controlCsr s n = none := by
  unfold controlCsr
  split
  any_goals omega
  rfl

theorem contextCsr_outside (c : Context) {n : Nat} (h : n < 0x010 ∨ 0x01E < n) : contextCsr c n = none := by
  unfold contextCsr
  split
  any_goals omega
  rfl

/-- The context registers at their numbers. -/
theorem contextCsr_of_mem {c : Context} {n : Nat} {v : Option Word} (h : (n, v) ∈ c.csrs) :
    (0x010 ≤ n ∧ n ≤ 0x01E) ∧ contextCsr c n = some v := by
  have hall : ∀ p ∈ c.csrs, (0x010 ≤ p.1 ∧ p.1 ≤ 0x01E) ∧ contextCsr c p.1 = some p.2 := by
    simp [Context.csrs, contextCsr, halfRead]
  exact hall (n, v) h

theorem reverbCsr_none {cfg : Params} {n : Nat} (h : ¬ isControllerCsr cfg n) : reverbCsr cfg n = none := if_neg h

theorem Params.legal_bounds {p : Params} (h : p.legal = true) :
    1 ≤ p.numReverb ∧ p.numReverb ≤ 8 ∧ 1 ≤ p.maxChunks ∧ p.maxChunks ≤ 32 := by
  simp only [Params.legal, Bool.and_eq_true, decide_eq_true_eq] at h
  omega

/-- The controller registers lie below the items. -/
theorem isControllerCsr_bounds {cfg : Params} {n : Nat} (hl : cfg.legal = true) (h : isControllerCsr cfg n) :
    0x100 ≤ n ∧ n < 0x200 := by
  obtain ⟨_, hmax, _, _⟩ := Params.legal_bounds hl
  obtain ⟨hlo, hhi, _⟩ := h
  omega

/-- An item field's number `0x800 + 0x200*r + 8*(p*MAX_CHUNKS + u) + f` gives back its parts (R41). -/
theorem itemCsr_of_isItemCsr {s : State} {n r p u f : Nat} (hl : s.cfg.legal = true)
    (h : isItemCsr s.cfg n r p u f) :
    itemCsr s n = some (itemField (itemAt s.cfg (reverbAt s r) p u) f) := by
  obtain ⟨_, _, _, hmc⟩ := Params.legal_bounds hl
  obtain ⟨hr, hp, hu, hf, hn⟩ := h
  have hpm : p * s.cfg.maxChunks ≤ 1 * s.cfg.maxChunks := Nat.mul_le_mul_right _ (by omega)
  have hinst : (n - 0x800) / 0x200 = r := by omega
  have hplace : (n - 0x800) % 0x200 / 8 = itemIndex s.cfg p u := by unfold itemIndex; omega
  have hlt : itemIndex s.cfg p u < 2 * s.cfg.maxChunks := by unfold itemIndex; omega
  have hfield : n % 8 = f := by omega
  rw [itemCsr, hinst, hplace, hfield, if_pos ⟨by omega, hr, hlt⟩]
  rfl

theorem itemField_of_itemCsrs {it : Option Item} {f : Nat} {v : Option Word} (h : (itemCsrs it)[f]? = some v) :
    itemField it f = v := by
  match f with
  | 0 | 1 | 2 | 3 | 4 | 5 => exact Option.some.inj h
  | _ + 6 => exact nomatch h

/-- Every other number reads 0 or names no field at all. -/
theorem itemCsr_unassigned {s : State} {n : Nat} (h : ∀ r p u f, ¬ isItemCsr s.cfg n r p u f) :
    (itemCsr s n).getD (some 0) = some 0 := by
  unfold itemCsr
  split
  · next hin =>
    obtain ⟨hlo, hr, hidx⟩ := hin
    have hf : ¬ n % 8 ≤ 5 := fun hf => h ((n - 0x800) / 0x200) ((n - 0x800) % 0x200 / 8 / s.cfg.maxChunks)
      ((n - 0x800) % 0x200 / 8 % s.cfg.maxChunks) (n % 8)
      ⟨hr, Nat.div_lt_of_lt_mul (by omega), Nat.mod_lt _ (by omega), hf, by rw [Nat.div_add_mod']; omega⟩
    obtain h6 | h7 : n % 8 = 6 ∨ n % 8 = 7 := by omega
    · rw [h6]; rfl
    · rw [h7]; rfl
  · rfl

/-! ### Reads and writes of the CSRs (10_state.md R43) -/

theorem csrValue_control {s : State} {n : Nat} {v : Word} (h : controlCsr s n = some v) : csrValue s n = some v := by
  rw [csrValue, h]

theorem csrValue_context {s : State} {n : Nat} {v : Option Word} (h : (n, v) ∈ s.ctx.csrs) : csrValue s n = v := by
  obtain ⟨⟨hlo, _⟩, hv⟩ := contextCsr_of_mem h
  rw [csrValue, controlCsr_outside s (by omega), hv]

/-- A number of neither the run control nor the context nor the controllers is an item's, or reads 0. -/
theorem csrValue_rest {s : State} {n : Nat} (h0 : 0x006 < n) (h1 : n < 0x010 ∨ 0x01E < n)
    (h2 : ¬ isControllerCsr s.cfg n) : csrValue s n = (itemCsr s n).getD (some 0) := by
  rw [csrValue, controlCsr_outside s h0, contextCsr_outside s.ctx h1, reverbCsr_none h2]
  cases itemCsr s n <;> rfl

theorem csrValue_item {s : State} {n r p u f : Nat} {v : Option Word} (hl : s.cfg.legal = true)
    (h : isItemCsr s.cfg n r p u f) (hv : (itemCsrs (itemAt s.cfg (reverbAt s r) p u))[f]? = some v) :
    csrValue s n = v := by
  have hn : 0x800 ≤ n := by
    obtain ⟨_, _, _, _, hn⟩ := h
    omega
  have hc : ¬ isControllerCsr s.cfg n := fun hc => by
    have := isControllerCsr_bounds hl hc
    omega
  rw [csrValue_rest (by omega) (by omega) hc, itemCsr_of_isItemCsr hl h, itemField_of_itemCsrs hv]
  rfl

theorem csrValue_unassigned {s : State} {n : Nat} (hl : s.cfg.legal = true) (h : isUnassignedCsr s.cfg n) :
    csrValue s n = some 0 := by
  rcases h with ⟨hlo, hhi⟩ | ⟨hlo, hc, hi⟩
  · have hc : ¬ isControllerCsr s.cfg n := fun hc => by
      have := isControllerCsr_bounds hl hc
      omega
    rw [csrValue_rest hlo (.inl hhi) hc]
    refine itemCsr_unassigned fun r p u f hi => ?_
    obtain ⟨_, _, _, _, hn⟩ := hi
    omega
  · rw [csrValue_rest (by omega) (.inr hlo) hc, itemCsr_unassigned hi]

/-- STATUS as a number: BUSY, DONE and FAULT are its bits 0, 1 and 2 (10_state.md R22). -/
theorem Status.toWord_eq (st : Status) :
    st.toWord = BitVec.ofNat 32 (st.busy.toNat + 2 * st.done.toNat + 4 * st.fault.toNat) := by
  obtain ⟨busy, done, fault⟩ := st
  revert busy done fault
  decide

/-- A host read of a register that holds a value. -/
theorem step_readCsr_written {s : State} {n : Nat} {rest : List HostOp} {w : Word} (hh : s.host = .readCsr n :: rest)
    (hv : csrValue s n = some w) : step s = .next { s with host := rest, readData := w } := by
  have hv' : csrValue { s with host := rest } n = some w := hv
  simp only [step, hh, hostReadCsr, hv']

/-- A host read of an unwritten register: a fresh draw (10_state.md R25). -/
theorem step_readCsr_unwritten {s : State} {n : Nat} {rest : List HostOp} (hh : s.host = .readCsr n :: rest)
    (hv : csrValue s n = none) :
    step s = .next { s with host := rest, readData := drawFor n s.draws, draws := s.draws + 1 } := by
  have hv' : csrValue { s with host := rest } n = none := hv
  simp only [step, hh, hostReadCsr, hv']

/-- A host write of a number that takes none is ignored. -/
theorem hostWriteCsr_ignored {s : State} {n : Nat} (v : Word) (h0 : n ≠ 0x000) (h4 : n ≠ 0x004) (h5 : n ≠ 0x005)
    (hc : ¬ isControllerCsr s.cfg n) : hostWriteCsr n v s = s := by
  unfold hostWriteCsr
  split
  · rfl
  · split
    any_goals contradiction
    rw [reverbCsr_none hc]

theorem step_writeCsr {s : State} {n : Nat} {v : Word} {rest : List HostOp} (hh : s.host = .writeCsr n v :: rest) :
    step s = .next (hostWriteCsr n v { s with host := rest }) := by
  rw [step, hh]

/-- Settles O55: the cases of a move for the first part; for the rest, what each number of R43's map holds. -/
theorem hostMovesKeepInternals : Obligations.HostMovesKeepInternals := by
  refine ⟨fun s t op rest hh hidle hreset h => ?_, fun s n v rest hh hb => ⟨?_, ?_, fun h0 h4 h5 hc => ?_⟩,
    fun s n rest hh hl => ⟨fun w hw => step_readCsr_written hh ?_, fun v hv => ?_, fun hu => ?_⟩⟩
  · obtain ⟨hsame, hread⟩ := step_hostMove hh hidle hreset h
    exact ⟨hsame.scratch, hsame.book, hsame.ctx, hread⟩
  · rintro rfl
    rw [step_writeCsr hh]
    simp [hostWriteCsr, hb]
  · rintro rfl
    rw [step_writeCsr hh]
    simp [hostWriteCsr, hb]
  · rw [step_writeCsr hh]
    exact congrArg _ (hostWriteCsr_ignored (s := { s with host := rest }) v h0 h4 h5 hc)
  · apply csrValue_control
    rw [← Status.toWord_eq] at hw
    simp only [List.mem_cons, Prod.mk.injEq, List.not_mem_nil, or_false] at hw
    rcases hw with ⟨rfl, rfl⟩ | ⟨rfl, rfl⟩ | ⟨rfl, rfl⟩ | ⟨rfl, rfl⟩ | ⟨rfl, rfl⟩ | ⟨rfl, rfl⟩ | ⟨rfl, rfl⟩ <;> rfl
  · have hval : csrValue s n = v := by
      rcases hv with hv | ⟨r, p, u, f, hi, hv⟩
      · exact csrValue_context hv
      · exact csrValue_item hl hi hv
    exact ⟨fun w hw => step_readCsr_written hh (hval.trans hw),
      fun hnone => ⟨_, step_readCsr_unwritten hh (hval.trans hnone)⟩⟩
  · exact step_readCsr_written hh (csrValue_unassigned hl hu)

end Sys2Proof.Machine
end

section
/-! SUPPORT. The rows of the encoding table (30_encoding.md R76, R84), one per command: what a word on a row decodes to,
and what a command encodes to. -/

namespace Sys2Proof

/-! ### The row of a command (30_encoding.md R84) -/

/-- Bits of the parts of a word below its opcode: the flags byte, `w0[15:0]` and `w1`. -/
structure FieldBits where
  flags : BitVec 8
  half0 : Half
  w1 : Word

/-- The bits outside the fields of a command's row, all 0 in a word on that row (30_encoding.md R76, R84). -/
def Instr.reservedBits : Instr → FieldBits
  | .noop => ⟨.allOnes 8, .allOnes 16, .allOnes 32⟩
  | .adpcm _ _ => ⟨~~~0x03#8, .allOnes 16, 0#32⟩
  | .clearbuff _ _ => ⟨.allOnes 8, 0#16, BitVec.allOnes 16 ++ 0#16⟩
  | .envmixer _ _ => ⟨~~~0x09#8, .allOnes 16, 0#32⟩
  | .loadbuff _ => ⟨.allOnes 8, .allOnes 16, 0#32⟩
  | .resample _ _ _ => ⟨~~~0x03#8, 0#16, 0#32⟩
  | .savebuff _ => ⟨.allOnes 8, .allOnes 16, 0#32⟩
  | .setbuff _ _ _ _ => ⟨~~~0x08#8, 0#16, 0#32⟩
  | .setvol _ _ _ _ => ⟨~~~0x0E#8, 0#16, 0#32⟩
  | .dmemmove _ _ _ => ⟨.allOnes 8, 0#16, 0#32⟩
  | .loadadpcm _ _ => ⟨0#8, 0#16, 0#32⟩
  | .mixer _ _ _ => ⟨.allOnes 8, 0#16, 0#32⟩
  | .interleave _ _ => ⟨.allOnes 8, .allOnes 16, 0#32⟩
  | .setloop _ => ⟨.allOnes 8, .allOnes 16, 0#32⟩
  | .setreg _ _ => ⟨.allOnes 8, 0#16, 0#32⟩
  | .rbprep _ _ _ => ⟨.allOnes 8, 0#16, BitVec.allOnes 16 ++ 0#16⟩
  | .rbread _ _ _ _ => ⟨.allOnes 8, 0#16, 0#32⟩
  | .rbwrite _ _ _ _ => ⟨.allOnes 8, 0#16, 0#32⟩
  | .rbframe _ => ⟨.allOnes 8, 0#8 ++ BitVec.allOnes 8, .allOnes 32⟩
  | .interleaveExt _ _ _ => ⟨0#8, 0#16, 0#32⟩

/-- Mask and match of a command's row, as the table has them. -/
def Instr.row : Instr → Command × Command
  | .noop => (0xFFFFFFFFFFFFFFFF#64, 0x0000000000000000#64)
  | .adpcm _ _ => (0xFFFCFFFF00000000#64, 0x0100000000000000#64)
  | .clearbuff _ _ => (0xFFFF0000FFFF0000#64, 0x0200000000000000#64)
  | .envmixer _ _ => (0xFFF6FFFF00000000#64, 0x0300000000000000#64)
  | .loadbuff _ => (0xFFFFFFFF00000000#64, 0x0400000000000000#64)
  | .resample _ _ _ => (0xFFFC000000000000#64, 0x0500000000000000#64)
  | .savebuff _ => (0xFFFFFFFF00000000#64, 0x0600000000000000#64)
  | .setbuff _ _ _ _ => (0xFFF7000000000000#64, 0x0800000000000000#64)
  | .setvol _ _ _ _ => (0xFFF1000000000000#64, 0x0900000000000000#64)
  | .dmemmove _ _ _ => (0xFFFF000000000000#64, 0x0A00000000000000#64)
  | .loadadpcm _ _ => (0xFF00000000000000#64, 0x0B00000000000000#64)
  | .mixer _ _ _ => (0xFFFF000000000000#64, 0x0C00000000000000#64)
  | .interleave _ _ => (0xFFFFFFFF00000000#64, 0x0D00000000000000#64)
  | .setloop _ => (0xFFFFFFFF00000000#64, 0x0F00000000000000#64)
  | .setreg _ _ => (0xFFFF000000000000#64, 0x1000000000000000#64)
  | .rbprep _ _ _ => (0xFFFF0000FFFF0000#64, 0x1100000000000000#64)
  | .rbread _ _ _ _ => (0xFFFF000000000000#64, 0x1200000000000000#64)
  | .rbwrite _ _ _ _ => (0xFFFF000000000000#64, 0x1300000000000000#64)
  | .rbframe _ => (0xFFFF00FFFFFFFFFF#64, 0x1400000000000000#64)
  | .interleaveExt _ _ _ => (0xFF00000000000000#64, 0x1500000000000000#64)

/-- A row checks the opcode and the reserved bits. -/
theorem Instr.row_eq (i : Instr) : i.row =
    (packCommand (.allOnes 8) i.reservedBits.flags i.reservedBits.half0 i.reservedBits.w1,
      packCommand (Laws.opcodeOf i) 0#8 0#16 0#32) := by
  cases i <;> dsimp only [Instr.row, Instr.reservedBits, Laws.opcodeOf] <;> decide

/-- The command of the same row as `i` whose operands are the fields of `w`. -/
def Instr.reread (w : Command) : Instr → Instr
  | .noop => .noop
  | .adpcm _ _ => .adpcm w.flagsByte w.w1
  | .clearbuff _ _ => .clearbuff w.half0 w.half2
  | .envmixer _ _ => .envmixer w.flagsByte w.w1
  | .loadbuff _ => .loadbuff w.w1
  | .resample _ _ _ => .resample w.flagsByte w.half0 w.w1
  | .savebuff _ => .savebuff w.w1
  | .setbuff _ _ _ _ => .setbuff w.flagsByte w.half0 w.half1 w.half2
  | .setvol _ _ _ _ => .setvol w.flagsByte w.half0 w.half1 w.half2
  | .dmemmove _ _ _ => .dmemmove w.half0 w.half1 w.half2
  | .loadadpcm _ _ => .loadadpcm w.low24 w.w1
  | .mixer _ _ _ => .mixer w.half0 w.half1 w.half2
  | .interleave _ _ => .interleave w.half1 w.half2
  | .setloop _ => .setloop w.w1
  | .setreg _ _ => .setreg w.half0 w.w1
  | .rbprep _ _ _ => .rbprep w.rField w.uField w.half2
  | .rbread _ _ _ _ => .rbread w.rField w.uField w.half1 w.half2
  | .rbwrite _ _ _ _ => .rbwrite w.rField w.uField w.half1 w.half2
  | .rbframe _ => .rbframe w.rField
  | .interleaveExt _ _ _ => .interleaveExt (w.low24.extractLsb' 12 12) (w.low24.extractLsb' 0 12) w.w1

/-- One command of each row, in the order of the table. -/
def oneOfEachRow : List Instr :=
  [.noop, .adpcm 0 0, .clearbuff 0 0, .envmixer 0 0, .loadbuff 0, .resample 0 0 0, .savebuff 0, .setbuff 0 0 0 0,
    .setvol 0 0 0 0, .dmemmove 0 0 0, .loadadpcm 0 0, .mixer 0 0 0, .interleave 0 0, .setloop 0, .setreg 0 0,
    .rbprep 0 0 0, .rbread 0 0 0 0, .rbwrite 0 0 0 0, .rbframe 0, .interleaveExt 0 0 0]

/-- The commands' rows are the table's, and in its order. -/
theorem map_row_oneOfEachRow : oneOfEachRow.map Instr.row = commandRows := rfl

/-- Every opcode is reserved or has a row (30_encoding.md R77, R78). -/
theorem opcode_covered : ∀ o : BitVec 8, (o = 0x07#8 ∨ o = 0x0E#8 ∨ 0x16 ≤ o.toNat) ∨
    ∃ i ∈ oneOfEachRow, o = Laws.opcodeOf i := by
  decide +kernel

/-- A word of a command's opcode decodes by that command's row. -/
theorem decode_of_opcode {w : Command} {i : Instr} (h : w.opcode = Laws.opcodeOf i) :
    decode w = checkRow w i.row.1 i.row.2 (i.reread w) := by
  rw [decode, h]
  cases i <;> rfl

/-- A reserved opcode is rejected before any row is checked (30_encoding.md R78, R80). -/
theorem decode_reserved {w : Command} (h : w.opcode = 0x07#8 ∨ w.opcode = 0x0E#8 ∨ 0x16 ≤ w.opcode.toNat) :
    decode w = .error .reservedOpcode := by
  rw [decode]
  rcases h with h | h | h
  · rw [h]; rfl
  · rw [h]; rfl
  · split
    case h_21 => rfl
    all_goals omega

/-! ### Words on a row (30_encoding.md R76) -/

/-- A word is on a command's row when it carries the command's opcode and every reserved bit is 0. -/
theorem onRow_iff {w : Command} {i : Instr} : w &&& i.row.1 = i.row.2 ↔
    w.opcode = Laws.opcodeOf i ∧ w.flagsByte &&& i.reservedBits.flags = 0#8 ∧
      w.half0 &&& i.reservedBits.half0 = 0#16 ∧ w.w1 &&& i.reservedBits.w1 = 0#32 := by
  have hfields : w &&& i.row.1 = packCommand w.opcode (w.flagsByte &&& i.reservedBits.flags)
      (w.half0 &&& i.reservedBits.half0) (w.w1 &&& i.reservedBits.w1) := by
    conv_lhs => rw [← pack_fields w, Instr.row_eq, packCommand_and, BitVec.and_allOnes]
  rw [hfields, Instr.row_eq]
  refine ⟨packCommand_inj, fun ⟨hop, hf, ha, hw⟩ => ?_⟩
  rw [hop, hf, ha, hw]

/-- Bits that are all reserved are all 0 in a word on the row. -/
theorem zero_of_reserved {n : Nat} {x : BitVec n} (h : x &&& BitVec.allOnes n = 0#n) : x = 0#n :=
  BitVec.and_allOnes.symm.trans h

/-- `w1` where `w1[31:16]` is reserved. -/
theorem w1_of_reserved {w : Command} (h : w.w1 &&& (BitVec.allOnes 16 ++ 0#16) = 0#32) :
    w.w1 = 0#16 ++ w.half2 := by
  rw [← w1_fields, BitVec.and_append] at h
  rw [← w1_fields, zero_of_reserved (append_inj (x' := 0#16) (y' := 0#16) h).1]

/-- `w0[15:0]` where `w0[7:0]` is reserved. -/
theorem half0_of_reserved {w : Command} (h : w.half0 &&& (0#8 ++ BitVec.allOnes 8) = 0#16) :
    w.half0 = w.rField ++ 0#8 := by
  rw [← half0_fields, BitVec.and_append] at h
  rw [← half0_fields, zero_of_reserved (append_inj (x' := 0#8) (y' := 0#8) h).2]

theorem packCommand_of_fields {w : Command} {op f : BitVec 8} {a : Half} {w1 : Word} (hop : w.opcode = op)
    (hf : w.flagsByte = f) (ha : w.half0 = a) (hw : w.w1 = w1) : packCommand op f a w1 = w := by
  subst hop hf ha hw
  exact pack_fields w

theorem packWide_of_fields {w : Command} {op : BitVec 8} {c : BitVec 24} {w1 : Word} (hop : w.opcode = op)
    (hc : w.low24 = c) (hw : w.w1 = w1) : packWide op c w1 = w := by
  subst hop hc hw
  exact packWide_fields w

/-- The command read from a word on a row is well-formed. -/
theorem wellFormed_reread {w : Command} {i : Instr} (h : w &&& i.row.1 = i.row.2) :
    (i.reread w).wellFormed = true := by
  obtain ⟨-, hf, -, -⟩ := onRow_iff.mp h
  rw [Instr.wellFormed, beq_iff_eq]
  cases i with
  | adpcm | envmixer | resample | setbuff | setvol => exact hf
  | _ => exact BitVec.zero_and

/-- A word on a row is the encoding of the command read from it: its bits are operands, the opcode or 0. -/
theorem encode_reread {w : Command} {i : Instr} (h : w &&& i.row.1 = i.row.2) : encode (i.reread w) = w := by
  obtain ⟨hop, hf, ha, hw⟩ := onRow_iff.mp h
  cases i with
  | noop => exact packCommand_of_fields hop (zero_of_reserved hf) (zero_of_reserved ha) (zero_of_reserved hw)
  | adpcm | envmixer => exact packCommand_of_fields hop rfl (zero_of_reserved ha) rfl
  | resample => exact packCommand_of_fields hop rfl rfl rfl
  | setbuff | setvol => exact packCommand_of_fields hop rfl rfl (w1_fields w).symm
  | clearbuff => exact packCommand_of_fields hop (zero_of_reserved hf) rfl (w1_of_reserved hw)
  | loadbuff | savebuff | setloop =>
    exact packCommand_of_fields hop (zero_of_reserved hf) (zero_of_reserved ha) rfl
  | interleave => exact packCommand_of_fields hop (zero_of_reserved hf) (zero_of_reserved ha) (w1_fields w).symm
  | dmemmove | mixer => exact packCommand_of_fields hop (zero_of_reserved hf) rfl (w1_fields w).symm
  | setreg => exact packCommand_of_fields hop (zero_of_reserved hf) rfl rfl
  | rbprep =>
    exact packCommand_of_fields hop (zero_of_reserved hf) (half0_fields w).symm (w1_of_reserved hw)
  | rbread | rbwrite =>
    exact packCommand_of_fields hop (zero_of_reserved hf) (half0_fields w).symm (w1_fields w).symm
  | rbframe => exact packCommand_of_fields hop (zero_of_reserved hf) (half0_of_reserved ha) (zero_of_reserved hw)
  | loadadpcm => exact packWide_of_fields hop rfl rfl
  | interleaveExt => exact packWide_of_fields hop (append_extract (m := 12) (n := 12) w.low24).symm rfl

/-! ### Encoded commands (30_encoding.md R84) -/

theorem packCommand_onRow {i : Instr} {op f : BitVec 8} {a : Half} {w1 : Word} (hop : op = Laws.opcodeOf i)
    (hf : f &&& i.reservedBits.flags = 0#8) (ha : a &&& i.reservedBits.half0 = 0#16)
    (hw : w1 &&& i.reservedBits.w1 = 0#32) : packCommand op f a w1 &&& i.row.1 = i.row.2 := by
  rw [onRow_iff, packCommand_opcode, packCommand_flagsByte, packCommand_half0, packCommand_w1]
  exact ⟨hop, hf, ha, hw⟩

/-- An operand in `w1[15:0]` leaves the reserved `w1[31:16]` at 0. -/
theorem half2_and_reserved (x : Half) : (0#16 ++ x) &&& (BitVec.allOnes 16 ++ 0#16) = 0#32 := by
  rw [BitVec.and_append, BitVec.zero_and, BitVec.and_zero]
  rfl

/-- An operand in `w0[15:8]` leaves the reserved `w0[7:0]` at 0. -/
theorem rField_and_reserved (r : BitVec 8) : (r ++ 0#8) &&& (0#8 ++ BitVec.allOnes 8) = 0#16 := by
  rw [BitVec.and_append, BitVec.zero_and, BitVec.and_zero]
  rfl

/-- The encoding of a well-formed command is on the command's row. -/
theorem encode_onRow {i : Instr} (h : i.wellFormed = true) : encode i &&& i.row.1 = i.row.2 := by
  rw [Instr.wellFormed, beq_iff_eq] at h
  cases i with
  | noop => exact packCommand_onRow rfl BitVec.zero_and BitVec.zero_and BitVec.zero_and
  | adpcm | envmixer => exact packCommand_onRow rfl h BitVec.zero_and BitVec.and_zero
  | resample | setbuff | setvol => exact packCommand_onRow rfl h BitVec.and_zero BitVec.and_zero
  | clearbuff | rbprep => exact packCommand_onRow rfl BitVec.zero_and BitVec.and_zero (half2_and_reserved _)
  | loadbuff | savebuff | setloop | interleave =>
    exact packCommand_onRow rfl BitVec.zero_and BitVec.zero_and BitVec.and_zero
  | dmemmove | mixer | setreg | rbread | rbwrite =>
    exact packCommand_onRow rfl BitVec.zero_and BitVec.and_zero BitVec.and_zero
  | rbframe => exact packCommand_onRow rfl BitVec.zero_and (rField_and_reserved _) BitVec.zero_and
  | loadadpcm | interleaveExt =>
    exact onRow_iff.mpr ⟨packWide_opcode _ _ _, BitVec.and_zero, BitVec.and_zero, BitVec.and_zero⟩

/-- The operands of an encoded command read back. -/
theorem reread_encode (i : Instr) : i.reread (encode i) = i := by
  cases i with
  | interleaveExt left right addr =>
    simp only [encode, Instr.reread, packWide_low24, packWide_w1]
    rw [extract_high _ _ _ _ (by omega), extract_low _ _ _ _ (by omega), extract_all, extract_all]
  | _ => simp only [encode, Instr.reread, packCommand_flagsByte, packCommand_half0, packCommand_w1,
      packCommand_half1, packCommand_half2, packCommand_rField, packCommand_uField, packWide_low24, packWide_w1]

/-! ### Decoding by the table (30_encoding.md R76, R78, R95) -/

/-- A word on a command's row decodes to the command read from it. -/
theorem decode_onRow {w : Command} {i : Instr} (h : w &&& i.row.1 = i.row.2) : decode w = .ok (i.reread w) := by
  rw [decode_of_opcode (onRow_iff.mp h).1, checkRow, if_pos h]

/-- A word on no row does not decode. -/
theorem decode_offTable {w : Command} (h : ∀ row, row ∈ commandRows → w &&& row.1 ≠ row.2) :
    ∃ e, decode w = .error e := by
  rcases opcode_covered w.opcode with hreserved | ⟨i, hi, hop⟩
  · exact ⟨_, decode_reserved hreserved⟩
  · have hrow : i.row ∈ commandRows := map_row_oneOfEachRow ▸ List.mem_map_of_mem hi
    exact ⟨_, by rw [decode_of_opcode hop, checkRow, if_neg (h _ hrow)]⟩

/-- A word that decodes is the encoding of its command, for it is on that command's row. -/
theorem encode_of_decode {w : Command} {i : Instr} (h : decode w = .ok i) : encode i = w := by
  rcases opcode_covered w.opcode with hreserved | ⟨k, -, hop⟩
  · rw [decode_reserved hreserved] at h
    contradiction
  · rw [decode_of_opcode hop, checkRow] at h
    split at h
    · rename_i hrow
      cases h
      exact encode_reread hrow
    · contradiction

/-- Settles O45: the encoding of a command is on the command's row, and its operands read back. -/
theorem decodeEncode : Obligations.DecodeEncode := by
  intro i h
  rw [decode_onRow (encode_onRow h), reread_encode]

/-- Settles O46: the table's rows are the commands' rows. -/
theorem decodeFollowsTable : Obligations.DecodeFollowsTable := by
  refine fun w => ⟨fun ⟨row, hrow, hw⟩ => ?_, fun h s => ?_⟩
  · rw [← map_row_oneOfEachRow, List.mem_map] at hrow
    obtain ⟨i, -, rfl⟩ := hrow
    exact ⟨i.reread w, decode_onRow hw, wellFormed_reread hw, encode_reread hw⟩
  · obtain ⟨e, he⟩ := decode_offTable h
    exact Machine.runWord_illegal s he

/-- Settles O47: the decoder's last case, and the encoding of NOOP. -/
theorem reservedOpcodesRejected : Obligations.ReservedOpcodesRejected :=
  ⟨fun _ s h => Machine.runWord_illegal s (decode_reserved h), fun _ h => (encode_of_decode h).symm⟩

/-- A word given as the encoding of a well-formed command decodes to it. -/
theorem decode_of_encode {w : Command} {i : Instr} (h : i.wellFormed = true) (hw : encode i = w) :
    decode w = .ok i := hw ▸ decodeEncode i h

/-- Settles O48: the encoder evaluated at the examples; the words decode by DecodeEncode. -/
theorem encodingExamples : Obligations.EncodingExamples :=
  ⟨rfl, rfl, rfl, rfl, rfl, rfl, rfl, decode_of_encode rfl rfl, decode_of_encode rfl rfl, decode_of_encode rfl rfl,
    decode_of_encode rfl rfl, decode_of_encode rfl rfl, decode_of_encode rfl rfl, decode_of_encode rfl rfl⟩

end Sys2Proof
end

section
/-! SUPPORT. The fetch that is refused or finds no command (30_encoding.md R79, R80). -/

namespace Sys2Proof.Machine

theorem fetch_refused_first {s : State} (h : extAdmits s.cfg (fetchAddr s) 4 .read = false) :
    fetch s = .error ⟨.extFault, fetchAddr s⟩ s := by
  rw [fetch, bind_ok (get_apply s), bind_error (memRead_refused h)]

/-- A refused w1 is found after the read of w0. -/
theorem fetch_refused_second {s : State} (h0 : extAdmits s.cfg (fetchAddr s) 4 .read = true)
    (h1 : extAdmits s.cfg (addrAdd (fetchAddr s) 4) 4 .read = false) :
    fetch s = .error ⟨.extFault, addrAdd (fetchAddr s) 4⟩ (afterRead s (fetchAddr s) 4) := by
  obtain ⟨d, hd⟩ := afterRead_draws s (fetchAddr s) 4
  have hr0 : memRead (fetchAddr s) 4 s =
      .ok (ofBytes s.cfg.endian (readBytes s (fetchAddr s) 4)) (afterRead s (fetchAddr s) 4) := by
    rw [memRead, if_pos h0]
  have hcfg : (afterRead s (fetchAddr s) 4).cfg = s.cfg := by rw [hd]
  rw [fetch, bind_ok (get_apply s), bind_ok hr0, bind_error (memRead_refused (by rw [hcfg]; exact h1))]

/-- A BUSY block with commands left takes the fault of its fetch. -/
theorem blockStep_refused {s t : State} {e : Trap} (hb : s.status.busy = true) (hcp : s.cp ≠ s.cmdCount)
    (h : fetch s = .error e t) : blockStep s = .next (takeFault e t) := by
  rw [blockStep, if_pos hb, if_neg hcp, h]

/-- Settles O50: the first refused word ends the fetch, and a fetched word that is no command is run as such. -/
theorem fetchFaults : Obligations.FetchFaults := by
  intro s u rest a hb hcp ha hu
  obtain ⟨hstep, ops, past, hs⟩ := step_no_move hb hu
  subst ha hs
  rw [hstep]
  refine ⟨fun h0 => ?_, fun h0 h1 => ?_, fun h0 h1 w e hq hw he => ?_⟩
  · exact blockStep_refused (s := u) hb hcp (fetch_refused_first h0)
  · obtain ⟨d, hd⟩ := afterRead_draws u (fetchAddr u) 4
    refine ⟨d, ?_, fun hq => ?_⟩
    · rw [blockStep_refused (s := u) hb hcp (fetch_refused_second h0 h1), hd]
      rfl
    · exact congrArg State.draws (hd.symm.trans (afterRead_quiet (s := u) hq))
  · obtain ⟨hbytes, hsame⟩ := fetch_quiet (s := u) hq
    subst hw
    rw [blockStep_fetched (s := u) hb hcp h0 h1, hbytes, hsame]
    exact runWord_illegal u he

end Sys2Proof.Machine
end

section
/-! SUPPORT. What a command can do to the machine's registers: the context commands, how every command ends, and which
commands write the context, the book and a reverb instance (40_context_and_scratch.md R97 to R101). -/

namespace Sys2Proof.Machine

/-! ### Context commands (40_context_and_scratch.md R98 to R101) -/

/-- A nonzero word of NOOP's opcode is on no row (30_encoding.md R76). -/
theorem decode_noop_nonzero {w : Command} (hop : w.opcode = 0x00#8) (hw : w ≠ 0#64) :
    decode w = .error .reservedBits := by
  rw [decode_of_opcode (i := .noop) hop, checkRow, if_neg]
  exact fun hrow => hw (encode_reread (i := .noop) hrow).symm

/-- Settles O1: NOOP's row reserves every bit below the opcode, so that 0 is its only word. -/
theorem noopAdvances : Obligations.NoopAdvances :=
  ⟨fun s => perform_ok (pure_apply () s), decode_of_encode (i := .noop) rfl rfl,
    fun _ s hop hw => runWord_illegal s (decode_noop_nonzero hop hw)⟩

/-- A command that writes the context alone: CP advances past that write. -/
theorem perform_setCtx (f : Context → Context) (s : State) :
    perform (setCtx f) s = .next { s with ctx := f s.ctx, cp := s.cp + 1 } := rfl

theorem setbuffContext_main {flags : BitVec 8} (inp out count : Half) (c : Context) (h : flagAux flags = false) :
    setbuffContext flags inp out count c = { c with inp := some inp, out := some out, count := some count } := by
  rw [setbuffContext, if_neg (by simp [h])]

theorem setbuffContext_aux {flags : BitVec 8} (inp out count : Half) (c : Context) (h : flagAux flags = true) :
    setbuffContext flags inp out count c =
      { c with dryRight := some inp, wetLeft := some out, wetRight := some count } := by
  rw [setbuffContext, if_pos h]

/-- Settles O2, by the two forms of SETBUFF. -/
theorem setbuffWritesContext : Obligations.SetbuffWritesContext := by
  intro s flags inp out count
  have hexec : exec (.setbuff flags inp out count) s =
      .next { s with ctx := setbuffContext flags inp out count s.ctx, cp := s.cp + 1 } := perform_setCtx _ s
  exact ⟨fun h => by rw [hexec, setbuffContext_main inp out count s.ctx h],
    fun h => by rw [hexec, setbuffContext_aux inp out count s.ctx h]⟩

/-- Two halves side by side, as a number (00_scope.md R18). -/
theorem append_halves (t r : Half) : t ++ r = BitVec.ofNat 32 (65536 * t.toNat + r.toNat) := by
  have ht := t.isLt
  have hr := r.isLt
  apply BitVec.eq_of_toNat_eq
  rw [BitVec.toNat_append, ← Nat.shiftLeft_add_eq_or_of_lt hr, Nat.shiftLeft_eq, BitVec.toNat_ofNat]
  omega

/-- SETVOL's five cases in order of precedence, AUX over VOL over the rate form (R101). -/
theorem setvolContext_cases (flags : BitVec 8) (v t r : Half) (c : Context) : setvolContext flags v t r c =
    if flagAux flags = true then { c with volDry := some v, volWet := some r }
    else if flagVol flags = true ∧ flagLeft flags = true then { c with volL := some v }
    else if flagVol flags = true then { c with volR := some v }
    else if flagLeft flags = true then
      { c with targetL := some v, rateL := some (BitVec.ofNat 32 (65536 * t.toNat + r.toNat)) }
    else { c with targetR := some v, rateR := some (BitVec.ofNat 32 (65536 * t.toNat + r.toNat)) } := by
  rw [setvolContext, append_halves]
  by_cases hvol : flagVol flags = true
  · simp only [hvol, true_and, if_true]
  · simp only [hvol, false_and, if_false, Bool.false_eq_true]

/-- Settles O3: SETVOL is a write of the context, by its cases. -/
theorem setvolWritesContext : Obligations.SetvolWritesContext :=
  fun s flags v t r => ⟨_, perform_setCtx (setvolContext flags v t r) s, setvolContext_cases flags v t r s.ctx⟩

/-- Settles O4: SETLOOP is a write of the context. -/
theorem setloopWritesContext : Obligations.SetloopWritesContext := 
  fun s addr => perform_setCtx (fun c => { c with loopAddr := some addr }) s

/-! ### How a command ends (40_context_and_scratch.md R97) -/

/-- Every command answers a next state: the one its body leaves, advanced or with the body's fault taken. -/
theorem exec_outcome (i : Instr) (s : State) : ∃ t, exec i s = .next t ∧
    (t = advance (resultState (bodyOf i s)) ∨ ∃ e, t = takeFault e (resultState (bodyOf i s))) := by
  rw [exec_eq_perform]
  rcases perform_cases (bodyOf i) s with ⟨u, hbody, hperf⟩ | ⟨e, u, hbody, hperf⟩ <;> rw [hbody]
  · exact ⟨_, hperf, .inl rfl⟩
  · exact ⟨_, hperf, .inr ⟨e, rfl⟩⟩

/-- Settles O41: up to its end a command is its body, and no body touches the run control. -/
theorem commandOutcome : Obligations.CommandOutcome := by
  intro i s
  obtain ⟨t, hexec, hend⟩ := exec_outcome i s
  obtain ⟨hcfg, hstatus, hcause, hfcp, hinfo, hbase, hcount, hcp, hhost, hdata, hraced, hpast, hdraws⟩ :=
    bodyOf_sameControl i s
  exact ⟨t, _, hexec, hend, hcfg, hstatus, hcause, hfcp, hinfo, hbase, hcount, hcp, hhost, hdata, hraced, hpast,
    hdraws⟩

/-! ### Who writes the context, the book and a reverb instance -/

/-- What a state holds apart from its memories and the number of the next draw is the same along every memory
access. -/
theorem sameField_memRel {β : Type} (p : State → β) (hscratch : ∀ s m, p { s with scratch := m } = p s)
    (hext : ∀ s m, p { s with ext := m } = p s) (hdraws : ∀ s d, p { s with draws := d } = p s) :
    MemRel fun s t => p t = p s :=
  memRel_of_registers
    ⟨fun _ => rfl, fun _ _ _ h h' => h'.trans h, fun s a n => by
      obtain ⟨d, hd⟩ := afterRead_draws s a n
      rw [hd, hdraws]⟩
    hscratch hext

/-- Only SETBUFF, SETVOL and SETLOOP write the context (R97 (b)). -/
theorem bodyOf_ctx {i : Instr} (h : i.writesContext = false) : Keeps (fun s t => t.ctx = s.ctx) (bodyOf i) :=
  bodyOf_keeps (sameField_memRel State.ctx (fun _ _ => rfl) (fun _ _ => rfl) fun _ _ => rfl) i
    (fun hw => absurd (h.symm.trans hw) nofun) (fun _ _ _ _ _ => rfl) (fun _ _ _ _ _ _ _ => rfl)
    (fun _ _ _ _ _ _ _ _ => rfl) fun _ _ _ _ => rfl

/-- Only LOADADPCM writes the book (20_memory.md R45). -/
theorem bodyOf_book {i : Instr} (h : i.writesBook = false) : Keeps (fun s t => t.book = s.book) (bodyOf i) :=
  bodyOf_keeps (sameField_memRel State.book (fun _ _ => rfl) (fun _ _ => rfl) fun _ _ => rfl) i
    (fun _ _ _ => rfl) (fun hw => absurd (h.symm.trans hw) nofun) (fun _ _ _ _ _ _ _ => rfl)
    (fun _ _ _ _ _ _ _ _ => rfl) fun _ _ _ _ => rfl

/-- The instance that a controller register's number names (10_state.md R43). -/
theorem reverbCsr_fst {cfg : Params} {n r k : Nat} (h : reverbCsr cfg n = some (r, k)) :
    r = (n - 0x100) / 0x20 := by
  unfold reverbCsr at h
  split at h
  · cases h
    rfl
  · contradiction

/-- Replacing a reverb instance leaves the others. -/
theorem setReverb_other (s : State) (rb : Reverb) {r r' : Nat} (h : r' ≠ r) :
    (setReverb s r' rb).reverb[r]? = s.reverb[r]? :=
  List.getElem?_set_ne h

/-- A command changes no reverb instance but the one it names (45_reverb.md R164). -/
theorem bodyOf_reverb {i : Instr} {r : Nat} (h : i.writesInstance ≠ some r) :
    Keeps (fun s t => t.reverb[r]? = s.reverb[r]?) (bodyOf i) := by
  apply bodyOf_keeps (sameField_memRel (fun s => s.reverb[r]?) (fun _ _ => rfl) (fun _ _ => rfl) fun _ _ => rfl)
  case hctx | hbook => intros; rfl
  case hset =>
    rintro reg value rfl s r' k hcsr
    exact setReverb_other s _ fun heq => h (congrArg some ((reverbCsr_fst hcsr).symm.trans heq))
  case hprep =>
    rintro r' u len rfl t rb - -
    exact setReverb_other t _ fun heq => h (congrArg some heq)
  case hframe =>
    rintro r' rfl s -
    exact setReverb_other s _ fun heq => h (congrArg some heq)

/-- Completion and fault entry leave the context, the book and the reverb instances as the body leaves them. -/
theorem exec_stored {i : Instr} {s t : State} (h : exec i s = .next t) :
    t.ctx = (resultState (bodyOf i s)).ctx ∧ t.book = (resultState (bodyOf i s)).book ∧
      t.reverb = (resultState (bodyOf i s)).reverb := by
  obtain ⟨u, hexec, hend⟩ := exec_outcome i s
  obtain rfl : u = t := Host.Outcome.next.inj (hexec.symm.trans h)
  rcases hend with rfl | ⟨e, rfl⟩ <;> exact ⟨rfl, rfl, rfl⟩

/-- Settles O43: what no body but the named ones writes, for each of the three. -/
theorem stateWriters : Obligations.StateWriters := by
  intro i s t h
  obtain ⟨hctx, hbook, hreverb⟩ := exec_stored h
  rw [hctx, hbook, hreverb]
  exact ⟨fun hw => bodyOf_ctx hw s, fun hw => bodyOf_book hw s, fun _ hw => bodyOf_reverb hw s⟩

end Sys2Proof.Machine
end

section
/-! SUPPORT. The table-load and transfer commands (40_context_and_scratch.md R102 to R106), with the faults of
CLEARBUFF, DMEMMOVE and LOADADPCM and what each of those leaves behind. -/

namespace Sys2Proof.Machine

variable {α : Type}

/-! ### Runs of bytes that leave the scratch (20_memory.md R46, R47) -/

theorem not_holds_iff {s : State} {a n : Nat} : ¬ s.holds a n ↔ 0 < n ∧ s.cfg.scratchBytes < a + n := by
  unfold State.holds
  omega

/-- Of the offsets from `a` upward, the first that is not below `b`, as FAULT_INFO holds it. -/
theorem firstOutside_eq {a b k : Nat} (hk : k = b - a) :
    BitVec.ofInt 32 ((a : Int) + k) = BitVec.ofNat 32 (max a b) := by
  rw [show ((a : Int) + k) = ((max a b : Nat) : Int) by omega, BitVec.ofInt_natCast]

/-- A loop that writes `b j` at scratch offset `a + j` and leaves the scratch: the bytes inside it are written, and the
first one outside faults (20_memory.md R47, 60_exceptions.md R189). -/
theorem writeBytes_fails {s : State} {a n : Nat} (b : Nat → Byte) (h : ¬ s.holds a n) :
    ∃ t, forRange n (fun k => sWrite8 ((a : Int) + k) (b k)) s =
        .error ⟨.scratchBounds, BitVec.ofNat 32 (max a s.cfg.scratchBytes)⟩ t ∧
      Changed s t (fun x => a ≤ x ∧ x < s.cfg.scratchBytes) noByte ∧
      ∀ j, a + j < s.cfg.scratchBytes → Memory.read t.scratch (a + j) = b j := by
  rw [not_holds_iff] at h
  obtain ⟨k, hk⟩ : ∃ k, k = s.cfg.scratchBytes - a := ⟨_, rfl⟩
  have hinside : s.holds a k := by unfold State.holds; omega
  apply forRange_fails k n (by omega) (ends_writeBytes a k b hinside fun j t _ _ hle => by
    simpa only [Nat.cast_add] using ends_sWrite8 (s := t) (a + j) (b j) hle)
  rintro t ⟨hc, hb⟩
  refine ⟨t, ?_, hc.mono (fun x hx => ?_) fun _ hx => hx, fun j hj => hb j (by omega)⟩
  · rw [(access8_outside (b k) (s := t) (by rw [hc.cfg]; omega)).2, firstOutside_eq hk]
  · unfold inSpan at hx
    omega

/-- Operations that only read, up to one that faults: collecting them ends with that fault. -/
theorem collectFrom_fails {f : Nat → M α} {g : Nat → α} {s : State} {e : Trap} {k n i : Nat} (hk : k < n)
    (hread : ∀ j, i ≤ j → j < i + k → f j s = .ok (g j) s) (hfault : f (i + k) s = .error e s) :
    collectFrom f n i s = .error e s := by
  induction k generalizing n i with
  | zero =>
    obtain ⟨m, rfl⟩ := Nat.exists_eq_succ_of_ne_zero hk.ne'
    exact bind_error hfault
  | succ k ih =>
    obtain ⟨m, rfl⟩ := Nat.exists_eq_succ_of_ne_zero (Nat.ne_of_gt (Nat.zero_lt_of_lt hk))
    have hrest : collectFrom f m (i + 1) s = .error e s :=
      ih (by omega) (fun j h1 h2 => hread j (by omega) (by omega)) (by rwa [show i + 1 + k = i + (k + 1) by omega])
    rw [collectFrom_succ, bind_ok (hread i le_rfl (by omega)), bind_error hrest]

/-- Byte `j` of a run of scratch bytes, read inside the scratch. -/
theorem sRead8_span {s : State} {a j : Nat} (h : a + j < s.cfg.scratchBytes) :
    sRead8 ((a : Int) + j) s = .ok (Memory.read s.scratch (a + j)) s := by
  simpa only [Nat.cast_add] using ends_sRead8 (a + j) h

/-- The bytes of a span inside the scratch, collected. -/
theorem collect_sRead8_ok {s : State} {a n : Nat} (h : s.holds a n) :
    collect n (fun k => sRead8 ((a : Int) + k)) s =
      .ok ((List.range' 0 n).map fun j => Memory.read s.scratch (a + j)) s :=
  collect_read _ _ n s fun j hj => sRead8_span (by unfold State.holds at h; omega)

/-- Collecting the bytes of a span that leaves the scratch faults at the first one outside. -/
theorem collect_sRead8_fails {s : State} {a n : Nat} (h : ¬ s.holds a n) :
    collect n (fun k => sRead8 ((a : Int) + k)) s =
      .error ⟨.scratchBounds, BitVec.ofNat 32 (max a s.cfg.scratchBytes)⟩ s := by
  rw [not_holds_iff] at h
  obtain ⟨k, hk⟩ : ∃ k, k = s.cfg.scratchBytes - a := ⟨_, rfl⟩
  refine collectFrom_fails (k := k) (by omega) (fun j _ hj => sRead8_span (by omega)) ?_
  rw [Nat.zero_add, (access8_outside 0 (by omega)).1, firstOutside_eq hk]

/-! ### CLEARBUFF and DMEMMOVE (R102, R103) -/

/-- The encoding of CLEARBUFF in halves (30_encoding.md R84). -/
theorem encode_clearbuff (dmem count : Half) :
    encode (.clearbuff dmem count) = 0x0200#16 ++ dmem ++ 0x0000#16 ++ count :=
  (BitVec.append_assoc (x₁ := 0x0200#16 ++ dmem) (x₂ := 0x0000#16) (x₃ := count)).symm

/-- Settles O5: the loop of zero writes, ending or faulting. -/
theorem clearbuffClears : Obligations.ClearbuffClears := by
  intro s dmem count
  refine ⟨decode_of_encode (beq_iff_eq.mpr BitVec.zero_and) (encode_clearbuff dmem count),
    fun h => ends_next (clearbuffBody_ends h), fun h => ?_⟩
  obtain ⟨t, hbody, hc, hzero⟩ := writeBytes_fails (fun _ => 0) h
  refine ⟨t, perform_error hbody, hc, fun x hx hlt => ?_⟩
  obtain ⟨j, rfl⟩ := Nat.exists_eq_add_of_le hx
  exact hzero j hlt

/-- DMEMMOVE with its source read: the write loop remains. -/
theorem dmemmoveBody_read {s : State} {inp out count : Half} (h : s.holds inp.toNat (ru count.toNat 16)) :
    dmemmoveBody inp out count s = forRange (ru count.toNat 16) (fun k => sWrite8 ((out.toNat : Int) + k)
      (((List.range' 0 (ru count.toNat 16)).map fun j => Memory.read s.scratch (inp.toNat + j)).getD k 0)) s :=
  bind_ok (collect_sRead8_ok h)

/-- Settles O6: all reads stand before the first write, so a fault of either loop leaves what the loop itself wrote. -/
theorem dmemmoveCopies : Obligations.DmemmoveCopies := by
  intro s inp out count
  refine ⟨fun hi ho => ends_next (dmemmoveBody_ends hi ho), fun hi => ?_, fun hi ho => ?_⟩
  · exact perform_error (bind_error (collect_sRead8_fails hi))
  · obtain ⟨t, hbody, hc, hcopied⟩ := writeBytes_fails _ ho
    refine ⟨t, perform_error ((dmemmoveBody_read hi).trans hbody), hc, fun j hj => ?_⟩
    rw [not_holds_iff] at ho
    rw [hcopied j hj, getD_range'_map _ _ _ _ _ (by omega), Nat.zero_add]

/-! ### LOADADPCM (R104) -/

/-- One round of LOADADPCM: book byte `k` from its external byte. -/
def loadBookByte (addr : Word) (k : Nat) : M Unit := do
  let b ← memRead (addrAdd addr k) 1
  bookWrite k (BitVec.ofNat 8 b)

theorem loadadpcmBody_fits {count : BitVec 24} (addr : Word) (h : count.toNat ≤ 256) :
    loadadpcmBody count addr = forRange count.toNat (loadBookByte addr) := if_neg (by omega)

theorem loadadpcmBody_overflow {count : BitVec 24} (addr : Word) (h : 256 < count.toNat) :
    loadadpcmBody count addr = raise .bookOverflow (BitVec.ofNat 32 count.toNat) := by
  rw [loadadpcmBody, if_pos h, ← BitVec.ofNat_toNat]

/-- The first `n` rounds of LOADADPCM are those of a LOADADPCM of `n` bytes. -/
theorem loadBookBytes_ends {s : State} {addr : Word} {n : Nat} (hn : n ≤ 256) (hr : s.readable addr 1 n) :
    Ends (forRange n (loadBookByte addr)) s fun _ t => t = { s with book := t.book } ∧
      ∀ k, Book.read t.book k = if k < n then some (s.extByte addr k) else Book.read s.book k := by
  have hcount : (BitVec.ofNat 24 n).toNat = n := Nat.mod_eq_of_lt (by omega)
  have hends := loadadpcmBody_ends (s := s) (count := BitVec.ofNat 24 n) (addr := addr) (by omega) (by rwa [hcount])
  rwa [loadadpcmBody_fits addr (by omega), hcount] at hends

/-- LOADADPCM whose first `n` reads are served and whose next one is refused. -/
theorem loadadpcmBody_refused {s : State} {count : BitVec 24} {addr : Word} {n : Nat} (hc : count.toNat ≤ 256)
    (hn : n < count.toNat) (hr : s.readable addr 1 n) (hx : extAdmits s.cfg (addrAdd addr n) 1 .read = false) :
    ∃ t, loadadpcmBody count addr s = .error ⟨.extFault, addrAdd addr n⟩ t ∧ t = { s with book := t.book } ∧
      ∀ k, Book.read t.book k = if k < n then some (s.extByte addr k) else Book.read s.book k := by
  rw [loadadpcmBody_fits addr hc]
  apply forRange_fails n _ hn (loadBookBytes_ends (by omega) hr)
  rintro t ⟨ht, hbook⟩
  refine ⟨t, bind_error (memRead_refused ?_), ht, hbook⟩
  rw [ht]
  exact hx

/-- Settles O7: the count check before the loop, and the loop, ending or faulting. -/
theorem loadadpcmLoadsBook : Obligations.LoadadpcmLoadsBook := by
  intro s count addr
  refine ⟨fun hc hr => ?_, fun hc => ?_, fun n hc hn hr hx => ?_⟩
  · obtain ⟨t, hexec, ht, hbook⟩ := ends_next (loadadpcmBody_ends hc hr)
    exact ⟨t.book, hexec.trans (by rw [ht]), hbook⟩
  · exact perform_error (by rw [loadadpcmBody_overflow addr hc, raise_apply])
  · obtain ⟨t, hbody, ht, hbook⟩ := loadadpcmBody_refused hc hn hr hx
    exact ⟨t.book, (perform_error hbody).trans (by rw [← ht]), hbook⟩

/-! ### LOADBUFF and SAVEBUFF (R105, R106) -/

/-- Settles O8: LOADBUFF's body ends, and CP advances. -/
theorem loadbuffLoads : Obligations.LoadbuffLoads :=
  fun _ _ _ _ hi hc hs hr => ends_next (loadbuffBody_ends hi hc hs hr)

/-- Settles O9: SAVEBUFF's body ends, and CP advances. -/
theorem savebuffSaves : Obligations.SavebuffSaves :=
  fun _ _ _ _ ho hc hs hw => ends_next (savebuffBody_ends ho hc hs hw)

end Sys2Proof.Machine
end

section
/-! SUPPORT. ADPCM (41_adpcm.md R108 to R115): the run that completes, and the run that meets a packet whose header
names no predictor. -/

namespace Sys2Proof.Machine

theorem Params.legal_sizes {p : Params} (h : p.legal = true) :
    p.scratchBytes ≤ 4096 ∧ 4 ≤ p.histBytes ∧ p.histBytes % 2 = 0 := by
  simp only [Params.legal, Bool.and_eq_true, decide_eq_true_eq] at h
  omega

/-! ### The parts of a packet across a change outside it (R109) -/

theorem Changed.packetPredictor {s t : State} {P Q : Nat → Prop} (h : Changed s t P Q) {src : Nat} (hp : ¬ P src) :
    t.packetPredictor src = s.packetPredictor src := by
  rw [State.packetPredictor, State.packetPredictor, h.scratch src hp]

theorem Changed.packetDelta {s t : State} {P Q : Nat → Prop} (h : Changed s t P Q) {src q : Nat}
    (hp : ∀ x, inSpan src 9 x → ¬ P x) (hq : q < 16) : t.packetDelta src q = s.packetDelta src q := by
  unfold State.packetDelta
  rw [h.scratch src (hp _ (by unfold inSpan; omega)), h.scratch _ (hp _ (by unfold inSpan; omega))]

theorem Changed.bookCoef {s t : State} {P Q : Nat → Prop} (h : Changed s t P Q) : t.bookCoef = s.bookCoef := by
  funext p r j
  rw [State.bookCoef, State.bookCoef, h.book, h.cfg]

theorem Changed.predictorLoaded {s t : State} {P Q : Nat → Prop} (h : Changed s t P Q) {p : Nat}
    (hl : s.predictorLoaded p) : t.predictorLoaded p := by
  rw [State.predictorLoaded, h.book]
  exact hl

/-- A half decoded from a packet of `t` is decoded from that packet of `s`, where `t` differs from `s` outside it. -/
theorem Changed.halfDecoded {s t u : State} {P Q : Nat → Prop} (hc : Changed s t P Q) {src h e : Nat}
    (hp : ∀ x, inSpan src 9 x → ¬ P x) (hh : h < 2) (hd : halfDecoded t u src h e) : halfDecoded s u src h e := by
  intro j hj
  rw [hd j hj, hc.packetPredictor (hp src (by unfold inSpan; omega)), hc.bookCoef]
  exact adpcmOutput_congr _ _ _ fun k hk => hc.packetDelta hp (by omega)

/-! ### The run up to a bad header (R110, R111, R115) -/

/-- A packet whose header names a predictor of 8 or more faults before anything else is read or written (R111). -/
theorem adpcmPacket_badPredictor {t : State} {src : Int} {a : Nat} (o : Int) (ha : src = a)
    (hin : a + 1 ≤ t.cfg.scratchBytes) (h8 : 8 ≤ t.packetPredictor a) :
    adpcmPacket src o t = .error ⟨.adpcmPredictor, (Memory.read t.scratch a).setWidth 32⟩ t := by
  rw [State.packetPredictor] at h8
  rw [adpcmPacket, bind_ok (read8_at a ha hin), if_pos h8, raise_apply]

/-- The packet loop whose packet `n` is the first with a bad header: the packets before it are decoded. -/
theorem adpcmPackets_fails {s : State} {i o n m : Nat} (hn : n < m) (he : o % 2 = 0) (h4 : 4 ≤ o)
    (hi : s.holds i (9 * m)) (ho : o + 32 * m ≤ s.cfg.scratchBytes) (hd : apart i (9 * m) o (32 * m))
    (hp : ∀ pk, pk < n → s.packetPredictor (i + 9 * pk) < 8 ∧ s.predictorLoaded (s.packetPredictor (i + 9 * pk)))
    (h8 : 8 ≤ s.packetPredictor (i + 9 * n)) :
    ∃ t, forRange m (fun pk => adpcmPacket ((i : Int) + 9 * pk) ((o : Int) + 32 * pk)) s =
        .error ⟨.adpcmPredictor, (Memory.read s.scratch (i + 9 * n)).setWidth 32⟩ t ∧
      Changed s t (inSpan o (32 * n)) noByte ∧
      ∀ pk h, pk < n → h < 2 → halfDecoded s t (i + 9 * pk) h (o + 32 * pk + 16 * h) := by
  unfold State.holds at hi
  unfold apart at hd
  refine forRange_fails n m hn (adpcmPackets_ends he h4 (.inr (by omega)) (.inr (by omega))
    (by unfold apart; omega) hp) ?_
  rintro t ⟨hc, hdec⟩
  have hhdr : ¬ inSpan o (32 * n) (i + 9 * n) := by unfold inSpan; omega
  refine ⟨t, ?_, hc, hdec⟩
  rw [adpcmPacket_badPredictor (a := i + 9 * n) _ (by push_cast; rfl) (by rw [hc.cfg]; omega)
    (by rw [hc.packetPredictor hhdr]; exact h8), hc.scratch _ hhdr]

/-- ADPCM's context registers read: the prefix, the packets and the save remain (40_context_and_scratch.md R97 (a)). -/
theorem adpcmBody_operands {s : State} {flags : BitVec 8} {addr : Word} {i o c : Half} (hi : s.ctx.inp = some i)
    (ho : s.ctx.out = some o) (hc : s.ctx.count = some c)
    (hl : flagLoop flags = true → flagInit flags = false → s.ctx.loopAddr.isSome = true) :
    ∃ src, (flagInit flags = false → src = s.adpcmSource flags addr) ∧ adpcmBody flags addr s = (do
      adpcmPrefix (flagInit flags) src o.toNat (s.cfg.histBytes / 2)
      forRange (ru c.toNat 32 / 32) fun pk =>
        adpcmPacket (i.toNat + 9 * pk) ((o.toNat + s.cfg.histBytes : Nat) + 32 * pk)
      adpcmSave addr (o.toNat + s.cfg.histBytes + 32 * (ru c.toNat 32 / 32 : Nat)) (s.cfg.histBytes / 2)) s := by
  obtain ⟨src, hread, hsrc⟩ := adpcmSource_reads (addr := addr) hl
  refine ⟨src, hsrc, ?_⟩
  rw [adpcmBody, bind_ok hread, readOut, bind_ok (ctxRead_ok ho), readIn, bind_ok (ctxRead_ok hi), readCount,
    bind_ok (ctxRead_ok hc), bind_ok (get_apply s), Nat.cast_add]

/-- The prefix written from ADPCM's source is the history (R110). -/
theorem adpcmPrefix_history {s : State} {flags : BitVec 8} {addr src : Word} {o n : Nat} (hs : s.holdsSamples o n)
    (hsrc : flagInit flags = false → src = s.adpcmSource flags addr)
    (hr : flagInit flags = false → s.readable (s.adpcmSource flags addr) 2 n) :
    Ends (adpcmPrefix (flagInit flags) src o n) s fun _ t => Changed s t (inSpan o (2 * n)) noByte ∧
      ∀ k, k < n → scratchSample t (o + 2 * k) = s.adpcmHistory flags addr k := by
  refine ends_mono (adpcmPrefix_ends hs fun h => hsrc h ▸ hr h) fun _ t ⟨hc, hpre⟩ => ⟨hc, fun k hk => ?_⟩
  rw [hpre k hk, State.adpcmHistory]
  split
  · rfl
  · next h => rw [hsrc (by simpa using h)]

/-- Settles O10: ADPCM's body ends, and CP advances. -/
theorem adpcmDecodes : Obligations.AdpcmDecodes := by
  intro s flags addr i o c hlegal hi ho hc hl he hin hout hd hr hw hp
  obtain ⟨hsmall, hH4, hH⟩ := Params.legal_sizes hlegal
  exact ends_next (adpcmBody_ends hi ho hc hl hH4 hH hsmall he hin hout hd hr hw hp)

/-- A coefficient with both book bytes written, as the word they form (10_state.md R27). -/
theorem coef_written {s : State} {p r j : Nat} {b c : Byte} (hb : Book.read s.book (coefOffset p r j) = some b)
    (hc : Book.read s.book (coefOffset p r j + 1) = some c) :
    coef p r j s = .ok (if s.cfg.endian = .little then (c ++ b).toInt else (b ++ c).toInt) s := by
  rw [coef_ok hb hc, sext16_ofBytes_pair]

/-- Settles O11: the coefficient read's two ends, and the body as prefix, packets and the fault of the first bad
header, whose outputs lie behind the prefix. -/
theorem adpcmPredictorFaults : Obligations.AdpcmPredictorFaults := by
  refine ⟨fun s p r j k _ _ _ hk => ?_, ?_⟩
  · subst hk
    exact ⟨coef_unwritten, fun _ _ => coef_written⟩
  intro s flags addr i o c n hlegal hi ho hc hl he hin hout hd hr hn hp h8
  obtain ⟨_, hH4, hH⟩ := Params.legal_sizes hlegal
  have hru := ru_mod c.toNat 32
  unfold apart at hd
  obtain ⟨src, hsrc, hbody⟩ := adpcmBody_operands (addr := addr) hi ho hc hl
  obtain ⟨_, t, hpre, ht, hhist⟩ := adpcmPrefix_history (.inr ⟨he, by omega⟩) hsrc hr
  have hclear : ∀ pk, pk ≤ n → ∀ x, inSpan (i.toNat + 9 * pk) 9 x →
      ¬ inSpan o.toNat (2 * (s.cfg.histBytes / 2)) x := by
    unfold inSpan
    omega
  have hpred : ∀ pk, pk ≤ n → t.packetPredictor (i.toNat + 9 * pk) = s.packetPredictor (i.toNat + 9 * pk) :=
    fun pk hpk => ht.packetPredictor (hclear pk hpk _ (by unfold inSpan; omega))
  obtain ⟨u, hpackets, hu, hdec⟩ := adpcmPackets_fails (s := t) (i := i.toNat) (o := o.toNat + s.cfg.histBytes) hn
    (by omega) (by omega) (by rw [State.holds, ht.cfg]; exact hin) (by rw [ht.cfg]; omega) (by unfold apart; omega)
    (fun pk hpk => by
      rw [hpred pk hpk.le]
      exact ⟨(hp pk hpk).1, ht.predictorLoaded (hp pk hpk).2⟩)
    (by rw [hpred n le_rfl]; exact h8)
  rw [ht.scratch _ (hclear n le_rfl _ (by unfold inSpan; omega))] at hpackets
  refine ⟨u, perform_error (hbody.trans ((bind_ok hpre).trans (bind_error hpackets))),
    ht.then hu (by unfold inSpan; omega) (by simp [noByte]), fun k hk => ?_, fun pk h hpk hh => ?_⟩
  · rw [hu.sample (by unfold inSpan; omega) (by unfold inSpan; omega), hhist k hk]
  · exact ht.halfDecoded (hclear pk hpk.le) hh (hdec pk h hpk hh)

end Sys2Proof.Machine
end

section
/-! SUPPORT. RESAMPLE (42_resample.md R118 to R126), its flag conflict (R120), and the steady state of the default ROM
(R129, R130). -/

namespace Sys2Proof.Machine

/-! ### The filter and its rows (R123, R124) -/

theorem resampleFilter_sum (row : RomRow) (x0 x1 x2 x3 : Int) : resampleFilter .sum row [x0, x1, x2, x3] =
    asr (x0 * row.c0.toInt + x1 * row.c1.toInt + x2 * row.c2.toInt + x3 * row.c3.toInt + 0x4000) 15 := rfl

theorem resampleFilter_perTap (row : RomRow) (x0 x1 x2 x3 : Int) : resampleFilter .perTap row [x0, x1, x2, x3] =
    asr (x0 * row.c0.toInt + 0x4000) 15 + asr (x1 * row.c1.toInt + 0x4000) 15 +
      asr (x2 * row.c2.toInt + 0x4000) 15 + asr (x3 * row.c3.toInt + 0x4000) 15 := rfl

theorem asr_fifteen (v : Int) : asr v 15 = v / 32768 := by norm_num [asr]

/-- The quotient by 1024 is the top six bits of the accumulator, so the two readings of `PACC[15:10]` agree (R123). -/
theorem pacc_topBits (pacc : BitVec 16) : (pacc.extractLsb' 10 6).toNat = pacc.toNat / 1024 % 64 := by
  rw [BitVec.extractLsb'_toNat, Nat.shiftRight_eq_div_pow]

theorem romRow_of_topBits {cfg : Params} {pacc : BitVec 16} {row : RomRow}
    (h : cfg.rom[(pacc.extractLsb' 10 6).toNat]? = some row) : romRow cfg pacc.toNat = row := by
  rw [romRow, List.getD_eq_getElem?_getD, ← pacc_topBits, h, Option.getD_some]

/-- Settles O12: the filter's formulas, the ROM row, and RESAMPLE's body, which ends, so that CP advances. -/
theorem resampleFilters : Obligations.ResampleFilters := by
  refine ⟨fun row x0 x1 x2 x3 => ⟨?sum, ?perTap⟩, fun _ _ _ => romRow_of_topBits, ?body⟩
  case sum => rw [resampleFilter_sum, asr_fifteen]
  case perTap => simp only [resampleFilter_perTap, asr_fifteen]
  case body =>
    intro s flags pitch addr i o c hist w0 we hflags hi ho hc hhist hw0 hwe hfit hout hlast hr hw
    exact ends_next (resampleBody_ends hflags hi ho hc hhist hw0 hwe hfit hout hlast hr hw)

/-! ### The flag conflict (R120) -/

/-- With both flags the body is the fault alone: no register is read and no memory is touched. -/
theorem resampleBody_flagConflict {flags : BitVec 8} (pitch : Half) (addr : Word) (hinit : flagInit flags = true)
    (hrestart : flagRestart flags = true) :
    resampleBody flags pitch addr = raise .flagConflict (BitVec.ofNat 32 flags.toNat) := by
  rw [resampleBody, hinit, hrestart, Bool.and_self, if_pos rfl, BitVec.ofNat_toNat]

/-- Settles O13: the fault is raised at `s`, so its entry is at `s` itself. -/
theorem resampleFlagConflict : Obligations.ResampleFlagConflict := by
  intro s flags pitch addr hinit hrestart
  rw [exec_eq_perform]
  apply perform_error
  rw [bodyOf, resampleBody_flagConflict pitch addr hinit hrestart, raise_apply]

/-! ### The steady state (R129) -/

/-- The sum of a row's coefficients: what a constant input is scaled by, in units of 2^-15. -/
def rowSum (row : RomRow) : Int := row.c0.toInt + row.c1.toInt + row.c2.toInt + row.c3.toInt

theorem resampleFilter_constant (row : RomRow) (c : Int) :
    resampleFilter .sum row [c, c, c, c] = asr (c * rowSum row + 0x4000) 15 := by
  rw [resampleFilter_sum, rowSum]
  congr 1
  ring

theorem rowSum_mirrorRow (row : RomRow) : rowSum (mirrorRow row) = rowSum row := by
  simp only [rowSum, mirrorRow]
  ring

theorem rowSum_romLowerHalf : ∀ row ∈ romLowerHalf, 32753 ≤ rowSum row ∧ rowSum row ≤ 32784 := by decide

/-- The upper half of the default ROM mirrors the lower one, so it has the same row sums (R130). -/
theorem rowSum_defaultRom {row : RomRow} (h : row ∈ defaultRom) : 32753 ≤ rowSum row ∧ rowSum row ≤ 32784 := by
  rw [defaultRom, List.mem_append, List.mem_map] at h
  obtain hlower | ⟨lower, hlower, rfl⟩ := h
  · exact rowSum_romLowerHalf row hlower
  · rw [rowSum_mirrorRow]
    exact rowSum_romLowerHalf lower (List.mem_reverse.mp hlower)

/-- Some phase attains the largest row sum; it is the one that bounds the constants reproduced. -/
theorem exists_rowSum_max : ∃ row ∈ defaultRom, rowSum row = 32784 := by decide

/-- A constant is reproduced when a row's error on it, `c * (r - 2^15)`, rounds to 0. -/
theorem asr_scaled_eq_iff (c r : Int) :
    asr (c * r + 0x4000) 15 = c ↔ -16384 ≤ c * (r - 32768) ∧ c * (r - 32768) < 16384 := by
  rw [asr_fifteen, mul_sub]
  omega

/-- The error is at its least for `c = -1024` and `d = 16`, where -16384 still rounds to 0. -/
theorem constantError_bounds {c d : Int} (hlow : -1024 ≤ c) (hhigh : c ≤ 1023) (hmin : -15 ≤ d) (hmax : d ≤ 16) :
    -16384 ≤ c * d ∧ c * d < 16384 := by
  obtain hd | hd := le_total 0 d
  · have hbelow := mul_le_mul_of_nonneg_right hlow hd
    have habove := mul_le_mul_of_nonneg_right hhigh hd
    omega
  · have hbelow := mul_le_mul_of_nonpos_right hhigh hd
    have habove := mul_le_mul_of_nonpos_right hlow hd
    omega

/-- Settles O14: the row sums lie within -15 and 16 of 2^15, and the row that is 16 above decides both ends. -/
theorem steadyStateFilter : Obligations.SteadyStateFilter := by
  refine ⟨fun row => rowSum_defaultRom, resampleFilter_constant, fun c _ _ => ?_⟩
  simp only [resampleFilter_constant, asr_scaled_eq_iff]
  constructor
  · intro hall
    obtain ⟨row, hrow, hmax⟩ := exists_rowSum_max
    have herror := hall row hrow
    rw [hmax] at herror
    omega
  · rintro ⟨hlow, hhigh⟩ row hrow
    obtain ⟨hmin, hmax⟩ := rowSum_defaultRom hrow
    exact constantError_bounds hlow hhigh (by omega) (by omega)

end Sys2Proof.Machine
end

section
/-! SUPPORT. ENVMIXER (43_envmix.md R133 to R148): its formulas, the clamp and what it bounds, and the envelope that
stays at unity. -/

namespace Sys2Proof.Machine

/-! ### The formulas (R134, R135, R140 to R142) -/

theorem asr_sixteen (v : Int) : asr v 16 = v / 65536 := by norm_num [asr]

theorem envRamp_eq (rt v : Int) : envRamp rt v = sat32 (v * rt / 65536) := by rw [envRamp, asr_sixteen]

theorem envGain_eq (vol level : Int) : envGain vol level = (vol * level + 0x4000) / 32768 := by
  rw [envGain, asr_fifteen]

theorem envBlend_eq (d x gain : Int) : envBlend d x gain = sat16 ((d * 0x7FFF + x * gain + 0x4000) / 32768) := by
  rw [envBlend, asr_fifteen]

theorem envInitChannel_lane (vol rate target : Int) {i : Nat} (hi : i < 8) :
    (envInitChannel vol rate target).vacc.getD i 0 =
      sat32 (vol * 65536 + (vol * (rate - 0x10000)).tdiv 8 * (i + 1)) := by
  simp [envInitChannel, hi, tdiv, ← List.map_eq_flatMap]

@[simp] theorem envInitChannel_rt (vol rate target : Int) : (envInitChannel vol rate target).rt = rate := rfl

@[simp] theorem envInitChannel_tgt (vol rate target : Int) : (envInitChannel vol rate target).tgt = target := rfl

theorem mod16_toInt (x : Half) : mod16 x.toInt = x.toNat := by
  have hx : sext16 x.toNat = x.toInt := by rw [sext16, BitVec.ofNat_toNat, BitVec.setWidth_eq]
  rw [← hx, mod16_sext16 _ x.isLt]

theorem joinRate_toInt (hi lo : Half) : joinRate hi.toInt lo.toInt = (hi ++ lo).toInt := by
  rw [joinRate, mod16_toInt, mod16_toInt, sext32, append_halves, mul_comm]

/-- Settles O15: the formulas, and ENVMIXER's body, which ends, so that CP advances. -/
theorem envmixerMixes : Obligations.EnvmixerMixes :=
  ⟨envRamp_eq, fun vol rate target _ hi => ⟨envInitChannel_lane vol rate target hi, envInitChannel_rt vol rate target,
      envInitChannel_tgt vol rate target⟩, envGain_eq, envBlend_eq, joinRate_toInt,
    fun _ _ _ _ _ _ _ hi ho hdr hc hwet hvol hin hdl hdrs hws hr hw =>
      ends_next (envmixerBody_ends hi ho hdr hc hwet hvol hin hdl hdrs hws hr hw)⟩

/-! ### The clamp (R139) and what it bounds (R147) -/

theorem asr_sixteen_pos {v : Int} : 0 < asr v 16 ↔ 0x10000 ≤ v := by
  rw [asr_sixteen]
  omega

theorem envClamp_increasing {rt : Int} (tgt vacc : Int) (h : 0 < asr rt 16) :
    envClamp rt tgt vacc = if tgt < asr vacc 16 then tgt * 65536 else vacc := if_pos h

theorem envClamp_decreasing {rt : Int} (tgt vacc : Int) (h : asr rt 16 ≤ 0) :
    envClamp rt tgt vacc = if asr vacc 16 < tgt then tgt * 65536 else vacc := if_neg h.not_gt

/-- Settles O16: the high half passes the target exactly when the accumulator leaves the target's 65536 values. -/
theorem clampFollowsRate : Obligations.ClampFollowsRate := by
  refine fun rt tgt vacc => ⟨fun hrt => ?increasing, fun hrt => ?decreasing⟩
  case increasing =>
    have hpass : tgt < asr vacc 16 ↔ (tgt + 1) * 65536 ≤ vacc := by rw [asr_sixteen]; omega
    simp only [envClamp_increasing tgt vacc (asr_sixteen_pos.mpr hrt), hpass]
  case decreasing =>
    have hfall : asr vacc 16 < tgt ↔ vacc < tgt * 65536 := by rw [asr_sixteen]; omega
    simp only [envClamp_decreasing tgt vacc (not_lt.mp (asr_sixteen_pos.not.mpr hrt.not_ge)), hfall]

theorem asr_target (tgt : Int) : asr (tgt * 65536) 16 = tgt := by
  rw [asr_sixteen]
  omega

theorem asr_envClamp_le {rt : Int} (tgt vacc : Int) (h : 0 < asr rt 16) : asr (envClamp rt tgt vacc) 16 ≤ tgt := by
  rw [envClamp_increasing tgt vacc h]
  split
  · exact (asr_target tgt).le
  · next hin => exact not_lt.mp hin

theorem le_asr_envClamp {rt : Int} (tgt vacc : Int) (h : asr rt 16 ≤ 0) : tgt ≤ asr (envClamp rt tgt vacc) 16 := by
  rw [envClamp_decreasing tgt vacc h]
  split
  · exact (asr_target tgt).ge
  · next hin => exact not_lt.mp hin

/-- Settles O17: the volume is the high half of a clamped accumulator, whatever the ramp made of it. -/
theorem rampNeverOvershoots : Obligations.RampNeverOvershoots :=
  fun ch i g => ⟨asr_envClamp_le ch.tgt (ch.accumulator i g), le_asr_envClamp ch.tgt (ch.accumulator i g)⟩

/-! ### The unity envelope (R148) -/

theorem envRamp_unity {v : Int} (h1 : -2147483648 ≤ v) (h2 : v ≤ 2147483647) : envRamp 0x10000 v = v := by
  rw [envRamp_eq, Int.mul_ediv_cancel v (by norm_num), sat32]
  omega

theorem envClamp_unity {vol target : Int} (h : vol ≤ target) : envClamp 0x10000 target (vol * 65536) = vol * 65536 := by
  rw [envClamp_increasing _ _ (by decide), asr_target, if_neg h.not_gt]

/-- At rate 1.0 a lane that starts at or below its target stays where it starts (R135, R138). -/
theorem accumulator_unity {vol target : Int} (h1 : -32768 ≤ vol) (h2 : vol ≤ 32767) (h : vol ≤ target) {i : Nat}
    (hi : i < 8) (g : Nat) : (envInitChannel vol 0x10000 target).accumulator i g = vol * 65536 := by
  induction g with
  | zero =>
    rw [EnvChannel.accumulator, envInitChannel_lane _ _ _ hi, sub_self, mul_zero, Int.zero_tdiv, zero_mul, add_zero,
      sat32]
    omega
  | succ g ih =>
    rw [EnvChannel.accumulator, ih, envInitChannel_rt, envInitChannel_tgt, envClamp_unity h,
      envRamp_unity (by omega) (by omega)]

theorem volume_unity {vol target : Int} (h1 : -32768 ≤ vol) (h2 : vol ≤ 32767) (h : vol ≤ target) {i : Nat}
    (hi : i < 8) (g : Nat) : (envInitChannel vol 0x10000 target).volume i g = vol := by
  rw [EnvChannel.volume, accumulator_unity h1 h2 h hi g, envInitChannel_rt, envInitChannel_tgt, envClamp_unity h,
    asr_target]

theorem envGain_unity : envGain 0x7FFF 0x7FFF = 32766 := by decide

/-- The product of a sample with the unity gain never saturates. -/
theorem envBlend_unity {x : Int} (h1 : -32768 ≤ x) (h2 : x ≤ 32767) :
    envBlend 0 x 32766 = asr (32766 * x + 0x4000) 15 := by
  rw [envBlend_eq, asr_fifteen, sat16_of_range _ (by omega) (by omega), zero_mul, zero_add, mul_comm]

/-- One dry sample of a unity channel, over a destination that was zero. -/
theorem channelBlended_unity {s t : State} {vw : Int} {inp dry g i : Nat} {wet : Option Nat} (hi : i < 8)
    (hzero : scratchSample s (dry + 16 * g + 2 * i) = 0)
    (h : channelBlended s t 0x7FFF vw (envInitChannel 0x7FFF 0x10000 0x7FFF) inp dry wet g i) :
    scratchSample t (dry + 16 * g + 2 * i) = asr (32766 * scratchSample s (inp + 16 * g + 2 * i) + 0x4000) 15 := by
  obtain ⟨hx1, hx2⟩ := scratchSample_range s (inp + 16 * g + 2 * i)
  obtain ⟨hdry, _⟩ := h
  rw [hdry, hzero, volume_unity (by norm_num) (by norm_num) le_rfl hi, envGain_unity, envBlend_unity hx1 hx2]

/-- The unity gain falls 2 short of 2^15, so a sample loses its double over 2^15, rounded (R148, log entry 24). -/
theorem asr_unity (x : Int) : asr (32766 * x + 0x4000) 15 = x + (0x4000 - 2 * x) / 32768 := by
  rw [asr_fifteen]
  omega

/-- Settles O18: sample `k` is lane `k % 8` of group `k / 8`, whose volume stays at 0x7FFF. -/
theorem unityEnvelope : Obligations.UnityEnvelope := by
  refine ⟨?samples, envGain_unity, fun x _ _ => ?error⟩
  case error =>
    rw [asr_unity]
    omega
  case samples =>
    intro s flags addr i o dr c hinit hi ho hdr hc hwet hvol hvolL htgtL hrateL hvolR htgtR hrateR hdry hin hdl hdrs hws
      hw hapart hzero
    obtain ⟨t, hexec, _, _, hblend⟩ := ends_next (envmixerBody_ends (addr := addr) hi ho hdr hc hwet (fun _ => hvol) hin
      hdl hdrs hws (fun hno => absurd (hinit.symm.trans hno) (by decide)) hw)
    have hstart : s.envStart flags addr =
        { left := envInitChannel 0x7FFF 0x10000 0x7FFF, right := envInitChannel 0x7FFF 0x10000 0x7FFF, vd := 0x7FFF,
          vw := (s.ctx.volWet.getD 0).toInt } := by
      rw [State.envStart, if_pos hinit, Context.envInit, hvolL, htgtL, hrateL, hvolR, htgtR, hrateR, hdry]
      rfl
    refine ⟨t, hexec, fun k hk => ?_⟩
    obtain ⟨hl, hr⟩ := hblend hapart (k / 8) (k % 8) (by omega) (by omega)
    rw [hstart] at hl hr
    have hsample : ∀ b, b + 16 * (k / 8) + 2 * (k % 8) = b + 2 * k := fun b => by omega
    obtain ⟨hzl, hzr⟩ := hzero k hk
    have hleft := channelBlended_unity (by omega) (by rw [hsample]; exact hzl) hl
    have hright := channelBlended_unity (by omega) (by rw [hsample]; exact hzr) hr
    simp only [hsample] at hleft hright
    exact ⟨hleft, hright⟩

end Sys2Proof.Machine
end

section
/-! SUPPORT. MIXER, INTERLEAVE and INTERLEAVE_EXT (44_mix_interleave.md R150 to R158): the formulas of the mixed sample,
the self-mix that scales a buffer, and the bytes the two interleave paths leave. -/

namespace Sys2Proof.Machine

/-! ### The mixed sample (R150 to R152) -/

theorem mixSample_subtract (form : MixForm) (o i : Int) : mixSample form (-32768) o i = sat16 (o - i) := if_pos rfl

theorem add_asr_subtract (o i : Int) : o + asr (i * -32768) 15 = o - i := by
  rw [asr_fifteen]
  omega

/-- Under the doc form the gain that subtracts (R151) is no exception to the general formula. -/
theorem mixSample_doc (gain o i : Int) : mixSample .doc gain o i = sat16 (o + i * gain / 32768) := by
  rw [← asr_fifteen]
  by_cases hg : gain = -32768
  · rw [hg, mixSample_subtract, add_asr_subtract]
  · exact if_neg hg

theorem mixSample_ref {gain : Int} (o i : Int) (hg : gain ≠ -32768) :
    mixSample .ref gain o i = sat16 ((o * 0x7FFF + i * gain + 0x4000) / 32768) := by
  rw [mixSample, if_neg hg, asr_fifteen]

/-- Settles O19: the formulas, and MIXER's body, which ends, so that CP advances. -/
theorem mixerMixes : Obligations.MixerMixes :=
  ⟨mixSample_subtract, fun gain o i hg => ⟨mixSample_doc gain o i, mixSample_ref o i hg⟩,
    fun _ _ _ _ _ hc ho hi => ends_next (mixerBody_ends hc ho hi)⟩

/-- Settles O20: the subtracting gain field, and 32767 - 0, which the ref form's general formula
would make 32766. -/
theorem subtractGain : Obligations.SubtractGain := by
  refine ⟨fun s inp out c hc ho hi => ?subtracts, add_asr_subtract, 32767, 0, by decide⟩
  obtain ⟨t, hexec, hchanged, hmixed⟩ := ends_next (mixerBody_ends (gain := 0x8000#16) hc ho hi)
  refine ⟨t, hexec, hchanged, fun k hk => ?_⟩
  rw [hmixed k hk, show (0x8000#16).toInt = -32768 from rfl, mixSample_subtract]

/-! ### The self-mix (R158) -/

theorem toInt_decayGain (g : Half) : (0x8000#16 + g).toInt = g.toNat - 32768 := by
  have hg := g.isLt
  rw [BitVec.toInt_eq_toNat_cond, BitVec.toNat_add]
  norm_num
  split <;> omega

/-- A sample plus its own share of g / 32768 - 1 is its share of g / 32768: the whole part leaves the floor. -/
theorem mixSample_decay (g : Half) (x : Int) :
    mixSample .doc (0x8000#16 + g).toInt x x = sat16 (asr (x * g.toNat) 15) := by
  rw [mixSample_doc, toInt_decayGain, asr_fifteen, mul_sub]
  congr 1
  omega

/-- Settles O21: a self-mix reads each sample before it is written. -/
theorem decayScales : Obligations.DecayScales := by
  intro s g buf c hdoc hc hbuf
  obtain ⟨t, hexec, hchanged, hmixed⟩ := ends_next (mixerBody_ends (gain := 0x8000#16 + g) hc hbuf hbuf)
  refine ⟨t, hexec, hchanged, fun k hk => ?_⟩
  rw [hmixed k hk, if_neg (by omega), hdoc, mixSample_decay]

/-! ### The two interleave paths (R153 to R155) -/

/-- Settles O22: INTERLEAVE's body ends, so that CP advances. -/
theorem interleaveMerges : Obligations.InterleaveMerges :=
  fun _ _ _ _ _ ho hc hl hr hs => ends_next (interleaveBody_ends ho hc hl hr hs)

/-- Settles O23: INTERLEAVE_EXT's body ends, so that CP advances. -/
theorem interleaveExtWrites : Obligations.InterleaveExtWrites :=
  fun _ _ _ _ _ hc hl hr hw => ends_next (interleaveExtBody_ends hc hl hr hw)

theorem interleaveSource_apart {s t : State} {o n g a : Nat} (hg : 32 * g ≤ n) (h : a < o ∨ o + n ≤ a) :
    interleaveSource s t o g a = scratchSample s a := if_neg (by omega)

/-- A sample determines its two bytes, in either byte order. -/
theorem bytes_of_sext16_eq {e : Endian} {b c b' c' : Byte}
    (h : sext16 (ofBytes e [b, c]) = sext16 (ofBytes e [b', c'])) : b = b' ∧ c = c' := by
  have hbytes := toBytes_mod16_sext16 e b c
  rw [h, toBytes_mod16_sext16] at hbytes
  obtain ⟨hb, hc⟩ := List.cons_eq_cons.mp hbytes
  exact ⟨hb.symm, (List.head_eq_of_cons_eq hc).symm⟩

theorem extSample_addrAdd (u : State) (addr : Word) (n : Nat) :
    u.extSample (addrAdd addr n) = sext16 (ofBytes u.cfg.endian [u.extByte addr n, u.extByte addr (n + 1)]) := by
  simp [State.extSample, extBytes, State.extByte, List.range_succ, addrAdd_addrAdd]

/-- Memories that hold the same samples hold the same bytes. -/
theorem bytes_eq_of_samples_eq {t u : State} {a n : Nat} {addr : Word} (he : t.cfg.endian = u.cfg.endian)
    (h : ∀ m, m < n → scratchSample t (a + 2 * m) = u.extSample (addrAdd addr (2 * m))) {k : Nat} (hk : k < 2 * n) :
    Memory.read t.scratch (a + k) = u.extByte addr k := by
  have hsample := h (k / 2) (by omega)
  rw [extSample_addrAdd, scratchSample, he] at hsample
  obtain ⟨hfirst, hsecond⟩ := bytes_of_sext16_eq hsample
  rcases Nat.mod_two_eq_zero_or_one k with heven | hodd
  · rwa [show 2 * (k / 2) = k by omega] at hfirst
  · rwa [Nat.add_assoc, show 2 * (k / 2) + 1 = k by omega] at hsecond

/-- Settles O24: sample `m` of either path is the left or the right sample of pair `m / 2`, which INTERLEAVE makes in
group `m / 16`, from an input it has not written. -/
theorem interleavePathsAgree : Obligations.InterleavePathsAgree := by
  intro s left right addr o c ho hc hl hr hs hw hol hor
  have hleft : (left.setWidth 16).toNat = left.toNat := BitVec.toNat_setWidth_of_le (by norm_num)
  have hright : (right.setWidth 16).toNat = right.toNat := BitVec.toNat_setWidth_of_le (by norm_num)
  obtain ⟨t, htexec, htchanged, htpairs⟩ := ends_next (interleaveBody_ends (left := left.setWidth 16)
    (right := right.setWidth 16) ho hc (hleft ▸ hl) (hright ▸ hr) hs)
  obtain ⟨u, huexec, huchanged, hupairs⟩ := ends_next (interleaveExtBody_ends hc hl hr hw)
  refine ⟨t, u, htexec, huexec, fun k hk => ?_⟩
  refine bytes_eq_of_samples_eq (by rw [htchanged.cfg, huchanged.cfg]) (fun m hm => ?_) hk
  have hru := ru_mod c.toNat 16
  obtain ⟨htl, htr⟩ := htpairs (m / 16) (m / 2 % 8) (by omega) (by omega)
  obtain ⟨hul, hur⟩ := hupairs (m / 2) (by omega)
  unfold apart at hol hor
  rw [hleft, interleaveSource_apart (n := 2 * ru c.toNat 16) (by omega) (by omega)] at htl
  rw [hright, interleaveSource_apart (n := 2 * ru c.toNat 16) (by omega) (by omega)] at htr
  have hindex : ∀ b, b + 16 * (m / 16) + 2 * (m / 2 % 8) = b + 2 * (m / 2) := fun b => by omega
  rw [hindex] at htl htr
  rcases Nat.mod_two_eq_zero_or_one m with heven | hodd
  · rw [show o.toNat + 2 * m = o.toNat + 32 * (m / 16) + 4 * (m / 2 % 8) by omega, htl, ← hul]
    congr 2
    omega
  · rw [show o.toNat + 2 * m = o.toNat + 32 * (m / 16) + 4 * (m / 2 % 8) + 2 by omega, htr, ← hur]
    congr 2
    omega

end Sys2Proof.Machine
end

section
/-! SUPPORT. The reverb controller (45_reverb.md R160 to R175): its registers as SETREG and the host write them, the
common checks of its ring commands, the split of a chunk, what each ring command does, and the ring invariant. -/

namespace Sys2Proof.Machine

/-! ### The controller registers (R165, R166) -/

/-- Cutting a word to `n` bits is masking it. -/
theorem setWidth_setWidth_eq_and (v : Word) (n : Nat) :
    (v.setWidth n).setWidth 32 = v &&& (BitVec.allOnes n).setWidth 32 := by
  ext i hi
  simp [hi, Bool.and_comm]

theorem readField_writeField_same (rb : Reverb) {k : Nat} (hk : k ≤ 0xA) (v : Word) :
    readField (writeField rb k v) k = v &&& fieldBits k := by
  match k, hk with
  | 0x0, _ | 0x4, _ => exact setWidth_setWidth_eq_and v 1
  | 0x1, _ | 0x2, _ => exact setWidth_setWidth_eq_and v 16
  | 0x3, _ | 0x5, _ => exact setWidth_setWidth_eq_and v 8
  | 0x6, _ | 0x7, _ | 0x8, _ | 0x9, _ | 0xA, _ => exact BitVec.and_allOnes.symm

theorem readField_writeField_other (rb : Reverb) {j k : Nat} (h : j ≠ k) (v : Word) :
    readField (writeField rb k v) j = readField rb j := by
  unfold writeField
  split
  case h_12 => rfl
  all_goals
    unfold readField
    split
    any_goals rfl
    exact absurd rfl h

theorem reverbCsr_controller {cfg : Params} {n : Nat} (h : isControllerCsr cfg n) :
    reverbCsr cfg n = some ((n - 0x100) / 0x20, (n - 0x100) % 0x20) := if_pos h

theorem exec_setreg_controller {s : State} {reg : Half} (value : Word) (h : isControllerCsr s.cfg reg.toNat) :
    exec (.setreg reg value) s =
      .next (advance (writeReverbCsr s ((reg.toNat - 0x100) / 0x20) ((reg.toNat - 0x100) % 0x20) value)) :=
  perform_ok (m := setregBody reg value) (by rw [setregBody, reverbCsr_controller h])

theorem exec_setreg_illegal {s : State} {reg : Half} (value : Word) (h : ¬ isControllerCsr s.cfg reg.toNat) :
    exec (.setreg reg value) s = .next (takeFault ⟨.illegalCommand, (encode (.setreg reg value)).w0⟩ s) :=
  perform_error (m := setregBody reg value) (by rw [setregBody, reverbCsr_none h])

/-- Settles O25: the write of one field, read back at its own and at every other number. -/
theorem setregWrites : Obligations.SetregWrites := by
  intro s reg value r k hr hk
  rw [hr, hk]
  refine ⟨fun h => ⟨_, exec_setreg_controller value h, readField_writeField_same _ h.2.2 value,
    fun j hj => readField_writeField_other _ hj value, writeField_items _ _ _⟩, exec_setreg_illegal value⟩

/-- A controller's number is none of the run-control numbers, which `hostWriteCsr` tries first. -/
theorem hostWriteCsr_controller {s : State} {n : Nat} (v : Word) (hidle : s.status.busy = false)
    (h : isControllerCsr s.cfg n) :
    hostWriteCsr n v s = writeReverbCsr s ((n - 0x100) / 0x20) ((n - 0x100) % 0x20) v := by
  have hn : 0x100 ≤ n := h.1
  rw [hostWriteCsr, if_neg (by simp [hidle]), reverbCsr_controller h] <;> omega

theorem csrValue_controller {s : State} {n : Nat} (h : isControllerCsr s.cfg n) :
    csrValue s n = some (readField (reverbAt s ((n - 0x100) / 0x20)) ((n - 0x100) % 0x20)) := by
  have hn : 0x100 ≤ n := h.1
  rw [csrValue, controlCsr_outside s (by omega), contextCsr_outside s.ctx (by omega), reverbCsr_controller h]

/-- Settles O56: a host write and SETREG share the write of the register, which the host's list is no part of. -/
theorem hostWriteIsSetreg : Obligations.HostWriteIsSetreg := by
  intro s reg v rest hidle hlo hhi hk
  have h : isControllerCsr s.cfg reg.toNat := ⟨hlo, hhi, hk⟩
  refine ⟨fun hhost => ⟨_, ?_, exec_setreg_controller v h⟩,
    fun hhost => step_readCsr_written hhost (csrValue_controller h)⟩
  rw [step_writeCsr hhost, hostWriteCsr_controller (s := { s with host := rest }) v hidle h]
  rfl

/-! ### The common checks (R167, R168) -/

theorem ctrl_ne_zero {b : BitVec 1} (h : b = 1) : b ≠ 0 := by
  subst h
  decide

theorem reverbCheck_capacity {s : State} {r u : Nat} {w0 : Word} (hr : r < s.cfg.numReverb) (hu : u < s.cfg.maxChunks)
    (huse : (reverbAt s r).ctrl = 1) (hcap : (reverbAt s r).cap.toNat < 1) :
    reverbCheck r u w0 s = .error ⟨.ringConfig, BitVec.ofNat 32 (csrReverb r 1)⟩ s := by
  rw [reverbCheck, if_neg (by omega), if_neg (ctrl_ne_zero huse), if_pos hcap]

theorem reverbCheck_cursor {s : State} {r u : Nat} {w0 : Word} (hr : r < s.cfg.numReverb) (hu : u < s.cfg.maxChunks)
    (huse : (reverbAt s r).ctrl = 1) (hcap : 1 ≤ (reverbAt s r).cap.toNat)
    (hcur : (reverbAt s r).cap.toNat ≤ (reverbAt s r).wptr.toNat) :
    reverbCheck r u w0 s = .error ⟨.ringConfig, BitVec.ofNat 32 (csrReverb r 2)⟩ s := by
  rw [reverbCheck, if_neg (by omega), if_neg (ctrl_ne_zero huse), if_neg (by omega), if_pos hcur]

theorem reverbCheck_rate {s : State} {r u : Nat} {w0 : Word} (hr : r < s.cfg.numReverb) (hu : u < s.cfg.maxChunks)
    (huse : (reverbAt s r).ctrl = 1) (hcap : 1 ≤ (reverbAt s r).cap.toNat)
    (hcur : (reverbAt s r).wptr.toNat < (reverbAt s r).cap.toNat) (hdsr : (reverbAt s r).dsr.toNat < 1) :
    reverbCheck r u w0 s = .error ⟨.ringConfig, BitVec.ofNat 32 (csrReverb r 3)⟩ s := by
  rw [reverbCheck, if_neg (by omega), if_neg (ctrl_ne_zero huse), if_neg (by omega), if_neg (by omega), if_pos hdsr]

/-- The commands that make the common checks, each with what it does for an instance in use. -/
inductive RingCommand (r u : BitVec 8) : Instr → (Reverb → M Unit) → Prop
  | rbprep (len : Half) : RingCommand r u (.rbprep r u len) (rbprepUsed r.toNat u.toNat len)
  | rbread (left right : Half) :
      RingCommand r u (.rbread r u left right) (rbreadUsed r.toNat u.toNat left.toNat right.toNat)
  | rbwrite (left right : Half) :
      RingCommand r u (.rbwrite r u left right) (rbwriteUsed r.toNat u.toNat left.toNat right.toNat)

section
variable {r u : BitVec 8} {i : Instr} {used : Reverb → M Unit} {s : State}

theorem RingCommand.exec_eq (h : RingCommand r u i used) (s : State) : exec i s =
    perform (reverbCheck r.toNat u.toNat (encode i).w0 >>= fun rb? => rb?.elim (pure ()) used) s := by
  rw [exec_eq_perform]
  cases h <;> exact congrArg (fun k => perform (reverbCheck _ _ _ >>= k) s) (funext fun rb? => by cases rb? <;> rfl)

theorem RingCommand.exec_fault (h : RingCommand r u i used) {e : Trap}
    (hc : reverbCheck r.toNat u.toNat (encode i).w0 s = .error e s) : exec i s = .next (takeFault e s) := by
  rw [h.exec_eq]
  exact perform_error (bind_error hc)

theorem RingCommand.exec_unused (h : RingCommand r u i used) (hr : r.toNat < s.cfg.numReverb)
    (hu : u.toNat < s.cfg.maxChunks) (huse : (reverbAt s r.toNat).ctrl = 0) :
    exec i s = .next { s with cp := s.cp + 1 } := by
  rw [h.exec_eq]
  exact perform_ok (bind_ok (reverbCheck_unused hr hu huse))

theorem RingCommand.exec_ready (h : RingCommand r u i used) {rb : Reverb} (hs : s.ringReady r.toNat u.toNat rb) :
    exec i s = perform (used rb) s := by
  rw [h.exec_eq, perform, bind_ok (reverbCheck_ready hs)]
  rfl

end

/-! ### RBFRAME (R175) -/

theorem exec_rbframe {s : State} {r : BitVec 8} (h : r.toNat < s.cfg.numReverb) :
    exec (.rbframe r) s = .next (advance (setReverb s r.toNat (frameEnd (reverbAt s r.toNat)))) :=
  perform_ok (m := rbframeBody r) (if_neg (by omega))

theorem exec_rbframe_outside {s : State} {r : BitVec 8} (h : s.cfg.numReverb ≤ r.toNat) :
    exec (.rbframe r) s = .next (takeFault ⟨.ringConfig, (encode (.rbframe r)).w0⟩ s) :=
  perform_error (m := rbframeBody r) (if_pos h)

theorem frameEnd_ignore (rb : Reverb) : (frameEnd rb).ignore.toNat = rb.ignore.toNat - 1 := by
  unfold frameEnd
  dsimp only
  split
  · next h => rw [h]; rfl
  · next h => bv_omega

theorem frameEnd_parity (rb : Reverb) : (frameEnd rb).parity.toNat = 1 - rb.parity.toNat := by
  have hflip : ∀ b : BitVec 1, (1 - b).toNat = 1 - b.toNat := by decide
  exact hflip rb.parity

/-- RBFRAME's word, with its fields of 16, 8 and 40 bits (30_encoding.md R84). -/
theorem encode_rbframe (r : BitVec 8) : encode (.rbframe r) = 0x1400#16 ++ r ++ 0x0000000000#40 := by
  apply BitVec.eq_of_toNat_eq
  rw [encode, packCommand]
  simp only [BitVec.toNat_append, Nat.shiftLeft_or_distrib, ← Nat.shiftLeft_add]
  simp

/-- A word of RBFRAME's opcode with a bit outside the opcode and `w0[15:8]` is on no row (30_encoding.md R76). -/
theorem decode_rbframe_reserved {w : Command} (hop : w.opcode = 0x14#8) (hw : w &&& 0x00FF00FFFFFFFFFF#64 ≠ 0#64) :
    decode w = .error .reservedBits := by
  rw [decode_of_opcode (i := .rbframe 0) hop, checkRow, if_neg]
  intro (hrow : w &&& 0xFFFF00FFFFFFFFFF#64 = 0x1400000000000000#64)
  apply hw
  calc w &&& 0x00FF00FFFFFFFFFF#64
      = w &&& 0xFFFF00FFFFFFFFFF#64 &&& 0x00FF00FFFFFFFFFF#64 := by rw [BitVec.and_assoc]; rfl
    _ = 0#64 := by rw [hrow]; rfl

/-- Settles O32: RBFRAME's word is the encoder's, and its effect is `frameEnd`. -/
theorem rbframeEndsFrame : Obligations.RbframeEndsFrame :=
  ⟨fun r => decode_of_encode (i := .rbframe r) (beq_iff_eq.mpr BitVec.zero_and) (encode_rbframe r),
    fun _ _ => ⟨fun h => ⟨_, exec_rbframe h, rfl, frameEnd_ignore _, frameEnd_parity _⟩, exec_rbframe_outside⟩,
    fun s _ hop hw => runWord_illegal s (decode_rbframe_reserved hop hw)⟩

theorem reverbAt_setReverb_same {s : State} {r : Nat} (h : r < s.reverb.length) (rb : Reverb) :
    reverbAt (setReverb s r rb) r = rb := by
  simp [reverbAt, h]

theorem setReverb_setReverb (s : State) (r : Nat) (rb rb' : Reverb) :
    setReverb (setReverb s r rb) r rb' = setReverb s r rb' := by
  simp [setReverb]

theorem setReverb_absent {s : State} {r : Nat} (h : s.reverb.length ≤ r) (rb : Reverb) : setReverb s r rb = s := by
  rw [setReverb, List.set_eq_of_length_le h]

/-- RBFRAME does not read USE: with USE set to `b` first, it ends the frame of the same instance with USE `b`. -/
theorem frameEnd_after_ctrl (s : State) (r : Nat) (b : BitVec 1) :
    let v := setReverb s r { reverbAt s r with ctrl := b }
    setReverb v r (frameEnd (reverbAt v r)) = setReverb s r { frameEnd (reverbAt s r) with ctrl := b } := by
  intro v
  rcases Nat.lt_or_ge r s.reverb.length with h | h
  · rw [reverbAt_setReverb_same h, setReverb_setReverb]
    rfl
  · simp only [v, setReverb_absent h]

/-- Settles O33: the skip of an unused instance, and RBFRAME with USE set to either value. -/
theorem unusedInstanceSkipped : Obligations.UnusedInstanceSkipped := by
  refine fun s r u len left right hr => ⟨fun hu huse => ?_,
    fun b => ⟨frameEnd (reverbAt s r.toNat), ?_, exec_rbframe hr⟩⟩
  · exact ⟨(RingCommand.rbprep len).exec_unused hr hu huse, (RingCommand.rbread left right).exec_unused hr hu huse,
      (RingCommand.rbwrite left right).exec_unused hr hu huse⟩
  · rw [exec_rbframe (s := setReverb s r.toNat _) hr, frameEnd_after_ctrl]
    rfl

/-- Settles O34: each check in turn, for whichever of the three commands. -/
theorem ringChecksFault : Obligations.RingChecksFault := by
  refine fun s r u len left right i => ⟨fun hi => ?_, exec_rbframe_outside, fun hr => ⟨_, exec_rbframe hr, rfl⟩⟩
  obtain ⟨used, h⟩ : ∃ used, RingCommand r u i used := by
    rcases hi with rfl | rfl | rfl
    · exact ⟨_, .rbprep len⟩
    · exact ⟨_, .rbread left right⟩
    · exact ⟨_, .rbwrite left right⟩
  refine ⟨fun hout => h.exec_fault (reverbCheck_outside hout),
    fun hr hu => ⟨h.exec_unused hr hu, fun huse => ⟨fun hcap => ?_, fun hcap hcur => ?_, fun hcap hcur hdsr => ?_⟩⟩⟩
  · exact h.exec_fault (reverbCheck_capacity hr hu huse hcap)
  · exact h.exec_fault (reverbCheck_cursor hr hu huse hcap hcur)
  · exact h.exec_fault (reverbCheck_rate hr hu huse hcap hcur hdsr)

/-! ### The split (R170) -/

theorem splitSpan_before {cap w n : Nat} (h : w + n < cap) : splitSpan cap w n = (n, 0, w + n) := if_pos h

theorem splitSpan_wrapped {cap w n : Nat} (h : cap ≤ w + n) :
    splitSpan cap w n = (cap - w, w + n - cap, w + n - cap) := if_neg (by omega)

/-- The item that the split of `n` samples of a chunk of `len` records. -/
def splitItem (n : Nat) (len : Half) (rb : Reverb) : Item where
  start := rb.wptr
  lenA := BitVec.ofNat 16 (splitSpan rb.cap.toNat rb.wptr.toNat n).1
  lenB := BitVec.ofNat 16 (splitSpan rb.cap.toNat rb.wptr.toNat n).2.1
  nsad := BitVec.ofNat 16 n
  chunkLen := len

theorem splitRecord_items (cfg : Params) (u n : Nat) (len : Half) (rb : Reverb) :
    (splitRecord cfg u n len rb).items =
      rb.items.set (itemIndex cfg rb.parity.toNat u) (some (splitItem n len rb)) := rfl

theorem readField_splitRecord (cfg : Params) (u n : Nat) (len : Half) (rb : Reverb) {j : Nat} (h : j ≠ 2) :
    readField (splitRecord cfg u n len rb) j = readField rb j := by
  unfold readField
  split
  case h_3 => exact absurd rfl h
  all_goals rfl

theorem itemAt_splitRecord_same {cfg : Params} {u : Nat} (n : Nat) (len : Half) {rb : Reverb}
    (h : itemIndex cfg rb.parity.toNat u < rb.items.length) :
    itemAt cfg (splitRecord cfg u n len rb) rb.parity.toNat u = some (splitItem n len rb) := by
  simp [itemAt, splitRecord_items, h]

theorem itemAt_splitRecord_other {cfg : Params} {u p v : Nat} (n : Nat) (len : Half) {rb : Reverb}
    (h : itemIndex cfg p v ≠ itemIndex cfg rb.parity.toNat u) :
    itemAt cfg (splitRecord cfg u n len rb) p v = itemAt cfg rb p v := by
  rw [itemAt, splitRecord_items, List.getElem?_set_ne h.symm, itemAt]

/-- Within the capacity no number of the split is cut by its register's width. -/
theorem split_toNat {cfg : Params} {u n : Nat} {len : Half} {rb : Reverb} (hw : rb.wptr.toNat < rb.cap.toNat)
    (hn : n ≤ rb.cap.toNat) :
    (splitItem n len rb).lenA.toNat = (splitSpan rb.cap.toNat rb.wptr.toNat n).1 ∧
      (splitItem n len rb).lenB.toNat = (splitSpan rb.cap.toNat rb.wptr.toNat n).2.1 ∧
      (splitItem n len rb).nsad.toNat = n ∧
      (splitRecord cfg u n len rb).wptr.toNat = (splitSpan rb.cap.toNat rb.wptr.toNat n).2.2 := by
  have hcap := rb.cap.isLt
  obtain ⟨hsum, hcursor, hA, hB⟩ := splitSpan_facts hw hn
  refine ⟨?_, ?_, ?_, ?_⟩ <;> exact Nat.mod_eq_of_lt (by omega)

/-- Settles O26: the split's numbers are those of `splitSpan`, in its two cases. -/
theorem splitRecords : Obligations.SplitRecords := by
  intro cfg u n len rb hw hn hidx
  obtain ⟨hA, hB, hnsad, hcursor⟩ := split_toNat (cfg := cfg) (u := u) (len := len) hw hn
  obtain ⟨hsum, -, -, hshort⟩ := splitSpan_facts hw hn
  refine ⟨_, itemAt_splitRecord_same n len hidx, fun p v => itemAt_splitRecord_other n len,
    fun j => readField_splitRecord cfg u n len rb, rfl, hnsad, rfl, fun hbefore => ?_, fun hwrap => ?_, ?_⟩
  · rw [hA, hB, hcursor, splitSpan_before hbefore]
    exact ⟨rfl, rfl, rfl⟩
  · rw [hA, hB, hcursor, splitSpan_wrapped hwrap]
    exact ⟨rfl, rfl, rfl⟩
  · rw [hA, hB]
    exact ⟨hsum, by omega⟩

/-! ### RBPREP, RBREAD and RBWRITE of an instance in use (R169, R171, R173, R174) -/

/-- Settles O27: RBPREP passes the checks and the split is all it does. -/
theorem rbprepSplits : Obligations.RbprepSplits := by
  intro s r u len rb hs hn hd
  rw [(RingCommand.rbprep len).exec_ready hs]
  exact perform_ok (rbprepUsed_plain hn hd)

/-- Settles O28: the downsample ends with only ring bytes changed, and the split follows. -/
theorem rbprepDownsamples : Obligations.RbprepDownsamples := by
  intro s r u len rb it tl tr hs hn hd hi hit htl htr hread hL hR
  obtain ⟨_, hexec, t, ⟨hchanged, hsamples⟩, rfl⟩ := ends_next (rbprepUsed_deferred (len := len) hn hd hi
    (ends_mono (downsample_ends hit htl htr hread hL hR) fun _ _ h => ⟨h.1.cfg, h⟩))
  refine ⟨t, ?_, hchanged, hsamples⟩
  rw [(RingCommand.rbprep len).exec_ready hs, hexec, ← hchanged.reverb]
  rfl

/-- Settles O29: RBREAD passes the checks and its copies end. -/
theorem rbreadReads : Obligations.RbreadReads := by
  intro s r u left right rb it hs hit hl hr hL hR
  rw [(RingCommand.rbread left right).exec_ready hs]
  exact ends_next (rbreadUsed_ends hit hl hr hL hR)

/-- Settles O30: RBWRITE passes the checks and its copies into the ring end. -/
theorem rbwriteWritesRing : Obligations.RbwriteWritesRing := by
  intro s r u left right rb it hs hd hit hl hr hL hR
  rw [(RingCommand.rbwrite left right).exec_ready hs]
  exact ends_next (rbwriteRing_ends hd hit hl hr hL hR)

/-- Settles O31: RBWRITE passes the checks and its copies to the TD buffers end. -/
theorem rbwriteDefers : Obligations.RbwriteDefers := by
  intro s r u left right rb it tl tr hs hd hit htl htr hl hr hL hR
  rw [(RingCommand.rbwrite left right).exec_ready hs]
  exact ends_next (rbwriteDeferred_ends hd hit htl htr hl hr hL hR)

theorem readItem_invalid {s : State} {r u : Nat} {rb : Reverb} (h : itemAt s.cfg rb rb.parity.toNat u = none) :
    readItem r u rb s = .error ⟨.uninitRead, BitVec.ofNat 32 (csrItem s.cfg r rb.parity.toNat u 5)⟩ s := by
  rw [readItem, h]

theorem rbprepUsed_overrun {s : State} {r u : Nat} {len : Half} {rb : Reverb}
    (h : rb.cap.toNat < len.toNat / rb.dsr.toNat) :
    rbprepUsed r u len rb s = .error ⟨.ringOverrun, BitVec.ofNat 32 (len.toNat / rb.dsr.toNat)⟩ s := by
  rw [rbprepUsed, if_pos h, raise_apply]

/-- A downsample that is due and fails ends RBPREP with its fault. -/
theorem rbprepUsed_fault {s t : State} {r u : Nat} {len : Half} {rb : Reverb} {e : Trap}
    (hn : len.toNat / rb.dsr.toNat ≤ rb.cap.toNat) (hd : rb.dsr.toNat ≠ 1) (hi : rb.ignore.toNat = 0)
    (h : downsample r u rb s = .error e t) : rbprepUsed r u len rb s = .error e t := by
  rw [rbprepUsed, if_neg (by omega), deferredDownsample, if_pos ⟨hd, hi⟩, bind_error h]

/-- Settles O35: the overrun comes before the downsample, and reading the item comes first in each of its users. -/
theorem ringRunFaults : Obligations.RingRunFaults := by
  refine fun s r u len left right rb hs => ⟨fun hover => ?_, fun hnone i hi => ?_⟩
  · rw [(RingCommand.rbprep len).exec_ready hs]
    exact perform_error (rbprepUsed_overrun hover)
  · have hitem := readItem_invalid (r := r.toNat) hnone
    rcases hi with rfl | rfl | ⟨rfl, hn, hd, hi⟩
    · rw [(RingCommand.rbread left right).exec_ready hs]
      exact perform_error (bind_error hitem)
    · rw [(RingCommand.rbwrite left right).exec_ready hs]
      exact perform_error (bind_error hitem)
    · rw [(RingCommand.rbprep len).exec_ready hs]
      exact perform_error (rbprepUsed_fault hn hd hi (bind_error hitem))

/-! ### The ring invariant (R160) -/

/-- The split keeps the ring invariant: the new cursor and the new item lie within the capacity. -/
theorem splitRecord_ringOk {cfg : Params} {u n : Nat} {len : Half} {rb : Reverb} (h : rb.ringOk)
    (hn : n ≤ rb.cap.toNat) : (splitRecord cfg u n len rb).ringOk := by
  obtain ⟨hw, hitems⟩ := h
  obtain ⟨hA, hB, hnsad, hcursor⟩ := split_toNat (cfg := cfg) (u := u) (len := len) hw hn
  obtain ⟨hsum, hcap, hend, hshort⟩ := splitSpan_facts hw hn
  refine ⟨hcursor.trans_lt hcap, fun it hit => ?_⟩
  rcases List.mem_or_eq_of_mem_set hit with hold | hnew
  · exact hitems it hold
  · obtain rfl : it = splitItem n len rb := Option.some.inj hnew
    rw [hA, hB, hnsad]
    exact ⟨hsum, hn, hend, hw, hshort⟩

/-- Instance `r` is there after the run when it was before, with its capacity and its ring invariant. -/
def KeepsRing (r : Nat) (s t : State) : Prop :=
  ∀ rb, s.reverb[r]? = some rb → rb.ringOk → ∃ rb', t.reverb[r]? = some rb' ∧ rb'.cap = rb.cap ∧ rb'.ringOk

theorem keepsRing_of_same {r : Nat} {s t : State} (h : t.reverb[r]? = s.reverb[r]?) : KeepsRing r s t :=
  fun rb hrb hok => ⟨rb, h.trans hrb, rfl, hok⟩

theorem keepsRing_memRel (r : Nat) : MemRel (KeepsRing r) := by
  refine memRel_of_registers ⟨fun _ => keepsRing_of_same rfl, fun s t u hst htu rb hrb hok => ?_, fun s a n => ?_⟩
    (fun _ _ => keepsRing_of_same rfl) fun _ _ => keepsRing_of_same rfl
  · obtain ⟨rb', hrb', hcap', hok'⟩ := hst rb hrb hok
    obtain ⟨rb'', hrb'', hcap'', hok''⟩ := htu rb' hrb' hok'
    exact ⟨rb'', hrb'', hcap''.trans hcap', hok''⟩
  · obtain ⟨d, hd⟩ := afterRead_draws s a n
    exact keepsRing_of_same (by rw [hd])

theorem reverbAt_of_getElem? {s : State} {r : Nat} {rb : Reverb} (h : s.reverb[r]? = some rb) : reverbAt s r = rb := by
  rw [reverbAt, List.getD_eq_getElem?_getD, h, Option.getD_some]

/-- Replacing an instance by one of the same capacity that has the ring invariant if the old one had it. -/
theorem keepsRing_setReverb {s : State} {r r' : Nat} {rb' : Reverb} (hcap : rb'.cap = (reverbAt s r').cap)
    (hok : (reverbAt s r').ringOk → rb'.ringOk) : KeepsRing r s (setReverb s r' rb') := by
  rcases eq_or_ne r' r with rfl | hne
  · intro rb hrb hold
    rw [reverbAt_of_getElem? hrb] at hcap hok
    obtain ⟨hlt, -⟩ := List.getElem?_eq_some_iff.mp hrb
    exact ⟨rb', List.getElem?_set_self hlt, hcap, hok hold⟩
  · exact keepsRing_of_same (setReverb_other s rb' hne)

/-- Every body but that of a SETREG of the instance keeps its ring invariant. -/
theorem bodyOf_keepsRing {i : Instr} {r : Nat}
    (h : ∀ reg value, i = .setreg reg value → (reg.toNat - 0x100) / 0x20 ≠ r) : Keeps (KeepsRing r) (bodyOf i) := by
  apply bodyOf_keeps (keepsRing_memRel r)
  case hctx | hbook => intros; exact keepsRing_of_same rfl
  case hset =>
    rintro reg value rfl s r' k hcsr
    exact keepsRing_of_same (setReverb_other s _ fun heq => h reg value rfl ((reverbCsr_fst hcsr).symm.trans heq))
  case hprep =>
    rintro r' u len rfl t rb hready hn
    obtain rfl := hready.found
    exact keepsRing_setReverb rfl fun hok => splitRecord_ringOk hok hn
  case hframe =>
    rintro r' rfl s -
    exact keepsRing_setReverb rfl id

/-- Settles O36: the split is the only write of a cursor or an item beside SETREG. -/
theorem ringInvariantKept : Obligations.RingInvariantKept := by
  intro i s t r rb hexec hset hrb hok
  obtain ⟨-, -, hreverb⟩ := exec_stored hexec
  rw [hreverb]
  exact bodyOf_keepsRing hset s rb hrb hok

end Sys2Proof.Machine
end

section
/-! SUPPORT. Fault entry, GO, the end of a run, and the host's moves at a BUSY or a halted block (60_exceptions.md). -/

namespace Sys2Proof.Machine

/-! ### Fault entry (60_exceptions.md R186, R187, R191) -/

@[simp] theorem takeFault_irq (e : Trap) (s : State) : (takeFault e s).irq = true := Bool.or_true _

/-- Settles O40: a body that ends with a fault is performed by fault entry. -/
theorem faultEntry : Obligations.FaultEntry :=
  ⟨⟨rfl, rfl, rfl, rfl, rfl, rfl, rfl, rfl, rfl, rfl, rfl, rfl⟩,
    fun _ _ t e h => ⟨takeFault e t, perform_error h, rfl, rfl, takeFault_irq e t⟩⟩

/-! ### GO (60_exceptions.md R200) -/

/-- Bit 0 of a write of STATUS requests GO; the other bits do nothing. -/
theorem hostWriteCsr_status {s : State} (v : Word) (hb : s.status.busy = false) :
    hostWriteCsr 0 v s = if v.getLsbD 0 = true then go s else s := by
  simp [hostWriteCsr, hb]

theorem go_faulted {s : State} (h : s.status.fault = true) : go s = s := by simp [go, h]

theorem go_unaligned {s : State} (hb : s.status.busy = false) (hf : s.status.fault = false)
    (ha : s.cmdBase.toNat % 8 ≠ 0) :
    go s = { s with
      cp := 0, status := ⟨false, false, true⟩, faultCause := 12, faultCp := 0, faultInfo := s.cmdBase } := by
  rw [go, if_neg (by simp [hb, hf]), if_pos ha]
  rfl

/-- GO with an aligned CMD_BASE: the run starts, and one of no commands has already ended. -/
theorem go_aligned {s : State} (hb : s.status.busy = false) (hf : s.status.fault = false)
    (ha : s.cmdBase.toNat % 8 = 0) :
    go s = endOfRun { s with cp := 0, status := ⟨true, false, false⟩, raced := [], past := [] } := by
  rw [go, if_neg (by simp [hb, hf]), if_neg (not_not_intro ha)]
  simp only [hf]

/-- Settles O51: the three ends of GO, and a write of STATUS that does not request it. -/
theorem goStartsRun : Obligations.GoStartsRun := by
  intro s v rest hh hb hf
  rw [step_writeCsr hh, hostWriteCsr_status (s := { s with host := rest }) v hb]
  refine ⟨fun hv => ?_, fun hv ha => ?_, fun hv ha hc => ?_, fun hv ha hc => ?_⟩
  · rw [hv, if_neg nofun]
  · rw [if_pos hv, go_unaligned (s := { s with host := rest }) hb hf ha]
  · rw [if_pos hv, go_aligned (s := { s with host := rest }) hb hf ha, endOfRun_left hc.symm]
  · rw [if_pos hv, go_aligned (s := { s with host := rest }) hb hf ha, endOfRun_eq, if_pos ⟨rfl, hc.symm⟩]

/-! ### A run ends (60_exceptions.md R198, R199) -/

/-- The block is at rest after a run: DONE at CP = CMD_COUNT, or with a fault. -/
def State.RunOver (s : State) : Prop :=
  s.status.busy = false ∧ (s.status.done = true ∧ s.cp = s.cmdCount ∨ s.status.fault = true)

/-- What a command makes of a run: the run is over, or CP is one further on with commands left. -/
structure RunsOn (s t : State) : Prop where
  host : t.host = s.host
  cmdCount : t.cmdCount = s.cmdCount
  outcome : t.RunOver ∨ t.status.busy = true ∧ t.cp = s.cp + 1 ∧ t.cp ≠ t.cmdCount

/-- The command may have begun at a state that differs in what the run control does not hold. -/
theorem RunsOn.of_same {s u t : State} (h : RunsOn u t) (hhost : u.host = s.host) (hcount : u.cmdCount = s.cmdCount)
    (hcp : u.cp = s.cp) : RunsOn s t :=
  ⟨h.host.trans hhost, h.cmdCount.trans hcount, hcp ▸ h.outcome⟩

theorem takeFault_runsOn (e : Trap) (s : State) : RunsOn s (takeFault e s) := ⟨rfl, rfl, .inl ⟨rfl, .inr rfl⟩⟩

theorem endOfRun_advance_runsOn {s : State} (hb : s.status.busy = true) : RunsOn s (endOfRun (advance s)) := by
  by_cases hend : s.cp + 1 = s.cmdCount
  · rw [endOfRun_eq, if_pos ⟨hb, hend⟩]
    exact ⟨rfl, rfl, .inl ⟨rfl, .inl ⟨rfl, hend⟩⟩⟩
  · rw [endOfRun_left hend]
    exact ⟨rfl, rfl, .inr ⟨hb, rfl, hend⟩⟩

/-- The word at CP on a BUSY block: its command completes, or a fault ends the run. -/
theorem runWord_runsOn (w : Command) {s : State} (hb : s.status.busy = true) :
    ∃ t, runWord w s = .next t ∧ RunsOn s t := by
  cases hw : decode w with
  | error e => exact ⟨_, runWord_illegal s hw, takeFault_runsOn _ s⟩
  | ok i =>
    obtain ⟨t, hexec, hrun⟩ := runWord_command s hw
    obtain ⟨t', hexec', hend⟩ := exec_outcome i s
    obtain rfl : t = t' := by rw [hexec] at hexec'; exact Host.Outcome.next.inj hexec'
    have hsame := bodyOf_sameControl i s
    refine ⟨_, hrun, RunsOn.of_same ?_ hsame.host hsame.cmdCount hsame.cp⟩
    rcases hend with rfl | ⟨e, rfl⟩
    · exact endOfRun_advance_runsOn (by rw [hsame.status]; exact hb)
    · rw [endOfRun_idle rfl]
      exact takeFault_runsOn e _

/-- A block step of a run: a refused fetch ends it, and a fetched word is run. -/
theorem blockStep_runsOn {s : State} (hb : s.status.busy = true) (hcp : s.cp ≠ s.cmdCount) :
    ∃ t, blockStep s = .next t ∧ RunsOn s t := by
  obtain ⟨d, hd⟩ := fetch_draws s
  cases hf : fetch s with
  | error e u =>
    obtain rfl : u = { s with draws := d } := by rw [hf] at hd; exact hd
    exact ⟨_, blockStep_refused hb hcp hf, (takeFault_runsOn e _).of_same rfl rfl rfl⟩
  | ok w u =>
    obtain rfl : u = { s with draws := d } := by rw [hf] at hd; exact hd
    obtain ⟨t, ht, hruns⟩ := runWord_runsOn w (s := { s with draws := d }) hb
    exact ⟨t, by rw [blockStep, if_pos hb, if_neg hcp, hf]; exact ht, hruns.of_same rfl rfl rfl⟩

/-- A block that is not BUSY changes nothing (60_exceptions.md R188, R197). -/
theorem blockStep_idle {s : State} (hb : s.status.busy = false) : blockStep s = .next s := by
  rw [blockStep, hb, if_neg nofun]

theorem step_quiescent {s : State} (hh : s.host = []) (hb : s.status.busy = false) : step s = .next s := by
  rw [step, hh]
  exact blockStep_idle hb

theorem run_succ {s t : State} (k : Nat) (h : step s = .next t) : core.run (k + 1) s = core.run k t := by
  simp only [Host.Core.run, show core.step s = .next t from h]

/-- A run with at most `n` commands left is over after at most `n` steps. -/
theorem run_ends {n : Nat} {s : State} (hh : s.host = []) (hb : s.status.busy = true) (hcp : s.cp ≠ s.cmdCount)
    (hn : (s.cmdCount - s.cp).toNat ≤ n) : ∃ k t, k ≤ n ∧ core.run k s = .next t ∧ t.RunOver ∧ t.host = [] := by
  induction n generalizing s with
  | zero => exact absurd (show s.cp = s.cmdCount by bv_omega) hcp
  | succ n ih =>
    obtain ⟨t, hblock, hruns⟩ := blockStep_runsOn hb hcp
    have hstep : step s = .next t := by rw [step, hh]; exact hblock
    have hhost : t.host = [] := hruns.host.trans hh
    rcases hruns.outcome with hover | ⟨hbusy, hnext, hleft⟩
    · exact ⟨1, t, by omega, by rw [run_succ 0 hstep]; rfl, hover, hhost⟩
    · have hcount := hruns.cmdCount
      obtain ⟨k, u, hk, hrun, hover, hu⟩ := ih hhost hbusy hleft (by rw [hcount, hnext]; bv_omega)
      exact ⟨k + 1, u, by omega, by rw [run_succ k hstep]; exact hrun, hover, hu⟩

/-- Settles O52: CP nears CMD_COUNT with each command that does not end the run. -/
theorem termination : Obligations.Termination := by
  intro s hh hb hcp
  obtain ⟨k, t, hk, hrun, ⟨hidle, hend⟩, hhost⟩ := run_ends hh hb hcp le_rfl
  exact ⟨k, t, hk, hrun, hidle, hend, step_quiescent hhost hidle⟩

/-! ### The host's accesses to external memory (20_memory.md R69) -/

theorem step_readExt {s : State} {a : Word} {rest : List HostOp} (hh : s.host = .readExt a :: rest) :
    step s = .next (hostReadExt a { s with host := rest }) := by
  rw [step, hh]

theorem step_writeExt {s : State} {a : Word} {b : Byte} {rest : List HostOp} (hh : s.host = .writeExt a b :: rest) :
    step s = .next (hostWriteExt a b { s with host := rest }) := by
  rw [step, hh]

theorem hostReadExt_busy {s : State} (a : Word) (hb : s.status.busy = true) :
    hostReadExt a s = { s with
      readData := (drawnFrom s.draws (s.ext.read a.toNat) (s.past.map fun m => m.read a.toNat)).setWidth 32
      draws := s.draws + 1 } := by
  rw [hostReadExt, if_pos hb]

theorem hostWriteExt_busy {s : State} (a : Word) (b : Byte) (hb : s.status.busy = true) :
    hostWriteExt a b s = { s with
      ext := s.ext.write a.toNat b
      raced := (a.toNat, s.ext.read a.toNat) :: (a.toNat, b) :: s.raced
      past := s.past.map fun m => m.write a.toNat b } := by
  rw [hostWriteExt, if_pos hb]

/-- What a read of external memory draws while BUSY: the byte as it stands or stood at a recorded boundary. -/
theorem drawnFrom_past (s : State) (a : Nat) :
    drawnFrom s.draws (s.ext.read a) (s.past.map fun m => m.read a) = s.ext.read a ∨
      ∃ m, m ∈ s.past ∧ drawnFrom s.draws (s.ext.read a) (s.past.map fun m => m.read a) = Memory.read m a := by
  refine (drawnFrom_mem _ _ _).imp_right fun h => ?_
  obtain ⟨m, hm, hread⟩ := List.mem_map.mp h
  exact ⟨m, hm, hread.symm⟩

/-- A byte of a recorded boundary after a host write into all of them. -/
theorem read_past_write (past : List Memory) (a : Nat) (b : Byte) {k : Nat} (x : Nat) (hk : k < past.length) :
    Memory.read ((past.map fun m => m.write a b).getD k []) x =
      if x = a then b else Memory.read (past.getD k []) x := by
  simp [List.getD_eq_getElem?_getD, hk, Memory.read_write]

/-! ### The host's moves while BUSY (60_exceptions.md R201) -/

theorem hostWriteCsr_busy {s : State} (n : Nat) (v : Word) (hb : s.status.busy = true) : hostWriteCsr n v s = s := by
  simp [hostWriteCsr, hb]

/-- Bit 0 of STATUS is BUSY (10_state.md R22). -/
theorem Status.toWord_busy (st : Status) : st.toWord.getLsbD 0 = st.busy := by
  obtain ⟨busy, done, fault⟩ := st
  revert busy done fault
  decide

/-- Settles O54: what each of the host's moves is at a BUSY block. -/
theorem hostAccessWhileBusy : Obligations.HostAccessWhileBusy := by
  intro s rest hb
  refine ⟨fun n v hh => ?_, fun hh => ⟨_, step_readCsr_written hh (csrValue_control rfl), ?_⟩, fun a hh => ?_,
    fun a b hh => ⟨_, step_writeExt hh, ?_⟩, fun hh => ?_⟩
  · rw [step_writeCsr hh, hostWriteCsr_busy (s := { s with host := rest }) n v hb]
  · rw [Status.toWord_busy, hb]
  · rw [step_readExt hh, hostReadExt_busy (s := { s with host := rest }) a hb]
    exact ⟨_, rfl, drawnFrom_past s a.toNat⟩
  · rw [hostWriteExt_busy (s := { s with host := rest }) a b hb]
    exact ⟨rfl, fun x => Memory.read_write s.ext a.toNat x b, List.length_map _,
      fun k x hk => read_past_write s.past a.toNat b x hk⟩
  · rw [step, hh]
    simp [hostReset, hb]

/-! ### A faulted block (60_exceptions.md R188) -/

/-- STATUS, the fault registers and CP are as they were. -/
structure SameHalt (s t : State) : Prop where
  status : t.status = s.status
  faultCause : t.faultCause = s.faultCause
  faultCp : t.faultCp = s.faultCp
  faultInfo : t.faultInfo = s.faultInfo
  cp : t.cp = s.cp

theorem sameHalt_refl (s : State) : SameHalt s s := ⟨rfl, rfl, rfl, rfl, rfl⟩

theorem SameHalt.of_host {s t : State} {ops : List HostOp} (h : SameHalt { s with host := ops } t) : SameHalt s t :=
  ⟨h.status, h.faultCause, h.faultCp, h.faultInfo, h.cp⟩

theorem hostReadCsr_halt (n : Nat) (s : State) : SameHalt s (hostReadCsr n s) := by
  unfold hostReadCsr
  split <;> exact ⟨rfl, rfl, rfl, rfl, rfl⟩

theorem hostReadExt_halt (a : Word) (s : State) : SameHalt s (hostReadExt a s) := by
  unfold hostReadExt
  split <;> exact ⟨rfl, rfl, rfl, rfl, rfl⟩

theorem hostWriteExt_halt (a : Word) (b : Byte) (s : State) : SameHalt s (hostWriteExt a b s) := by
  unfold hostWriteExt
  split <;> exact ⟨rfl, rfl, rfl, rfl, rfl⟩

/-- No CSR write of the host touches them while FAULT = 1: GO is ignored. -/
theorem hostWriteCsr_halt (n : Nat) (v : Word) {s : State} (hf : s.status.fault = true) :
    SameHalt s (hostWriteCsr n v s) := by
  rcases hostWriteCsr_cases n v s with hw | ⟨_, hw | hw | hw | ⟨r, k, _, hw⟩⟩ <;> rw [hw]
  · exact sameHalt_refl s
  · rw [go_faulted hf]
    exact sameHalt_refl s
  all_goals exact ⟨rfl, rfl, rfl, rfl, rfl⟩

theorem recordBoundary_idle {s : State} (hb : s.status.busy = false) : recordBoundary s = s := by
  rw [recordBoundary, hb, if_neg nofun]

/-- Every step of a faulted block but a reset keeps STATUS, the fault registers and CP. -/
theorem step_halt {s t : State} (hf : s.status.fault = true) (hb : s.status.busy = false)
    (hreset : ∀ rest, s.host ≠ .reset :: rest) (h : step s = .next t) : SameHalt s t := by
  cases hh : s.host with
  | nil =>
    rw [step_quiescent hh hb] at h
    cases h
    exact sameHalt_refl s
  | cons op rest =>
    have hidle : ({ s with host := rest } : State).status.busy = false := hb
    rw [step, hh] at h
    cases op with
    | idle =>
      simp only [recordBoundary_idle hidle, blockStep_idle hidle] at h
      cases h
      exact (sameHalt_refl _).of_host
    | readCsr n => cases h; exact (hostReadCsr_halt n _).of_host
    | writeCsr n v => cases h; exact (hostWriteCsr_halt n v (s := { s with host := rest }) hf).of_host
    | readExt a => cases h; exact (hostReadExt_halt a _).of_host
    | writeExt a b => cases h; exact (hostWriteExt_halt a b _).of_host
    | reset => exact absurd hh (hreset rest)

/-- Settles O53: the cases of a step at a faulted block. -/
theorem stickyHalt : Obligations.StickyHalt := by
  intro s hf hb
  refine ⟨fun hh => step_quiescent hh hb, fun v rest hh => ?_, fun t hreset hstep => ?_,
    fun rest hh => ⟨_, step_reset hh hb, rfl, rfl, rfl, rfl⟩, fun hinv => ?_⟩
  · rw [step_writeCsr hh, hostWriteCsr_status (s := { s with host := rest }) v hb,
      go_faulted (s := { s with host := rest }) hf, ite_self]
  · obtain ⟨hstatus, hcause, hfcp, hinfo, hcp⟩ := step_halt hf hb hreset hstep
    exact ⟨hstatus, hcause, hfcp, hinfo, hcp⟩
  · rw [← Bool.not_eq_true]
    intro hdone
    exact nomatch hf.symm.trans (hinv.doneAlone hdone)

end Sys2Proof.Machine
end
